-- ==== Sys2Proof/Word.lean ====
section
/-! DEFINITION. The word types of the STC coding engine (spec/00_scope.md R13, R14, R15): Bits, bytes, 32-bit command and
register words, 64-bit `Num` patterns, complex symbols. -/

namespace Sys2Proof

/-- A Bit, "integer in {0,1}" (R13): `true` is 1. -/
abbrev Bit := Bool

/-- One byte of a host window (R53, R56). -/
abbrev Byte := BitVec 8

/-- One 32-bit register or command word (R35, R70). -/
abbrev Word := BitVec 32

/-- The eight words `W0..W7` of a command, or the staging registers `CMDW0..CMDW7` (R32, R70). -/
abbrev Words := Vector Word 8

/-- A real value as the engine holds it: an IEEE-754 binary64 pattern (R16, R56). A type of its own, so that no bit-vector
operation is taken for a real one. -/
structure Num64 where
  bits : BitVec 64
deriving DecidableEq, Repr, Inhabited

/-- A complex symbol `(re, im)` over any carrier of the record `Num` (R15, R19). -/
structure SymOf (α : Type) where
  re : α
  im : α
deriving DecidableEq, Repr, Inhabited

/-- A complex symbol as the engine holds it. -/
abbrev Sym := SymOf Num64

end Sys2Proof
end

