-- ==== Sys2Proof/Config.lean ====
section
/-! DEFINITION. What an implementation fixes (spec/00_scope.md R12) and the values the spec leaves open
(spec/93_implementation_defined.md part 1). The parameters of R12 are plain data, the record `Config`, which the state
carries unchanged, so that a statement over every state is a statement over every parameter choice. The open values are
constants without a body. -/

namespace Sys2Proof

/-- How an inexact operation of the binary64 instance is rounded. The spec fixes no rounding (R16, U11): `free` takes either
neighbour of the exact result by an open constant, and is what `State.reset` holds. `nearestEven` is the one concrete
instance given, for tests. -/
inductive Rounding where
  | free
  | nearestEven
deriving DecidableEq, Repr

/-- The operations of the record `Num` (R16) that can end in an open value or take a neighbour by an open choice. -/
inductive NumOp where
  | add
  | mul
  | div
  | sqrt
  | pow10
  | log10
  | log2
  | ln
  | exp
  | cos
deriving DecidableEq, Repr

/-- The implementation parameters of R12. `DV`, `LDPC_N_DEFAULT`, `CRC_INIT` and `CRC_POLY_DEFAULT` are fixed by the spec
and are constants below. -/
structure Config where
  /-- `BM_BITS` -/
  bmBits : Nat
  /-- `SM_SYMS` -/
  smSyms : Nat
  /-- `LM_VALS` -/
  lmVals : Nat
  /-- `LDPC_NMAX` -/
  ldpcNMax : Nat
  /-- `POLAR_MMAX` -/
  polarMMax : Nat
  /-- `REG_BASE` -/
  regBase : Nat
  /-- `BM_BASE` -/
  bmBase : Nat
  /-- `SM_BASE` -/
  smBase : Nat
  /-- `LM_BASE` -/
  lmBase : Nat
  /-- `CONST_TABLE`, M = 2: `Lv(2, 0), Lv(2, 1)` (R122) -/
  levels2 : List Int
  /-- `CONST_TABLE`, M = 4 -/
  levels4 : List Int
  /-- `CONST_TABLE`, M = 8 -/
  levels8 : List Int
  /-- `CONST_TABLE`, M = 16 -/
  levels16 : List Int
  /-- the row `Num`: which binary64 instance the machine computes with (R12, R16, U11; log entry 3) -/
  rounding : Rounding
deriving DecidableEq, Repr

/-- The defaults of R12, with the default `CONST_TABLE` of R122. -/
def Config.defaults : Config where
  bmBits := 65536
  smSyms := 16384
  lmVals := 65536
  ldpcNMax := 8192
  polarMMax := 13
  regBase := 0x00000000
  bmBase := 0x00010000
  smBase := 0x00100000
  lmBase := 0x00200000
  levels2 := [-1, 1]
  levels4 := [-3, -1, 3, 1]
  levels8 := [-7, -5, -1, -3, 7, 5, 1, 3]
  levels16 := [-15, -13, -9, -11, -1, -3, -7, -5, 15, 13, 9, 11, 1, 3, 7, 5]
  rounding := .free

/-- `DV`, the LDPC column weight (R12, R190). -/
def Config.dv : Nat := 3

/-- `LDPC_N_DEFAULT` (R12, R26). -/
def Config.ldpcNDefault : Word := 648#32

/-- `CRC_INIT` (R12, R102). -/
def Config.crcInit : BitVec 16 := 0xFFFF#16

/-- `CRC_POLY_DEFAULT` (R12, R105). -/
def Config.crcPolyDefault : BitVec 16 := 0x1021#16

/-! ## Open values -/

/-- Whether an inexact result of sign `neg` and magnitude `p/q` (in units of 2^-1074) is rounded away from zero, under
`Rounding.free` (R16, U11; log entry 3). -/
opaque Config.roundAway (neg : Bool) (p q : Nat) : Bool

/-- The same for an inexact square root of the radicand `n` (log entry 3). -/
opaque Config.sqrtAway (n : Nat) : Bool

/-- Whether the binary64 constant π is the neighbour above it (R16; log entry 3). -/
opaque Config.piAway : Bool

/-- Whether a sum that is exactly zero, of operands of opposite signs, is −0, under `Rounding.free` (log entry 7). -/
opaque Config.zeroSumNeg (a b : Num64) : Bool

/-- How far above the lower of its neighbours an inexact `pow10`, `log10`, `log2`, `ln`, `exp` or `cos` of `a` lies, in
places and modulo the number of them (R16, U11; log entry 4). -/
opaque Config.enclosureStep (op : NumOp) (a : Num64) : Nat

/-- The result of an operation where the spec states none: an infinite or NaN operand, a division by zero, a root or a
logarithm outside its domain (R16, R18, U3; log entries 5, 6). -/
opaque Config.openResult (op : NumOp) (a b : Num64) : Num64

/-- The `j`-th `Num` a command writes when one of its `Num` inputs is not finite (R18, U3; log entry 6), at value `ctr` of
the state's counter. -/
opaque Config.freeNum (ctr j : Nat) : Num64

/-- The `j`-th draw of an `AWGN_ADD` for which the input queue holds no draw (R162, U8; log entry 2), at value `ctr` of the
state's counter. -/
opaque Config.freeDraw (ctr j : Nat) : Num64

/-- The contents of `S<i>` after the `epoch`-th reset of a run (R312, U2; log entry 8). -/
opaque Config.resetScalar (epoch i : Nat) : Num64

/-- What bit `a` of `BM` reads as while nothing has written it since the `epoch`-th reset (R312, U4; log entry 9). -/
opaque Config.unwrittenBit (epoch a : Nat) : Bit

/-- The same for byte `a` of the `SM` window (log entry 9). -/
opaque Config.unwrittenSmByte (epoch a : Nat) : Byte

/-- The same for byte `a` of the `LM` window (log entry 9). -/
opaque Config.unwrittenLmByte (epoch a : Nat) : Byte

/-- What a host read of the write-only register `SOFT_RESET` returns (R32 states it for `DOORBELL` only; log entry 13). -/
opaque Config.softResetRead : Word

/-- What a 32-bit register holds when the value a rule assigns to it does not fit 32 bits (log entry 16). -/
opaque Config.wideWord (n : Nat) : Word

/-- The open values of the machine over exact reals: pattern loads, free values, draws and unwritten contents, by `kind` (log
entries 2, 3, 9). -/
noncomputable opaque Config.openReal (kind i j : Nat) : ℝ

end Sys2Proof
end

