-- ==== Sys2Proof/Syntax.lean ====
section
/-! DEFINITION. The commands of the engine, one constructor per row of spec/opcode_table.json (spec/30_encoding.md R75, R76).
A constructor carries the fields its command uses, those that R76 marks "(ign)" among them; a field R76 marks "-" has no
place in it. -/

namespace Sys2Proof

/-- The scheme code `SCH` (R73): the four schemes, or an unknown one with its code (4 to 7). -/
inductive Scheme where
  | qpsk
  | qam16
  | qam64
  | qam256
  | unknown (code : BitVec 3)
deriving DecidableEq, Repr

/-- The index of a scalar register `S0..S7`, the fields `SS`, `ST`, `SD` (R71). -/
abbrev ScalarIdx := Fin 8

/-- The 23 commands (R75, R76). -/
inductive Instr where
  /-- `NOP`, 0x00 (R230). -/
  | nop
  /-- `SETS`, 0x01: `aux1:aux0` is the binary64 pattern (R231). -/
  | sets (sd : ScalarIdx) (aux0 aux1 : Word)
  /-- `CRC16`, 0x10: `aux0` holds the polynomial (R102). -/
  | crc16 (src len aux0 : Word)
  /-- `CRC_APPEND`, 0x11 (R104). -/
  | crcAppend (src len dst : Word)
  /-- `CRC_VERIFY`, 0x12 (R106). -/
  | crcVerify (src len : Word)
  /-- `MOD`, 0x20 (R125). -/
  | modulate (sch : Scheme) (src len dst : Word)
  /-- `GET_BPS`, 0x21 (R123). -/
  | getBps (sch : Scheme)
  /-- `GET_CONST`, 0x22 (R124). -/
  | getConst (sch : Scheme) (dst : Word)
  /-- `DEMOD_HARD`, 0x28 (R142). -/
  | demodHard (sch : Scheme) (src len dst : Word)
  /-- `DEMOD_SOFT`, 0x29: `S[ss]` is the noise variance (R144). -/
  | demodSoft (sch : Scheme) (ss : ScalarIdx) (src len dst : Word)
  /-- `AWGN_ADD`, 0x30: `S[ss]` is snrDB; `st` and `bps` are accepted and ignored (R161). -/
  | awgnAdd (ss st sd : ScalarIdx) (src len dst bps : Word)
  /-- `NVAR_EBN0`, 0x31 (R165). -/
  | nvarEbn0 (ss st sd : ScalarIdx) (bps : Word)
  /-- `SNR2EBN0`, 0x32 (R166). -/
  | snr2ebn0 (ss st sd : ScalarIdx) (bps : Word)
  /-- `EBN02SNR`, 0x33 (R167). -/
  | ebn02snr (ss st sd : ScalarIdx) (bps : Word)
  /-- `BER_BPSK`, 0x34 (R169). -/
  | berBpsk (ss sd : ScalarIdx)
  /-- `MEAS_SNR`, 0x35 (R170). -/
  | measSnr (sd : ScalarIdx) (src len src2 len2 : Word)
  /-- `LDPC_CFG`, 0x40: block length `n`, rate `p/q` (R192). -/
  | ldpcCfg (n p q : Word)
  /-- `LDPC_ENC`, 0x41 (R194). -/
  | ldpcEnc (src len dst : Word)
  /-- `LDPC_DEC`, 0x42: `maxIter` is accepted and ignored (R196). -/
  | ldpcDec (src len dst maxIter : Word)
  /-- `POLAR_CFG`, 0x50 (R212). -/
  | polarCfg (n k : Word)
  /-- `POLAR_ENC`, 0x51 (R215). -/
  | polarEnc (src len dst : Word)
  /-- `POLAR_DEC`, 0x52: `listSize` is accepted and ignored (R216). -/
  | polarDec (src len dst listSize : Word)
  /-- `POLAR_XFORM`, 0x53 (R214). -/
  | polarXform (src len dst : Word)
deriving DecidableEq, Repr

end Sys2Proof
end

