-- ==== Sys2Proof/WellFormed.lean ====
section
/-! DEFINITION. When a command term stands for words (spec/30_encoding.md R73) and when a parameter choice is one the spec
admits (spec/00_scope.md R12, spec/41_modulator.md R121, R122). -/

namespace Sys2Proof

/-- A scheme term is well formed when an unknown scheme carries one of the codes 4 to 7 (R73). -/
def Scheme.wf : Scheme → Bool
  | .qpsk => true
  | .qam16 => true
  | .qam64 => true
  | .qam256 => true
  | .unknown code => decide (4 ≤ code.toNat)

/-- A command is well formed when its scheme is; every other field is a value of its own type. -/
def Instr.wf : Instr → Bool
  | .nop => true
  | .sets _ _ _ => true
  | .crc16 _ _ _ => true
  | .crcAppend _ _ _ => true
  | .crcVerify _ _ => true
  | .modulate sch _ _ _ => sch.wf
  | .getBps sch => sch.wf
  | .getConst sch _ => sch.wf
  | .demodHard sch _ _ _ => sch.wf
  | .demodSoft sch _ _ _ _ => sch.wf
  | .awgnAdd _ _ _ _ _ _ _ => true
  | .nvarEbn0 _ _ _ _ => true
  | .snr2ebn0 _ _ _ _ => true
  | .ebn02snr _ _ _ _ => true
  | .berBpsk _ _ => true
  | .measSnr _ _ _ _ _ => true
  | .ldpcCfg _ _ _ => true
  | .ldpcEnc _ _ _ => true
  | .ldpcDec _ _ _ _ => true
  | .polarCfg _ _ => true
  | .polarEnc _ _ _ => true
  | .polarDec _ _ _ _ => true
  | .polarXform _ _ _ => true

/-- The level set of an axis with `m` levels: the odd integers −(m−1), …, m−1 (R121(a)). -/
def levelSet (m : Nat) : List Int := (List.range m).map fun j : Nat => 2 * (j : Int) - ((m : Int) - 1)

/-- Two level indices differ in exactly one bit. -/
def oneBitApart (i j : Nat) : Bool := [1, 2, 4, 8].contains (i ^^^ j)

/-- An axis table is a bijection from level indices to the level set that keeps the Gray property (R121(d), R122). -/
def levelsWf (m : Nat) (t : List Int) : Bool :=
  t.length == m && (levelSet m).all (fun v => t.contains v) &&
    (List.range m).all fun i => (List.range m).all fun j =>
      if t.getD j 0 = t.getD i 0 + 2 then oneBitApart i j else true

/-- Two address ranges do not meet. -/
def disjointRanges (a n b m : Nat) : Bool := decide (a + n ≤ b) || decide (b + m ≤ a)

/-- The sizes satisfy the constraints of R12. -/
def Config.sizesWf (c : Config) : Bool :=
  decide (c.bmBits % 8 = 0) && decide (8 ≤ c.bmBits) && decide (1 ≤ c.smSyms) && decide (1 ≤ c.lmVals) &&
    decide (648 ≤ c.ldpcNMax)

/-- The register block and the three windows do not overlap (R12, R52). -/
def Config.mapWf (c : Config) : Bool :=
  disjointRanges c.regBase 0x100 c.bmBase (c.bmBits / 8) &&
  disjointRanges c.regBase 0x100 c.smBase (16 * c.smSyms) &&
  disjointRanges c.regBase 0x100 c.lmBase (8 * c.lmVals) &&
  disjointRanges c.bmBase (c.bmBits / 8) c.smBase (16 * c.smSyms) &&
  disjointRanges c.bmBase (c.bmBits / 8) c.lmBase (8 * c.lmVals) &&
  disjointRanges c.smBase (16 * c.smSyms) c.lmBase (8 * c.lmVals)

/-- The constellation table is one of those R122 admits. -/
def Config.tableWf (c : Config) : Bool :=
  levelsWf 2 c.levels2 && levelsWf 4 c.levels4 && levelsWf 8 c.levels8 && levelsWf 16 c.levels16

/-- A parameter choice the spec admits (R12). -/
def Config.wf (c : Config) : Bool := c.sizesWf && c.mapWf && c.tableWf

end Sys2Proof
end

