-- ==== Sys2Proof/Decode.lean ====
section
/-! DEFINITION. Decoding a command's eight words and encoding a command (spec/30_encoding.md R70 to R78). -/

namespace Sys2Proof

/-- Why eight words are no command (R78), in the order of the checks (R285). -/
inductive Reject where
  /-- a reserved bit of `W0` is 1 -/
  | reservedBit
  /-- `OP` is none of the 23 opcodes of R75 -/
  | undefinedOpcode
deriving DecidableEq, Repr

/-- The reserved bits of `W0`: 11, 15, 19 and 31:23 (R71). -/
def reservedMask : Word := 0xFF888800#32

/-- `W0[7:0]` (R71). -/
def fieldOp (w0 : Word) : Byte := w0.extractLsb' 0 8

/-- `W0[10:8]`, the scheme code as a scheme (R71, R73). -/
def fieldSch (w0 : Word) : Scheme :=
  let code : BitVec 3 := w0.extractLsb' 8 3
  match code.toNat with
  | 0 => .qpsk
  | 1 => .qam16
  | 2 => .qam64
  | 3 => .qam256
  | _ => .unknown code

/-- `W0[14:12]` (R71). -/
def fieldSs (w0 : Word) : ScalarIdx := Fin.ofNat 8 (w0.extractLsb' 12 3).toNat

/-- `W0[18:16]` (R71). -/
def fieldSt (w0 : Word) : ScalarIdx := Fin.ofNat 8 (w0.extractLsb' 16 3).toNat

/-- `W0[22:20]` (R71). -/
def fieldSd (w0 : Word) : ScalarIdx := Fin.ofNat 8 (w0.extractLsb' 20 3).toNat

/-- The command that eight words stand for, or why they stand for none (R75, R77, R78). A field the opcode does not use is
ignored (R72). -/
def decode (w : Words) : Except Reject Instr :=
  let w0 := w[0]
  let src := w[1]
  let len := w[2]
  let dst := w[3]
  let aux0 := w[6]
  let aux1 := w[7]
  if w0 &&& reservedMask = 0#32 then
    match (fieldOp w0).toNat with
    | 0x00 => .ok .nop
    | 0x01 => .ok (.sets (fieldSd w0) aux0 aux1)
    | 0x10 => .ok (.crc16 src len aux0)
    | 0x11 => .ok (.crcAppend src len dst)
    | 0x12 => .ok (.crcVerify src len)
    | 0x20 => .ok (.modulate (fieldSch w0) src len dst)
    | 0x21 => .ok (.getBps (fieldSch w0))
    | 0x22 => .ok (.getConst (fieldSch w0) dst)
    | 0x28 => .ok (.demodHard (fieldSch w0) src len dst)
    | 0x29 => .ok (.demodSoft (fieldSch w0) (fieldSs w0) src len dst)
    | 0x30 => .ok (.awgnAdd (fieldSs w0) (fieldSt w0) (fieldSd w0) src len dst aux0)
    | 0x31 => .ok (.nvarEbn0 (fieldSs w0) (fieldSt w0) (fieldSd w0) aux0)
    | 0x32 => .ok (.snr2ebn0 (fieldSs w0) (fieldSt w0) (fieldSd w0) aux0)
    | 0x33 => .ok (.ebn02snr (fieldSs w0) (fieldSt w0) (fieldSd w0) aux0)
    | 0x34 => .ok (.berBpsk (fieldSs w0) (fieldSd w0))
    | 0x35 => .ok (.measSnr (fieldSd w0) src len w[4] w[5])
    | 0x40 => .ok (.ldpcCfg len aux0 aux1)
    | 0x41 => .ok (.ldpcEnc src len dst)
    | 0x42 => .ok (.ldpcDec src len dst aux0)
    | 0x50 => .ok (.polarCfg len aux0)
    | 0x51 => .ok (.polarEnc src len dst)
    | 0x52 => .ok (.polarDec src len dst aux0)
    | 0x53 => .ok (.polarXform src len dst)
    | _ => .error .undefinedOpcode
  else .error .reservedBit

/-! ## Encoding -/

/-- The scheme code of a scheme (R73). -/
def Scheme.code : Scheme → BitVec 3
  | .qpsk => 0#3
  | .qam16 => 1#3
  | .qam64 => 2#3
  | .qam256 => 3#3
  | .unknown code => code

/-- The word `W0` with its reserved bits 0 (R71). -/
def packW0 (op : Byte) (sch : BitVec 3) (ss st sd : ScalarIdx) : Word :=
  BitVec.ofNat 32 (op.toNat + sch.toNat * 2 ^ 8 + ss.val * 2 ^ 12 + st.val * 2 ^ 16 + sd.val * 2 ^ 20)

/-- The words of a well-formed command, unused fields 0 (R71, R72, R75, R76). -/
def encode : Instr → Words
  | .nop => #v[packW0 0x00#8 0 0 0 0, 0, 0, 0, 0, 0, 0, 0]
  | .sets sd a0 a1 => #v[packW0 0x01#8 0 0 0 sd, 0, 0, 0, 0, 0, a0, a1]
  | .crc16 src len a0 => #v[packW0 0x10#8 0 0 0 0, src, len, 0, 0, 0, a0, 0]
  | .crcAppend src len dst => #v[packW0 0x11#8 0 0 0 0, src, len, dst, 0, 0, 0, 0]
  | .crcVerify src len => #v[packW0 0x12#8 0 0 0 0, src, len, 0, 0, 0, 0, 0]
  | .modulate sch src len dst => #v[packW0 0x20#8 sch.code 0 0 0, src, len, dst, 0, 0, 0, 0]
  | .getBps sch => #v[packW0 0x21#8 sch.code 0 0 0, 0, 0, 0, 0, 0, 0, 0]
  | .getConst sch dst => #v[packW0 0x22#8 sch.code 0 0 0, 0, 0, dst, 0, 0, 0, 0]
  | .demodHard sch src len dst => #v[packW0 0x28#8 sch.code 0 0 0, src, len, dst, 0, 0, 0, 0]
  | .demodSoft sch ss src len dst => #v[packW0 0x29#8 sch.code ss 0 0, src, len, dst, 0, 0, 0, 0]
  | .awgnAdd ss st sd src len dst bps => #v[packW0 0x30#8 0 ss st sd, src, len, dst, 0, 0, bps, 0]
  | .nvarEbn0 ss st sd bps => #v[packW0 0x31#8 0 ss st sd, 0, 0, 0, 0, 0, bps, 0]
  | .snr2ebn0 ss st sd bps => #v[packW0 0x32#8 0 ss st sd, 0, 0, 0, 0, 0, bps, 0]
  | .ebn02snr ss st sd bps => #v[packW0 0x33#8 0 ss st sd, 0, 0, 0, 0, 0, bps, 0]
  | .berBpsk ss sd => #v[packW0 0x34#8 0 ss 0 sd, 0, 0, 0, 0, 0, 0, 0]
  | .measSnr sd src len src2 len2 => #v[packW0 0x35#8 0 0 0 sd, src, len, 0, src2, len2, 0, 0]
  | .ldpcCfg n p q => #v[packW0 0x40#8 0 0 0 0, 0, n, 0, 0, 0, p, q]
  | .ldpcEnc src len dst => #v[packW0 0x41#8 0 0 0 0, src, len, dst, 0, 0, 0, 0]
  | .ldpcDec src len dst it => #v[packW0 0x42#8 0 0 0 0, src, len, dst, 0, 0, it, 0]
  | .polarCfg n k => #v[packW0 0x50#8 0 0 0 0, 0, n, 0, 0, 0, k, 0]
  | .polarEnc src len dst => #v[packW0 0x51#8 0 0 0 0, src, len, dst, 0, 0, 0, 0]
  | .polarDec src len dst ls => #v[packW0 0x52#8 0 0 0 0, src, len, dst, 0, 0, ls, 0]
  | .polarXform src len dst => #v[packW0 0x53#8 0 0 0 0, src, len, dst, 0, 0, 0, 0]

/-! ## The opcode table's bit numbering -/

/-- The eight words of a command whose bits are the low `nbits` of `w`, bit 0 the least significant bit of `W0` and each
later word's bits counting on from it; every bit above `nbits` is 0. -/
def tableWords (nbits w : Nat) : Words :=
  let v := w % 2 ^ nbits
  #v[BitVec.ofNat 32 v, BitVec.ofNat 32 (v >>> 32), BitVec.ofNat 32 (v >>> 64), BitVec.ofNat 32 (v >>> 96),
    BitVec.ofNat 32 (v >>> 128), BitVec.ofNat 32 (v >>> 160), BitVec.ofNat 32 (v >>> 192), BitVec.ofNat 32 (v >>> 224)]

/-- The command the decoder reads from bits numbered as spec/opcode_table.json numbers them. -/
def decodeTableWord (nbits w : Nat) : Option Instr :=
  match decode (tableWords nbits w) with
  | .ok i => some i
  | .error _ => none

end Sys2Proof
end

