-- ==== Sys2Proof/Machine/Enclosure.lean ====
section
/-! DEFINITION. Integer square roots, and enclosures of `b^x`, `log_b x` (b = 2, e, 10) and `cos x` by fixed-point integer
arithmetic. They bound the exact real results of spec/00_scope.md R16 closely enough to name their binary64 neighbours. An
enclosure is a pair of naturals, in units of `2^-scaleBits` unless said otherwise. -/

namespace Sys2Proof

/-! ## Square roots -/

/-- The floor of the square root of `n`, by `fuel` digits of base 4. -/
def isqrtFuel : Nat → Nat → Nat
  | 0, _ => 0
  | fuel + 1, n =>
    let r := 2 * isqrtFuel fuel (n / 4)
    if (r + 1) * (r + 1) ≤ n then r + 1 else r

/-- Newton's iteration from `x` down, while it falls. -/
def isqrtNewton : Nat → Nat → Nat → Nat
  | 0, _, x => x
  | fuel + 1, n, x =>
    let y := (x + n / x) / 2
    if y < x then isqrtNewton fuel n y else x

/-- The floor of the square root of `n`: what Newton's iteration from `x` reaches where it is the root, else by digits. -/
def isqrtFrom (x n : Nat) : Nat :=
  let r := isqrtNewton 32 n x
  if r * r ≤ n ∧ n < (r + 1) * (r + 1) then r else isqrtFuel (n.log2 / 2 + 1) n

/-- The floor of the square root. -/
def isqrt (n : Nat) : Nat := isqrtFrom (2 ^ (n.log2 / 2 + 1)) n

/-! ## Fixed-point enclosures -/

/-- Bits after the point. -/
def scaleBits : Nat := 256

/-- One, in fixed point. -/
def fixedOne : Nat := 2 ^ scaleBits

/-- A real between `lo` and `hi`, in units of `2^-scaleBits` unless said otherwise. -/
structure Enclosure where
  lo : Nat
  hi : Nat
deriving DecidableEq, Repr

/-- The square root. The arithmetic mean with 1 starts the iteration close by where the radicand is near 1. -/
def Enclosure.root (a : Enclosure) : Enclosure :=
  let n := a.hi * fixedOne
  let hi := isqrtFrom (min (2 ^ (n.log2 / 2 + 1)) ((a.hi + fixedOne) / 2 + 1)) n + 1
  ⟨isqrtFrom hi (a.lo * fixedOne), hi⟩

/-- The product. -/
def Enclosure.mul (a b : Enclosure) : Enclosure := ⟨a.lo * b.lo / fixedOne, a.hi * b.hi / fixedOne + 1⟩

/-- The reciprocal of a real above zero, in units of `1 / d`. -/
def Enclosure.recip (d : Nat) (a : Enclosure) : Enclosure := ⟨d * fixedOne / a.hi, (d * fixedOne + (a.lo - 1)) / a.lo⟩

/-- The quotient by a divisor above zero. -/
def Enclosure.div (a b : Enclosure) : Enclosure := ⟨a.lo * fixedOne / b.hi, a.hi * fixedOne / b.lo + 1⟩

/-! ## Powers and logarithms -/

/-- The bases of R16. -/
inductive LogBase where
  | two
  | e
  | ten
deriving DecidableEq, Repr

/-- Exponents lie below `2^topBits` in magnitude, and `b^(2^topBits)` exceeds every binary64. -/
def topBits : Nat := 11

/-- How often the ladder halves the exponent `2^topBits`: its last rung is `b^(2^-scaleBits)`. -/
def ladderDepth : Nat := scaleBits + topBits

/-- `64! / 0! + 64! / 1! + ⋯ + 64! / n!`, by `acc = 64! / n!`. -/
def factorialSum : Nat → Nat → Nat
  | 0, acc => acc
  | n + 1, acc => acc + factorialSum n (acc * (n + 1))

/-- `e` lies between `eulerNum / 64!` and `(eulerNum + 1) / 64!`. -/
def eulerNum : Nat := factorialSum 64 1

/-- `b^(2^topBits)`. -/
def LogBase.top : LogBase → Enclosure
  | .two => ⟨2 ^ 2 ^ topBits * fixedOne, 2 ^ 2 ^ topBits * fixedOne⟩
  | .ten => ⟨10 ^ 2 ^ topBits * fixedOne, 10 ^ 2 ^ topBits * fixedOne⟩
  | .e =>
    let d := Nat.factorial 64 ^ 2 ^ topBits
    ⟨eulerNum ^ 2 ^ topBits * fixedOne / d, (eulerNum + 1) ^ 2 ^ topBits * fixedOne / d + 1⟩

/-- Walks down the ladder of square roots of `rung`, multiplying into `acc` the rungs whose bits of `frac` are 1. The last
rung bounds what the bits beyond the ladder add. -/
def powWalk : Nat → Enclosure → Nat → Enclosure → Enclosure
  | 0, rung, _, acc => ⟨acc.lo, (acc.mul rung).hi⟩
  | n + 1, rung, frac, acc =>
    let next := rung.root
    powWalk n next (frac % 2 ^ n) (if 2 ^ n ≤ frac then acc.mul next else acc)

/-- `b^y` for `0 ≤ y < 2^topBits`, `frac` being the floor of `y · 2^scaleBits`. -/
def LogBase.pow (b : LogBase) (frac : Nat) : Enclosure := powWalk ladderDepth b.top frac ⟨fixedOne, fixedOne⟩

/-- Walks down the same ladder, dividing `rest` by every rung that it surely reaches: the digits of the logarithm, and what
is left of the argument. -/
def logWalk : Nat → Enclosure → Enclosure → Nat → Nat × Enclosure
  | 0, _, rest, digits => (digits, rest)
  | n + 1, rung, rest, digits =>
    let next := rung.root
    if next.hi ≤ rest.lo then logWalk n next (rest.div next) (2 * digits + 1) else logWalk n next rest (2 * digits)

/-- `log_b y` for `y = p/q` from 1 below `b^(2^topBits)`: the digits, and above them at most `2 (rest − 1)`. -/
def LogBase.log (b : LogBase) (p q : Nat) : Enclosure :=
  let w := logWalk ladderDepth b.top ⟨p * fixedOne / q, p * fixedOne / q + 1⟩ 0
  ⟨w.1, w.1 + 2 * (w.2.hi - fixedOne)⟩

/-! ## Cosine -/

/-- A real between `lo` and `hi`, in units of `2^-bits` for a given number of bits. -/
structure SignedEnclosure where
  lo : Int
  hi : Int
deriving DecidableEq, Repr

/-- `cos (2 t) = 2 (cos t)² − 1`. -/
def cosDouble (bits : Nat) (c : SignedEnclosure) : SignedEnclosure :=
  let least := if 0 ≤ c.lo then c.lo * c.lo else if c.hi ≤ 0 then c.hi * c.hi else 0
  let most := max (c.lo * c.lo) (c.hi * c.hi)
  ⟨2 * least / 2 ^ bits - 2 ^ bits, min (2 ^ bits) (2 * most / 2 ^ bits + 1 - 2 ^ bits)⟩

/-- Doubles the angle `n` times. -/
def cosWalk (bits : Nat) : Nat → SignedEnclosure → SignedEnclosure
  | 0, c => c
  | n + 1, c => cosWalk bits n (cosDouble bits c)

/-- How often the angle `u · 2^-1074` is halved before the polynomial is used. -/
def cosHalvings (u : Nat) : Nat := 2 * (u.log2 + 1 - 1074) + 128

/-- Bits after the point for `cos` of `u · 2^-1074`. -/
def cosBits (u : Nat) : Nat := 2 * cosHalvings u + scaleBits

/-- `cos` of `u · 2^-1074`: `1 − t²/2 ≤ cos t ≤ 1 − t²/2 + 5 t⁴/96` for the halved angle `t`, then doublings. -/
def cosEnclosure (u : Nat) : SignedEnclosure :=
  let j := cosHalvings u
  let bits := cosBits u
  let half : Int := ((u * u * 2 ^ bits / 2 ^ (2149 + 2 * j) : Nat) : Int)
  let tail : Int := ((5 * u * u * u * u * 2 ^ bits / (96 * 2 ^ (4296 + 4 * j)) : Nat) : Int)
  cosWalk bits j ⟨2 ^ bits - half - 1, min (2 ^ bits) (2 ^ bits - half + tail + 1)⟩

end Sys2Proof
end

