-- ==== Sys2Proof/Machine/NumRecord.lean ====
section
/-! DEFINITION. The record `Num` of spec/00_scope.md R12 and R16 as a parameter: the operations every formula of the spec is
written with, over any carrier, and the system a machine runs on: such a record with what the spec leaves open of its values
and with how the memories hold them. Machine/Num.lean gives binary64, the instance of the host interface, and
Machine/Reals.lean the exact reals, the spec's reference meaning. -/

namespace Sys2Proof

/-- The operations of the record `Num` (R16). -/
structure NumRec (α : Type) where
  /-- the constant written `0` in the rules -/
  zero : α
  /-- `ofNat n` -/
  ofNat : Nat → α
  /-- a decimal constant `± n/d`, converted by round-to-nearest (R168) -/
  decimal : Bool → Nat → Nat → α
  add : α → α → α
  sub : α → α → α
  mul : α → α → α
  div : α → α → α
  /-- unary minus -/
  neg : α → α
  abs : α → α
  sqrt : α → α
  /-- `10^x` -/
  pow10 : α → α
  log10 : α → α
  log2 : α → α
  ln : α → α
  exp : α → α
  cos : α → α
  /-- the constant `π` -/
  pi : α
  /-- `a < b` -/
  lt : α → α → Bool
  /-- equality with zero -/
  isZero : α → Bool

/-- `x < 0`, the threshold of R196 and R216. -/
def NumRec.negative {α : Type} (N : NumRec α) (x : α) : Bool := N.lt x N.zero

/-- What the machine takes for its parameter `Num` (R12): the operations on the carrier `α`, the values the spec leaves open,
and the memory cells `κ` that hold a value. Binary64 is held in eight bytes, as the host sees it (R56); an exact real is a
cell of its own. -/
structure NumSystem (α κ : Type) extends NumRec α where
  /-- neither a NaN nor an infinity (R18) -/
  finite : α → Bool
  /-- the value that a binary64 pattern stands for, as `SETS` loads it (R231) -/
  ofPattern : BitVec 64 → α
  /-- how many cells of `SM` and `LM` one value takes -/
  cellsPerNum : Nat
  /-- the cells of a value, that of the lowest address first -/
  toCells : α → List κ
  /-- the value whose cell at offset `i` is `f i` -/
  ofCells : (Nat → κ) → α
  /-- the `j`-th value a command writes on a `Num` input that is not finite (R18, U3), at value `ctr` of the state's counter -/
  freeNum : (ctr j : Nat) → α
  /-- the `j`-th draw of a command for which no draw is queued (R162, U8), at value `ctr` of the state's counter -/
  freeDraw : (ctr j : Nat) → α
  /-- what cell `a` of `SM` reads as while nothing has written it since the `epoch`-th reset (R312, U4) -/
  unwrittenSm : (epoch a : Nat) → κ
  /-- the same for `LM` -/
  unwrittenLm : (epoch a : Nat) → κ

/-- Every one of these is finite (R18). -/
def NumSystem.allFinite {α κ : Type} (M : NumSystem α κ) (xs : List α) : Bool := xs.all M.finite

/-- The cells of a symbol: `re`, then `im` (R56). -/
def NumSystem.symCells {α κ : Type} (M : NumSystem α κ) (x : SymOf α) : List κ := M.toCells x.re ++ M.toCells x.im

end Sys2Proof
end

