-- ==== Sys2Proof/Machine/Num.lean ====
section
/-! DEFINITION. The binary64 instance of the record `Num` (spec/00_scope.md R12, R16, R17, R18). A finite pattern stands for
an integer number of units of 2^-1074. Every operation rounds once: the exact real result where binary64 has it, and
otherwise one of its two neighbours (log entries 3, 4, 5). For `pow10`, `log10`, `log2`, `ln`, `exp` and `cos` the neighbours
come from an integer enclosure of the real result. -/

namespace Sys2Proof

/-- How many units of 2^-1074 make 1. -/
def unitsPerOne : Nat := 2 ^ 1074

/-- The magnitude pattern of infinity: a pattern below it is finite, one above it a NaN. -/
def magInf : Nat := 0x7FF0000000000000

/-! ## Patterns -/

/-- The sign bit. -/
def Num64.sign (x : Num64) : Bool := x.bits.msb

/-- The 63 bits below the sign: exponent and significand. -/
def Num64.mag (x : Num64) : Nat := x.bits.toNat % 2 ^ 63

/-- The `Num` of a sign and a magnitude pattern. -/
def Num64.ofMag (neg : Bool) (k : Nat) : Num64 := ⟨BitVec.ofNat 64 ((if neg then 2 ^ 63 else 0) + k)⟩

/-- Neither NaN nor an infinity. -/
def Num64.isFinite (x : Num64) : Bool := decide (x.mag < magInf)

/-- A NaN. -/
def Num64.isNaN (x : Num64) : Bool := decide (magInf < x.mag)

/-- Equality with zero (R16); −0 is zero. -/
def Num64.isZero (x : Num64) : Bool := decide (x.mag = 0)

/-- The zero written `0` in the rules. -/
def Num64.zero : Num64 := Num64.ofMag false 0

/-- The units of a finite magnitude pattern. -/
def magUnits (k : Nat) : Nat :=
  if k / 2 ^ 52 = 0 then k else (2 ^ 52 + k % 2 ^ 52) * 2 ^ (k / 2 ^ 52 - 1)

/-- The largest magnitude pattern whose units do not exceed `n`. -/
def floorMag (n : Nat) : Nat := (n.log2 - 52) * 2 ^ 52 + n / 2 ^ (n.log2 - 52)

/-- The value of a finite `Num`, in units of 2^-1074. -/
def Num64.units (x : Num64) : Int := if x.sign then -(magUnits x.mag : Int) else (magUnits x.mag : Int)

/-- The real value of a finite `Num`, which is rational. -/
def Num64.toRat (x : Num64) : Rat := (x.units : Rat) / (unitsPerOne : Rat)

/-! ## Rounding -/

/-- The neighbour of an inexact result: `k` below it or `k + 1` above it; `mid` compares the result with their midpoint. -/
def Rounding.pick (r : Rounding) (k : Nat) (mid : Ordering) (away : Bool) : Nat :=
  match r with
  | .free => if away then k + 1 else k
  | .nearestEven =>
    match mid with
    | .lt => k
    | .gt => k + 1
    | .eq => if k % 2 = 0 then k else k + 1

/-- The `Num` of sign `neg` and magnitude `p/q` units, `0 < q`: exact where binary64 has it, else a neighbour. Above the
largest finite value the neighbours are that value and infinity (log entry 5). -/
def Num64.ofFrac (r : Rounding) (neg : Bool) (p q : Nat) : Num64 :=
  let k := min (floorMag (p / q)) (magInf - 1)
  Num64.ofMag neg <|
    if magUnits k * q = p then k
    else r.pick k (compare (2 * p) ((magUnits k + magUnits (k + 1)) * q)) (Config.roundAway neg p q)

/-- `ofNat n` (R16). -/
def Num64.ofNat (r : Rounding) (n : Nat) : Num64 := Num64.ofFrac r false (n * unitsPerOne) 1

/-- A decimal constant `n / d`, converted by round-to-nearest (R79, R168). -/
def Num64.ofDecimal (neg : Bool) (n d : Nat) : Num64 := Num64.ofFrac .nearestEven neg (n * unitsPerOne) d

/-! ## Arithmetic -/

/-- A NaN: the open pattern where it is one, the quiet NaN else. -/
def Num64.asNaN (x : Num64) : Num64 := if x.isNaN then x else ⟨0x7FF8000000000000#64⟩

/-- The frame of every operation: a NaN operand gives a NaN (R141), an infinite one an open value, finite ones `f`. -/
def Num64.lift (op : NumOp) (a b : Num64) (f : Num64) : Num64 :=
  if a.isNaN || b.isNaN then (Config.openResult op a b).asNaN
  else if a.isFinite && b.isFinite then f
  else Config.openResult op a b

/-- Unary minus: the sign bit inverted. -/
def Num64.neg (x : Num64) : Num64 := ⟨x.bits ^^^ 0x8000000000000000#64⟩

/-- `abs`: the sign bit cleared. -/
def Num64.abs (x : Num64) : Num64 := ⟨x.bits &&& 0x7FFFFFFFFFFFFFFF#64⟩

/-- The sign of a sum that is exactly zero: that of the operands where they agree, else open; the model's choice (log entry 7). -/
def Num64.zeroSumSign (r : Rounding) (a b : Num64) : Bool :=
  if a.sign = b.sign then a.sign
  else match r with
    | .free => Config.zeroSumNeg a b
    | .nearestEven => false

/-- `a + b`. -/
def Num64.add (r : Rounding) (a b : Num64) : Num64 :=
  Num64.lift .add a b <|
    let n := a.units + b.units
    if n = 0 then Num64.ofMag (Num64.zeroSumSign r a b) 0 else Num64.ofFrac r (decide (n < 0)) n.natAbs 1

/-- `a − b`. -/
def Num64.sub (r : Rounding) (a b : Num64) : Num64 := Num64.add r a b.neg

/-- `a · b`. An exactly zero product is negative where one operand is: the model's choice, since the spec states the sign of no
zero (log entry 7). -/
def Num64.mul (r : Rounding) (a b : Num64) : Num64 :=
  Num64.lift .mul a b (Num64.ofFrac r (a.sign != b.sign) (magUnits a.mag * magUnits b.mag) unitsPerOne)

/-- `a / b`; open for `b = 0`. An exactly zero quotient is negative where one operand is: the model's choice (log entry 7). -/
def Num64.div (r : Rounding) (a b : Num64) : Num64 :=
  Num64.lift .div a b <|
    if b.isZero then Config.openResult .div a b
    else Num64.ofFrac r (a.sign != b.sign) (magUnits a.mag * unitsPerOne) (magUnits b.mag)

/-- The root of `n` square units, rounded as `Num64.ofFrac` rounds. -/
def Num64.ofRoot (r : Rounding) (n : Nat) : Num64 :=
  let k := floorMag (isqrt n)
  let k' :=
    if magUnits k * magUnits k = n then k
    else r.pick k (compare (4 * n) ((magUnits k + magUnits (k + 1)) * (magUnits k + magUnits (k + 1)))) (Config.sqrtAway n)
  Num64.ofMag false k'

/-- `sqrt(a)`; open for a negative `a`. The root of a zero is that zero, so that of −0 is −0: the model's choice (log entry 7). -/
def Num64.sqrt (r : Rounding) (a : Num64) : Num64 :=
  Num64.lift .sqrt a a <|
    if a.isZero then a
    else if a.sign then Config.openResult .sqrt a a
    else Num64.ofRoot r (magUnits a.mag * unitsPerOne)

/-! ## Comparison -/

/-- The place of a `Num` that is no NaN on the line. N1 orders finite values only; that an infinity lies beyond every finite
value of its sign, as in IEEE-754, is the model's choice (log entry 22). -/
def Num64.order (x : Num64) : Int := if x.sign then -(x.mag : Int) else (x.mag : Int)

/-- `a < b`; false where either is a NaN (R17 N1, N3). -/
def Num64.lt (a b : Num64) : Bool := !a.isNaN && !b.isNaN && decide (a.order < b.order)

/-! ## The other operations of R16 -/

/-- The units of the enclosures below: `2^-1330`, finer than the spacing of any binary64. -/
def fineUnits (e : Enclosure) : Enclosure := ⟨e.lo * unitsPerOne, e.hi * unitsPerOne⟩

/-- The last pattern not above the lower end of an enclosure in fine units, and the first one not below its upper end. -/
def enclosureMags (e : Enclosure) : Nat × Nat :=
  let k := floorMag (e.hi / fixedOne)
  (min (floorMag (e.lo / fixedOne)) (magInf - 1), min (if magUnits k * fixedOne = e.hi then k else k + 1) magInf)

/-- An enclosure names the neighbours of the real it encloses when it meets no pattern but its end ones. -/
def Enclosure.decided (e : Enclosure) : Bool := decide ((enclosureMags e).2 ≤ (enclosureMags e).1 + 1)

/-- The inexact result of sign `neg` that an enclosure in fine units encloses: one of the patterns it meets. Round-to-nearest
takes the nearer neighbour where the enclosure lies on one side of their midpoint. -/
def Num64.ofEnclosure (r : Rounding) (op : NumOp) (a : Num64) (neg : Bool) (e : Enclosure) : Num64 :=
  let k := enclosureMags e
  let step := Config.enclosureStep op a % (k.2 + 1 - k.1)
  let mid := (magUnits k.1 + magUnits (k.1 + 1)) * fixedOne
  Num64.ofMag neg <|
    match r with
    | .free => k.1 + step
    | .nearestEven =>
      if e.decided && decide (2 * e.hi ≤ mid) then k.1
      else if e.decided && decide (mid ≤ 2 * e.lo) then k.2
      else k.1 + step

/-- The natural number a finite `Num` is equal to, if it is one. -/
def Num64.nat? (x : Num64) : Option Nat :=
  if x.units < 0 then none
  else if x.units.natAbs % unitsPerOne = 0 then some (x.units.natAbs / unitsPerOne) else none

/-- The exponent `n ≤ bound` with `x = base^n`, if there is one. -/
def Num64.exponentOf? (base bound : Nat) (x : Num64) : Option Nat :=
  match x.nat? with
  | some v => (List.range (bound + 1)).find? fun n => base ^ n == v
  | none => none

/-- `b^x` of a finite `x`, in fine units; at and beyond `±2^topBits`, where no binary64 is left, what is above the largest
finite pattern or below the smallest one. -/
def powEnclosure (b : LogBase) (x : Num64) : Enclosure :=
  let u := magUnits x.mag
  let e := b.pow (u / 2 ^ (1074 - scaleBits))
  if u < 2 ^ topBits * unitsPerOne then
    if x.sign then e.recip (fixedOne * unitsPerOne) else fineUnits e
  else if x.sign then ⟨0, 1⟩
  else ⟨magUnits magInf * fixedOne, magUnits magInf * fixedOne⟩

/-- Whether a positive `x` lies below 1: the sign of its logarithm. -/
def belowOne (x : Num64) : Bool := decide (magUnits x.mag < unitsPerOne)

/-- The magnitude of `log_b x` of a finite `x` above zero, in fine units. -/
def logEnclosure (b : LogBase) (x : Num64) : Enclosure :=
  let u := magUnits x.mag
  fineUnits (if belowOne x then b.log unitsPerOne u else b.log u unitsPerOne)

/-- `b^x`, where it is not exact. -/
def Num64.powOf (r : Rounding) (op : NumOp) (b : LogBase) (x : Num64) : Num64 :=
  Num64.ofEnclosure r op x false (powEnclosure b x)

/-- `log_b x`, where it is not exact; open for `x ≤ 0`. -/
def Num64.logOf (r : Rounding) (op : NumOp) (b : LogBase) (x : Num64) : Num64 :=
  if x.isZero || x.sign then Config.openResult op x x
  else Num64.ofEnclosure r op x (belowOne x) (logEnclosure b x)

/-- `pow10(x) = 10^x`: for the naturals 0 to 308 the rounded integer, which binary64 has up to 10^22; else a neighbour. -/
def Num64.pow10 (r : Rounding) (x : Num64) : Num64 :=
  Num64.lift .pow10 x x <|
    match x.nat? with
    | some n => if n ≤ 308 then Num64.ofNat r (10 ^ n) else Num64.powOf r .pow10 .ten x
    | none => Num64.powOf r .pow10 .ten x

/-- `log10(x)`: exact for 10^0 to 10^22; else a neighbour. -/
def Num64.log10 (r : Rounding) (x : Num64) : Num64 :=
  Num64.lift .log10 x x <|
    match x.exponentOf? 10 22 with
    | some n => Num64.ofNat r n
    | none => Num64.logOf r .log10 .ten x

/-- `log2(x)`: exact for the powers of two; else a neighbour. -/
def Num64.log2 (r : Rounding) (x : Num64) : Num64 :=
  let u := magUnits x.mag
  Num64.lift .log2 x x <|
    if !x.sign && decide (u = 2 ^ u.log2) then
      Num64.ofFrac r (decide (u.log2 < 1074)) ((u.log2 - 1074 + (1074 - u.log2)) * unitsPerOne) 1
    else Num64.logOf r .log2 .two x

/-- `ln(x)`: exact at 1; else a neighbour. -/
def Num64.ln (r : Rounding) (x : Num64) : Num64 :=
  Num64.lift .ln x x (if x.nat? = some 1 then Num64.ofNat r 0 else Num64.logOf r .ln .e x)

/-- `exp(x)`: exact at 0; else a neighbour. -/
def Num64.exp (r : Rounding) (x : Num64) : Num64 :=
  Num64.lift .exp x x (if x.isZero then Num64.ofNat r 1 else Num64.powOf r .exp .e x)

/-- The sign and the magnitude, in fine units, of `cos x` of a finite `x`, where the enclosure settles the sign. -/
def cosMagnitude (x : Num64) : Option (Bool × Enclosure) :=
  let u := magUnits x.mag
  let c := cosEnclosure u
  let scale := fixedOne * unitsPerOne
  let inward := fun (v : Int) => v.natAbs * scale / 2 ^ cosBits u
  let outward := fun (v : Int) => (v.natAbs * scale + (2 ^ cosBits u - 1)) / 2 ^ cosBits u
  if 0 ≤ c.lo then some (false, ⟨inward c.lo, outward c.hi⟩)
  else if c.hi ≤ 0 then some (true, ⟨inward c.hi, outward c.lo⟩)
  else none

/-- `cos(x)`: exact at 0; else a neighbour. An enclosure that does not settle the sign leaves the result open, which is not
known to happen for any binary64 (log entry 4). -/
def Num64.cos (r : Rounding) (x : Num64) : Num64 :=
  Num64.lift .cos x x <|
    if x.isZero then Num64.ofNat r 1
    else
      match cosMagnitude x with
      | some (neg, e) => Num64.ofEnclosure r .cos x neg e
      | none => Config.openResult .cos x x

/-- The constant π: one of the two binary64 neighbours of it. -/
def Num64.pi (r : Rounding) : Num64 :=
  match r with
  | .free => if Config.piAway then ⟨0x400921FB54442D19#64⟩ else ⟨0x400921FB54442D18#64⟩
  | .nearestEven => ⟨0x400921FB54442D18#64⟩

/-- Every one of these is finite (R18). -/
def allFinite (xs : List Num64) : Bool := xs.all Num64.isFinite

/-! ## The instance -/

/-- Binary64 with a given rounding as an instance of the record `Num` (R12, R16). -/
def binary64 (r : Rounding) : NumRec Num64 where
  zero := Num64.zero
  ofNat := Num64.ofNat r
  decimal := Num64.ofDecimal
  add := Num64.add r
  sub := Num64.sub r
  mul := Num64.mul r
  div := Num64.div r
  neg := Num64.neg
  abs := Num64.abs
  sqrt := Num64.sqrt r
  pow10 := Num64.pow10 r
  log10 := Num64.log10 r
  log2 := Num64.log2 r
  ln := Num64.ln r
  exp := Num64.exp r
  cos := Num64.cos r
  pi := Num64.pi r
  lt := Num64.lt
  isZero := Num64.isZero

/-- The instance that a configuration selects. -/
def Config.num (c : Config) : NumRec Num64 := binary64 c.rounding

/-! ## Bytes -/

/-- The bytes of a `Num` as the host sees them, little-endian (R56). -/
def Num64.bytes (x : Num64) : List Byte := (List.range 8).map fun i => x.bits.extractLsb' (8 * i) 8

/-- The 64-bit value of two words, `hi` in bits 63:32 (R74, R231). -/
def joinWords (hi lo : Word) : BitVec 64 := BitVec.ofNat 64 (hi.toNat * 2 ^ 32 + lo.toNat)

/-- The word that the bytes `f 0` to `f 3` make, little-endian (R55). -/
def wordOfBytes (f : Nat → Byte) : Word :=
  BitVec.ofNat 32 ((f 0).toNat + (f 1).toNat * 2 ^ 8 + (f 2).toNat * 2 ^ 16 + (f 3).toNat * 2 ^ 24)

/-- The `Num` whose byte at offset `i` is `f i`, little-endian (R56). -/
def Num64.ofBytes (f : Nat → Byte) : Num64 := ⟨joinWords (wordOfBytes fun i => f (4 + i)) (wordOfBytes f)⟩

/-- Binary64 as the machine runs on it: eight bytes a value, and the open values of Config.lean. -/
def binary64System (r : Rounding) : NumSystem Num64 Byte :=
  { binary64 r with
    finite := Num64.isFinite
    ofPattern := fun v => ⟨v⟩
    cellsPerNum := 8
    toCells := Num64.bytes
    ofCells := Num64.ofBytes
    freeNum := Config.freeNum
    freeDraw := Config.freeDraw
    unwrittenSm := Config.unwrittenSmByte
    unwrittenLm := Config.unwrittenLmByte }

/-- The system that `exec` and `step` run on. -/
def Config.system (c : Config) : NumSystem Num64 Byte := binary64System c.rounding

end Sys2Proof
end

