-- ==== Sys2Proof/Machine/State.lean ====
section
/-! DEFINITION. The state of the machine (spec/10_state.md R20 to R35), plain data, and the state right after reset
(spec/70_reset_and_hazards.md R311). The fields under "the model's own" are inputs and bookkeeping that the form of a step
puts into the state; the spec gives the engine none of them. -/

namespace Sys2Proof.Machine

/-- A sparse memory: `(address, element)` pairs with strictly rising addresses. An address that is not listed has not been
written since reset (R312). With bytes for elements this is a list of `Host.Cell`. -/
abbrev Memory (α : Type) := List (Nat × α)

/-- The fields of `STATUS` (R22). Its reserved bits read as 0 and are not stored. -/
structure Status where
  /-- bit 0, `FAULT` -/
  fault : Bool
  /-- bit 1, `MATCH` -/
  matched : Bool
  /-- bit 2, `LV` -/
  lv : Bool
  /-- bit 3, `PV` -/
  pv : Bool
  /-- bits 15:8, `ERR` -/
  err : Byte
deriving DecidableEq, Repr

/-- The fault codes of R282. -/
inductive ErrCode where
  /-- 0x01, undefined opcode or reserved bit -/
  | illegal
  /-- 0x02, a range does not fit its memory -/
  | addr
  /-- 0x03, paired or required lengths differ -/
  | len
  /-- 0x04, a parameter outside its domain -/
  | param
  /-- 0x05, a scheme without a constellation -/
  | scheme
  /-- 0x06, the coder is not constructed -/
  | noCfg
deriving DecidableEq, Repr

/-- The sizes of a host transaction (R53, R55, R56): one byte, one 32-bit word, one 64-bit `Num`. -/
inductive Width where
  | w8
  | w32
  | w64
deriving DecidableEq, Repr

/-- What can reach the machine between two commands: the host's atomic transactions (R10) and the hardware reset (R310). A
doorbell and a soft reset are host writes to their registers (R32). -/
inductive Input where
  /-- a host read of `width` bytes at byte address `addr` -/
  | hostRead (width : Width) (addr : Nat)
  /-- a host write of the low `width` bytes of `data` at byte address `addr` -/
  | hostWrite (width : Width) (addr : Nat) (data : BitVec 64)
  /-- the block's hardware reset -/
  | hardReset
deriving DecidableEq, Repr

/-- The machine over a carrier `α` of the record `Num` whose values stand in memory cells `κ` (R12, R15, R20). `State` alone is
the machine that the host sees: a `Num` is a binary64 value held in eight bytes (R12, R31, R56). -/
structure State (α : Type := Num64) (κ : Type := Byte) where
  /-- `STATUS` (R22) -/
  status : Status
  /-- `RES` (R23) -/
  res : Word
  /-- `OLEN` (R24) -/
  olen : Word
  /-- `LDPC_N` (R26) -/
  ldpcN : Word
  /-- `LDPC_K` (R26) -/
  ldpcK : Word
  /-- `LDPC_DC` (R26) -/
  ldpcDc : Word
  /-- `POLAR_N` (R28) -/
  polarN : Word
  /-- `POLAR_K` (R28) -/
  polarK : Word
  /-- `CRC_REG` (R25); bits 31:16 of its host word read as 0 -/
  crcReg : BitVec 16
  /-- `S0..S7` (R31) -/
  scalars : Vector α 8
  /-- `CMDW0..CMDW7` (R32) -/
  cmdw : Words
  /-- `BM` (R33), by bit address -/
  bm : Memory Bit
  /-- `SM` (R33), by cell: symbol `s` is the cells of its `re` and then of its `im`, in bytes `16 s` to `16 s + 15` (R56) -/
  sm : Memory κ
  /-- `LM` (R33), by cell: value `j` is in bytes `8 j` to `8 j + 7` (R56) -/
  lm : Memory κ
  /-- the model's own: the implementation parameters (R12), changed by no step -/
  cfg : Config
  /-- the model's own: how many resets a run has had, which names the unwritten contents (R312) -/
  epoch : Nat
  /-- the model's own: the counter that names free values (R18) -/
  freeCtr : Nat
  /-- the model's own: the Gaussian draws handed in from outside and not yet taken, next first (R162) -/
  draws : List α
  /-- the model's own: the host's transactions and resets still to come, next first (R234) -/
  inputs : List Input
  /-- the model's own: the data the last host read returned on the host's bus (R10) -/
  readData : BitVec 64
deriving DecidableEq, Repr

/-- How a step can stop the machine with a fault: in no way. The engine's faults (R282) are latched in `STATUS` and the machine
goes on (R283, R284), and a host access outside the interface is refused (U12). -/
inductive Fault where
deriving DecidableEq, Repr

/-- How a step can decline. -/
inductive Refusal where
  /-- The command has no meaning in the model yet. Raised by `exec` alone. Safe. No arm of `exec` uses it. -/
  | notModelled (mnemonic : String)
  /-- A host transaction whose address lies in no range of the host map ("Host addresses outside these ranges are not part
  of the engine", R52; U12: `refuse`). Raised by a step that takes such an input. Safe: nothing is claimed of it. -/
  | hostUnmapped
  /-- A host transaction that is not aligned to its size ("a misaligned host access is outside the interface and a model
  refuses it", R57, U12). Raised by a step that takes such an input. Safe. -/
  | hostMisaligned
  /-- A host transaction of a width its range does not have: wider than a byte in `BM` (R53), narrower than a word or wider
  than the register in the register block (R55), narrower than a word in `SM` or `LM` (R56). Raised by a step that takes
  such an input. Safe. -/
  | hostWidth
deriving DecidableEq, Repr

/-- What a meaning answers over a carrier of the record `Num`. -/
abbrev ResultOf (α κ : Type) := Host.Outcome (State α κ) Fault Refusal

/-- What a meaning, or a step, answers. -/
abbrev Result := Host.Outcome State Fault Refusal

/-- `STATUS` after reset (R22, R311). -/
def Status.reset : Status := { fault := false, matched := false, lv := false, pv := false, err := 0#8 }

/-- The machine right after reset (R311), with the default parameters of R12. `S0..S7` are +0, a value the spec does not
give (log entry 8); memories list nothing (R312). -/
def State.reset : State where
  status := Status.reset
  res := 0#32
  olen := 0#32
  ldpcN := Config.ldpcNDefault
  ldpcK := 0#32
  ldpcDc := 0#32
  polarN := 0#32
  polarK := 0#32
  crcReg := Config.crcInit
  scalars := Vector.replicate 8 ⟨0#64⟩
  cmdw := Vector.replicate 8 0#32
  bm := []
  sm := []
  lm := []
  cfg := Config.defaults
  epoch := 0
  freeCtr := 0
  draws := []
  inputs := []
  readData := 0#64

end Sys2Proof.Machine
end

