-- ==== Sys2Proof/Machine/Ops.lean ====
section
/-! DEFINITION. Bit sequences and integers (spec/00_scope.md R14). The named operations over memories and registers: reading
and writing elements (spec/20_memory.md R50 to R58), the range check (R51), raising a fault (spec/60_exceptions.md R283) and
the reset that leaves the faulted state (R286, spec/70_reset_and_hazards.md R310 to R312). -/

namespace Sys2Proof

/-! ## Bit sequences and counts (spec/00_scope.md R14) -/

/-- `ceil(a / b)` on naturals (R125). -/
def ceilDiv (a b : Nat) : Nat := (a + (b - 1)) / b

/-- `bits_N(v)`: the N-element Bit sequence of `v`, most significant bit first (R14). -/
def bitsMsb (n v : Nat) : List Bit := (List.range n).map fun j => v.testBit (n - 1 - j)

/-- `val(x)`: the big-endian value of a Bit sequence, the inverse of `bits_N` (R14). -/
def valMsb (x : List Bit) : Nat := x.foldl (fun v b => 2 * v + b.toNat) 0

end Sys2Proof

namespace Sys2Proof.Machine

variable {α κ : Type}

/-! ## One memory -/

/-- The element written at `a`, if one has been written since reset. -/
def Memory.read? {α : Type} : Memory α → Nat → Option α
  | [], _ => none
  | (b, v) :: rest, a => if a = b then some v else Memory.read? rest a

/-- Writes the element `v` at `a`, keeping the addresses strictly rising. -/
def Memory.write {α : Type} : Memory α → Nat → α → Memory α
  | [], a, v => [(a, v)]
  | (b, w) :: rest, a, v =>
    if a < b then (a, v) :: (b, w) :: rest
    else if a = b then (a, v) :: rest
    else (b, w) :: Memory.write rest a v

/-- Writes `xs[j]` at `a + j` for every `j`; nothing else changes (R15, `MemWrite`). -/
def Memory.writeSeq {α : Type} : Memory α → Nat → List α → Memory α
  | m, _, [] => m
  | m, a, x :: xs => Memory.writeSeq (Memory.write m a x) (a + 1) xs

/-- The canonical form: addresses strictly rising. An unlisted address has no element of its own, so no entry can equal
one. -/
def Memory.wf {α : Type} : Memory α → Bool
  | [] => true
  | [_] => true
  | (a, _) :: (b, w) :: rest => decide (a < b) && Memory.wf ((b, w) :: rest)

/-- Every listed address lies below `z`. -/
def Memory.below {α : Type} (m : Memory α) (z : Nat) : Bool := m.all fun c => decide (c.1 < z)

/-! ## The three memories (R33, R50) -/

/-- The Bit `BM[a]`; an open value while nothing has written it since reset (R312). -/
def State.readBit (s : State α κ) (a : Nat) : Bool := (Memory.read? s.bm a).getD (Config.unwrittenBit s.epoch a)

/-- Cell `a` of `SM`. -/
def State.smCell (s : State α κ) (M : NumSystem α κ) (a : Nat) : κ := (Memory.read? s.sm a).getD (M.unwrittenSm s.epoch a)

/-- Cell `a` of `LM`. -/
def State.lmCell (s : State α κ) (M : NumSystem α κ) (a : Nat) : κ := (Memory.read? s.lm a).getD (M.unwrittenLm s.epoch a)

/-- The symbol `SM[i]` (R15, R56). -/
def State.symAt (s : State α κ) (M : NumSystem α κ) (i : Nat) : SymOf α :=
  ⟨M.ofCells fun j => s.smCell M (2 * M.cellsPerNum * i + j),
    M.ofCells fun j => s.smCell M (2 * M.cellsPerNum * i + M.cellsPerNum + j)⟩

/-- The value `LM[i]` (R15, R56). -/
def State.valAt (s : State α κ) (M : NumSystem α κ) (i : Nat) : α := M.ofCells fun j => s.lmCell M (M.cellsPerNum * i + j)

/-- `MemRead(BM, a, n)` (R15). -/
def State.readBits (s : State α κ) (a n : Nat) : List Bit := (List.range n).map fun j => s.readBit (a + j)

/-- `MemRead(SM, a, n)` (R15). -/
def State.symsAt (s : State α κ) (M : NumSystem α κ) (a n : Nat) : List (SymOf α) :=
  (List.range n).map fun j => s.symAt M (a + j)

/-- `MemRead(LM, a, n)` (R15). -/
def State.valsAt (s : State α κ) (M : NumSystem α κ) (a n : Nat) : List α := (List.range n).map fun j => s.valAt M (a + j)

/-- `MemWrite(BM, a, xs)` (R15). -/
def State.writeBits (s : State α κ) (a : Nat) (xs : List Bit) : State α κ :=
  { s with bm := Memory.writeSeq s.bm a xs }

/-- Writes cells from cell `a` of `SM` on. -/
def State.writeSmCells (s : State α κ) (a : Nat) (xs : List κ) : State α κ :=
  { s with sm := Memory.writeSeq s.sm a xs }

/-- Writes cells from cell `a` of `LM` on. -/
def State.writeLmCells (s : State α κ) (a : Nat) (xs : List κ) : State α κ :=
  { s with lm := Memory.writeSeq s.lm a xs }

/-- `MemWrite(SM, a, xs)` (R15). -/
def State.putSyms (s : State α κ) (M : NumSystem α κ) (a : Nat) (xs : List (SymOf α)) : State α κ :=
  s.writeSmCells (2 * M.cellsPerNum * a) (xs.flatMap M.symCells)

/-- `MemWrite(LM, a, xs)` (R15). -/
def State.putVals (s : State α κ) (M : NumSystem α κ) (a : Nat) (xs : List α) : State α κ :=
  s.writeLmCells (M.cellsPerNum * a) (xs.flatMap M.toCells)

/-! ### The same in binary64, where a cell is a byte of the host's window -/

/-- The byte at offset `a` of the `SM` window. -/
abbrev State.readSmByte (s : State) (a : Nat) : Byte := s.smCell s.cfg.system a

/-- The byte at offset `a` of the `LM` window. -/
abbrev State.readLmByte (s : State) (a : Nat) : Byte := s.lmCell s.cfg.system a

/-- The symbol `SM[i]`. -/
abbrev State.readSym (s : State) (i : Nat) : Sym := s.symAt s.cfg.system i

/-- The value `LM[i]`. -/
abbrev State.readVal (s : State) (i : Nat) : Num64 := s.valAt s.cfg.system i

/-- `MemRead(SM, a, n)`. -/
abbrev State.readSyms (s : State) (a n : Nat) : List Sym := s.symsAt s.cfg.system a n

/-- `MemRead(LM, a, n)`. -/
abbrev State.readVals (s : State) (a n : Nat) : List Num64 := s.valsAt s.cfg.system a n

/-- `MemWrite(SM, a, xs)`. -/
abbrev State.writeSyms (s : State) (a : Nat) (xs : List Sym) : State := s.putSyms s.cfg.system a xs

/-- `MemWrite(LM, a, xs)`. -/
abbrev State.writeVals (s : State) (a : Nat) (xs : List Num64) : State := s.putVals s.cfg.system a xs

/-! ## Ranges -/

/-- The range check of R51, in unbounded integers: `n` elements at `a` fit a memory of `z`; an empty range always does. -/
def fits (a n z : Nat) : Bool := decide (n = 0) || decide (a + n ≤ z)

/-! ## Registers -/

/-- `S[i]` (R31). -/
def State.scalar (s : State α κ) (i : ScalarIdx) : α := s.scalars[i.val]

/-- `S[i] <- x` (R31). -/
def State.setScalar (s : State α κ) (i : ScalarIdx) (x : α) : State α κ := { s with scalars := s.scalars.set i.val x }

/-- The 32-bit register value of a natural number; open where it does not fit (log entry 16). -/
def wordOf (n : Nat) : Word := if n < 2 ^ 32 then BitVec.ofNat 32 n else Config.wideWord n

/-- `RES <- w` (R23). -/
def State.setRes (s : State α κ) (w : Word) : State α κ := { s with res := w }

/-- `OLEN <- n` (R24). -/
def State.setOlen (s : State α κ) (n : Nat) : State α κ := { s with olen := wordOf n }

/-- `CRC_REG <- c` (R25). -/
def State.setCrcReg (s : State α κ) (c : BitVec 16) : State α κ := { s with crcReg := c }

/-- A command that can take free values moves the counter that names them on. -/
def State.spendFree (s : State α κ) : State α κ := { s with freeCtr := s.freeCtr + 1 }

/-- Takes the next `n` draws from the input queue. -/
def State.dropDraws (s : State α κ) (n : Nat) : State α κ := { s with draws := s.draws.drop n }

/-- The next input has been taken; `rest` are still to come. -/
def State.setInputs (s : State α κ) (rest : List Input) : State α κ := { s with inputs := rest }

/-- The host's bus carries `v` back. -/
def State.setReadData (s : State α κ) (v : BitVec 64) : State α κ := { s with readData := v }

/-- `CMDW<i> <- w`; nothing where `i` is above 7 (R32). -/
def State.setCmdw (s : State α κ) (i : Nat) (w : Word) : State α κ := { s with cmdw := s.cmdw.setIfInBounds i w }

/-! ## Faults (R282, R283) and reset (R310 to R312) -/

/-- The code of R282. -/
def ErrCode.code : ErrCode → Byte
  | .illegal => 0x01#8
  | .addr => 0x02#8
  | .len => 0x03#8
  | .param => 0x04#8
  | .scheme => 0x05#8
  | .noCfg => 0x06#8

/-- The state in which a fault is latched: `FAULT` and `ERR` alone change (R283). -/
def State.latchFault (s : State α κ) (c : ErrCode) : State α κ :=
  { s with status := { s.status with fault := true, err := c.code } }

/-- `raise Fault(code)`: ends the command with the fault latched and nothing else written (R15, R283). -/
def State.raise (s : State α κ) (c : ErrCode) : ResultOf α κ := .next (s.latchFault c)

/-- The reset, the one way out of the faulted state (R286, R310): every register at the value of R311; `S0..S7` and every
memory element open (R312). The parameters and the model's own inputs stay. -/
def State.afterReset (s : State) : State :=
  { State.reset with
    scalars := Vector.ofFn fun i => Config.resetScalar (s.epoch + 1) i.val
    cfg := s.cfg
    epoch := s.epoch + 1
    freeCtr := s.freeCtr
    draws := s.draws
    inputs := s.inputs
    readData := s.readData }

end Sys2Proof.Machine
end

