-- ==== Sys2Proof/Machine/Operands.lean ====
section
/-! DEFINITION. The operands of commands: schemes and their constellations over any record `Num` (spec/30_encoding.md R73,
spec/41_modulator.md R120 to R123), power-of-two lengths (spec/45_polar.md R212), the `Num` inputs that must be finite
(spec/00_scope.md R18) and the draws (spec/43_awgn.md R162). -/

namespace Sys2Proof.Machine

variable {α κ : Type}

/-! ## Schemes -/

/-- A scheme code of 4 to 7, which has no constellation (R73). -/
def unknownScheme : Scheme → Bool
  | .unknown _ => true
  | .qpsk => false
  | .qam16 => false
  | .qam64 => false
  | .qam256 => false

/-- `Bps(sch)`, the bits per symbol (R123). -/
def bps : Scheme → Nat
  | .qpsk => 2
  | .qam16 => 4
  | .qam64 => 6
  | .qam256 => 8
  | .unknown _ => 2

/-- `Lv(M, 0), …, Lv(M, M−1)`, the axis table of a scheme (R122); none for an unknown one. -/
def levels (c : Config) : Scheme → List Int
  | .qpsk => c.levels2
  | .qam16 => c.levels4
  | .qam64 => c.levels8
  | .qam256 => c.levels16
  | .unknown _ => []

/-- `E`, the mean energy of the unnormalised points (R121(b)). -/
def energy : Scheme → Nat
  | .qpsk => 2
  | .qam16 => 10
  | .qam64 => 42
  | .qam256 => 170
  | .unknown _ => 1

/-- A level as a `Num`: `ofNat`, negated where it is negative (R122). -/
def levelNum (N : NumRec α) (v : Int) : α := if v < 0 then N.neg (N.ofNat v.natAbs) else N.ofNat v.natAbs

/-- The coordinates of a scheme's axis, `Lv / √E` by level index (R122). -/
def axis (N : NumRec α) (c : Config) (sch : Scheme) : List α :=
  let root := N.sqrt (N.ofNat (energy sch))
  (levels c sch).map fun v => N.div (levelNum N v) root

/-- The constellation `C[0], …, C[2^b − 1]`: index `i · M + q` has the real level `q` and the imaginary level `i` (R121(c),
R122). -/
def constellation (N : NumRec α) (c : Config) (sch : Scheme) : List (SymOf α) :=
  let ax := axis N c sch
  ax.flatMap fun im => ax.map fun re => ⟨re, im⟩

/-- The point `C[idx]`; the origin beyond the last index (log entry 20). -/
def pointAt (N : NumRec α) (pts : List (SymOf α)) (idx : Nat) : SymOf α := pts.getD idx ⟨N.zero, N.zero⟩

/-! ## Lengths -/

/-- `N ≠ 0` and `N` is a power of two, tested as R212 tests it. -/
def isPow2 (n : Nat) : Bool := decide (n ≠ 0) && decide (n &&& (n - 1) = 0)

/-! ## `Num` inputs and free values (R18) -/

/-- The `Num`s of a symbol sequence. -/
def symNums (xs : List (SymOf α)) : List α := xs.flatMap fun x => [x.re, x.im]

/-- What a command writes as its `j`-th `Num`: the computed value where every `Num` input is finite, else a free one. -/
def State.orFree (s : State α κ) (M : NumSystem α κ) (ok : Bool) (j : Nat) (x : α) : α :=
  if ok then x else M.freeNum s.freeCtr j

/-- The same for a sequence of values. -/
def State.orFreeVals (s : State α κ) (M : NumSystem α κ) (ok : Bool) (xs : List α) : List α :=
  xs.mapIdx fun j x => s.orFree M ok j x

/-- The same for a sequence of symbols. -/
def State.orFreeSyms (s : State α κ) (M : NumSystem α κ) (ok : Bool) (xs : List (SymOf α)) : List (SymOf α) :=
  xs.mapIdx fun j x => ⟨s.orFree M ok (2 * j) x.re, s.orFree M ok (2 * j + 1) x.im⟩

/-- `Draw(j)`: the `j`-th draw handed to this command; an open value where none was (R162). -/
def State.draw (s : State α κ) (M : NumSystem α κ) (j : Nat) : α := s.draws.getD j (M.freeDraw s.freeCtr j)

end Sys2Proof.Machine
end

