-- ==== Sys2Proof/Machine/Awgn.lean ====
section
/-! DEFINITION. The noise unit and the SNR conversions (spec/43_awgn.md R160 to R171), its formulas
over any record `Num`. -/

namespace Sys2Proof.Machine

variable {α κ : Type}

/-- `Lin(x) = pow10(x / 10)` (R160). -/
def lin (N : NumRec α) (x : α) : α := N.pow10 (N.div x (N.ofNat 10))

/-- `Db(y) = 10 · log10(y)` (R160). -/
def db (N : NumRec α) (y : α) : α := N.mul (N.ofNat 10) (N.log10 y)

/-- The variance per real dimension at a linear SNR, `1 / (2 · snr)` (R161, R165). -/
def noiseVariance (N : NumRec α) (snr : α) : α := N.div (N.ofNat 1) (N.mul (N.ofNat 2) snr)

/-- The noisy symbols: `Draw(2 s)` to the real part, `Draw(2 s + 1)` to the imaginary part of symbol `s` (R161, R162). -/
def addNoise (N : NumRec α) (sigma : α) (draw : Nat → α) (sym : List (SymOf α)) : List (SymOf α) :=
  sym.mapIdx fun s x =>
    ⟨N.add x.re (N.mul sigma (draw (2 * s))), N.add x.im (N.mul sigma (draw (2 * s + 1)))⟩

/-- `AWGN_ADD` (R161, R162). `ST` and `AUX0` are accepted and ignored. -/
def execAwgnAddOver (M : NumSystem α κ) (ss _st sd : ScalarIdx) (src len dst _bps : Word) (s : State α κ) :
    ResultOf α κ :=
  if !(fits src.toNat len.toNat s.cfg.smSyms && fits dst.toNat len.toNat s.cfg.smSyms) then s.raise .addr
  else
    let N := M.toNumRec
    let snr := lin N (s.scalar ss)
    let var := noiseVariance N snr
    let sigma := N.sqrt var
    let sym := s.symsAt M src.toNat len.toNat
    let draws := (List.range (2 * len.toNat)).map (s.draw M)
    let ok := M.allFinite (s.scalar ss :: symNums sym ++ draws)
    let out := s.orFreeSyms M ok (addNoise N sigma (s.draw M) sym)
    .next ((((((s.putSyms M dst.toNat out).setOlen len.toNat).setScalar sd (s.orFree M ok (2 * len.toNat) var)).setScalar
      (sd + 1) (s.orFree M ok (2 * len.toNat + 1) snr)).dropDraws (2 * len.toNat)).spendFree)

/-- `AWGN_ADD` in binary64. -/
def execAwgnAdd (ss st sd : ScalarIdx) (src len dst bps : Word) (s : State) : Result :=
  execAwgnAddOver s.cfg.system ss st sd src len dst bps s

/-- The check of R164: bitsPerSymbol at least 1 and a rate above 0. -/
def convertible (N : NumRec α) (bpsWord : Word) (rate : α) : Bool := decide (1 ≤ bpsWord.toNat) && N.lt N.zero rate

/-- A conversion's answer: `S[SD]` alone is written, free where `S[SS]` or `S[ST]` is not finite (R18, R164). -/
def State.convert (s : State α κ) (M : NumSystem α κ) (ss st sd : ScalarIdx) (bpsWord : Word) (f : α → α → α → α) :
    ResultOf α κ :=
  if !convertible M.toNumRec bpsWord (s.scalar st) then s.raise .param
  else
    let ok := M.allFinite [s.scalar ss, s.scalar st]
    let y := f (s.scalar ss) (M.ofNat bpsWord.toNat) (s.scalar st)
    .next ((s.setScalar sd (s.orFree M ok 0 y)).spendFree)

/-- `1 / (2 · (Lin(x) · bps · rate))` (R165). -/
def nvarOf (N : NumRec α) (x b rate : α) : α := noiseVariance N (N.mul (N.mul (lin N x) b) rate)

/-- `Db(Lin(x) / (bps · rate))` (R166). -/
def snrToEbn0Of (N : NumRec α) (x b rate : α) : α := db N (N.div (lin N x) (N.mul b rate))

/-- `Db(Lin(x) · bps · rate)` (R167). -/
def ebn0ToSnrOf (N : NumRec α) (x b rate : α) : α := db N (N.mul (N.mul (lin N x) b) rate)

/-- `NVAR_EBN0` (R165). -/
def execNvarEbn0Over (M : NumSystem α κ) (ss st sd : ScalarIdx) (bpsWord : Word) (s : State α κ) : ResultOf α κ :=
  s.convert M ss st sd bpsWord (nvarOf M.toNumRec)

/-- `NVAR_EBN0` in binary64. -/
def execNvarEbn0 (ss st sd : ScalarIdx) (bpsWord : Word) (s : State) : Result :=
  execNvarEbn0Over s.cfg.system ss st sd bpsWord s

/-- `SNR2EBN0` (R166). -/
def execSnr2ebn0Over (M : NumSystem α κ) (ss st sd : ScalarIdx) (bpsWord : Word) (s : State α κ) : ResultOf α κ :=
  s.convert M ss st sd bpsWord (snrToEbn0Of M.toNumRec)

/-- `SNR2EBN0` in binary64. -/
def execSnr2ebn0 (ss st sd : ScalarIdx) (bpsWord : Word) (s : State) : Result :=
  execSnr2ebn0Over s.cfg.system ss st sd bpsWord s

/-- `EBN02SNR` (R167). -/
def execEbn02snrOver (M : NumSystem α κ) (ss st sd : ScalarIdx) (bpsWord : Word) (s : State α κ) : ResultOf α κ :=
  s.convert M ss st sd bpsWord (ebn0ToSnrOf M.toNumRec)

/-- `EBN02SNR` in binary64. -/
def execEbn02snr (ss st sd : ScalarIdx) (bpsWord : Word) (s : State) : Result :=
  execEbn02snrOver s.cfg.system ss st sd bpsWord s

/-! ## Theoretical BER -/

/-- `t = 1 / (1 + p · |x|)` with the scale factor `p = 0.3275911` (R168). -/
def erfT (N : NumRec α) (x : α) : α :=
  N.div (N.ofNat 1) (N.add (N.ofNat 1) (N.mul (N.decimal false 3275911 10000000) (N.abs x)))

/-- The polynomial `((((a5·t + a4)·t + a3)·t + a2)·t + a1)·t` with the five coefficients of R168. -/
def erfPoly (N : NumRec α) (t : α) : α :=
  let coefficient := fun neg n => N.decimal neg n 1000000000
  let next := fun y a => N.add (N.mul y t) a
  let c4 := next (coefficient false 1061405429) (coefficient true 1453152027)
  let c3 := next c4 (coefficient false 1421413741)
  let c2 := next c3 (coefficient true 284496736)
  let c1 := next c2 (coefficient false 254829592)
  N.mul c1 t

/-- `Erf(x)`, sign-corrected for a negative argument (R168). -/
def erf (N : NumRec α) (x : α) : α :=
  let g := N.exp (N.mul (N.neg (N.abs x)) (N.abs x))
  let y := N.sub (N.ofNat 1) (N.mul (erfPoly N (erfT N x)) g)
  if N.negative x then N.neg y else y

/-- `Erfc(x) = 1 − Erf(x)` (R168). -/
def erfc (N : NumRec α) (x : α) : α := N.sub (N.ofNat 1) (erf N x)

/-- `0.5 · Erfc(sqrt(Lin(x)))` (R169). -/
def berOf (N : NumRec α) (x : α) : α := N.mul (N.decimal false 5 10) (erfc N (N.sqrt (lin N x)))

/-- `BER_BPSK` (R169). -/
def execBerBpskOver (M : NumSystem α κ) (ss sd : ScalarIdx) (s : State α κ) : ResultOf α κ :=
  let ok := M.allFinite [s.scalar ss]
  .next ((s.setScalar sd (s.orFree M ok 0 (berOf M.toNumRec (s.scalar ss)))).spendFree)

/-- `BER_BPSK` in binary64. -/
def execBerBpsk (ss sd : ScalarIdx) (s : State) : Result := execBerBpskOver s.cfg.system ss sd s

/-! ## Measured SNR -/

/-- `re·re + im·im` (R170). -/
def symPower (N : NumRec α) (re im : α) : α := N.add (N.mul re re) (N.mul im im)

/-- The mean signal power of the transmitted symbols, summed in increasing index order (R170). -/
def signalPower (N : NumRec α) (tx : List (SymOf α)) : α :=
  N.div (tx.foldl (fun p x => N.add p (symPower N x.re x.im)) N.zero) (N.ofNat tx.length)

/-- The mean error power of paired symbols (R170). -/
def errorPower (N : NumRec α) (pairs : List (SymOf α × SymOf α)) : α :=
  N.div (pairs.foldl (fun p x => N.add p (symPower N (N.sub x.2.re x.1.re) (N.sub x.2.im x.1.im))) N.zero)
    (N.ofNat pairs.length)

/-- `MEAS_SNR` (R170, R171). -/
def execMeasSnrOver (M : NumSystem α κ) (sd : ScalarIdx) (src len src2 len2 : Word) (s : State α κ) : ResultOf α κ :=
  if len.toNat = 0 then s.raise .param
  else if len ≠ len2 then s.raise .len
  else if !(fits src.toNat len.toNat s.cfg.smSyms && fits src2.toNat len2.toNat s.cfg.smSyms) then s.raise .addr
  else
    let N := M.toNumRec
    let tx := s.symsAt M src.toNat len.toNat
    let rx := s.symsAt M src2.toNat len2.toNat
    let ps := signalPower N tx
    let pe := errorPower N (tx.zip rx)
    if N.isZero ps then s.raise .param
    else if N.isZero pe then s.raise .param
    else
      let ok := M.allFinite (symNums tx ++ symNums rx)
      .next ((s.setScalar sd (s.orFree M ok 0 (db N (N.div ps pe)))).spendFree)

/-- `MEAS_SNR` in binary64. -/
def execMeasSnr (sd : ScalarIdx) (src len src2 len2 : Word) (s : State) : Result :=
  execMeasSnrOver s.cfg.system sd src len src2 len2 s

/-! ## The recommended realisation of a draw -/

/-- `sqrt(−2 · ln(u1)) · cos(2 · π · u2)` (R163): a recommendation for whoever supplies the draws. No command uses it. -/
def boxMuller (N : NumRec α) (u1 u2 : α) : α :=
  N.mul (N.sqrt (N.mul (N.neg (N.ofNat 2)) (N.ln u1))) (N.cos (N.mul (N.mul (N.ofNat 2) N.pi) u2))

end Sys2Proof.Machine
end

