-- ==== Sys2Proof/Machine/Flags.lean ====
section
/-! DEFINITION. The flags of `STATUS` (spec/10_state.md R22): who sets them, and the word the host reads. -/

namespace Sys2Proof.Machine

variable {α κ : Type}

/-- `STATUS.MATCH <- m`, which `CRC_VERIFY` alone writes (R22, R106). -/
def State.setMatch (s : State α κ) (m : Bool) : State α κ := { s with status := { s.status with matched := m } }

/-- The LDPC coder is constructed: its three registers and `STATUS.LV` (R26, R192). -/
def State.setLdpc (s : State α κ) (n k dc : Word) : State α κ :=
  { s with ldpcN := n, ldpcK := k, ldpcDc := dc, status := { s.status with lv := true } }

/-- The Polar coder is constructed: its two registers and `STATUS.PV` (R28, R212). -/
def State.setPolar (s : State α κ) (n k : Word) : State α κ :=
  { s with polarN := n, polarK := k, status := { s.status with pv := true } }

/-- `STATUS` as the host reads it: `FAULT` bit 0, `MATCH` bit 1, `LV` bit 2, `PV` bit 3, `ERR` bits 15:8, every other bit 0
(R22, U16). -/
def Status.toWord (f : Status) : Word :=
  BitVec.ofNat 32 (f.fault.toNat + f.matched.toNat * 2 + f.lv.toNat * 4 + f.pv.toNat * 8 + f.err.toNat * 256)

end Sys2Proof.Machine
end

