-- ==== Sys2Proof/Machine/Crc.lean ====
section
/-! DEFINITION. The CRC-16 unit (spec/40_crc.md R100 to R110). -/

namespace Sys2Proof.Machine

variable {α κ : Type}

/-- One step of the register for the input Bit `b`: 17 bits wide, the new bit at bit 0, and the polynomial XORed in where
bit 16 is set (R101). -/
def crcStep (poly reg : BitVec 16) (b : Bit) : BitVec 16 :=
  let t : BitVec 17 := (reg.setWidth 17 <<< 1) ||| (BitVec.ofBool b).setWidth 17
  if t.msb then t.setWidth 16 ^^^ poly else t.setWidth 16

/-- `Crc(data, poly)`: from 0xFFFF, the bits in increasing index order (R102). -/
def crc (poly : BitVec 16) (data : List Bit) : BitVec 16 := data.foldl (crcStep poly) Config.crcInit

/-- `bits_16(c)`, `c[15]` first (R54, R104). -/
def crcBits (c : BitVec 16) : List Bit := bitsMsb 16 c.toNat

/-- Whether a sequence ends in the CRC of the rest; one shorter than 16 bits does not (R106, R107). -/
def crcMatches (x : List Bit) : Bool :=
  decide (16 ≤ x.length) && crcBits (crc Config.crcPolyDefault (x.take (x.length - 16))) == x.drop (x.length - 16)

/-- `CRC16` (R102). -/
def execCrc16 (src len aux0 : Word) (s : State α κ) : ResultOf α κ :=
  if aux0.extractLsb' 16 16 ≠ 0#16 then s.raise .param
  else if !fits src.toNat len.toNat s.cfg.bmBits then s.raise .addr
  else
    let c := crc (aux0.extractLsb' 0 16) (s.readBits src.toNat len.toNat)
    .next ((s.setCrcReg c).setRes (c.setWidth 32))

/-- `CRC_APPEND` (R104). -/
def execCrcAppend (src len dst : Word) (s : State α κ) : ResultOf α κ :=
  if !(fits src.toNat len.toNat s.cfg.bmBits && fits dst.toNat (len.toNat + 16) s.cfg.bmBits) then s.raise .addr
  else
    let data := s.readBits src.toNat len.toNat
    let c := crc Config.crcPolyDefault data
    .next ((((s.writeBits dst.toNat (data ++ crcBits c)).setOlen (len.toNat + 16)).setCrcReg c).setRes (c.setWidth 32))

/-- `CRC_VERIFY` (R106, R107). -/
def execCrcVerify (src len : Word) (s : State α κ) : ResultOf α κ :=
  if !fits src.toNat len.toNat s.cfg.bmBits then s.raise .addr
  else
    let x := s.readBits src.toNat len.toNat
    let m := crcMatches x
    let c := if len.toNat < 16 then Config.crcInit else crc Config.crcPolyDefault (x.take (len.toNat - 16))
    .next (((s.setMatch m).setCrcReg c).setRes (if m then 1#32 else 0#32))

end Sys2Proof.Machine
end

