-- ==== Sys2Proof/Machine/Demodulator.lean ====
section
/-! DEFINITION. The hard and the soft demodulator (spec/42_demodulator.md R140 to R147), their formulas over any record
`Num`. -/

namespace Sys2Proof.Machine

variable {α κ : Type}

/-- `Dist(r, c)`: two subtractions, two squarings, one addition (R140). -/
def dist (N : NumRec α) (r c : SymOf α) : α :=
  let dr := N.sub r.re c.re
  let di := N.sub r.im c.im
  N.add (N.mul dr dr) (N.mul di di)

/-- The scan of R141: `best` and `dbest` so far, `idx` the index of the next point. -/
def nearestScan (N : NumRec α) (r : SymOf α) : Nat → α → Nat → List (SymOf α) → Nat
  | best, _, _, [] => best
  | best, dbest, idx, c :: rest =>
    let d := dist N r c
    if N.lt d dbest then nearestScan N r idx d (idx + 1) rest else nearestScan N r best dbest (idx + 1) rest

/-- `Nearest(r, sch)`: the first index of least distance in the constellation `pts` (R141). -/
def nearest (N : NumRec α) (pts : List (SymOf α)) (r : SymOf α) : Nat :=
  match pts with
  | [] => 0
  | c :: rest => nearestScan N r 0 (dist N r c) 1 rest

/-- The bits of a received symbol sequence (R142). -/
def hardBits (N : NumRec α) (c : Config) (sch : Scheme) (sym : List (SymOf α)) : List Bit :=
  sym.flatMap fun r => bitsMsb (bps sch) (nearest N (constellation N c sch) r)

/-- The least distance to the points of a list, kept as R141 keeps it: strict `<`, increasing index. -/
def minDist (N : NumRec α) (r : SymOf α) (pts : List (SymOf α)) : Option α :=
  pts.foldl
    (fun best c =>
      let d := dist N r c
      match best with
      | none => some d
      | some m => if N.lt d m then some d else some m)
    none

/-- The points whose index has the value `v` at position `p` of `b`, counted from the most significant bit (R143). -/
def subsetAt (b p : Nat) (v : Bit) (pts : List (SymOf α)) : List (SymOf α) :=
  (pts.zipIdx.filter fun x => x.2.testBit (b - 1 - p) == v).map Prod.fst

/-- `Llr(r, p, v)` over the constellation `pts` of `b` bits per symbol (R143). -/
def llr (N : NumRec α) (pts : List (SymOf α)) (b : Nat) (v : α) (r : SymOf α) (p : Nat) : α :=
  let min1 := (minDist N r (subsetAt b p true pts)).getD N.zero
  let min0 := (minDist N r (subsetAt b p false pts)).getD N.zero
  N.div (N.sub min1 min0) (N.mul (N.ofNat 2) v)

/-- The LLRs of a received symbol sequence, symbol-major, most significant index bit first (R144, R146). -/
def softVals (N : NumRec α) (c : Config) (sch : Scheme) (v : α) (sym : List (SymOf α)) : List α :=
  sym.flatMap fun r => (List.range (bps sch)).map (llr N (constellation N c sch) (bps sch) v r)

/-- `DEMOD_HARD` (R142). -/
def execDemodHardOver (M : NumSystem α κ) (sch : Scheme) (src len dst : Word) (s : State α κ) : ResultOf α κ :=
  if unknownScheme sch then s.raise .scheme
  else if !(fits src.toNat len.toNat s.cfg.smSyms && fits dst.toNat (len.toNat * bps sch) s.cfg.bmBits) then s.raise .addr
  else
    .next ((s.writeBits dst.toNat (hardBits M.toNumRec s.cfg sch (s.symsAt M src.toNat len.toNat))).setOlen
      (len.toNat * bps sch))

/-- `DEMOD_HARD` in binary64. -/
def execDemodHard (sch : Scheme) (src len dst : Word) (s : State) : Result :=
  execDemodHardOver s.cfg.system sch src len dst s

/-- `DEMOD_SOFT` (R144, R145). -/
def execDemodSoftOver (M : NumSystem α κ) (sch : Scheme) (ss : ScalarIdx) (src len dst : Word) (s : State α κ) :
    ResultOf α κ :=
  if unknownScheme sch then s.raise .scheme
  else if !M.lt M.zero (s.scalar ss) then s.raise .param
  else if !(fits src.toNat len.toNat s.cfg.smSyms && fits dst.toNat (len.toNat * bps sch) s.cfg.lmVals) then s.raise .addr
  else
    let sym := s.symsAt M src.toNat len.toNat
    let ok := M.allFinite (s.scalar ss :: symNums sym)
    let out := s.orFreeVals M ok (softVals M.toNumRec s.cfg sch (s.scalar ss) sym)
    .next (((s.putVals M dst.toNat out).setOlen (len.toNat * bps sch)).spendFree)

/-- `DEMOD_SOFT` in binary64. -/
def execDemodSoft (sch : Scheme) (ss : ScalarIdx) (src len dst : Word) (s : State) : Result :=
  execDemodSoftOver s.cfg.system sch ss src len dst s

end Sys2Proof.Machine
end

