-- ==== Sys2Proof/Machine/Ldpc.lean ====
section
/-! DEFINITION. The LDPC coder (spec/44_ldpc.md R190 to R199). -/

namespace Sys2Proof.Machine

variable {α κ : Type}

/-- `H[i][c]`, in the closed form of R191: `((c − i·dc) mod n) < dc`. -/
def ldpcEntry (n dc i c : Nat) : Bool := decide ((c + (n - i * dc % n)) % n < dc)

/-- The parity bit of row `i`: the XOR of the data bits whose column below `k` the row marks (R194). -/
def ldpcParity (n k dc : Nat) (d : List Bit) (i : Nat) : Bit :=
  (List.range k).foldl (fun b c => if ldpcEntry n dc i c then b ^^ d.getD c false else b) false

/-- A sequence truncated or padded with zeros to `k` bits (R194). -/
def fitBits (k : Nat) (x : List Bit) : List Bit := x.take k ++ List.replicate (k - x.length) false

/-- The codeword: the data bits, then the parity bits (R194). -/
def ldpcEncode (n k dc : Nat) (x : List Bit) : List Bit :=
  fitBits k x ++ (List.range (n - k)).map (ldpcParity n k dc (fitBits k x))

/-- The hard-decision threshold: 1 iff the LLR is below 0 (R196, R216). -/
def hardThreshold (N : NumRec α) (l : List α) : List Bit := l.map N.negative

/-- `LDPC_CFG` (R190, R192). -/
def execLdpcCfg (n p q : Word) (s : State α κ) : ResultOf α κ :=
  if n.toNat = 0 ∨ s.cfg.ldpcNMax < n.toNat ∨ p.toNat = 0 ∨ q.toNat ≤ p.toNat then s.raise .param
  else
    let k := n.toNat * p.toNat / q.toNat
    .next (s.setLdpc n (wordOf k) (wordOf (Config.dv * n.toNat / (n.toNat - k))))

/-- `LDPC_ENC` (R194). -/
def execLdpcEnc (src len dst : Word) (s : State α κ) : ResultOf α κ :=
  if !s.status.lv then s.raise .noCfg
  else if !(fits src.toNat len.toNat s.cfg.bmBits && fits dst.toNat s.ldpcN.toNat s.cfg.bmBits) then s.raise .addr
  else
    let x := s.readBits src.toNat len.toNat
    .next ((s.writeBits dst.toNat (ldpcEncode s.ldpcN.toNat s.ldpcK.toNat s.ldpcDc.toNat x)).setOlen s.ldpcN.toNat)

/-- `LDPC_DEC` (R196). `AUX0` is accepted and ignored. -/
def execLdpcDecOver (M : NumSystem α κ) (src len dst _maxIter : Word) (s : State α κ) : ResultOf α κ :=
  if !s.status.lv then s.raise .noCfg
  else if !(fits src.toNat len.toNat s.cfg.lmVals && fits dst.toNat (min len.toNat s.ldpcK.toNat) s.cfg.bmBits) then
    s.raise .addr
  else
    let m := min len.toNat s.ldpcK.toNat
    .next ((s.writeBits dst.toNat (hardThreshold M.toNumRec ((s.valsAt M src.toNat len.toNat).take m))).setOlen m)

/-- `LDPC_DEC` in binary64. -/
def execLdpcDec (src len dst maxIter : Word) (s : State) : Result :=
  execLdpcDecOver s.cfg.system src len dst maxIter s

end Sys2Proof.Machine
end

