-- ==== Sys2Proof/Machine/Modulator.lean ====
section
/-! DEFINITION. The modulator (spec/41_modulator.md R120 to R128), its formulas over any record `Num`. -/

namespace Sys2Proof.Machine

variable {α κ : Type}

/-- The indices of the chunks of `b` bits of a Bit sequence, the last one padded with zeros at its end (R125). -/
def chunkIndices (b : Nat) (bits : List Bit) : List Nat :=
  let n := ceilDiv bits.length b
  let padded := bits ++ List.replicate (n * b - bits.length) false
  (List.range n).map fun s => valMsb ((padded.drop (s * b)).take b)

/-- The symbols of a Bit sequence (R125, R126). -/
def modulateBits (N : NumRec α) (c : Config) (sch : Scheme) (bits : List Bit) : List (SymOf α) :=
  (chunkIndices (bps sch) bits).map (pointAt N (constellation N c sch))

/-- `GET_BPS` (R123). -/
def execGetBps (sch : Scheme) (s : State α κ) : ResultOf α κ := .next (s.setRes (BitVec.ofNat 32 (bps sch)))

/-- `GET_CONST` (R124). -/
def execGetConstOver (M : NumSystem α κ) (sch : Scheme) (dst : Word) (s : State α κ) : ResultOf α κ :=
  if unknownScheme sch then s.raise .scheme
  else if !fits dst.toNat (2 ^ bps sch) s.cfg.smSyms then s.raise .addr
  else .next ((s.putSyms M dst.toNat (constellation M.toNumRec s.cfg sch)).setOlen (2 ^ bps sch))

/-- `GET_CONST` in binary64. -/
def execGetConst (sch : Scheme) (dst : Word) (s : State) : Result := execGetConstOver s.cfg.system sch dst s

/-- `MOD` (R125). -/
def execModulateOver (M : NumSystem α κ) (sch : Scheme) (src len dst : Word) (s : State α κ) : ResultOf α κ :=
  if unknownScheme sch then s.raise .scheme
  else if !(fits src.toNat len.toNat s.cfg.bmBits && fits dst.toNat (ceilDiv len.toNat (bps sch)) s.cfg.smSyms) then
    s.raise .addr
  else
    .next ((s.putSyms M dst.toNat (modulateBits M.toNumRec s.cfg sch (s.readBits src.toNat len.toNat))).setOlen
      (ceilDiv len.toNat (bps sch)))

/-- `MOD` in binary64. -/
def execModulate (sch : Scheme) (src len dst : Word) (s : State) : Result := execModulateOver s.cfg.system sch src len dst s

end Sys2Proof.Machine
end

