-- ==== Sys2Proof/Machine/Polar.lean ====
section
/-! DEFINITION. The Polar coder (spec/45_polar.md R210 to R219). -/

namespace Sys2Proof.Machine

variable {α κ : Type}

/-- `BitRev(i, m)`: the `m`-bit number read backwards (R210). -/
def bitRev : Nat → Nat → Nat
  | 0, _ => 0
  | m + 1, i => (i % 2) * 2 ^ m + bitRev m (i / 2)

/-- `i` is an information position of `(N, K)` iff `BitRev(i, m) ≥ N − K` (R211). -/
def isInfo (n k i : Nat) : Bool := decide (n - k ≤ bitRev n.log2 i)

/-- `Info(N, K)`, ascending (R211). -/
def infoPositions (n k : Nat) : List Nat := (List.range n).filter (isInfo n k)

/-- `Frozen(N, K)`, ascending (R211). -/
def frozenPositions (n k : Nat) : List Nat := (List.range n).filter fun i => !isInfo n k i

/-- One stage: `u[i]` becomes `u[i] ^ u[i ^ dist]` for every `i < i ^ dist` (R213). -/
def butterflyStage (dist : Nat) (u : List Bit) : List Bit :=
  u.mapIdx fun i b => if i < i ^^^ dist then b ^^ u.getD (i ^^^ dist) false else b

/-- `PolarTransform(u)`: the stages 0 to `log2(len u) − 1` in order (R213). -/
def polarTransform (u : List Bit) : List Bit :=
  (List.range u.length.log2).foldl (fun v stage => butterflyStage (2 ^ stage) v) u

/-- The vector `u` of the encoder: data bit `t` at the `t`-th information position, 0 elsewhere (R215). -/
def placeBits (n k : Nat) (d : List Bit) : List Bit :=
  ((infoPositions n k).zip d).foldl (fun u x => u.set x.1 x.2) (List.replicate n false)

/-- The bits at the information positions, ascending (R216). -/
def takeInfo (n k : Nat) (u : List Bit) : List Bit := (infoPositions n k).map fun i => u.getD i false

/-- A length the transform accepts: a power of two, at most `2^POLAR_MMAX` (R212, R214). -/
def polarLength (c : Config) (n : Nat) : Bool := isPow2 n && decide (n ≤ 2 ^ c.polarMMax)

/-- `POLAR_CFG` (R212). -/
def execPolarCfg (n k : Word) (s : State α κ) : ResultOf α κ :=
  if !polarLength s.cfg n.toNat || decide (n.toNat < k.toNat) then s.raise .param
  else .next (s.setPolar n k)

/-- `POLAR_XFORM` (R214). -/
def execPolarXform (src len dst : Word) (s : State α κ) : ResultOf α κ :=
  if !polarLength s.cfg len.toNat then s.raise .param
  else if !(fits src.toNat len.toNat s.cfg.bmBits && fits dst.toNat len.toNat s.cfg.bmBits) then s.raise .addr
  else .next ((s.writeBits dst.toNat (polarTransform (s.readBits src.toNat len.toNat))).setOlen len.toNat)

/-- `POLAR_ENC` (R215). -/
def execPolarEnc (src len dst : Word) (s : State α κ) : ResultOf α κ :=
  if !s.status.pv then s.raise .noCfg
  else if len ≠ s.polarK then s.raise .len
  else if !(fits src.toNat len.toNat s.cfg.bmBits && fits dst.toNat s.polarN.toNat s.cfg.bmBits) then s.raise .addr
  else
    let d := s.readBits src.toNat s.polarK.toNat
    .next ((s.writeBits dst.toNat (polarTransform (placeBits s.polarN.toNat s.polarK.toNat d))).setOlen s.polarN.toNat)

/-- `POLAR_DEC` (R216). `AUX0` is accepted and ignored. -/
def execPolarDecOver (M : NumSystem α κ) (src len dst _listSize : Word) (s : State α κ) : ResultOf α κ :=
  if !s.status.pv then s.raise .noCfg
  else if len ≠ s.polarN then s.raise .len
  else if !(fits src.toNat len.toNat s.cfg.lmVals && fits dst.toNat s.polarK.toNat s.cfg.bmBits) then s.raise .addr
  else
    let u := polarTransform (hardThreshold M.toNumRec (s.valsAt M src.toNat s.polarN.toNat))
    .next ((s.writeBits dst.toNat (takeInfo s.polarN.toNat s.polarK.toNat u)).setOlen s.polarK.toNat)

/-- `POLAR_DEC` in binary64. -/
def execPolarDec (src len dst listSize : Word) (s : State) : Result :=
  execPolarDecOver s.cfg.system src len dst listSize s

end Sys2Proof.Machine
end

