-- ==== Sys2Proof/Machine/System.lean ====
section
/-! DEFINITION. The system commands (spec/46_system_ops.md R230, R231). -/

namespace Sys2Proof.Machine

variable {α κ : Type}

/-- `NOP`: no state changes at all (R230). -/
def execNop (s : State α κ) : ResultOf α κ := .next s

/-- `SETS`: `S[SD] <-` the `Num` whose pattern is `AUX1:AUX0` (R231). -/
def execSetsOver (M : NumSystem α κ) (sd : ScalarIdx) (aux0 aux1 : Word) (s : State α κ) : ResultOf α κ :=
  .next (s.setScalar sd (M.ofPattern (joinWords aux1 aux0)))

/-- `SETS` in binary64. -/
def execSets (sd : ScalarIdx) (aux0 aux1 : Word) (s : State) : Result := execSetsOver s.cfg.system sd aux0 aux1 s

end Sys2Proof.Machine
end

