-- ==== Sys2Proof/Machine/Dispatch.lean ====
section
/-! DEFINITION. One arm per command (spec/30_encoding.md R75). -/

namespace Sys2Proof.Machine

def exec (i : Instr) (s : State) : Host.Outcome State Fault Refusal :=
  match i with
  | .nop => Sys2Proof.Machine.execNop s
  | .sets sd aux0 aux1 => Sys2Proof.Machine.execSets sd aux0 aux1 s
  | .crc16 src len aux0 => Sys2Proof.Machine.execCrc16 src len aux0 s
  | .crcAppend src len dst => Sys2Proof.Machine.execCrcAppend src len dst s
  | .crcVerify src len => Sys2Proof.Machine.execCrcVerify src len s
  | .modulate sch src len dst => Sys2Proof.Machine.execModulate sch src len dst s
  | .getBps sch => Sys2Proof.Machine.execGetBps sch s
  | .getConst sch dst => Sys2Proof.Machine.execGetConst sch dst s
  | .demodHard sch src len dst => Sys2Proof.Machine.execDemodHard sch src len dst s
  | .demodSoft sch ss src len dst => Sys2Proof.Machine.execDemodSoft sch ss src len dst s
  | .awgnAdd ss st sd src len dst bps => Sys2Proof.Machine.execAwgnAdd ss st sd src len dst bps s
  | .nvarEbn0 ss st sd bps => Sys2Proof.Machine.execNvarEbn0 ss st sd bps s
  | .snr2ebn0 ss st sd bps => Sys2Proof.Machine.execSnr2ebn0 ss st sd bps s
  | .ebn02snr ss st sd bps => Sys2Proof.Machine.execEbn02snr ss st sd bps s
  | .berBpsk ss sd => Sys2Proof.Machine.execBerBpsk ss sd s
  | .measSnr sd src len src2 len2 => Sys2Proof.Machine.execMeasSnr sd src len src2 len2 s
  | .ldpcCfg n p q => Sys2Proof.Machine.execLdpcCfg n p q s
  | .ldpcEnc src len dst => Sys2Proof.Machine.execLdpcEnc src len dst s
  | .ldpcDec src len dst maxIter => Sys2Proof.Machine.execLdpcDec src len dst maxIter s
  | .polarCfg n k => Sys2Proof.Machine.execPolarCfg n k s
  | .polarEnc src len dst => Sys2Proof.Machine.execPolarEnc src len dst s
  | .polarDec src len dst listSize => Sys2Proof.Machine.execPolarDec src len dst listSize s
  | .polarXform src len dst => Sys2Proof.Machine.execPolarXform src len dst s

end Sys2Proof.Machine
end

