-- ==== Sys2Proof/Machine/Over.lean ====
section
/-! DEFINITION. The machine over every instance of its parameter `Num` (spec/00_scope.md R12, R16). The instance is an argument
here, since a record of functions is no plain data; `exec` runs the binary64 instance of the host interface, and
Machine/Reals.lean gives the exact reals, the spec's reference meaning. -/

namespace Sys2Proof.Machine

variable {α κ : Type}

/-- One arm per command (R75), over the system `M`. -/
def execOver (M : NumSystem α κ) (i : Instr) (s : State α κ) : ResultOf α κ :=
  match i with
  | .nop => execNop s
  | .sets sd aux0 aux1 => execSetsOver M sd aux0 aux1 s
  | .crc16 src len aux0 => execCrc16 src len aux0 s
  | .crcAppend src len dst => execCrcAppend src len dst s
  | .crcVerify src len => execCrcVerify src len s
  | .modulate sch src len dst => execModulateOver M sch src len dst s
  | .getBps sch => execGetBps sch s
  | .getConst sch dst => execGetConstOver M sch dst s
  | .demodHard sch src len dst => execDemodHardOver M sch src len dst s
  | .demodSoft sch ss src len dst => execDemodSoftOver M sch ss src len dst s
  | .awgnAdd ss st sd src len dst bps => execAwgnAddOver M ss st sd src len dst bps s
  | .nvarEbn0 ss st sd bps => execNvarEbn0Over M ss st sd bps s
  | .snr2ebn0 ss st sd bps => execSnr2ebn0Over M ss st sd bps s
  | .ebn02snr ss st sd bps => execEbn02snrOver M ss st sd bps s
  | .berBpsk ss sd => execBerBpskOver M ss sd s
  | .measSnr sd src len src2 len2 => execMeasSnrOver M sd src len src2 len2 s
  | .ldpcCfg n p q => execLdpcCfg n p q s
  | .ldpcEnc src len dst => execLdpcEnc src len dst s
  | .ldpcDec src len dst maxIter => execLdpcDecOver M src len dst maxIter s
  | .polarCfg n k => execPolarCfg n k s
  | .polarEnc src len dst => execPolarEnc src len dst s
  | .polarDec src len dst listSize => execPolarDecOver M src len dst listSize s
  | .polarXform src len dst => execPolarXform src len dst s

/-! ## An implementation -/

/-- The parameters of R12: the rows that are plain data, and the row `Num`. -/
structure Implementation (α κ : Type) where
  /-- every row but `Num` -/
  params : Config
  /-- the row `Num`: exact reals for proofs (`Implementation.forProofs`), binary64 on the host interface
  (`Implementation.onHost`), or any other record (log entry 3) -/
  num : NumSystem α κ

/-- The engine's meaning of a command. -/
def Implementation.exec (I : Implementation α κ) (i : Instr) (s : State α κ) : ResultOf α κ := execOver I.num i s

/-- The engine right after reset (R311); `S0..S7` hold the zero of `Num` (log entry 8). -/
def Implementation.reset (I : Implementation α κ) : State α κ where
  status := Status.reset
  res := 0#32
  olen := 0#32
  ldpcN := Config.ldpcNDefault
  ldpcK := 0#32
  ldpcDc := 0#32
  polarN := 0#32
  polarK := 0#32
  crcReg := Config.crcInit
  scalars := Vector.replicate 8 I.num.zero
  cmdw := Vector.replicate 8 0#32
  bm := []
  sm := []
  lm := []
  cfg := I.params
  epoch := 0
  freeCtr := 0
  draws := []
  inputs := []
  readData := 0#64

/-- The doorbell of an engine whose commands mean `run`: nothing at all while `FAULT` is 1 (R284); `ERR_ILLEGAL` where the
staged words are no command (R78); else the command's meaning (R32, R77). -/
def State.ring (s : State α κ) (run : Instr → State α κ → ResultOf α κ) : ResultOf α κ :=
  if s.status.fault then .next s
  else
    match decode s.cmdw with
    | .error _ => s.raise .illegal
    | .ok i => run i s

/-- The engine's doorbell. -/
def Implementation.doorbell (I : Implementation α κ) (s : State α κ) : ResultOf α κ := s.ring I.exec

/-- The engine that the host sees: the binary64 instance that the configuration names. `exec` is its meaning of a command. -/
def Implementation.onHost (c : Config) : Implementation Num64 Byte := ⟨c, c.system⟩

end Sys2Proof.Machine
end

