-- ==== Sys2Proof/Machine/HostPort.lean ====
section
/-! DEFINITION. The host's side of the engine (spec/00_scope.md R10, spec/10_state.md R32, R35, spec/20_memory.md R52 to
R57): the address map, the byte views of registers and memories, the doorbell and the soft reset. -/

namespace Sys2Proof.Machine

/-! ## The address map (R52) -/

/-- The ranges of the host map. -/
inductive Region where
  | registers
  | bmWindow
  | smWindow
  | lmWindow
deriving DecidableEq, Repr

/-- The range that a host address lies in and its offset there, if it lies in one (R52). -/
def hostRegion (c : Config) (a : Nat) : Option (Region × Nat) :=
  if c.regBase ≤ a ∧ a < c.regBase + 0x100 then some (.registers, a - c.regBase)
  else if c.bmBase ≤ a ∧ a < c.bmBase + c.bmBits / 8 then some (.bmWindow, a - c.bmBase)
  else if c.smBase ≤ a ∧ a < c.smBase + 16 * c.smSyms then some (.smWindow, a - c.smBase)
  else if c.lmBase ≤ a ∧ a < c.lmBase + 8 * c.lmVals then some (.lmWindow, a - c.lmBase)
  else none

/-- The bytes of a transaction. -/
def Width.bytes : Width → Nat
  | .w8 => 1
  | .w32 => 4
  | .w64 => 8

/-- The widths a range has: a byte in `BM` (R53); a word in the register block, and 64 bits at `S0..S7` (R55, R56); a word
or 64 bits in `SM` and `LM` (R56). -/
def widthAllowed (g : Region) (off : Nat) : Width → Bool
  | .w8 => g == .bmWindow
  | .w32 => g != .bmWindow
  | .w64 => g == .smWindow || g == .lmWindow || (g == .registers && decide (0x040 ≤ off ∧ off < 0x080))

/-- A host transaction's place, or why it is refused (R52, R55, R56, R57, U12). -/
def hostPlace (c : Config) (w : Width) (a : Nat) : Except Refusal (Region × Nat) :=
  match hostRegion c a with
  | none => .error .hostUnmapped
  | some (g, off) =>
    if !widthAllowed g off w then .error .hostWidth
    else if off % w.bytes = 0 then .ok (g, off)
    else .error .hostMisaligned

/-! ## Byte views -/

/-- The low `n` bytes of a value, little-endian. -/
def bytesOf (n : Nat) (v : BitVec 64) : List Byte := (List.range n).map fun i => v.extractLsb' (8 * i) 8

/-- One half of a `Num`, low half first (R35, R56). -/
def numHalf (x : Num64) (h : Nat) : Word := if h = 0 then x.bits.extractLsb' 0 32 else x.bits.extractLsb' 32 32

/-- A `Num` with one half replaced (R56, R322). R56 gives the halves as low word first; that each acts alone and in any order is
the model's choice (log entry 26). -/
def setNumHalf (x : Num64) (h : Nat) (w : Word) : Num64 :=
  if h = 0 then ⟨joinWords (numHalf x 1) w⟩ else ⟨joinWords w (numHalf x 0)⟩

/-- Byte `off` of `BM`: bit address `8 off + t` is bit `7 − t` (R53). -/
def State.readBmByte (s : State) (off : Nat) : Byte := BitVec.ofNat 8 (valMsb (s.readBits (8 * off) 8))

/-- The scalar register at a host offset from 0x040 to 0x07F (R31). -/
def scalarAt (off : Nat) : ScalarIdx := Fin.ofNat 8 ((off - 0x040) / 8)

/-- The 32-bit register at an aligned offset of the register block. An offset not listed reads as 0, as `DOORBELL` does
(R32, R35, U17). -/
def State.readReg (s : State) (off : Nat) : Word :=
  if off = 0x000 then s.status.toWord
  else if off = 0x004 then s.res
  else if off = 0x008 then s.olen
  else if off = 0x00C then s.ldpcN
  else if off = 0x010 then s.ldpcK
  else if off = 0x014 then s.ldpcDc
  else if off = 0x018 then s.polarN
  else if off = 0x01C then s.polarK
  else if off = 0x020 then s.crcReg.setWidth 32
  else if 0x040 ≤ off ∧ off < 0x080 then numHalf (s.scalar (scalarAt off)) (off / 4 % 2)
  else if 0x080 ≤ off ∧ off < 0x0A0 then (s.cmdw[(off - 0x080) / 4]?).getD 0#32
  else if off = 0x0C0 then Config.softResetRead
  else 0#32

/-- The data of a host read of an admitted width at an admitted place (R53, R55, R56). No read changes the engine (R58). -/
def State.hostLoad (s : State) (w : Width) (g : Region) (off : Nat) : BitVec 64 :=
  match g, w with
  | .bmWindow, _ => (s.readBmByte off).setWidth 64
  | .registers, .w64 => (s.scalar (scalarAt off)).bits
  | .registers, _ => (s.readReg off).setWidth 64
  | .smWindow, .w64 => (Num64.ofBytes fun i => s.readSmByte (off + i)).bits
  | .smWindow, _ => (wordOfBytes fun i => s.readSmByte (off + i)).setWidth 64
  | .lmWindow, .w64 => (Num64.ofBytes fun i => s.readLmByte (off + i)).bits
  | .lmWindow, _ => (wordOfBytes fun i => s.readLmByte (off + i)).setWidth 64

/-! ## The doorbell (R32, R70, R77) -/

/-- The command `W0..W7` runs (R32, R77). -/
def State.doorbell (s : State) : Result := s.ring exec

/-- A host write to the register block: `S0..S7` and `CMDW0..CMDW7` take it, `DOORBELL` runs the staged command,
`SOFT_RESET` resets; every other offset ignores it (R32, R35). -/
def State.writeReg (s : State) (w : Width) (off : Nat) (data : BitVec 64) : Result :=
  if 0x040 ≤ off ∧ off < 0x080 then
    match w with
    | .w64 => .next (s.setScalar (scalarAt off) ⟨data⟩)
    | _ => .next (s.setScalar (scalarAt off) (setNumHalf (s.scalar (scalarAt off)) (off / 4 % 2) (data.setWidth 32)))
  else if 0x080 ≤ off ∧ off < 0x0A0 then .next (s.setCmdw ((off - 0x080) / 4) (data.setWidth 32))
  else if off = 0x0A0 then s.doorbell
  else if off = 0x0C0 then .next s.afterReset
  else .next s

/-- A host write of an admitted width at an admitted place (R53, R55, R56). A 32-bit half of a `Num` is written at once,
whichever half it is and whatever came before: the model's choice, where R56 gives low word first (log entry 26). -/
def State.hostStore (s : State) (w : Width) (g : Region) (off : Nat) (data : BitVec 64) : Result :=
  match g with
  | .registers => s.writeReg w off data
  | .bmWindow => .next (s.writeBits (8 * off) (bitsMsb 8 (data.toNat % 256)))
  | .smWindow => .next (s.writeSmCells off (bytesOf w.bytes data))
  | .lmWindow => .next (s.writeLmCells off (bytesOf w.bytes data))

/-! ## One input -/

/-- What one input does to the machine (R10, R234, R310). -/
def State.take (s : State) : Input → Result
  | .hostRead w a =>
    match hostPlace s.cfg w a with
    | .ok (g, off) => .next (s.setReadData (s.hostLoad w g off))
    | .error r => .refused r
  | .hostWrite w a data =>
    match hostPlace s.cfg w a with
    | .ok (g, off) => s.hostStore w g off data
    | .error r => .refused r
  | .hardReset => .next s.afterReset

/-- The host write that rings the doorbell (R32). -/
def ringDoorbell (c : Config) : Input := .hostWrite .w32 (c.regBase + 0x0A0) 1#64

/-- The host write that resets the engine (R32). -/
def ringSoftReset (c : Config) : Input := .hostWrite .w32 (c.regBase + 0x0C0) 1#64

/-- The state with a command staged and its doorbell next. -/
def State.stage (s : State) (w : Words) : State :=
  { s with cmdw := w, inputs := ringDoorbell s.cfg :: s.inputs }

end Sys2Proof.Machine
end

