-- ==== Sys2Proof/Machine/Step.lean ====
section
/-! DEFINITION. One step of the machine: the next input is taken (spec/46_system_ops.md R234: "one transition per action").
With no input pending the engine is idle (R310). -/

namespace Sys2Proof.Machine

/-- One step. -/
def step (s : State) : Host.Outcome State Fault Refusal :=
  match s.inputs with
  | [] => .next s
  | a :: rest => (s.setInputs rest).take a

/-- `s` with the command of the opcode table's bits `w` staged in `CMDW0..CMDW7` and the doorbell write next, so that the
very next step runs it. -/
def State.withFetchWord (s : State) (nbits w : Nat) : State := s.stage (tableWords nbits w)

end Sys2Proof.Machine
end

