-- ==== Sys2Proof/Machine/Assembler.lean ====
section
/-! DEFINITION. The assembler syntax of the spec's programs (spec/30_encoding.md R79 to R81): one command a line,
`MNEMONIC key=value, ...`, with the aliases and the defaults of R80 and the pseudo-instructions of R81. It belongs to no
unit of the engine; the doorbell never sees it. -/

namespace Sys2Proof.Machine

/-- The mnemonics of R75 and the two pseudo-instructions of R81. -/
inductive Mnemonic where
  | nop | sets | crc16 | crcAppend | crcVerify | mod | getBps | getConst | demodHard | demodSoft | awgnAdd
  | nvarEbn0 | snr2ebn0 | ebn02snr | berBpsk | measSnr | ldpcCfg | ldpcEnc | ldpcDec | polarCfg | polarEnc
  | polarDec | polarXform | ldpcCfg648 | loaddb
deriving DecidableEq, Repr

/-- The fields of a command (R71, R72). -/
structure AsmFields where
  sch : BitVec 3
  ss : ScalarIdx
  st : ScalarIdx
  sd : ScalarIdx
  src : Word
  len : Word
  dst : Word
  src2 : Word
  len2 : Word
  aux0 : Word
  aux1 : Word
deriving DecidableEq, Repr

/-- The value of an assignment (R79): an unsigned integer, a scheme name, a register name, or a decimal real `±n/d`. -/
inductive AsmValue where
  | int (n : Nat)
  | scheme (s : BitVec 3)
  | scalar (i : ScalarIdx)
  | real (neg : Bool) (n d : Nat)
deriving DecidableEq, Repr

/-- The mnemonic's spelling (R75, R81). -/
def Mnemonic.spelling : Mnemonic → String
  | .nop => "NOP" | .sets => "SETS" | .crc16 => "CRC16" | .crcAppend => "CRC_APPEND" | .crcVerify => "CRC_VERIFY"
  | .mod => "MOD" | .getBps => "GET_BPS" | .getConst => "GET_CONST" | .demodHard => "DEMOD_HARD"
  | .demodSoft => "DEMOD_SOFT" | .awgnAdd => "AWGN_ADD" | .nvarEbn0 => "NVAR_EBN0" | .snr2ebn0 => "SNR2EBN0"
  | .ebn02snr => "EBN02SNR" | .berBpsk => "BER_BPSK" | .measSnr => "MEAS_SNR" | .ldpcCfg => "LDPC_CFG"
  | .ldpcEnc => "LDPC_ENC" | .ldpcDec => "LDPC_DEC" | .polarCfg => "POLAR_CFG" | .polarEnc => "POLAR_ENC"
  | .polarDec => "POLAR_DEC" | .polarXform => "POLAR_XFORM" | .ldpcCfg648 => "LDPC_CFG648" | .loaddb => "LOADDB"

/-- Every mnemonic. -/
def Mnemonic.all : List Mnemonic :=
  [.nop, .sets, .crc16, .crcAppend, .crcVerify, .mod, .getBps, .getConst, .demodHard, .demodSoft, .awgnAdd, .nvarEbn0,
    .snr2ebn0, .ebn02snr, .berBpsk, .measSnr, .ldpcCfg, .ldpcEnc, .ldpcDec, .polarCfg, .polarEnc, .polarDec, .polarXform,
    .ldpcCfg648, .loaddb]

/-- The opcode a mnemonic assembles to (R75, R81). -/
def Mnemonic.opcode : Mnemonic → Byte
  | .nop => 0x00#8 | .sets => 0x01#8 | .crc16 => 0x10#8 | .crcAppend => 0x11#8 | .crcVerify => 0x12#8
  | .mod => 0x20#8 | .getBps => 0x21#8 | .getConst => 0x22#8 | .demodHard => 0x28#8 | .demodSoft => 0x29#8
  | .awgnAdd => 0x30#8 | .nvarEbn0 => 0x31#8 | .snr2ebn0 => 0x32#8 | .ebn02snr => 0x33#8 | .berBpsk => 0x34#8
  | .measSnr => 0x35#8 | .ldpcCfg => 0x40#8 | .ldpcEnc => 0x41#8 | .ldpcDec => 0x42#8 | .polarCfg => 0x50#8
  | .polarEnc => 0x51#8 | .polarDec => 0x52#8 | .polarXform => 0x53#8 | .ldpcCfg648 => 0x40#8 | .loaddb => 0x01#8

/-- The defaults of R80; an omitted key is 0 elsewhere (R79). `LDPC_CFG648` fixes n at 648 (R81). -/
def Mnemonic.defaults (m : Mnemonic) : AsmFields :=
  let z : AsmFields := { sch := 0, ss := 0, st := 0, sd := 0, src := 0, len := 0, dst := 0, src2 := 0, len2 := 0, aux0 := 0, aux1 := 0 }
  match m with
  | .crc16 => { z with aux0 := 0x1021#32 }
  | .ldpcDec => { z with aux0 := 50#32 }
  | .polarDec => { z with aux0 := 8#32 }
  | .ldpcCfg => { z with len := 648#32 }
  | .ldpcCfg648 => { z with len := 648#32 }
  | _ => z

/-- The field name that a key stands for with a mnemonic: a field's own name, or an alias of R80 or R81. R81 gives `LDPC_CFG648`
with the keys `p` and `q` alone and n at 648; that `len` is refused there, and that every other field name is taken as R79 takes
it, is the model's choice (log entry 23). -/
def Mnemonic.resolve (m : Mnemonic) (key : String) : Option String :=
  if m = .ldpcCfg648 ∧ key = "len" then none else
  if ["sch", "ss", "st", "sd", "src", "len", "dst", "src2", "len2", "aux0", "aux1"].contains key then some key
  else
    match m, key with
    | .crc16, "poly" => some "aux0"
    | .ldpcDec, "maxiter" => some "aux0"
    | .polarDec, "list" => some "aux0"
    | .ldpcCfg, "n" => some "len"
    | .ldpcCfg, "p" => some "aux0"
    | .ldpcCfg, "q" => some "aux1"
    | .ldpcCfg648, "p" => some "aux0"
    | .ldpcCfg648, "q" => some "aux1"
    | .polarCfg, "n" => some "len"
    | .polarCfg, "k" => some "aux0"
    | .nvarEbn0, "bps" => some "aux0"
    | .snr2ebn0, "bps" => some "aux0"
    | .ebn02snr, "bps" => some "aux0"
    | .awgnAdd, "bps" => some "aux0"
    | .sets, "val" => some "val"
    | .loaddb, "val" => some "val"
    | _, _ => none

/-- An integer value as a 32-bit field, if it fits. -/
def AsmValue.word? : AsmValue → Option Word
  | .int n => if n < 2 ^ 32 then some (BitVec.ofNat 32 n) else none
  | _ => none

/-- A value as a scheme code (R79). -/
def AsmValue.sch? : AsmValue → Option (BitVec 3)
  | .scheme s => some s
  | .int n => if n < 8 then some (BitVec.ofNat 3 n) else none
  | _ => none

/-- A value as a scalar register (R79). -/
def AsmValue.idx? : AsmValue → Option ScalarIdx
  | .scalar i => some i
  | .int n => if n < 8 then some (Fin.ofNat 8 n) else none
  | _ => none

/-- A decimal real as the nearest binary64, ties to even (R79). R79 gives `val` a decimal real; that an integer, a hexadecimal one
too, stands for the real of that value and not for the pattern `aux1:aux0`, is the model's choice (log entry 23). -/
def AsmValue.num? : AsmValue → Option Num64
  | .real neg n d => some (Num64.ofDecimal neg n d)
  | .int n => some (Num64.ofDecimal false n 1)
  | _ => none

/-- One assignment to a field. -/
def AsmFields.assign (f : AsmFields) (field : String) (v : AsmValue) : Option AsmFields :=
  match field with
  | "sch" => v.sch?.map fun x => { f with sch := x }
  | "ss" => v.idx?.map fun x => { f with ss := x }
  | "st" => v.idx?.map fun x => { f with st := x }
  | "sd" => v.idx?.map fun x => { f with sd := x }
  | "src" => v.word?.map fun x => { f with src := x }
  | "len" => v.word?.map fun x => { f with len := x }
  | "dst" => v.word?.map fun x => { f with dst := x }
  | "src2" => v.word?.map fun x => { f with src2 := x }
  | "len2" => v.word?.map fun x => { f with len2 := x }
  | "aux0" => v.word?.map fun x => { f with aux0 := x }
  | "aux1" => v.word?.map fun x => { f with aux1 := x }
  | "val" => v.num?.map fun x => { f with aux0 := x.bits.extractLsb' 0 32, aux1 := x.bits.extractLsb' 32 32 }
  | _ => none

/-- The words of the fields with a mnemonic's opcode; every reserved bit is 0 (R79). -/
def AsmFields.words (f : AsmFields) (m : Mnemonic) : Words :=
  #v[packW0 m.opcode f.sch f.ss f.st f.sd, f.src, f.len, f.dst, f.src2, f.len2, f.aux0, f.aux1]

/-- The words of one line's mnemonic and assignments (R79 to R81); none for a key or a value the syntax does not have. -/
def assemble (m : Mnemonic) (args : List (String × AsmValue)) : Option Words :=
  let step := fun (f : Option AsmFields) (kv : String × AsmValue) =>
    f.bind fun f => (m.resolve kv.1).bind fun field => f.assign field kv.2
  (args.foldl step (some m.defaults)).map fun f => f.words m

/-! ## Text -/

/-- The value of a digit in a base up to 16. -/
def digit? (base : Nat) (c : Char) : Option Nat :=
  let n := c.toNat
  let v :=
    if 48 ≤ n ∧ n ≤ 57 then n - 48
    else if 97 ≤ n ∧ n ≤ 102 then n - 87
    else if 65 ≤ n ∧ n ≤ 70 then n - 55
    else 16
  if v < base then some v else none

/-- A non-empty run of digits. -/
def digits? (base : Nat) (cs : List Char) : Option Nat :=
  if cs = [] then none
  else cs.foldl (fun acc c => acc.bind fun a => (digit? base c).map fun d => a * base + d) (some 0)

/-- A decimal real without its sign. -/
def decimal? (neg : Bool) (cs : List Char) : Option AsmValue :=
  let whole := cs.takeWhile (· ≠ '.')
  let frac := (cs.dropWhile (· ≠ '.')).drop 1
  if cs.contains '.' then
    (digits? 10 (whole ++ frac)).map fun n => .real neg n (10 ^ frac.length)
  else (digits? 10 whole).map fun n => .real neg n 1

/-- A value (R79). -/
def value? (cs : List Char) : Option AsmValue :=
  if cs = "qpsk".toList then some (.scheme 0)
  else if cs = "16qam".toList then some (.scheme 1)
  else if cs = "64qam".toList then some (.scheme 2)
  else if cs = "256qam".toList then some (.scheme 3)
  else
    match cs with
    | 'S' :: rest => (digits? 10 rest).bind fun n => if n < 8 then some (.scalar (Fin.ofNat 8 n)) else none
    | '0' :: 'x' :: rest => (digits? 16 rest).map .int
    | '-' :: rest => decimal? true rest
    | '−' :: rest => decimal? true rest
    | cs => if cs.contains '.' then decimal? false cs else (digits? 10 cs).map .int

/-- A text without the spaces around it. -/
def trimSpaces (cs : List Char) : List Char :=
  ((cs.dropWhile (· = ' ')).reverse.dropWhile (· = ' ')).reverse

/-- A text cut at every `sep`. -/
def cutAt (sep : Char) : List Char → List (List Char)
  | [] => [[]]
  | c :: cs =>
    match cutAt sep cs with
    | [] => [[c]]
    | p :: ps => if c = sep then [] :: p :: ps else (c :: p) :: ps

/-- One `key=value`. -/
def assignment? (cs : List Char) : Option (String × AsmValue) :=
  match cutAt '=' (trimSpaces cs) with
  | [k, v] => (value? (trimSpaces v)).map fun x => (String.ofList (trimSpaces k), x)
  | _ => none

/-- Every assignment of a list, if each is one. -/
def assignments? : List (List Char) → Option (List (String × AsmValue))
  | [] => some []
  | a :: rest => (assignment? a).bind fun x => (assignments? rest).map fun xs => x :: xs

/-- The words of one line of text; `;` starts a comment (R79). -/
def assembleLine (line : String) : Option Words :=
  let code := trimSpaces (line.toList.takeWhile (· ≠ ';'))
  let name := code.takeWhile (· ≠ ' ')
  let rest := trimSpaces (code.dropWhile (· ≠ ' '))
  (Mnemonic.all.find? fun m => m.spelling.toList == name).bind fun m =>
    (if rest = [] then some [] else assignments? (cutAt ',' rest)).bind fun args => assemble m args

end Sys2Proof.Machine
end

