-- ==== Sys2Proof/Machine/Reals.lean ====
section
/-! DEFINITION. The instance of exact reals of the record `Num`, the spec's reference meaning (spec/00_scope.md R12, R16),
and the laws that the spec's bit-exact properties may rest on (R17). -/

namespace Sys2Proof.Machine

open Classical in
/-- The exact reals, the default of R12 for proofs. A division by zero, and a root or a logarithm outside its domain, take
Mathlib's value, which no claim rests on (log entry 3). -/
noncomputable def exactReals : NumRec ℝ where
  zero := 0
  ofNat n := n
  decimal neg n d := if neg then -(n / d : ℝ) else n / d
  add a b := a + b
  sub a b := a - b
  mul a b := a * b
  div a b := a / b
  neg a := -a
  abs a := |a|
  sqrt a := Real.sqrt a
  pow10 a := (10 : ℝ) ^ a
  log10 a := Real.logb 10 a
  log2 a := Real.logb 2 a
  ln a := Real.log a
  exp a := Real.exp a
  cos a := Real.cos a
  pi := Real.pi
  lt a b := decide (a < b)
  isZero a := decide (a = 0)

/-- The exact reals as a machine runs on them: one cell a value. A pattern that is no finite binary64 stands for no real, and
loads an open one. -/
noncomputable def realSystem : NumSystem ℝ ℝ :=
  { exactReals with
    finite := fun _ => true
    ofPattern := fun v => if (⟨v⟩ : Num64).isFinite then ((⟨v⟩ : Num64).toRat : ℝ) else Config.openReal 0 0 v.toNat
    cellsPerNum := 1
    toCells := fun x => [x]
    ofCells := fun f => f 0
    freeNum := Config.openReal 1
    freeDraw := Config.openReal 2
    unwrittenSm := Config.openReal 3
    unwrittenLm := Config.openReal 4 }

/-- The default of R12 for proofs: the engine over the exact reals. -/
noncomputable def Implementation.forProofs : Implementation ℝ ℝ := ⟨Config.defaults, realSystem⟩

/-- The laws N1 to N5 of R17 for an instance whose finite members are `finite`, stand for the reals `value`, and whose NaNs
are `nan`. N6 holds of every instance, since its operations are functions. -/
structure NumLaws {α : Type} (N : NumRec α) (finite nan : α → Prop) (value : α → ℝ) : Prop where
  /-- the constant `0` -/
  zero : finite N.zero ∧ value N.zero = 0
  /-- equality with zero (R16) -/
  isZero : ∀ x, finite x → (N.isZero x = true ↔ value x = 0)
  /-- N1: `<` orders the finite values strictly and totally -/
  n1 : ∀ a b, finite a → finite b → (N.lt a b = true ↔ value a < value b)
  /-- N2, its first half: the distance of any point to a point of the same coordinates is zero -/
  n2Zero : ∀ a b c d, finite a → finite b → finite c → finite d → value a = value b → value c = value d →
    let x := N.add (N.mul (N.sub a b) (N.sub a b)) (N.mul (N.sub c d) (N.sub c d))
    finite x ∧ N.isZero x = true
  /-- N2 at the constellations: the distance of a point is zero to itself and above zero to every other point of the scheme -/
  n2 : ∀ (c : Config) (sch : Scheme) (i j : Nat), c.tableWf = true → unknownScheme sch = false → i < 2 ^ bps sch →
    j < 2 ^ bps sch →
      let d := dist N (pointAt N (constellation N c sch) i) (pointAt N (constellation N c sch) j)
      finite d ∧ (i = j → N.isZero d = true) ∧ (i ≠ j → N.lt N.zero d = true)
  /-- N3: no zero and no NaN is below zero -/
  n3 : ∀ x, N.isZero x = true ∨ nan x → N.negative x = false
  /-- N4: `ofNat` is exact on 0 to 255 -/
  n4 : ∀ n, n ≤ 255 → finite (N.ofNat n) ∧ value (N.ofNat n) = n
  /-- N5: adding zero changes no value -/
  n5 : ∀ a, finite a → finite (N.add a N.zero) ∧ value (N.add a N.zero) = value a

/-- At the variance `v` the quotient of R143 keeps the sign of the difference of two distances of a noise-free symbol: to its own
point and to another one. R17 has no law on the signs of differences and quotients; exact reals meet this for every `v` above
zero. -/
def LlrSigns {α : Type} (N : NumRec α) (pts : List (SymOf α)) (v : α) : Prop :=
  ∀ i j, i < pts.length → j < pts.length → i ≠ j →
    let d := fun k => dist N (pointAt N pts i) (pointAt N pts k)
    N.negative (N.div (N.sub (d i) (d j)) (N.mul (N.ofNat 2) v)) = true ∧
      N.negative (N.div (N.sub (d j) (d i)) (N.mul (N.ofNat 2) v)) = false

/-- "One rounding per operation" (R16) as a premise of claims, for the operations those claims use: a result that the record has
is not rounded, and a quotient that is no smaller than some value of the record is not rounded to zero, so that it keeps its
sign. R17 has no such law, and no claim takes it of an instance without saying so (log entry 3). -/
structure RoundsOnce {α : Type} (N : NumRec α) (finite : α → Prop) (value : α → ℝ) : Prop where
  neg : ∀ a, finite a → finite (N.neg a) ∧ value (N.neg a) = -value a
  add : ∀ a b z, finite a → finite b → finite z → value z = value a + value b →
    finite (N.add a b) ∧ value (N.add a b) = value z
  sub : ∀ a b z, finite a → finite b → finite z → value z = value a - value b →
    finite (N.sub a b) ∧ value (N.sub a b) = value z
  mul : ∀ a b z, finite a → finite b → finite z → value z = value a * value b →
    finite (N.mul a b) ∧ value (N.mul a b) = value z
  div : ∀ a b z, finite a → finite b → finite z → value b ≠ 0 → value z = value a / value b →
    finite (N.div a b) ∧ value (N.div a b) = value z
  pow10 : ∀ a, finite a → value a = 0 → finite (N.pow10 a) ∧ value (N.pow10 a) = 1
  sign : ∀ a b z, finite a → finite b → finite z → value b ≠ 0 → 0 < value z → value z * |value b| ≤ |value a| →
    (N.negative (N.div a b) = true ↔ value a / value b < 0)

/-- A variance for which the record has `2·v` and a value above zero that is no larger than any quotient of R143 at a noise-free
symbol. -/
def LlrRange {α : Type} (N : NumRec α) (finite : α → Prop) (value : α → ℝ) (pts : List (SymOf α)) (v : α) : Prop :=
  finite v ∧ 0 < value v ∧ (∃ w, finite w ∧ value w = 2 * value v) ∧
  ∃ z, finite z ∧ 0 < value z ∧ ∀ i j, i < pts.length → j < pts.length → i ≠ j →
    value z * (2 * value v) ≤ value (dist N (pointAt N pts i) (pointAt N pts j))

/-- A value is read back from the cells it was written to. -/
structure StorageLaws {α κ : Type} (M : NumSystem α κ) : Prop where
  /-- every value has its number of cells -/
  length : ∀ x, (M.toCells x).length = M.cellsPerNum
  /-- they make it again -/
  roundTrip : ∀ (x : α) (f : Nat → κ), (∀ i, i < M.cellsPerNum → (M.toCells x)[i]? = some (f i)) → M.ofCells f = x

end Sys2Proof.Machine
end

