-- ==== Sys2Proof/Machine/Metrics.lean ====
section
/-! DEFINITION. The reference functions of the evaluation layer (spec/47_metrics_infotheory.md R240 to R255). They are no
commands and have no state (spec/00_scope.md R5): mathematical functions over finite sequences, in exact reals, for claims
about a link in the source's own terms. What the spec leaves out of one is a parameter of it, or a stop (log entry 21). -/

namespace Sys2Proof.Machine

/-- Why a reference function gives no value. -/
inductive MetricStop where
  /-- the two sequences differ in length: the source's "null-equivalent" or failure (R241, R242, R252, R255) -/
  | lengthMismatch
  /-- an input for which the source states no value (U15) -/
  | unstated
deriving DecidableEq, Repr

/-- The answer of a reference function. -/
abbrev Metric (α : Type) := Except MetricStop α

/-! ## Metrics -/

/-- The fraction of the indices at which two sequences of one length differ; an empty pair has no stated value. -/
def errorFraction {α : Type} [DecidableEq α] (a b : List α) : Metric Rat :=
  if a.length ≠ b.length then .error .lengthMismatch
  else if a = [] then .error .unstated
  else .ok (((a.zip b).countP fun x => decide (x.1 ≠ x.2) : Nat) / (a.length : Rat))

/-- `calculateBER` (R241). -/
def calculateBER (a b : List Bit) : Metric Rat := errorFraction a b

/-- `calculateSER` (R242). What a symbol is, the source does not say: `α` is a parameter. -/
def calculateSER {α : Type} [DecidableEq α] (a b : List α) : Metric Rat := errorFraction a b

/-- `(1/L) · Σ (a[j] − b[j])²`, over paired samples. -/
noncomputable def meanSquare (a b : List ℝ) : ℝ := ((a.zip b).map fun x => (x.1 - x.2) ^ 2).sum / a.length

/-- `calculateMSE` (R243). -/
noncomputable def calculateMSE (a b : List ℝ) : Metric ℝ :=
  if a.length ≠ b.length ∨ a = [] then .error .unstated else .ok (meanSquare a b)

/-- `calculatePSNR` (R243): `10·log10(255²/MSE)`, infinite where the MSE is 0. -/
noncomputable def calculatePSNR (a b : List ℝ) : Metric (WithTop ℝ) :=
  if a.length ≠ b.length ∨ a = [] then .error .unstated
  else if meanSquare a b = 0 then .ok ⊤
  else .ok ((10 * Real.logb 10 (255 ^ 2 / meanSquare a b) : ℝ) : WithTop ℝ)

/-- The mean of a sample sequence. -/
noncomputable def mean (a : List ℝ) : ℝ := a.sum / a.length

/-- What variance and covariance divide by, which the source does not say (R244, U15). -/
inductive VarianceDivisor where
  /-- L -/
  | population
  /-- L − 1 -/
  | sample
deriving DecidableEq, Repr

/-- The divisor for a sequence of length `n`. -/
def VarianceDivisor.count : VarianceDivisor → Nat → Nat
  | .population, n => n
  | .sample, n => n - 1

/-- The covariance of paired samples (R244). -/
noncomputable def covariance (d : VarianceDivisor) (a b : List ℝ) : ℝ :=
  ((a.zip b).map fun x => (x.1 - mean a) * (x.2 - mean b)).sum / (d.count a.length : ℝ)

/-- The stabilizers `c1`, `c2` (R244). -/
noncomputable def ssimC1 : ℝ := (0.01 * 255) ^ 2
noncomputable def ssimC2 : ℝ := (0.03 * 255) ^ 2

/-- `calculateSSIM` (R244). One sample with the divisor L − 1 has no stated variance and is refused (log entry 21). -/
noncomputable def calculateSSIM (d : VarianceDivisor) (a b : List ℝ) : Metric ℝ :=
  if a.length ≠ b.length ∨ d.count a.length = 0 then .error .unstated
  else
    .ok (((2 * mean a * mean b + ssimC1) * (2 * covariance d a b + ssimC2)) /
      ((mean a ^ 2 + mean b ^ 2 + ssimC1) * (covariance d a a + covariance d b b + ssimC2)))

/-- A sequence cut into frames of `size`; `keepPartial` says what becomes of a last partial one (R245, R247). -/
def framesOf {α : Type} (size : Nat) (keepPartial : Bool) (a : List α) : List (List α) :=
  let n := if keepPartial then ceilDiv a.length size else a.length / size
  (List.range n).map fun j => (a.drop (j * size)).take size

/-- The power of a frame. -/
noncomputable def power (a : List ℝ) : ℝ := (a.map fun x => x ^ 2).sum / a.length

/-- Signal and noise power of a frame of pairs. That the first sequence is the signal is the model's choice, since R245 says
only that the noise is the difference of the two (log entry 21). -/
noncomputable def framePowers (f : List (ℝ × ℝ)) : ℝ × ℝ :=
  (power (f.map Prod.fst), power (f.map fun x => x.2 - x.1))

/-- Which of the two powers "zero power" speaks of, which the source does not say (R245, U15). -/
inductive ZeroPower where
  | signal
  | noise
  | either
  | both
deriving DecidableEq, Repr

/-- The frames that are skipped, by signal and noise power. -/
def ZeroPower.skips (z : ZeroPower) (p : ℝ × ℝ) : Prop :=
  match z with
  | .signal => p.1 = 0
  | .noise => p.2 = 0
  | .either => p.1 = 0 ∨ p.2 = 0
  | .both => p.1 = 0 ∧ p.2 = 0

open Classical in
/-- `calculateSegmentalSNR` (R245). The spec states no value in these cases, and that the function answers `unstated` there is the
model's choice (log entry 21): a frame size of 0; no frame kept, because all are skipped or because the sequences are shorter
than one frame and the partial one is dropped; a frame that is kept although one of its powers is zero; a length mismatch. -/
noncomputable def calculateSegmentalSNR (size : Nat) (keepPartial : Bool) (z : ZeroPower) (a b : List ℝ) : Metric ℝ :=
  let kept := ((framesOf size keepPartial (a.zip b)).map framePowers).filter fun p => ¬ z.skips p
  if a.length ≠ b.length ∨ size = 0 ∨ kept = [] ∨ ∃ p ∈ kept, p.1 = 0 ∨ p.2 = 0 then .error .unstated
  else .ok (mean (kept.map fun p => 10 * Real.logb 10 (p.1 / p.2)))

/-- `calculateEVM`, in percent (R246). -/
noncomputable def calculateEVM (ref rx : List (ℝ × ℝ)) : Metric ℝ :=
  let err := ((ref.zip rx).map fun x => (x.2.1 - x.1.1) ^ 2 + (x.2.2 - x.1.2) ^ 2).sum
  let pow := (ref.map fun x => x.1 ^ 2 + x.2 ^ 2).sum
  if ref.length ≠ rx.length ∨ pow = 0 then .error .unstated else .ok (100 * Real.sqrt (err / pow))

/-- `calculateBLER` (R247). The spec states no value in these cases, and that the function answers `unstated` there is the model's
choice (log entry 21): a block size of 0; no block at all, because the sequences are empty or because they are shorter than
one block and the partial one is dropped; a length mismatch. -/
def calculateBLER (size : Nat) (keepPartial : Bool) (a b : List Bit) : Metric Rat :=
  let blocks := framesOf size keepPartial (a.zip b)
  if a.length ≠ b.length ∨ size = 0 ∨ blocks = [] then .error .unstated
  else .ok ((blocks.countP fun f => f.any fun x => decide (x.1 ≠ x.2) : Nat) / (blocks.length : Rat))

/-- One row of the edit-distance table: `left` is the entry before it, `diag` the entry above that one, `above` the rest of
the row above. -/
def editRow {α : Type} [DecidableEq α] (x : α) : Nat → Nat → List α → List Nat → List Nat
  | left, diag, y :: ys, up :: above =>
    let e := min (min (left + 1) (up + 1)) (diag + if x = y then 0 else 1)
    e :: editRow x e up ys above
  | _, _, _, _ => []

/-- The rows of the table, one element of `s` each; `row` is the row above. -/
def editTable {α : Type} [DecidableEq α] (t : List α) : List α → Nat → List Nat → List Nat
  | [], _, row => row
  | x :: xs, i, row => editTable t xs (i + 1) ((i + 1) :: editRow x (i + 1) (row.headD 0) t row.tail)

/-- `levenshteinDistance` (R248). -/
def levenshteinDistance {α : Type} [DecidableEq α] (s t : List α) : Nat :=
  (editTable t s 0 (List.range (t.length + 1))).getLastD 0

/-- The pair of sequences cut to the shorter one, as the pipeline cuts them for a cross-stage metric (R249). -/
def crossStage {α : Type} (a b : List α) : List α × List α :=
  (a.take (min a.length b.length), b.take (min a.length b.length))

/-! ## Information theory -/

/-- The relative frequency of `x` in a stream that is not empty (R250). -/
noncomputable def frequency {α : Type} [DecidableEq α] (a : List α) (x : α) : ℝ := (a.count x : ℝ) / a.length

/-- `−Σ p·log2(p)` over the symbols that occur in a stream that is not empty (R251). -/
noncomputable def entropyBits {α : Type} [DecidableEq α] (a : List α) : ℝ :=
  -(a.dedup.map fun x => frequency a x * Real.logb 2 (frequency a x)).sum

/-- A value over a stream; an empty stream has no frequencies, and the source states no value for it (log entry 21). -/
def overStream {α β : Type} (a : List α) (v : β) : Metric β :=
  match a with
  | [] => .error .unstated
  | _ :: _ => .ok v

/-- The same over two paired streams or distributions, which must be equally long (R252, R255). -/
def overPairs {α β γ : Type} (a : List α) (b : List β) (v : γ) : Metric γ :=
  if a.length ≠ b.length then .error .lengthMismatch else overStream a v

/-- The empirical probability of `x` in a stream (R250). -/
noncomputable def empirical {α : Type} [DecidableEq α] (a : List α) (x : α) : Metric ℝ := overStream a (frequency a x)

/-- `H(X)` (R251). -/
noncomputable def entropy {α : Type} [DecidableEq α] (a : List α) : Metric ℝ := overStream a (entropyBits a)

/-- `H(X, Y)` (R252). -/
noncomputable def jointEntropy {α β : Type} [DecidableEq α] [DecidableEq β] (a : List α) (b : List β) : Metric ℝ :=
  overPairs a b (entropyBits (a.zip b))

/-- `H(X|Y) = H(X, Y) − H(Y)` (R252). -/
noncomputable def conditionalEntropy {α β : Type} [DecidableEq α] [DecidableEq β] (a : List α) (b : List β) : Metric ℝ :=
  overPairs a b (entropyBits (a.zip b) - entropyBits b)

/-- `I = H(X) + H(Y) − H(X, Y)` (R253). -/
noncomputable def mutualInfoSubtractive {α β : Type} [DecidableEq α] [DecidableEq β] (a : List α) (b : List β) : Metric ℝ :=
  overPairs a b (entropyBits a + entropyBits b - entropyBits (a.zip b))

/-- The direct double sum over the pairs that occur (R253). -/
noncomputable def mutualInfoDirect {α β : Type} [DecidableEq α] [DecidableEq β] (a : List α) (b : List β) : Metric ℝ :=
  overPairs a b ((a.zip b).dedup.map fun x =>
    frequency (a.zip b) x * Real.logb 2 (frequency (a.zip b) x / (frequency a x.1 * frequency b x.2))).sum

open Classical in
/-- `channelCapacity` of a linear SNR (R254). At or below −1 the logarithm has no value, and the function is refused (log
entry 21). -/
noncomputable def channelCapacity (snr : ℝ) : Metric ℝ :=
  if snr ≤ -1 then .error .unstated else .ok (Real.logb 2 (1 + snr))

/-- `channelCapacity` of an SNR in dB (R160, R254). -/
noncomputable def channelCapacityDb (snrDb : ℝ) : Metric ℝ := channelCapacity (lin exactReals snrDb)

open Classical in
/-- The Kullback–Leibler divergence of two distributions, terms with a non-positive probability skipped (R255). -/
noncomputable def klDivergence (p q : List ℝ) : Metric ℝ :=
  overPairs p q ((p.zip q).map fun x => if x.1 ≤ 0 ∨ x.2 ≤ 0 then 0 else x.1 * Real.logb 2 (x.1 / x.2)).sum

/-- The real point of a finite symbol. -/
noncomputable def symReals (x : Sym) : ℝ × ℝ := ((x.re.toRat : ℝ), (x.im.toRat : ℝ))

end Sys2Proof.Machine
end

