-- ==== Sys2Proof/Safety.lean ====
section
/-! DEFINITION. The terms of claims: a good end (spec/46_system_ops.md R234), the invariant of a run, what a command may
write (the column "writes" of spec/30_encoding.md R76), and what a sequence written to a memory means. -/

namespace Sys2Proof.Machine

variable {α κ : Type}

/-- An end state is final and good iff `STATUS.FAULT = 0` (R234). -/
def State.goodEnd (s : State α κ) : Bool := !s.status.fault

/-! ## The invariant -/

/-- `ERR` is 0 while `FAULT` is 0, and one of the six codes else (R22, R282). -/
def State.faultInv (s : State α κ) : Bool :=
  if s.status.fault then decide (1 ≤ s.status.err.toNat ∧ s.status.err.toNat ≤ 6) else s.status.err == 0#8

/-- The LDPC registers hold their reset values while `LV` is 0, and a coder that `LDPC_CFG` can construct else (R26, R190,
R192). -/
def State.ldpcInv (s : State α κ) : Bool :=
  if s.status.lv then
    decide (1 ≤ s.ldpcN.toNat ∧ s.ldpcN.toNat ≤ s.cfg.ldpcNMax ∧ s.ldpcK.toNat < s.ldpcN.toNat ∧
      s.ldpcDc = wordOf (3 * s.ldpcN.toNat / (s.ldpcN.toNat - s.ldpcK.toNat)))
  else s.ldpcN == 648#32 && s.ldpcK == 0#32 && s.ldpcDc == 0#32

/-- The Polar registers hold their reset values while `PV` is 0, and a coder that `POLAR_CFG` can construct else (R28,
R212). -/
def State.polarInv (s : State α κ) : Bool :=
  if s.status.pv then polarLength s.cfg s.polarN.toNat && decide (s.polarK.toNat ≤ s.polarN.toNat)
  else s.polarN == 0#32 && s.polarK == 0#32

/-- The memories keep their canonical form and list no address outside their sizes (R33, R50). -/
def State.memInv (s : State) : Bool :=
  Memory.wf s.bm && Memory.wf s.sm && Memory.wf s.lm && Memory.below s.bm s.cfg.bmBits &&
    Memory.below s.sm (16 * s.cfg.smSyms) && Memory.below s.lm (8 * s.cfg.lmVals)

/-- The invariant of every run whose parameters are admitted. -/
def State.inv (s : State) : Bool := s.cfg.wf && s.faultInv && s.ldpcInv && s.polarInv && s.memInv

/-! ## What a command writes -/

/-- A set of places a command writes: ranges of elements as `(first, count)`, scalar registers, and the single
registers. -/
structure WriteSet where
  bm : Nat × Nat
  sm : Nat × Nat
  lm : Nat × Nat
  scalars : List ScalarIdx
  res : Bool
  olen : Bool
  crcReg : Bool
  matched : Bool
  ldpc : Bool
  polar : Bool
  /-- the model's own counter and queue of draws -/
  free : Bool
deriving DecidableEq, Repr

/-- Nothing. -/
def WriteSet.none : WriteSet where
  bm := (0, 0)
  sm := (0, 0)
  lm := (0, 0)
  scalars := []
  res := false
  olen := false
  crcReg := false
  matched := false
  ldpc := false
  polar := false
  free := false

/-- The column "writes" of R76, with the ranges the command rules give. -/
def writeSet (s : State α κ) : Instr → WriteSet
  | .nop => .none
  | .sets sd _ _ => { WriteSet.none with scalars := [sd] }
  | .crc16 _ _ _ => { WriteSet.none with res := true, crcReg := true }
  | .crcAppend _ len dst => { WriteSet.none with bm := (dst.toNat, len.toNat + 16), olen := true, res := true, crcReg := true }
  | .crcVerify _ _ => { WriteSet.none with matched := true, res := true, crcReg := true }
  | .modulate sch _ len dst => { WriteSet.none with sm := (dst.toNat, ceilDiv len.toNat (bps sch)), olen := true }
  | .getBps _ => { WriteSet.none with res := true }
  | .getConst sch dst => { WriteSet.none with sm := (dst.toNat, 2 ^ bps sch), olen := true }
  | .demodHard sch _ len dst => { WriteSet.none with bm := (dst.toNat, len.toNat * bps sch), olen := true }
  | .demodSoft sch _ _ len dst => { WriteSet.none with lm := (dst.toNat, len.toNat * bps sch), olen := true, free := true }
  | .awgnAdd _ _ sd _ len dst _ =>
    { WriteSet.none with sm := (dst.toNat, len.toNat), olen := true, scalars := [sd, sd + 1], free := true }
  | .nvarEbn0 _ _ sd _ => { WriteSet.none with scalars := [sd], free := true }
  | .snr2ebn0 _ _ sd _ => { WriteSet.none with scalars := [sd], free := true }
  | .ebn02snr _ _ sd _ => { WriteSet.none with scalars := [sd], free := true }
  | .berBpsk _ sd => { WriteSet.none with scalars := [sd], free := true }
  | .measSnr sd _ _ _ _ => { WriteSet.none with scalars := [sd], free := true }
  | .ldpcCfg _ _ _ => { WriteSet.none with ldpc := true }
  | .ldpcEnc _ _ dst => { WriteSet.none with bm := (dst.toNat, s.ldpcN.toNat), olen := true }
  | .ldpcDec _ len dst _ => { WriteSet.none with bm := (dst.toNat, min len.toNat s.ldpcK.toNat), olen := true }
  | .polarCfg _ _ => { WriteSet.none with polar := true }
  | .polarEnc _ _ dst => { WriteSet.none with bm := (dst.toNat, s.polarN.toNat), olen := true }
  | .polarDec _ _ dst _ => { WriteSet.none with bm := (dst.toNat, s.polarK.toNat), olen := true }
  | .polarXform _ len dst => { WriteSet.none with bm := (dst.toNat, len.toNat), olen := true }

/-- `x` lies outside the elements of a range, each `unit` addresses wide. -/
def outsideRange (unit : Nat) (r : Nat × Nat) (x : Nat) : Prop := x < unit * r.1 ∨ unit * (r.1 + r.2) ≤ x

/-- Everything outside a write set reads in `t` as it read in `s`: every memory element through the machine's own reads,
every scalar register, every other register, the staging registers, and `FAULT` and `ERR`. -/
def UntouchedOver (M : NumSystem α κ) (w : WriteSet) (s t : State α κ) : Prop :=
  (∀ a, outsideRange 1 w.bm a → t.readBit a = s.readBit a) ∧
  (∀ a, outsideRange (2 * M.cellsPerNum) w.sm a → t.smCell M a = s.smCell M a) ∧
  (∀ a, outsideRange M.cellsPerNum w.lm a → t.lmCell M a = s.lmCell M a) ∧
  (∀ i, i ∉ w.scalars → t.scalar i = s.scalar i) ∧
  (w.res = false → t.res = s.res) ∧
  (w.olen = false → t.olen = s.olen) ∧
  (w.crcReg = false → t.crcReg = s.crcReg) ∧
  (w.matched = false → t.status.matched = s.status.matched) ∧
  (w.ldpc = false → t.ldpcN = s.ldpcN ∧ t.ldpcK = s.ldpcK ∧ t.ldpcDc = s.ldpcDc ∧ t.status.lv = s.status.lv) ∧
  (w.polar = false → t.polarN = s.polarN ∧ t.polarK = s.polarK ∧ t.status.pv = s.status.pv) ∧
  (w.free = false → t.freeCtr = s.freeCtr ∧ t.draws = s.draws) ∧
  t.status.fault = s.status.fault ∧ t.status.err = s.status.err ∧
  t.cmdw = s.cmdw ∧ t.cfg = s.cfg ∧ t.epoch = s.epoch ∧ t.inputs = s.inputs ∧ t.readData = s.readData

/-- The same in binary64, where the cells of `SM` and `LM` are the bytes of their windows. -/
abbrev Untouched (w : WriteSet) (s t : State) : Prop := UntouchedOver s.cfg.system w s t

/-! ## Written sequences -/

/-- The bits `xs` stand in `BM` from `a` on. -/
def BitsAt (t : State α κ) (a : Nat) (xs : List Bit) : Prop := ∀ j, j < xs.length → t.readBit (a + j) = xs.getD j false

/-- The symbols `xs` stand in `SM` from `a` on. -/
def SymsAt (t : State) (a : Nat) (xs : List Sym) : Prop := ∀ j, j < xs.length → t.readSym (a + j) = xs.getD j default

/-- The values `xs` stand in `LM` from `a` on. -/
def ValsAt (t : State) (a : Nat) (xs : List Num64) : Prop := ∀ j, j < xs.length → t.readVal (a + j) = xs.getD j default

/-- The machine over `M` goes on from `s` by the command `i` to a state with the property `p`, writing its own targets
only. -/
def CompletesOver (M : NumSystem α κ) (i : Instr) (s : State α κ) (p : State α κ → Prop) : Prop :=
  ∃ t, execOver M i s = .next t ∧ p t ∧ UntouchedOver M (writeSet s i) s t

/-- The same of the machine that the host sees. -/
def Completes (i : Instr) (s : State) (p : State → Prop) : Prop :=
  ∃ t, exec i s = .next t ∧ p t ∧ Untouched (writeSet s i) s t

/-- The command `i` raises a fault: it is latched and nothing else changes (R283). -/
def Faults (i : Instr) (s : State) (c : ErrCode) : Prop :=
  exec i s = .next { s with status := { s.status with fault := true, err := c.code } }

/-- The opcode of a command (R75). -/
def opcodeOf : Instr → Byte
  | .nop => 0x00#8
  | .sets _ _ _ => 0x01#8
  | .crc16 _ _ _ => 0x10#8
  | .crcAppend _ _ _ => 0x11#8
  | .crcVerify _ _ => 0x12#8
  | .modulate _ _ _ _ => 0x20#8
  | .getBps _ => 0x21#8
  | .getConst _ _ => 0x22#8
  | .demodHard _ _ _ _ => 0x28#8
  | .demodSoft _ _ _ _ _ => 0x29#8
  | .awgnAdd _ _ _ _ _ _ _ => 0x30#8
  | .nvarEbn0 _ _ _ _ => 0x31#8
  | .snr2ebn0 _ _ _ _ => 0x32#8
  | .ebn02snr _ _ _ _ => 0x33#8
  | .berBpsk _ _ => 0x34#8
  | .measSnr _ _ _ _ _ => 0x35#8
  | .ldpcCfg _ _ _ => 0x40#8
  | .ldpcEnc _ _ _ => 0x41#8
  | .ldpcDec _ _ _ _ => 0x42#8
  | .polarCfg _ _ => 0x50#8
  | .polarEnc _ _ _ => 0x51#8
  | .polarDec _ _ _ _ => 0x52#8
  | .polarXform _ _ _ => 0x53#8

/-- The fields of the words that a command uses, as masks (R72 and the table of R76). The opcode is always used. -/
def usedFields : Instr → Words :=
  let all : Word := 0xFFFFFFFF#32
  let op : Word := 0x000000FF#32
  let sch : Word := 0x00000700#32
  let ss : Word := 0x00007000#32
  let st : Word := 0x00070000#32
  let sd : Word := 0x00700000#32
  fun
  | .nop => #v[op, 0, 0, 0, 0, 0, 0, 0]
  | .sets _ _ _ => #v[op ||| sd, 0, 0, 0, 0, 0, all, all]
  | .crc16 _ _ _ => #v[op, all, all, 0, 0, 0, all, 0]
  | .crcAppend _ _ _ => #v[op, all, all, all, 0, 0, 0, 0]
  | .crcVerify _ _ => #v[op, all, all, 0, 0, 0, 0, 0]
  | .modulate _ _ _ _ => #v[op ||| sch, all, all, all, 0, 0, 0, 0]
  | .getBps _ => #v[op ||| sch, 0, 0, 0, 0, 0, 0, 0]
  | .getConst _ _ => #v[op ||| sch, 0, 0, all, 0, 0, 0, 0]
  | .demodHard _ _ _ _ => #v[op ||| sch, all, all, all, 0, 0, 0, 0]
  | .demodSoft _ _ _ _ _ => #v[op ||| sch ||| ss, all, all, all, 0, 0, 0, 0]
  | .awgnAdd _ _ _ _ _ _ _ => #v[op ||| ss ||| st ||| sd, all, all, all, 0, 0, all, 0]
  | .nvarEbn0 _ _ _ _ => #v[op ||| ss ||| st ||| sd, 0, 0, 0, 0, 0, all, 0]
  | .snr2ebn0 _ _ _ _ => #v[op ||| ss ||| st ||| sd, 0, 0, 0, 0, 0, all, 0]
  | .ebn02snr _ _ _ _ => #v[op ||| ss ||| st ||| sd, 0, 0, 0, 0, 0, all, 0]
  | .berBpsk _ _ => #v[op ||| ss ||| sd, 0, 0, 0, 0, 0, 0, 0]
  | .measSnr _ _ _ _ _ => #v[op ||| sd, all, all, 0, all, all, 0, 0]
  | .ldpcCfg _ _ _ => #v[op, 0, all, 0, 0, 0, all, all]
  | .ldpcEnc _ _ _ => #v[op, all, all, all, 0, 0, 0, 0]
  | .ldpcDec _ _ _ _ => #v[op, all, all, all, 0, 0, all, 0]
  | .polarCfg _ _ => #v[op, 0, all, 0, 0, 0, all, 0]
  | .polarEnc _ _ _ => #v[op, all, all, all, 0, 0, 0, 0]
  | .polarDec _ _ _ _ => #v[op, all, all, all, 0, 0, all, 0]
  | .polarXform _ _ _ => #v[op, all, all, all, 0, 0, 0, 0]

/-- The 23 opcodes (R75). -/
def opcodes : List Nat :=
  [0x00, 0x01, 0x10, 0x11, 0x12, 0x20, 0x21, 0x22, 0x28, 0x29, 0x30, 0x31, 0x32, 0x33, 0x34, 0x35, 0x40, 0x41, 0x42, 0x50,
    0x51, 0x52, 0x53]

/-- `W0 & 0xFF8888FF`, what a decoder tests (R75). -/
def decodeBits (w : Words) : Nat := (w[0] &&& 0xFF8888FF#32).toNat

/-! ## The host's register block -/

/-- A host read of the register block at `off` answers `v` and changes nothing else, whatever inputs follow. -/
def HostReads (w : Width) (s : State) (off : Nat) (v : BitVec 64) : Prop :=
  ∀ rest : List Input, step { s with inputs := .hostRead w (s.cfg.regBase + off) :: rest } =
    .next { s with inputs := rest, readData := v }

/-- A host write to the register block at `off` leads from `s` to `t`, whatever inputs follow. -/
def HostWrites (w : Width) (s : State) (off : Nat) (data : BitVec 64) (t : State) : Prop :=
  ∀ rest : List Input, step { s with inputs := .hostWrite w (s.cfg.regBase + off) data :: rest } =
    .next { t with inputs := rest }

/-- An offset of the register block that no register of R35 has. -/
def unlistedOffset (off : Nat) : Bool :=
  decide (0x024 ≤ off ∧ off < 0x040) || decide (0x0A4 ≤ off ∧ off < 0x0C0) || decide (0x0C4 ≤ off ∧ off < 0x100)

/-! ## Real values -/

/-- The real value of a finite `Num`. -/
noncomputable def realOf (x : Num64) : ℝ := (x.toRat : ℝ)

/-- `y` has the sign of the real `v` and is one of two neighbouring patterns between whose magnitudes that of `v` lies. The
pattern above the largest finite one is infinity. -/
def NextTo (v : ℝ) (y : Num64) : Prop :=
  (∃ k, k < magInf ∧ (magUnits k : ℝ) ≤ |v| * (unitsPerOne : ℝ) ∧
    (k + 1 < magInf → |v| * (unitsPerOne : ℝ) ≤ (magUnits (k + 1) : ℝ)) ∧ (y.mag = k ∨ y.mag = k + 1)) ∧
  (v ≠ 0 → (y.sign = true ↔ v < 0))

/-- `y` is `v` where binary64 has it, and else one of its neighbours. -/
def RoundsTo (v : ℝ) (y : Num64) : Prop :=
  NextTo v y ∧ ∀ z : Num64, z.isFinite = true → realOf z = v → y.isFinite = true ∧ realOf y = v

/-! ## Sequences -/

/-- The `j`-th chunk of `b` bits of `len` bits read at `src`, zero-padded at its end, as a big-endian number (R125). -/
def chunkAt (s : State α κ) (src len b j : Nat) : Nat :=
  valMsb ((List.range b).map fun p => decide (j * b + p < len) && s.readBit (src + (j * b + p)))

/-- The polynomial over GF(2) of a Bit sequence, the first Bit the leading coefficient (R103). -/
noncomputable def bitsPoly (x : List Bit) : Polynomial (ZMod 2) :=
  x.foldl (fun p b => p * Polynomial.X + Polynomial.C (if b then 1 else 0)) 0

/-- The generator polynomial `g(x) = x^16 + Σ poly[i]·x^i` (R100). -/
noncomputable def generatorPoly (poly : BitVec 16) : Polynomial (ZMod 2) :=
  Polynomial.X ^ 16 + bitsPoly (crcBits poly)

/-- The Bit expansion of the bytes "123456789" (R110). -/
def checkDigits : List Bit := [0x31, 0x32, 0x33, 0x34, 0x35, 0x36, 0x37, 0x38, 0x39].flatMap (bitsMsb 8)

/-- A sequence with the Bit at `i` inverted. -/
def flipBit (x : List Bit) (i : Nat) : List Bit := x.set i (!(x.getD i false))

/-- The XOR of a Bit sequence. -/
def xorAll (x : List Bit) : Bit := x.foldl (fun a b => a ^^ b) false

/-- The XOR of `u j` over all `j < n` whose binary expansion contains every 1 bit of `i` (R213). -/
def xorAbove (n : Nat) (u : Nat → Bit) (i : Nat) : Bit := xorAll (((List.range n).filter fun j => j &&& i == i).map u)

/-- How many information positions of `(n, k)` lie below `i` (R211). -/
def infoRank (n k i : Nat) : Nat := (List.range i).countP (isInfo n k)

end Sys2Proof.Machine
end

