-- ==== Sys2Proof/Certificates/Slice0/Obligations.lean ====
section
/-! DEFINITION. The statements for the provers. Each cites the rules of spec/ it rests on; a clause that rests on a choice of
the model says so and names the log entry. -/

open Sys2Proof Sys2Proof.Machine

/-! ## Encoding -/

/-- Every well-formed command decodes from its encoding, with every operand at every value (R71, R72, R73, R75, R76). -/
def Obligations.DecodeInvertsEncode : Prop := ∀ i : Instr, i.wf = true → decode (encode i) = .ok i

/-- Eight words are a command iff `W0 & 0xFF8888FF` is one of the 23 opcodes, and then it is the opcode of the command they
decode to, which is well formed and decodes from its own encoding; that encoding is the words in every field R76 says the
opcode uses, so that a field it does not use has no effect (R72, R75, R76, R78). -/
def Obligations.DecodeAcceptsTheOpcodeMap : Prop :=
  ∀ w : Words,
    ((∃ i, decode w = .ok i) ↔ decodeBits w ∈ opcodes) ∧
    ∀ i, decode w = .ok i →
      decodeBits w = (opcodeOf i).toNat ∧ i.wf = true ∧ decode (encode i) = .ok i ∧
      ∀ j : Fin 8, (encode i)[j] = w[j] &&& (usedFields i)[j]

/-- The worked encodings of R82, and its two illegal words. -/
def Obligations.WorkedEncodingsDecode : Prop :=
  decode #v[0x00000120, 0, 7, 0, 0, 0, 0, 0] = .ok (.modulate .qam16 0 7 0) ∧
  decode #v[0x00002029, 0, 4, 16, 0, 0, 0, 0] = .ok (.demodSoft .qpsk 2 0 4 16) ∧
  decode #v[0x00210030, 0, 4, 4, 0, 0, 2, 0] = .ok (.awgnAdd 0 1 2 0 4 4 2) ∧
  decode #v[0x00000010, 0, 8, 0, 0, 0, 0x00001021, 0] = .ok (.crc16 0 8 0x00001021) ∧
  decode #v[0x00000001, 0, 0, 0, 0, 0, 0x00000000, 0x40340000] = .ok (.sets 0 0x00000000 0x40340000) ∧
  decode #v[0x00000810, 0, 0, 0, 0, 0, 0, 0] = .error .reservedBit ∧
  decode #v[0x00000002, 0, 0, 0, 0, 0, 0, 0] = .error .undefinedOpcode

/-! ## Steps -/

/-- A doorbell write of any value runs the command decoded from the staging registers (R32, R70, R77); a table word placed by
`withFetchWord` runs as the very next step. The queue of inputs is the model's (log entry 1). -/
def Obligations.DoorbellRunsTheStagedCommand : Prop :=
  (∀ (s : State) (data : BitVec 64) (rest : List Input) (i : Instr),
    s.inputs = .hostWrite .w32 (s.cfg.regBase + 0x0A0) data :: rest → s.status.fault = false → decode s.cmdw = .ok i →
      step s = exec i (s.setInputs rest)) ∧
  ∀ (s : State) (nbits w : Nat) (i : Instr),
    s.status.fault = false → decodeTableWord nbits w = some i →
      step (s.withFetchWord nbits w) = exec i { s with cmdw := tableWords nbits w }

/-- A doorbell with an undefined opcode or a reserved bit of `W0` set latches `ERR_ILLEGAL`, code 0x01, and changes nothing
else (R78, R282, R283). While `FAULT` is 1 a doorbell has no effect, whatever is staged (R284). -/
def Obligations.IllegalAndIgnoredDoorbells : Prop :=
  ∀ (s : State) (data : BitVec 64) (rest : List Input),
    s.inputs = .hostWrite .w32 (s.cfg.regBase + 0x0A0) data :: rest →
    (s.status.fault = false → decodeBits s.cmdw ∉ opcodes →
      step s = .next { s with inputs := rest, status := { s.status with fault := true, err := 0x01#8 } }) ∧
    (s.status.fault = true → step s = .next { s with inputs := rest })

/-! ## Reset -/

/-- The registers that R311 gives a reset value, at it, in the state right after reset; no coder is constructed and no
memory element has been written. -/
def Obligations.ResetHoldsTheStatedValues : Prop :=
  State.reset.status.toWord = 0#32 ∧ State.reset.res = 0#32 ∧ State.reset.olen = 0#32 ∧ State.reset.ldpcN = 648#32 ∧
  State.reset.ldpcK = 0#32 ∧ State.reset.ldpcDc = 0#32 ∧ State.reset.polarN = 0#32 ∧ State.reset.polarK = 0#32 ∧
  State.reset.crcReg = 0xFFFF#16 ∧ (∀ i, State.reset.cmdw.toList.getD i 0#32 = 0#32) ∧
  (∀ a, Memory.read? State.reset.bm a = none) ∧ (∀ a, Memory.read? State.reset.sm a = none) ∧
  ∀ a, Memory.read? State.reset.lm a = none

/-- A host write of any value to `SOFT_RESET` and the hardware reset have the same effect, whether or not `FAULT` is set:
every register of R311 with a stated value has it, and no memory element counts as written (R286, R310, R312). The counter
and the queues are the model's (log entry 10). -/
def Obligations.ResetsAgree : Prop :=
  ∀ (s s' : State) (data : BitVec 64) (rest : List Input),
    s.inputs = .hostWrite .w32 (s.cfg.regBase + 0x0C0) data :: rest → s' = { s with inputs := .hardReset :: rest } →
    ∃ t, step s = .next t ∧ step s' = .next t ∧
      t.status.toWord = 0#32 ∧ t.res = 0#32 ∧ t.olen = 0#32 ∧ t.ldpcN = 648#32 ∧ t.ldpcK = 0#32 ∧ t.ldpcDc = 0#32 ∧
      t.polarN = 0#32 ∧ t.polarK = 0#32 ∧ t.crcReg = 0xFFFF#16 ∧ t.cmdw = Vector.replicate 8 0#32 ∧
      (∀ a, Memory.read? t.bm a = none) ∧ (∀ a, Memory.read? t.sm a = none) ∧ (∀ a, Memory.read? t.lm a = none) ∧
      t.cfg = s.cfg ∧ t.inputs = rest ∧ t.draws = s.draws ∧ t.readData = s.readData

/-! ## Faults -/

/-- Every command terminates with a next state, on every implementation, whatever its record `Num`: no command stops the
machine (R12, R283, R331). The meaning on the host's interface is that of the implementation in binary64, in every state. -/
def Obligations.EveryCommandAnswersANextState : Prop :=
  (∀ (i : Instr) (s : State), ∃ t, exec i s = .next t) ∧
  (∀ (α κ : Type) (I : Implementation α κ) (i : Instr) (s : State α κ), ∃ t, I.exec i s = .next t) ∧
  ∀ (i : Instr) (s : State), exec i s = (Implementation.onHost s.cfg).exec i s

/-- A command that faults writes nothing but `FAULT` and `ERR`, and `ERR` is one of the six codes (R282, R283). -/
def Obligations.AFaultWritesNothingElse : Prop :=
  ∀ (i : Instr) (s t : State), s.status.fault = false → exec i s = .next t → t.status.fault = true →
    t = { s with status := { s.status with fault := true, err := t.status.err } } ∧
      1 ≤ t.status.err.toNat ∧ t.status.err.toNat ≤ 6

/-- A command whose scheme has no constellation raises `ERR_SCHEME`, whatever else would fail (R73, R285); one whose coder is
not constructed raises `ERR_NOCFG`; a wrong required or paired length raises `ERR_LEN` once the earlier checks pass (R282,
R285). -/
def Obligations.SchemeCoderAndLengthFaults : Prop :=
  ∀ (s : State) (code : BitVec 3) (ss sd : ScalarIdx) (src len dst src2 len2 x : Word),
    Faults (.modulate (.unknown code) src len dst) s .scheme ∧ Faults (.getConst (.unknown code) dst) s .scheme ∧
    Faults (.demodHard (.unknown code) src len dst) s .scheme ∧
    Faults (.demodSoft (.unknown code) ss src len dst) s .scheme ∧
    (s.status.lv = false → Faults (.ldpcEnc src len dst) s .noCfg ∧ Faults (.ldpcDec src len dst x) s .noCfg) ∧
    (s.status.pv = false → Faults (.polarEnc src len dst) s .noCfg ∧ Faults (.polarDec src len dst x) s .noCfg) ∧
    (s.status.pv = true → len ≠ s.polarK → Faults (.polarEnc src len dst) s .len) ∧
    (s.status.pv = true → len ≠ s.polarN → Faults (.polarDec src len dst x) s .len) ∧
    (len ≠ 0#32 → len ≠ len2 → Faults (.measSnr sd src len src2 len2) s .len)

/-- A parameter outside its domain raises `ERR_PARAM` where no earlier check fails (R74, R102, R145, R164, R170, R192, R212,
R214, R282, R285). -/
def Obligations.ParameterFaults : Prop :=
  ∀ (s : State) (sch : Scheme) (ss st sd : ScalarIdx) (src len dst src2 len2 x y : Word),
    (2 ^ 16 ≤ x.toNat → Faults (.crc16 src len x) s .param) ∧
    (unknownScheme sch = false → Num64.lt Num64.zero (s.scalar ss) = false →
      Faults (.demodSoft sch ss src len dst) s .param) ∧
    (x = 0#32 ∨ Num64.lt Num64.zero (s.scalar st) = false →
      Faults (.nvarEbn0 ss st sd x) s .param ∧ Faults (.snr2ebn0 ss st sd x) s .param ∧
        Faults (.ebn02snr ss st sd x) s .param) ∧
    Faults (.measSnr sd src 0#32 src2 len2) s .param ∧
    (len = 0#32 ∨ s.cfg.ldpcNMax < len.toNat ∨ x = 0#32 ∨ y.toNat ≤ x.toNat → Faults (.ldpcCfg len x y) s .param) ∧
    ((∀ m, len.toNat ≠ 2 ^ m) ∨ 2 ^ s.cfg.polarMMax < len.toNat ∨ len.toNat < x.toNat →
      Faults (.polarCfg len x) s .param) ∧
    ((∀ m, len.toNat ≠ 2 ^ m) ∨ 2 ^ s.cfg.polarMMax < len.toNat → Faults (.polarXform src len dst) s .param)

/-- A non-empty source or destination range that leaves its memory raises `ERR_ADDR` where no earlier check fails, with the
sum taken in unbounded integers (R51, R282, R285). -/
def Obligations.RangeFaults : Prop :=
  (∀ (s : State) (sch : Scheme) (ss st sd : ScalarIdx) (src len dst src2 x : Word), len ≠ 0#32 →
    (s.cfg.bmBits < src.toNat + len.toNat →
      (x.toNat < 2 ^ 16 → Faults (.crc16 src len x) s .addr) ∧ Faults (.crcAppend src len dst) s .addr ∧
      Faults (.crcVerify src len) s .addr ∧
      (unknownScheme sch = false → Faults (.modulate sch src len dst) s .addr) ∧
      (s.status.lv = true → Faults (.ldpcEnc src len dst) s .addr) ∧
      (s.status.pv = true → len = s.polarK → Faults (.polarEnc src len dst) s .addr) ∧
      (polarLength s.cfg len.toNat = true → Faults (.polarXform src len dst) s .addr)) ∧
    (s.cfg.smSyms < src.toNat + len.toNat →
      (unknownScheme sch = false → Faults (.demodHard sch src len dst) s .addr) ∧
      (unknownScheme sch = false → Num64.lt Num64.zero (s.scalar ss) = true →
        Faults (.demodSoft sch ss src len dst) s .addr) ∧
      Faults (.awgnAdd ss st sd src len dst x) s .addr ∧ Faults (.measSnr sd src len src2 len) s .addr ∧
      Faults (.measSnr sd src2 len src len) s .addr) ∧
    (s.cfg.lmVals < src.toNat + len.toNat →
      (s.status.lv = true → Faults (.ldpcDec src len dst x) s .addr) ∧
      (s.status.pv = true → len = s.polarN → Faults (.polarDec src len dst x) s .addr))) ∧
  ∀ (s : State) (sch : Scheme) (ss st sd : ScalarIdx) (src len dst x : Word),
    (s.cfg.bmBits < dst.toNat + (len.toNat + 16) → Faults (.crcAppend src len dst) s .addr) ∧
    (unknownScheme sch = false → s.cfg.smSyms < dst.toNat + 2 ^ bps sch → Faults (.getConst sch dst) s .addr) ∧
    (s.status.lv = true → s.ldpcN ≠ 0#32 → s.cfg.bmBits < dst.toNat + s.ldpcN.toNat → Faults (.ldpcEnc src len dst) s .addr) ∧
    (s.status.pv = true → len = s.polarK → s.polarN ≠ 0#32 → s.cfg.bmBits < dst.toNat + s.polarN.toNat →
      Faults (.polarEnc src len dst) s .addr) ∧
    (s.status.pv = true → len = s.polarN → s.polarK ≠ 0#32 → s.cfg.bmBits < dst.toNat + s.polarK.toNat →
      Faults (.polarDec src len dst x) s .addr) ∧
    (s.status.lv = true → min len.toNat s.ldpcK.toNat ≠ 0 → s.cfg.bmBits < dst.toNat + min len.toNat s.ldpcK.toNat →
      Faults (.ldpcDec src len dst x) s .addr) ∧
    (len ≠ 0#32 →
      (unknownScheme sch = false → s.cfg.smSyms < dst.toNat + ceilDiv len.toNat (bps sch) →
        Faults (.modulate sch src len dst) s .addr) ∧
      (unknownScheme sch = false → s.cfg.bmBits < dst.toNat + len.toNat * bps sch →
        Faults (.demodHard sch src len dst) s .addr) ∧
      (unknownScheme sch = false → Num64.lt Num64.zero (s.scalar ss) = true →
        s.cfg.lmVals < dst.toNat + len.toNat * bps sch → Faults (.demodSoft sch ss src len dst) s .addr) ∧
      (s.cfg.smSyms < dst.toNat + len.toNat → Faults (.awgnAdd ss st sd src len dst x) s .addr) ∧
      (polarLength s.cfg len.toNat = true → s.cfg.bmBits < dst.toNat + len.toNat →
        Faults (.polarXform src len dst) s .addr))

/-! ## The invariant and the frame -/

/-- The invariant that every step keeps, from every state that meets it: the parameters stay admitted; `ERR` is 0 iff
`FAULT` is; each coder's registers are at reset or those of a constructed coder; the memories keep their canonical form and
stay inside their sizes (R12, R22, R26, R28, R33, R50). The state right after reset meets it. The form of the memories and
the place of the parameters are the model's (log entries 9, 11). -/
def Obligations.EveryStepKeepsTheInvariant : Prop :=
  (∀ s t : State, s.inv = true → step s = .next t → t.inv = true) ∧ State.reset.inv = true

/-- The register block from the host: every register reads at its offset, `STATUS` with its bit layout, `S0..S7` whole or by
halves, low half first, `DOORBELL` and an offset not listed as 0; a word write to `0x080 + 4·i` sets `CMDW<i>` alone, a
64-bit or a half write to `0x040 + 8·i` sets `S<i>` alone, and a write to an offset not listed changes nothing (R22, R31,
R32, R35, R55, R56). A read-only register ignores a write, and a half write stands alone: both are the model's choice (log
entries 13, 26). -/
def Obligations.HostRegisterAccess : Prop :=
  ∀ s : State,
    (∃ v : Word, HostReads .w32 s 0x000 (v.setWidth 64) ∧ v.getLsbD 0 = s.status.fault ∧ v.getLsbD 1 = s.status.matched ∧
      v.getLsbD 2 = s.status.lv ∧ v.getLsbD 3 = s.status.pv ∧ v.extractLsb' 8 8 = s.status.err ∧
      ∀ b, 4 ≤ b ∧ b < 8 ∨ 16 ≤ b → v.getLsbD b = false) ∧
    HostReads .w32 s 0x004 (s.res.setWidth 64) ∧ HostReads .w32 s 0x008 (s.olen.setWidth 64) ∧
    HostReads .w32 s 0x00C (s.ldpcN.setWidth 64) ∧ HostReads .w32 s 0x010 (s.ldpcK.setWidth 64) ∧
    HostReads .w32 s 0x014 (s.ldpcDc.setWidth 64) ∧ HostReads .w32 s 0x018 (s.polarN.setWidth 64) ∧
    HostReads .w32 s 0x01C (s.polarK.setWidth 64) ∧ HostReads .w32 s 0x020 (s.crcReg.setWidth 64) ∧
    (∀ i : Fin 8,
      HostReads .w64 s (0x040 + 8 * i) (s.scalar i).bits ∧
      HostReads .w32 s (0x040 + 8 * i) (((s.scalar i).bits.extractLsb' 0 32).setWidth 64) ∧
      HostReads .w32 s (0x044 + 8 * i) (((s.scalar i).bits.extractLsb' 32 32).setWidth 64) ∧
      HostReads .w32 s (0x080 + 4 * i) (s.cmdw[i].setWidth 64)) ∧
    HostReads .w32 s 0x0A0 0#64 ∧
    (∀ off, off % 4 = 0 → unlistedOffset off = true → HostReads .w32 s off 0#64) ∧
    ∀ data : BitVec 64,
      (∀ i : Fin 8,
        HostWrites .w32 s (0x080 + 4 * i) data { s with cmdw := s.cmdw.set i (data.setWidth 32) } ∧
        HostWrites .w64 s (0x040 + 8 * i) data { s with scalars := s.scalars.set i ⟨data⟩ } ∧
        HostWrites .w32 s (0x040 + 8 * i) data
          { s with scalars := s.scalars.set i ⟨(s.scalar i).bits.extractLsb' 32 32 ++ data.extractLsb' 0 32⟩ } ∧
        HostWrites .w32 s (0x044 + 8 * i) data
          { s with scalars := s.scalars.set i ⟨data.extractLsb' 0 32 ++ (s.scalar i).bits.extractLsb' 0 32⟩ }) ∧
      (∀ off, off % 4 = 0 → off ≤ 0x020 ∨ unlistedOffset off = true → HostWrites .w32 s off data s)

/-- A command that answers a next state has faulted, or has written nothing outside the targets that R76 lists for it, in
the ranges its rule gives (R22 to R31, R58, R76). -/
def Obligations.EveryCommandWritesItsTargetsOnly : Prop :=
  ∀ (i : Instr) (s t : State), s.inv = true → exec i s = .next t →
    (∃ c : ErrCode, t = { s with status := { s.status with fault := true, err := c.code } }) ∨
      Untouched (writeSet s i) s t

/-! ## System commands -/

/-- `NOP` completes and changes nothing at all (R230). `SETS` completes: `S[SD]` holds the pattern `(AUX1 << 32) | AUX0`
and nothing else changes (R231). -/
def Obligations.SystemCommandsComplete : Prop :=
  (∀ s : State, exec .nop s = .next s) ∧
  ∀ (s : State) (sd : ScalarIdx) (aux0 aux1 : Word),
    Completes (.sets sd aux0 aux1) s fun t =>
      (t.scalar sd).bits = (aux1.setWidth 64 <<< 32) ||| aux0.setWidth 64

/-! ## CRC -/

/-- The closed form of the CRC over GF(2): the remainder of `I(x)·x^L + D(x)` by `g(x)`; the message is not multiplied by
x^16, as the two check values for "123456789" show (R103). -/
def Obligations.CrcIsThePolynomialRemainder : Prop :=
  (∀ (poly : BitVec 16) (data : List Bit),
    bitsPoly (crcBits (crc poly data)) =
      Polynomial.modByMonic (bitsPoly (List.replicate 16 true) * Polynomial.X ^ data.length + bitsPoly data)
        (generatorPoly poly)) ∧
  crc 0x1021#16 checkDigits = 0xA69D#16 ∧ crc 0x1021#16 (checkDigits ++ List.replicate 16 false) = 0xE5CC#16

/-- `CRC16` completes on every range that fits, the empty one included, with a 16-bit polynomial: `RES` and `CRC_REG` hold
the CRC of the addressed bits (R102). -/
def Obligations.Crc16Completes : Prop :=
  ∀ (s : State) (src len aux0 : Word), aux0.toNat < 2 ^ 16 → fits src.toNat len.toNat s.cfg.bmBits = true →
    Completes (.crc16 src len aux0) s fun t =>
      t.crcReg = crc (aux0.setWidth 16) (s.readBits src.toNat len.toNat) ∧ t.res.toNat = t.crcReg.toNat

/-- `CRC_APPEND` completes: the data and then the CRC, `crc[15]` first, stand at `DST`; `OLEN`, `RES` and `CRC_REG` are set
(R54, R104, R105). An `OLEN` of 2^32 or more is free, the model's choice (log entry 16). -/
def Obligations.CrcAppendCompletes : Prop :=
  ∀ (s : State) (src len dst : Word), fits src.toNat len.toNat s.cfg.bmBits = true →
    dst.toNat + (len.toNat + 16) ≤ s.cfg.bmBits →
    Completes (.crcAppend src len dst) s fun t =>
      (∀ j, j < len.toNat → t.readBit (dst.toNat + j) = s.readBit (src.toNat + j)) ∧
      (∀ j, j < 16 → t.readBit (dst.toNat + len.toNat + j) =
        (crc 0x1021#16 (s.readBits src.toNat len.toNat)).getLsbD (15 - j)) ∧
      t.crcReg = crc 0x1021#16 (s.readBits src.toNat len.toNat) ∧ t.res.toNat = t.crcReg.toNat ∧
      t.olen = wordOf (len.toNat + 16)

/-- `CRC_VERIFY` completes: `MATCH` and `RES` say whether the trailing 16 bits are the CRC of the rest; fewer than 16 bits
are a mismatch with `CRC_REG` at 0xFFFF (R106, R107). -/
def Obligations.CrcVerifyCompletes : Prop :=
  ∀ (s : State) (src len : Word), fits src.toNat len.toNat s.cfg.bmBits = true →
    Completes (.crcVerify src len) s fun t =>
      (t.status.matched = true ↔ t.res = 1#32) ∧ (t.status.matched = false ↔ t.res = 0#32) ∧
      (len.toNat < 16 → t.status.matched = false ∧ t.crcReg = 0xFFFF#16) ∧
      (16 ≤ len.toNat →
        t.crcReg = crc 0x1021#16 (s.readBits src.toNat (len.toNat - 16)) ∧
        (t.status.matched = true ↔
          ∀ j, j < 16 → s.readBit (src.toNat + (len.toNat - 16) + j) = t.crcReg.getLsbD (15 - j)))

/-- The round trip: every sequence with its CRC appended verifies, and `CRC_VERIFY` of what `CRC_APPEND` wrote sets `MATCH`
(R108). -/
def Obligations.AppendedCrcVerifies : Prop :=
  (∀ data : List Bit, crcMatches (data ++ crcBits (crc 0x1021#16 data)) = true) ∧
  ∀ (s : State) (src len dst : Word), fits src.toNat len.toNat s.cfg.bmBits = true →
    dst.toNat + (len.toNat + 16) ≤ s.cfg.bmBits → len.toNat + 16 < 2 ^ 32 →
    ∃ t u, exec (.crcAppend src len dst) s = .next t ∧ exec (.crcVerify dst (len + 16#32)) t = .next u ∧
      u.status.matched = true ∧ u.res = 1#32

/-- One inverted bit at any place of `data ++ CRC(data)` is detected, for every data; and it is not for the polynomial 0
(R109). -/
def Obligations.EverySingleBitFlipIsDetected : Prop :=
  (∀ (data : List Bit) (i : Nat), i < data.length + 16 →
    crcMatches (flipBit (data ++ crcBits (crc 0x1021#16 data)) i) = false) ∧
  (∀ (s : State) (src len : Word) (data : List Bit) (i : Nat), fits src.toNat len.toNat s.cfg.bmBits = true →
    i < data.length + 16 →
    s.readBits src.toNat len.toNat = flipBit (data ++ crcBits (crc 0x1021#16 data)) i →
    ∃ t, exec (.crcVerify src len) s = .next t ∧ t.status.matched = false ∧ t.res = 0#32) ∧
  ∃ (data : List Bit) (i : Nat), i < data.length ∧ crc 0#16 (flipBit data i) = crc 0#16 data

/-! ## Modulator -/

/-- `GET_BPS` completes for every scheme code: 2, 4, 6, 8, and 2 for an unknown scheme (R123). -/
def Obligations.GetBpsCompletes : Prop :=
  ∀ (s : State) (sch : Scheme),
    Completes (.getBps sch) s fun t =>
      t.res = (match sch with
        | .qpsk => 2#32
        | .qam16 => 4#32
        | .qam64 => 6#32
        | .qam256 => 8#32
        | .unknown _ => 2#32)

/-- `GET_CONST` completes: the symbol at place `i·M + q` has the real part `Lv(M, q)/√E` and the imaginary part
`Lv(M, i)/√E`; `OLEN` is `2^b` (R121, R122, R124). -/
def Obligations.GetConstCompletes : Prop :=
  ∀ (s : State) (sch : Scheme) (dst : Word), s.cfg.tableWf = true → unknownScheme sch = false →
    dst.toNat + 2 ^ bps sch ≤ s.cfg.smSyms →
    let N := s.cfg.num
    let level := fun j => N.div (levelNum N ((levels s.cfg sch).getD j 0)) (N.sqrt (N.ofNat (energy sch)))
    Completes (.getConst sch dst) s fun t =>
      t.olen.toNat = 2 ^ bps sch ∧
      ∀ i q, i < 2 ^ (bps sch / 2) → q < 2 ^ (bps sch / 2) →
        t.readSym (dst.toNat + (i * 2 ^ (bps sch / 2) + q)) = ⟨level q, level i⟩

/-- `MOD` completes: symbol `j` is the constellation point whose index is the `j`-th chunk of bits, big-endian, the last
chunk padded with zeros at its end; `OLEN` is `ceil(LEN / b)` (R125, R126, R127). -/
def Obligations.ModCompletes : Prop :=
  ∀ (s : State) (sch : Scheme) (src len dst : Word), s.cfg.tableWf = true → unknownScheme sch = false →
    fits src.toNat len.toNat s.cfg.bmBits = true → fits dst.toNat (ceilDiv len.toNat (bps sch)) s.cfg.smSyms = true →
    Completes (.modulate sch src len dst) s fun t =>
      t.olen.toNat = ceilDiv len.toNat (bps sch) ∧
      ∀ j, j < ceilDiv len.toNat (bps sch) →
        (constellation s.cfg.num s.cfg sch)[chunkAt s src.toNat len.toNat (bps sch) j]? = some (t.readSym (dst.toNat + j))

/-- In every admitted table the mean of `Lv² + Lv²` over all points is `E`, so that the mean energy after the division by
`√E` is 1 in exact reals (R121, R128). -/
def Obligations.MeanEnergyIsTheDivisor : Prop :=
  ∀ (c : Config) (sch : Scheme), c.tableWf = true → unknownScheme sch = false →
    ((levels c sch).flatMap fun i => (levels c sch).map fun q => q * q + i * i).sum =
      (energy sch : Int) * 2 ^ bps sch

/-! ## Demodulator -/

/-- `Nearest` is the first index of least distance, for every record `Num` that meets the laws of R17 and finite distances, and
in binary64 index 0 where every distance is a NaN (R141). For every record at all it is that index where `<` is a strict weak
order on the distances of the symbol, a premise that says what the scan needs where distances are not finite, and index 0
where no distance is below another. -/
def Obligations.NearestIsTheFirstMinimum : Prop :=
  (∀ (α : Type) (N : NumRec α) (finite nan : α → Prop) (value : α → ℝ), NumLaws N finite nan value →
    ∀ (pts : List (SymOf α)) (r : SymOf α), pts ≠ [] →
      let d := fun j => dist N r (pointAt N pts j)
      (∀ j, j < pts.length → finite (d j)) →
        nearest N pts r < pts.length ∧
        (∀ j, j < pts.length → N.lt (d j) (d (nearest N pts r)) = false) ∧
        ∀ j, j < nearest N pts r → N.lt (d (nearest N pts r)) (d j) = true) ∧
  (∀ (α : Type) (N : NumRec α) (pts : List (SymOf α)) (r : SymOf α), pts ≠ [] →
    let d := fun j => dist N r (pointAt N pts j)
    let below := fun i j => N.lt (d i) (d j) = true
    ((∀ i, i < pts.length → ¬ below i i) →
      (∀ i j k, i < pts.length → j < pts.length → k < pts.length →
        (below i j → below j k → below i k) ∧ (below i k → below i j ∨ below j k)) →
      nearest N pts r < pts.length ∧ (∀ j, j < pts.length → ¬ below j (nearest N pts r)) ∧
      ∀ j, j < nearest N pts r → below (nearest N pts r) j) ∧
    ((∀ i j, i < pts.length → j < pts.length → ¬ below i j) → nearest N pts r = 0)) ∧
  ∀ (rd : Rounding) (pts : List Sym) (r : Sym), pts ≠ [] →
    (∀ j, j < pts.length → (dist (binary64 rd) r (pointAt (binary64 rd) pts j)).isNaN = true) →
      nearest (binary64 rd) pts r = 0

/-- `DEMOD_HARD` completes: bit `p` of symbol `j` is bit `b − 1 − p` of the index of the nearest point (R142). An
`OLEN` of 2^32 or more is free, the model's choice (log entry 16). -/
def Obligations.DemodHardCompletes : Prop :=
  ∀ (s : State) (sch : Scheme) (src len dst : Word), unknownScheme sch = false →
    fits src.toNat len.toNat s.cfg.smSyms = true → fits dst.toNat (len.toNat * bps sch) s.cfg.bmBits = true →
    Completes (.demodHard sch src len dst) s fun t =>
      t.olen = wordOf (len.toNat * bps sch) ∧
      ∀ j p, j < len.toNat → p < bps sch →
        t.readBit (dst.toNat + (j * bps sch + p)) =
          (nearest s.cfg.num (constellation s.cfg.num s.cfg sch) (s.readSym (src.toNat + j))).testBit (bps sch - 1 - p)

/-- `DEMOD_SOFT` completes with a positive variance: on finite inputs LLR `j·b + p` is `(Min1 − Min0)/(2·v)`, where `Min1` and
`Min0` are the distances of symbol `j` to two points whose indices have bit `b − 1 − p` at 1 and at 0, those that the scan of
the points of that bit keeps, and where the distances of the symbol are finite no point of the same bit is nearer; where the
variance or a symbol is not finite the values are free (R18, R140, R143, R144, R145).
The counter that names free values and an `OLEN` of 2^32 or more are the model's choice (log entries 6, 16). -/
def Obligations.DemodSoftCompletes : Prop :=
  ∀ (s : State) (sch : Scheme) (ss : ScalarIdx) (src len dst : Word), s.cfg.tableWf = true → unknownScheme sch = false →
    Num64.lt Num64.zero (s.scalar ss) = true → fits src.toNat len.toNat s.cfg.smSyms = true →
    fits dst.toNat (len.toNat * bps sch) s.cfg.lmVals = true →
    let N := s.cfg.num
    let d := fun j i => dist N (s.readSym (src.toNat + j)) (pointAt N (constellation N s.cfg sch) i)
    let least := fun j p bit i => i < 2 ^ bps sch ∧ i.testBit (bps sch - 1 - p) = bit ∧
      minDist N (s.readSym (src.toNat + j)) (subsetAt (bps sch) p bit (constellation N s.cfg sch)) = some (d j i) ∧
      ((∀ k, k < 2 ^ bps sch → (d j k).isFinite = true) →
        ∀ k, k < 2 ^ bps sch → k.testBit (bps sch - 1 - p) = bit → N.lt (d j k) (d j i) = false)
    Completes (.demodSoft sch ss src len dst) s fun t =>
      let ok := allFinite (s.scalar ss :: symNums (s.readSyms src.toNat len.toNat))
      t.olen = wordOf (len.toNat * bps sch) ∧
      (ok = true → ∀ j p, j < len.toNat → p < bps sch →
        ∃ i1 i0, least j p true i1 ∧ least j p false i0 ∧
          t.readVal (dst.toNat + (j * bps sch + p)) =
            N.div (N.sub (d j i1) (d j i0)) (N.mul (N.ofNat 2) (s.scalar ss))) ∧
      (ok = false → t.freeCtr = s.freeCtr + 1 ∧
        ∀ j, j < len.toNat * bps sch → t.readVal (dst.toNat + j) = Config.freeNum s.freeCtr j)

/-- The noise-free hard round trip, for every scheme, every admitted table and every instance of the record `Num` that meets
the laws of R17: demodulating what `MOD` emits gives the bits back, followed by the zeros that padded the last chunk (R128,
R146). So do the two commands, one after the other, on every implementation whose record meets those laws and whose memories
give back what was stored. -/
def Obligations.HardDemodulationInvertsModulation : Prop :=
  ∀ (c : Config) (sch : Scheme) (bits : List Bit), c.tableWf = true → unknownScheme sch = false →
    let padded := bits ++ List.replicate (ceilDiv bits.length (bps sch) * bps sch - bits.length) false
    (∀ (α : Type) (N : NumRec α) (finite nan : α → Prop) (value : α → ℝ), NumLaws N finite nan value →
      hardBits N c sch (modulateBits N c sch bits) = padded) ∧
    (bits.length % bps sch = 0 → padded = bits) ∧
    ∀ (α κ : Type) (I : Implementation α κ) (finite nan : α → Prop) (value : α → ℝ),
      NumLaws I.num.toNumRec finite nan value → StorageLaws I.num →
      ∀ (s : State α κ) (src len mid dst : Word), s.cfg = c → s.readBits src.toNat len.toNat = bits →
        fits src.toNat len.toNat c.bmBits = true → fits mid.toNat (ceilDiv len.toNat (bps sch)) c.smSyms = true →
        fits dst.toNat (ceilDiv len.toNat (bps sch) * bps sch) c.bmBits = true →
        ∃ t u, I.exec (.modulate sch src len mid) s = .next t ∧
          I.exec (.demodHard sch mid (BitVec.ofNat 32 (ceilDiv len.toNat (bps sch))) dst) t = .next u ∧
          BitsAt u dst.toNat padded

/-- The two demodulators in exact reals, for every received symbol and every variance above 0: with `w` the nearest index, the
LLR of bit `p` is at most 0 where that bit of `w` is 1 and at least 0 where it is 0, and it is 0 only where the two minima are
equal; on a noise-free symbol it has the sign of its bit and a magnitude of at least `2/(E·v)` (R147). On a noise-free symbol
the sign is that of the bit with every record `Num` that meets the laws of R17 and, at the variance, the premise `LlrSigns`;
exact reals meet that premise at every variance above 0, and every such record that rounds once per operation (the premise
`RoundsOnce`) meets it at every variance in the range `LlrRange`. The premises are the model's way to say it (log entry 3). -/
def Obligations.NoiseFreeLlrSignsAreTheBits : Prop :=
  ∀ (c : Config) (sch : Scheme) (p : Nat), c.tableWf = true → unknownScheme sch = false → p < bps sch →
    let pts := constellation exactReals c sch
    let llrOf := fun v r => llr exactReals pts (bps sch) v r p
    let bit := fun idx => idx.testBit (bps sch - 1 - p)
    (∀ (v : ℝ) (r : SymOf ℝ), 0 < v →
      (bit (nearest exactReals pts r) = true → llrOf v r ≤ 0) ∧ (bit (nearest exactReals pts r) = false → 0 ≤ llrOf v r) ∧
      (llrOf v r = 0 → minDist exactReals r (subsetAt (bps sch) p true pts) =
        minDist exactReals r (subsetAt (bps sch) p false pts))) ∧
    (∀ (v : ℝ) (idx : Nat), 0 < v → idx < 2 ^ bps sch →
      let l := llrOf v (pointAt exactReals pts idx)
      2 / (energy sch * v) ≤ |l| ∧ (bit idx = true ↔ l < 0)) ∧
    (∀ (α : Type) (N : NumRec α) (finite nan : α → Prop) (value : α → ℝ), NumLaws N finite nan value →
      ∀ (v : α) (idx : Nat), idx < 2 ^ bps sch → LlrSigns N (constellation N c sch) v →
        N.negative (llr N (constellation N c sch) (bps sch) v (pointAt N (constellation N c sch) idx) p) = bit idx) ∧
    (∀ v : ℝ, 0 < v → LlrSigns exactReals pts v) ∧
    ∀ (α : Type) (N : NumRec α) (finite nan : α → Prop) (value : α → ℝ), NumLaws N finite nan value →
      RoundsOnce N finite value → ∀ v : α, LlrRange N finite value (constellation N c sch) v →
        LlrSigns N (constellation N c sch) v

/-! ## Noise unit and conversions -/

/-- `AWGN_ADD` completes on ranges that fit: the variance `1/(2·SNR)` in `S[SD]`, the linear SNR in `S[(SD+1) mod 8]`, and
symbol `j` with `σ·Draw(2j)` and `σ·Draw(2j+1)` added; where `S[SS]`, a symbol or a draw is not finite all of these are free
values; `ST` and `AUX0` change nothing (R18, R160, R161, R162). The queue of draws and the counter that names free values
are the model's (log entries 2, 6). -/
def Obligations.AwgnAddCompletes : Prop :=
  ∀ (s : State) (ss st sd : ScalarIdx) (src len dst bpsWord : Word),
    fits src.toNat len.toNat s.cfg.smSyms = true → fits dst.toNat len.toNat s.cfg.smSyms = true →
    Completes (.awgnAdd ss st sd src len dst bpsWord) s fun t =>
      let draw := s.draw s.cfg.system
      let ok := allFinite (s.scalar ss :: symNums (s.readSyms src.toNat len.toNat) ++ (List.range (2 * len.toNat)).map draw)
      let N := s.cfg.num
      let snr := N.pow10 (N.div (s.scalar ss) (N.ofNat 10))
      let var := N.div (N.ofNat 1) (N.mul (N.ofNat 2) snr)
      let sigma := N.sqrt var
      t.olen = len ∧ t.draws = s.draws.drop (2 * len.toNat) ∧
      (ok = true → t.scalar sd = var ∧ t.scalar (sd + 1) = snr ∧
        ∀ j, j < len.toNat →
          t.readSym (dst.toNat + j) =
            ⟨N.add (s.readSym (src.toNat + j)).re (N.mul sigma (draw (2 * j))),
              N.add (s.readSym (src.toNat + j)).im (N.mul sigma (draw (2 * j + 1)))⟩) ∧
      (ok = false → t.freeCtr = s.freeCtr + 1 ∧ t.scalar sd = Config.freeNum s.freeCtr (2 * len.toNat) ∧
        t.scalar (sd + 1) = Config.freeNum s.freeCtr (2 * len.toNat + 1) ∧
        ∀ j, j < len.toNat →
          t.readSym (dst.toNat + j) = ⟨Config.freeNum s.freeCtr (2 * j), Config.freeNum s.freeCtr (2 * j + 1)⟩)

/-- The three conversions complete with `AUX0 ≥ 1` and a rate above 0: `S[SD]` alone is written, with the formula of the rule
on finite inputs and with a free value else (R18, R164, R165, R166, R167; log entry 6). -/
def Obligations.ConversionsComplete : Prop :=
  ∀ (s : State) (ss st sd : ScalarIdx) (bpsWord : Word), bpsWord ≠ 0#32 → Num64.lt Num64.zero (s.scalar st) = true →
    let num := fun x => if (s.scalar ss).isFinite && (s.scalar st).isFinite then x else Config.freeNum s.freeCtr 0
    let N := s.cfg.num
    let x := N.pow10 (N.div (s.scalar ss) (N.ofNat 10))
    let b := N.ofNat bpsWord.toNat
    Completes (.nvarEbn0 ss st sd bpsWord) s (fun t =>
      t.scalar sd = num (N.div (N.ofNat 1) (N.mul (N.ofNat 2) (N.mul (N.mul x b) (s.scalar st))))) ∧
    Completes (.snr2ebn0 ss st sd bpsWord) s (fun t =>
      t.scalar sd = num (N.mul (N.ofNat 10) (N.log10 (N.div x (N.mul b (s.scalar st)))))) ∧
    Completes (.ebn02snr ss st sd bpsWord) s fun t =>
      t.scalar sd = num (N.mul (N.ofNat 10) (N.log10 (N.mul (N.mul x b) (s.scalar st))))

/-- On the engine over exact reals the three conversions complete and write what R165, R166 and R167 say they equal, and
`SNR2EBN0` and `EBN02SNR` with the same `bps` and rate are inverse to each other (R165, R166, R167). -/
def Obligations.ConversionsInExactReals : Prop :=
  (∀ (s : State ℝ ℝ) (ss st sd : ScalarIdx) (bpsWord : Word), bpsWord ≠ 0#32 → 0 < s.scalar st →
    let x := s.scalar ss
    let rate := s.scalar st
    let n : ℝ := bpsWord.toNat
    CompletesOver realSystem (.nvarEbn0 ss st sd bpsWord) s
      (fun t => t.scalar sd = 1 / (2 * ((10 : ℝ) ^ (x / 10) * n * rate))) ∧
    CompletesOver realSystem (.snr2ebn0 ss st sd bpsWord) s
      (fun t => t.scalar sd = x - 10 * Real.logb 10 (n * rate)) ∧
    CompletesOver realSystem (.ebn02snr ss st sd bpsWord) s
      (fun t => t.scalar sd = x + 10 * Real.logb 10 (n * rate))) ∧
  ∀ (x rate : ℝ) (n : Nat), 1 ≤ n → 0 < rate →
    let b := exactReals.ofNat n
    snrToEbn0Of exactReals (ebn0ToSnrOf exactReals x b rate) b rate = x ∧
    ebn0ToSnrOf exactReals (snrToEbn0Of exactReals x b rate) b rate = x

/-- At 0 dB, 4 bits per symbol and rate 1/2 `NVAR_EBN0` writes 1/4 on the engine over exact reals (R165), and so it does on every
implementation whose record meets the laws of R17, has the value 1/4 and rounds once per operation: the premise `RoundsOnce`,
by which no result on the way is rounded, is the model's way to say R16's words (log entry 3). -/
def Obligations.NoiseVarianceOfTheWorkedExample : Prop :=
  (∀ (s : State ℝ ℝ) (ss st sd : ScalarIdx), s.scalar ss = 0 → s.scalar st = 1 / 2 →
    CompletesOver realSystem (.nvarEbn0 ss st sd 4#32) s fun t => t.scalar sd = 1 / 4) ∧
  ∀ (α κ : Type) (I : Implementation α κ) (nan : α → Prop) (value : α → ℝ),
    let finite := fun x => I.num.finite x = true
    NumLaws I.num.toNumRec finite nan value → RoundsOnce I.num.toNumRec finite value →
    ∀ (s : State α κ) (ss st sd : ScalarIdx) (quarter : α), finite quarter → value quarter = 1 / 4 →
      finite (s.scalar ss) → value (s.scalar ss) = 0 → finite (s.scalar st) → value (s.scalar st) = 1 / 2 →
      CompletesOver I.num (.nvarEbn0 ss st sd 4#32) s fun t => finite (t.scalar sd) ∧ value (t.scalar sd) = 1 / 4

/-- `BER_BPSK` completes: `S[SD]` is `0.5 · Erfc(sqrt(Lin(x)))`, with `Erf` as R168 computes it, on a finite input and a
free value else (R18, R168, R169; log entry 6). -/
def Obligations.BerBpskCompletes : Prop :=
  ∀ (s : State) (ss sd : ScalarIdx),
    let N := s.cfg.num
    let x := N.sqrt (N.pow10 (N.div (s.scalar ss) (N.ofNat 10)))
    let u := N.div (N.ofNat 1) (N.add (N.ofNat 1) (N.mul (N.decimal false 3275911 10000000) (N.abs x)))
    let horner := fun y a => N.add (N.mul y u) a
    let q := N.mul
      (horner (horner (horner (horner (N.decimal false 1061405429 1000000000)
        (N.decimal true 1453152027 1000000000)) (N.decimal false 1421413741 1000000000))
        (N.decimal true 284496736 1000000000)) (N.decimal false 254829592 1000000000)) u
    let y := N.sub (N.ofNat 1) (N.mul q (N.exp (N.mul (N.neg (N.abs x)) (N.abs x))))
    let erfX := if N.lt x N.zero then N.neg y else y
    Completes (.berBpsk ss sd) s fun t =>
      t.scalar sd =
        if (s.scalar ss).isFinite then N.mul (N.decimal false 5 10) (N.sub (N.ofNat 1) erfX)
        else Config.freeNum s.freeCtr 0

/-- `MEAS_SNR` completes on equal non-zero lengths and non-zero powers: the signal power is the sum of `re·re + im·im` over
the transmitted symbols, the error power that of the differences received minus transmitted, each summed in increasing
order from 0 and divided by `ofNat LEN`, and `S[SD]` is their ratio in dB, a free value where a symbol is not finite (R18,
R170; log entry 6); where one of the powers is zero it raises `ERR_PARAM` (R171). -/
def Obligations.MeasSnrCompletes : Prop :=
  ∀ (s : State) (sd : ScalarIdx) (src len src2 : Word), len ≠ 0#32 →
    fits src.toNat len.toNat s.cfg.smSyms = true → fits src2.toNat len.toNat s.cfg.smSyms = true →
    let N := s.cfg.num
    let tx := fun j => s.readSym (src.toNat + j)
    let rx := fun j => s.readSym (src2.toNat + j)
    let meanOf := fun (f : Nat → Num64) =>
      N.div ((List.range len.toNat).foldl (fun acc j => N.add acc (f j)) N.zero) (N.ofNat len.toNat)
    let ps := meanOf fun j => N.add (N.mul (tx j).re (tx j).re) (N.mul (tx j).im (tx j).im)
    let pe := meanOf fun j =>
      let er := N.sub (rx j).re (tx j).re
      let ei := N.sub (rx j).im (tx j).im
      N.add (N.mul er er) (N.mul ei ei)
    (ps.isZero = false ∧ pe.isZero = false →
      Completes (.measSnr sd src len src2 len) s fun t =>
        t.scalar sd =
          if ∀ j, j < len.toNat → (tx j).re.isFinite = true ∧ (tx j).im.isFinite = true ∧ (rx j).re.isFinite = true ∧
              (rx j).im.isFinite = true
          then N.mul (N.ofNat 10) (N.log10 (N.div ps pe))
          else Config.freeNum s.freeCtr 0) ∧
    (ps.isZero = true ∨ pe.isZero = true → Faults (.measSnr sd src len src2 len) s .param)

/-- Adding noise whose draws are all 0 leaves every symbol as it is in exact reals, so that `AWGN_ADD` of the engine over exact
reals copies its source where its draws are 0 (R162). With every record `Num` that meets the laws of R17 and rounds once per
operation, finite symbols keep their values for every finite σ; the premise `RoundsOnce` is the model's way to say R16's words
(log entry 3). -/
def Obligations.ZeroDrawsLeaveSymbolsUnchanged : Prop :=
  (∀ (s : State ℝ ℝ) (ss st sd : ScalarIdx) (src len dst bpsWord : Word),
    fits src.toNat len.toNat s.cfg.smSyms = true → fits dst.toNat len.toNat s.cfg.smSyms = true →
    2 * len.toNat ≤ s.draws.length → (∀ x ∈ s.draws, x = 0) →
    CompletesOver realSystem (.awgnAdd ss st sd src len dst bpsWord) s fun t =>
      ∀ j, j < len.toNat → t.symAt realSystem (dst.toNat + j) = s.symAt realSystem (src.toNat + j)) ∧
  ∀ (α : Type) (N : NumRec α) (finite nan : α → Prop) (value : α → ℝ), NumLaws N finite nan value →
    RoundsOnce N finite value →
    ∀ (sigma : α) (draw : Nat → α) (sym : List (SymOf α)), finite sigma → (∀ j, finite (draw j) ∧ value (draw j) = 0) →
      (∀ x ∈ sym, finite x.re ∧ finite x.im) →
      ∀ (j : Nat) (x : SymOf α), sym[j]? = some x →
        ∃ y, (addNoise N sigma draw sym)[j]? = some y ∧ finite y.re ∧ finite y.im ∧ value y.re = value x.re ∧
          value y.im = value x.im

/-! ## The record `Num` -/

/-- Binary64 with any rounding and the exact reals meet the laws N1 to N5 of the record `Num`: `<` is a strict total order on
the finite values; the distance of points of the same finite coordinates is zero, and that of two constellation points of any
admitted table above zero; no zero and no NaN is below zero; `ofNat` is exact on 0 to 255; adding zero changes no value (R17). Which roundings
there are is the model's reading (log entry 3). -/
def Obligations.NumLawsHold : Prop :=
  (∀ r : Rounding, NumLaws (binary64 r) (fun x => x.isFinite = true) (fun x => x.isNaN = true) realOf) ∧
  NumLaws exactReals (fun _ => True) (fun _ => False) id

/-- The sum, the difference, the product, the quotient by a divisor that is not zero, the root of a number that is not
negative, and `ofNat`, of finite binary64 values: each is the exact real result where binary64 has it, and else one of its two
neighbours, for every rounding (R16). A decimal constant is the nearest binary64 value (R168). That the neighbours bound the
rounding, and that the largest finite value and infinity are the neighbours beyond the range, is the model's reading (log
entries 3, 5). -/
def Obligations.RoundingIsExactOrANeighbour : Prop :=
  (∀ (r : Rounding) (a b : Num64) (n : Nat), a.isFinite = true → b.isFinite = true →
    RoundsTo (realOf a + realOf b) (Num64.add r a b) ∧ RoundsTo (realOf a - realOf b) (Num64.sub r a b) ∧
    RoundsTo (realOf a * realOf b) (Num64.mul r a b) ∧
    (b.isZero = false → RoundsTo (realOf a / realOf b) (Num64.div r a b)) ∧
    (a.sign = false → RoundsTo (Real.sqrt (realOf a)) (Num64.sqrt r a)) ∧ RoundsTo n (Num64.ofNat r n)) ∧
  ∀ (neg : Bool) (n d : Nat) (z : Num64), 0 < d → n ≤ d * 2 ^ 1000 → z.isFinite = true →
    let x : ℝ := if neg then -(n / d : ℝ) else n / d
    (Num64.ofDecimal neg n d).isFinite = true ∧ |realOf (Num64.ofDecimal neg n d) - x| ≤ |realOf z - x|

/-- `pow10`, `exp`, `log10`, `log2`, `ln` and `cos` of a finite binary64 value, where the model's integer enclosure of the real
result meets no value but two neighbours: the result is one of the neighbours of the real one, for every rounding (R16). That
the enclosure is that fine at every argument is not established (log entry 4). -/
def Obligations.TranscendentalsRoundToANeighbour : Prop :=
  ∀ (r : Rounding) (x : Num64), x.isFinite = true →
    ((powEnclosure .ten x).decided = true → NextTo ((10 : ℝ) ^ realOf x) (Num64.pow10 r x)) ∧
    ((powEnclosure .e x).decided = true → NextTo (Real.exp (realOf x)) (Num64.exp r x)) ∧
    (x.sign = false → x.isZero = false →
      ((logEnclosure .ten x).decided = true → NextTo (Real.logb 10 (realOf x)) (Num64.log10 r x)) ∧
      ((logEnclosure .two x).decided = true → NextTo (Real.logb 2 (realOf x)) (Num64.log2 r x)) ∧
      ((logEnclosure .e x).decided = true → NextTo (Real.log (realOf x)) (Num64.ln r x))) ∧
    ∀ (neg : Bool) (e : Enclosure), cosMagnitude x = some (neg, e) → e.decided = true →
      NextTo (Real.cos (realOf x)) (Num64.cos r x)

/-! ## LDPC -/

/-- `LDPC_CFG` completes in its domain: `LDPC_N = n`, `LDPC_K = floor(n·p/q)`, `LDPC_DC = floor(3·n/(n−k))`, `LV` set, and
`k < n` (R190, R192). An `LDPC_DC` of 2^32 or more is free, the model's choice (log entry 16). -/
def Obligations.LdpcCfgCompletes : Prop :=
  ∀ (s : State) (n p q : Word), n ≠ 0#32 → n.toNat ≤ s.cfg.ldpcNMax → p ≠ 0#32 → p.toNat < q.toNat →
    Completes (.ldpcCfg n p q) s fun t =>
      t.ldpcN = n ∧ t.ldpcK.toNat = n.toNat * p.toNat / q.toNat ∧ t.ldpcK.toNat < n.toNat ∧
      t.ldpcDc = wordOf (3 * n.toNat / (n.toNat - t.ldpcK.toNat)) ∧ t.status.lv = true

/-- The closed form of the matrix is the cyclic-stride rule: `H[i][c] = 1` iff `c = (i·dc + j) mod n` for some `j < dc`
(R191). -/
def Obligations.MatrixIsTheCyclicStride : Prop :=
  ∀ n dc i c : Nat, c < n → (ldpcEntry n dc i c = true ↔ ∃ j, j < dc ∧ (i * dc + j) % n = c)

/-- `LDPC_ENC` completes with a constructed coder: the data truncated or padded to k bits, then each parity bit, the XOR of
the data bits that its row marks (R194). -/
def Obligations.LdpcEncCompletes : Prop :=
  ∀ (s : State) (src len dst : Word), s.status.lv = true → s.ldpcK.toNat ≤ s.ldpcN.toNat →
    fits src.toNat len.toNat s.cfg.bmBits = true → fits dst.toNat s.ldpcN.toNat s.cfg.bmBits = true →
    Completes (.ldpcEnc src len dst) s fun t =>
      let d := fun c => decide (c < len.toNat) && s.readBit (src.toNat + c)
      t.olen = s.ldpcN ∧
      (∀ c, c < s.ldpcK.toNat → t.readBit (dst.toNat + c) = d c) ∧
      ∀ i, i < s.ldpcN.toNat - s.ldpcK.toNat →
        t.readBit (dst.toNat + (s.ldpcK.toNat + i)) =
          xorAll (((List.range s.ldpcK.toNat).filter (ldpcEntry s.ldpcN.toNat s.ldpcDc.toNat i)).map d)

/-- The encoder is systematic and linear over GF(2) (R195). -/
def Obligations.LdpcEncoderIsSystematicAndLinear : Prop :=
  (∀ (n k dc : Nat) (x : List Bit), (ldpcEncode n k dc x).take k = fitBits k x ∧
    (x.length = k → (ldpcEncode n k dc x).take k = x)) ∧
  ∀ (n k dc : Nat) (x y : List Bit), x.length = y.length →
    ldpcEncode n k dc (List.zipWith (fun a b => a ^^ b) x y) =
      List.zipWith (fun a b => a ^^ b) (ldpcEncode n k dc x) (ldpcEncode n k dc y)

/-- `LDPC_DEC` completes with a constructed coder: bit `j` is 1 iff LLR `j` is below 0, for the first `min(LEN, k)`;
`AUX0` changes nothing (R196). -/
def Obligations.LdpcDecCompletes : Prop :=
  ∀ (s : State) (src len dst maxIter : Word), s.status.lv = true → fits src.toNat len.toNat s.cfg.lmVals = true →
    fits dst.toNat (min len.toNat s.ldpcK.toNat) s.cfg.bmBits = true →
    Completes (.ldpcDec src len dst maxIter) s fun t =>
      t.olen.toNat = min len.toNat s.ldpcK.toNat ∧
      ∀ j, j < min len.toNat s.ldpcK.toNat → t.readBit (dst.toNat + j) = Num64.lt (s.readVal (src.toNat + j)) Num64.zero

/-- The noise-free LDPC link: encoding k bits, modulating, demodulating softly with any variance above 0 and thresholding the
first k of the n LLRs gives the data back, in exact reals (R199); so it does with every record `Num` that meets the laws of R17
and, at the variance, the premise `LlrSigns`, or the premise `RoundsOnce` with a variance in the range `LlrRange`. The premises
are the model's way to say it (log entry 3). -/
def Obligations.NoiseFreeLdpcLinkReturnsTheData : Prop :=
  ∀ (c : Config) (sch : Scheme) (n k dc : Nat) (d : List Bit), c.tableWf = true → unknownScheme sch = false →
    d.length = k → k ≤ n →
    let word := ldpcEncode n k dc d
    (∀ v : ℝ, 0 < v →
      (hardThreshold exactReals ((softVals exactReals c sch v (modulateBits exactReals c sch word)).take n)).take k = d) ∧
    (∀ (α : Type) (N : NumRec α) (finite nan : α → Prop) (value : α → ℝ), NumLaws N finite nan value →
      ∀ v : α, LlrSigns N (constellation N c sch) v →
        (hardThreshold N ((softVals N c sch v (modulateBits N c sch word)).take n)).take k = d) ∧
    ∀ (α : Type) (N : NumRec α) (finite nan : α → Prop) (value : α → ℝ), NumLaws N finite nan value →
      RoundsOnce N finite value → ∀ v : α, LlrRange N finite value (constellation N c sch) v →
        (hardThreshold N ((softVals N c sch v (modulateBits N c sch word)).take n)).take k = d

/-! ## Polar -/

/-- Bit reversal reads the `m`-bit expansion backwards; it is a bijection of `0..2^m − 1` and its own inverse (R210). -/
def Obligations.BitReversalIsAnInvolution : Prop :=
  (∀ m i t, i < 2 ^ m → t < m → (bitRev m i).testBit t = i.testBit (m - 1 - t)) ∧
  (∀ i, bitRev 0 i = 0) ∧
  (∀ m i, i < 2 ^ m → bitRev m i < 2 ^ m ∧ bitRev m (bitRev m i) = i) ∧
  (List.range 8).map (bitRev 3) = [0, 4, 2, 6, 1, 5, 3, 7]

/-- The information positions are the K of highest reliability, ascending; the frozen ones are the others, `N − K` of them;
for `K = N/2` they are the odd indices (R211). -/
def Obligations.InformationPositionsAreTheMostReliable : Prop :=
  (∀ m k, k ≤ 2 ^ m →
    (infoPositions (2 ^ m) k).length = k ∧ (frozenPositions (2 ^ m) k).length = 2 ^ m - k ∧
    (infoPositions (2 ^ m) k).Pairwise (· < ·) ∧ (frozenPositions (2 ^ m) k).Pairwise (· < ·) ∧
    (∀ i, i < 2 ^ m ↔ i ∈ infoPositions (2 ^ m) k ∨ i ∈ frozenPositions (2 ^ m) k) ∧
    ∀ i j, i ∈ infoPositions (2 ^ m) k → j ∈ frozenPositions (2 ^ m) k → bitRev m j < bitRev m i) ∧
  (∀ m, infoPositions (2 ^ (m + 1)) (2 ^ m) = (List.range (2 ^ (m + 1))).filter fun i => i % 2 == 1) ∧
  infoPositions 8 3 = [3, 5, 7] ∧ infoPositions 8 5 = [1, 3, 5, 6, 7] ∧ infoPositions 16 5 = [3, 7, 11, 13, 15]

/-- The closed form of the butterfly: entry `i` is the XOR of the entries `j` whose expansion contains that of `i` (R213). -/
def Obligations.PolarTransformClosedForm : Prop :=
  ∀ (m : Nat) (u : List Bit), u.length = 2 ^ m →
    (polarTransform u).length = 2 ^ m ∧
    ∀ i, i < 2 ^ m → (polarTransform u).getD i false = xorAbove (2 ^ m) (fun j => u.getD j false) i

/-- The transform is its own inverse, each stage is its own inverse, and the stages commute (R217). -/
def Obligations.PolarTransformIsAnInvolution : Prop :=
  ∀ (m : Nat) (u : List Bit), u.length = 2 ^ m →
    polarTransform (polarTransform u) = u ∧
    (∀ a, a < m → butterflyStage (2 ^ a) (butterflyStage (2 ^ a) u) = u) ∧
    ∀ a b, a < m → b < m →
      butterflyStage (2 ^ a) (butterflyStage (2 ^ b) u) = butterflyStage (2 ^ b) (butterflyStage (2 ^ a) u)

/-- `POLAR_CFG` completes for N a power of two up to `2^POLAR_MMAX` and `K ≤ N`: the two registers are written and `PV` is
set (R212). -/
def Obligations.PolarCfgCompletes : Prop :=
  ∀ (s : State) (n k : Word) (m : Nat), n.toNat = 2 ^ m → m ≤ s.cfg.polarMMax → k.toNat ≤ n.toNat →
    Completes (.polarCfg n k) s fun t => t.polarN = n ∧ t.polarK = k ∧ t.status.pv = true

/-- `POLAR_XFORM` completes for a length that is a power of two up to `2^POLAR_MMAX`, with or without a coder: each output
bit is the XOR of R213 over the old source bits (R213, R214). -/
def Obligations.PolarXformCompletes : Prop :=
  ∀ (s : State) (src len dst : Word) (m : Nat), len.toNat = 2 ^ m → m ≤ s.cfg.polarMMax →
    src.toNat + len.toNat ≤ s.cfg.bmBits → dst.toNat + len.toNat ≤ s.cfg.bmBits →
    Completes (.polarXform src len dst) s fun t =>
      t.olen = len ∧
      ∀ i, i < len.toNat →
        t.readBit (dst.toNat + i) = xorAbove len.toNat (fun j => s.readBit (src.toNat + j)) i

/-- `POLAR_ENC` completes with a constructed coder and `LEN = K`: data bit `t` at the `t`-th information position, 0 at the
frozen ones, and then the butterfly (R211, R213, R215). -/
def Obligations.PolarEncCompletes : Prop :=
  ∀ (s : State) (src dst : Word), s.status.pv = true → s.polarInv = true →
    fits src.toNat s.polarK.toNat s.cfg.bmBits = true → fits dst.toNat s.polarN.toNat s.cfg.bmBits = true →
    Completes (.polarEnc src s.polarK dst) s fun t =>
      let n := s.polarN.toNat
      let k := s.polarK.toNat
      let u := fun j => isInfo n k j && s.readBit (src.toNat + infoRank n k j)
      t.olen = s.polarN ∧ ∀ i, i < n → t.readBit (dst.toNat + i) = xorAbove n u i

/-- `POLAR_DEC` completes with a constructed coder and `LEN = N`: the hard decisions, the butterfly, and the bits at the
information positions in ascending order; `AUX0` changes nothing (R211, R213, R216). -/
def Obligations.PolarDecCompletes : Prop :=
  ∀ (s : State) (src dst listSize : Word), s.status.pv = true → s.polarInv = true →
    fits src.toNat s.polarN.toNat s.cfg.lmVals = true → fits dst.toNat s.polarK.toNat s.cfg.bmBits = true →
    Completes (.polarDec src s.polarN dst listSize) s fun t =>
      let n := s.polarN.toNat
      let k := s.polarK.toNat
      t.olen = s.polarK ∧
      ∀ i, i < n → isInfo n k i = true →
        t.readBit (dst.toNat + infoRank n k i) = xorAbove n (fun j => Num64.lt (s.readVal (src.toNat + j)) Num64.zero) i

/-- The noise-free Polar link: where the LLR signs reproduce the codeword of `d`, `POLAR_DEC` writes `d` (R218). -/
def Obligations.NoiseFreePolarLinkReturnsTheData : Prop :=
  ∀ (s : State) (src dst listSize : Word) (d : List Bit), s.status.pv = true → s.polarInv = true →
    fits src.toNat s.polarN.toNat s.cfg.lmVals = true → fits dst.toNat s.polarK.toNat s.cfg.bmBits = true →
    d.length = s.polarK.toNat →
    (∀ j, j < s.polarN.toNat → Num64.lt (s.readVal (src.toNat + j)) Num64.zero =
      (polarTransform (placeBits s.polarN.toNat s.polarK.toNat d)).getD j false) →
    ∃ t, exec (.polarDec src s.polarN dst listSize) s = .next t ∧ BitsAt t dst.toNat d ∧ t.olen = s.polarK

/-! ## The host's side -/

/-- A host write of a byte to `BM` sets bit address `8·k + i` to bit `7 − i` of the byte and no other element; the byte
reads back (R53, R58). It works in the faulted state too (R284). -/
def Obligations.HostByteWritesAreMsbFirst : Prop :=
  ∀ (s : State) (k : Nat) (data : BitVec 64) (rest : List Input), s.cfg.wf = true → k < s.cfg.bmBits / 8 →
    s.inputs = .hostWrite .w8 (s.cfg.bmBase + k) data :: .hostRead .w8 (s.cfg.bmBase + k) :: rest →
    ∃ t u, step s = .next t ∧ step t = .next u ∧
      (∀ i, i < 8 → t.readBit (8 * k + i) = data.getLsbD (7 - i)) ∧
      Untouched { WriteSet.none with bm := (8 * k, 8) } { s with inputs := t.inputs } t ∧
      u.readData.toNat = data.toNat % 256 ∧ u.inputs = rest

/-- A host write of 64 bits to `LM` sets one value, little-endian, and no other element; it reads back whole and as two
32-bit halves, low half first (R56, R58). -/
def Obligations.HostNumWritesAreLittleEndian : Prop :=
  ∀ (s : State) (j : Nat) (data : BitVec 64) (rest : List Input), s.cfg.wf = true → j < s.cfg.lmVals →
    s.inputs = .hostWrite .w64 (s.cfg.lmBase + 8 * j) data :: rest →
    ∃ t, step s = .next t ∧ t.readVal j = ⟨data⟩ ∧
      (∀ i, i < 8 → t.readLmByte (8 * j + i) = data.extractLsb' (8 * i) 8) ∧
      Untouched { WriteSet.none with lm := (j, 1) } { s with inputs := t.inputs } t ∧
      t.hostLoad .w64 .lmWindow (8 * j) = data ∧
      t.hostLoad .w32 .lmWindow (8 * j) = (data.extractLsb' 0 32).setWidth 64 ∧
      t.hostLoad .w32 .lmWindow (8 * j + 4) = (data.extractLsb' 32 32).setWidth 64

/-! ## The reference functions -/

/-- `calculateBER`: the fraction of the indices at which two sequences of one length differ; it is symmetric, between 0 and
1, and 0 for a sequence and itself; a length mismatch fails, and two empty sequences are refused (R241). -/
def Obligations.BerIsTheDifferingFraction : Prop :=
  ∀ a b : List Bit,
    (a.length ≠ b.length → calculateBER a b = .error .lengthMismatch) ∧
    (a.length = b.length → a ≠ [] →
      ∃ r : Rat, calculateBER a b = .ok r ∧ 0 ≤ r ∧ r ≤ 1 ∧
        r * a.length = ((List.range a.length).countP fun j => decide (a[j]? ≠ b[j]?) : Nat)) ∧
    calculateBER a b = calculateBER b a ∧
    (a ≠ [] → calculateBER a a = .ok 0) ∧
    calculateBER [] [] = .error .unstated

/-- The empirical entropy of a stream lies between 0 and `log2` of any bound on the number of symbols that occur; on paired
streams of one length the two estimators of the mutual information agree, and it is not negative; a length mismatch fails
(R251, R252, R253). The double sum is the one R253 writes, which it marks as general knowledge, and that an empty stream is
refused is the model's choice (log entry 21). -/
def Obligations.InformationMeasuresAreBoundedAndAgree : Prop :=
  ∀ (α β : Type) [DecidableEq α] [DecidableEq β] (a : List α) (b : List β),
    (a ≠ [] → ∃ h : ℝ, entropy a = .ok h ∧ 0 ≤ h ∧ ∀ n : Nat, a.dedup.length ≤ n → h ≤ Real.logb 2 n) ∧
    (a.length = b.length → a ≠ [] →
      ∃ i : ℝ, mutualInfoSubtractive a b = .ok i ∧ mutualInfoDirect a b = .ok i ∧ 0 ≤ i) ∧
    (a.length ≠ b.length → jointEntropy a b = .error .lengthMismatch ∧ mutualInfoDirect a b = .error .lengthMismatch) ∧
    entropy ([] : List α) = .error .unstated
end

