-- ==== Sys2Proof/Laws/Decode.lean ====
section
/-! SUPPORT. The fields of a packed `W0` (spec/30_encoding.md R71): each reads back what was packed, and the reserved bits
are 0. -/

namespace Sys2Proof.Laws

variable (op : Byte) (sch : BitVec 3) (ss st sd : ScalarIdx)

theorem packW0_toNat :
    (packW0 op sch ss st sd).toNat =
      op.toNat + sch.toNat * 2 ^ 8 + ss.val * 2 ^ 12 + st.val * 2 ^ 16 + sd.val * 2 ^ 20 := by
  rw [packW0, BitVec.toNat_ofNat, Nat.mod_eq_of_lt]
  have := op.isLt; have := sch.isLt; have := ss.isLt; have := st.isLt; have := sd.isLt
  omega

/-- A three-bit field of a word, as a number. -/
theorem extract3_toNat (w : Word) (lo : Nat) : (w.extractLsb' lo 3).toNat = w.toNat / 2 ^ lo % 8 := by
  rw [BitVec.extractLsb'_toNat, Nat.shiftRight_eq_div_pow]

@[simp] theorem fieldOp_packW0 : fieldOp (packW0 op sch ss st sd) = op := by
  apply BitVec.eq_of_toNat_eq
  rw [fieldOp, BitVec.extractLsb'_toNat, packW0_toNat, Nat.shiftRight_eq_div_pow]
  have := op.isLt
  omega

@[simp] theorem schBits_packW0 : (packW0 op sch ss st sd).extractLsb' 8 3 = sch := by
  apply BitVec.eq_of_toNat_eq
  rw [extract3_toNat, packW0_toNat]
  have := op.isLt; have := sch.isLt
  omega

@[simp] theorem fieldSs_packW0 : fieldSs (packW0 op sch ss st sd) = ss := by
  apply Fin.ext
  simp only [fieldSs, Fin.ofNat, extract3_toNat, packW0_toNat]
  have := op.isLt; have := sch.isLt; have := ss.isLt
  omega

@[simp] theorem fieldSt_packW0 : fieldSt (packW0 op sch ss st sd) = st := by
  apply Fin.ext
  simp only [fieldSt, Fin.ofNat, extract3_toNat, packW0_toNat]
  have := op.isLt; have := sch.isLt; have := ss.isLt; have := st.isLt
  omega

@[simp] theorem fieldSd_packW0 : fieldSd (packW0 op sch ss st sd) = sd := by
  apply Fin.ext
  simp only [fieldSd, Fin.ofNat, extract3_toNat, packW0_toNat]
  have := op.isLt; have := sch.isLt; have := ss.isLt; have := st.isLt; have := sd.isLt
  omega

/-- A well-formed scheme reads back from its code. -/
theorem fieldSch_packW0 (s : Scheme) (h : s.wf = true) : fieldSch (packW0 op s.code ss st sd) = s := by
  cases s with
  | qpsk => simp [fieldSch, Scheme.code]
  | qam16 => simp [fieldSch, Scheme.code]
  | qam64 => simp [fieldSch, Scheme.code]
  | qam256 => simp [fieldSch, Scheme.code]
  | unknown code =>
    have h4 : 4 ≤ code.toNat := by simpa [Scheme.wf] using h
    simp only [fieldSch, Scheme.code, schBits_packW0]
    split <;> first | omega | rfl

@[simp] theorem packW0_reserved : packW0 op sch ss st sd &&& reservedMask = 0#32 := by
  apply BitVec.eq_of_getLsbD_eq
  intro i hi
  rw [BitVec.getLsbD_and, BitVec.getLsbD, packW0_toNat, Nat.testBit_eq_decide_div_mod_eq]
  have := op.isLt; have := sch.isLt; have := ss.isLt; have := st.isLt; have := sd.isLt
  interval_cases i <;> simp [reservedMask] <;> omega

end Sys2Proof.Laws
end

