-- ==== Sys2Proof/Laws/Memory.lean ====
section
/-! SUPPORT. What the operations over one memory do: a read after a write, and the canonical form that every write keeps. -/

namespace Sys2Proof.Machine

variable {α : Type}

/-! ## Read after write -/

theorem Memory.read?_write_same (m : Memory α) (a : Nat) (v : α) : Memory.read? (Memory.write m a v) a = some v := by
  induction m with
  | nil => simp [Memory.write, Memory.read?]
  | cons c rest ih =>
    obtain ⟨b, w⟩ := c
    simp only [Memory.write]
    split
    · simp [Memory.read?]
    · split
      · simp [Memory.read?]
      · rename_i h
        simp [Memory.read?, h, ih]

theorem Memory.read?_write_other (m : Memory α) (a x : Nat) (v : α) (h : x ≠ a) :
    Memory.read? (Memory.write m a v) x = Memory.read? m x := by
  induction m with
  | nil => simp [Memory.write, Memory.read?, h]
  | cons c rest ih =>
    obtain ⟨b, w⟩ := c
    simp only [Memory.write]
    split
    · simp [Memory.read?, h]
    · split
      · rename_i h'
        subst h'
        simp [Memory.read?, h]
      · simp [Memory.read?, ih]

/-- Outside the written range a sequence write changes no read. -/
theorem Memory.read?_writeSeq_outside (xs : List α) (m : Memory α) (a x : Nat) (h : x < a ∨ a + xs.length ≤ x) :
    Memory.read? (Memory.writeSeq m a xs) x = Memory.read? m x := by
  induction xs generalizing m a with
  | nil => rfl
  | cons y ys ih =>
    simp only [List.length_cons] at h
    rw [Memory.writeSeq, ih _ _ (by omega), Memory.read?_write_other _ _ _ _ (by omega)]

/-- Inside it, the `j`-th address reads the `j`-th element. -/
theorem Memory.read?_writeSeq_inside (xs : List α) (m : Memory α) (a j : Nat) (h : j < xs.length) :
    Memory.read? (Memory.writeSeq m a xs) (a + j) = some xs[j] := by
  induction xs generalizing m a j with
  | nil => simp at h
  | cons y ys ih =>
    cases j with
    | zero =>
      rw [Memory.writeSeq, Memory.read?_writeSeq_outside _ _ _ _ (by omega), Nat.add_zero, Memory.read?_write_same]
      rfl
    | succ j =>
      have e : a + (j + 1) = (a + 1) + j := by omega
      rw [Memory.writeSeq, e, ih _ _ _ (by simpa using h)]
      rfl

/-! ## The canonical form -/

theorem Memory.wf_tail (c : Nat × α) (m : Memory α) (h : Memory.wf (c :: m) = true) : Memory.wf m = true := by
  cases m with
  | nil => rfl
  | cons d rest => simp only [Memory.wf, Bool.and_eq_true] at h; exact h.2

/-- An entry at a smaller address than the first keeps the form. -/
theorem Memory.wf_cons (a : Nat) (v : α) (m : Memory α) (h : Memory.wf m = true)
    (hlt : ∀ c ∈ m.head?, a < c.1) : Memory.wf ((a, v) :: m) = true := by
  cases m with
  | nil => rfl
  | cons d rest => simp only [Memory.wf, Bool.and_eq_true, decide_eq_true_eq]; exact ⟨hlt d rfl, h⟩

/-- The first address after a write is the written one or the first one before it. -/
theorem Memory.head?_write (m : Memory α) (a : Nat) (v : α) (c : Nat × α) (h : c ∈ (Memory.write m a v).head?) :
    c.1 = a ∨ ∃ d ∈ m.head?, c.1 = d.1 := by
  cases m with
  | nil => simp [Memory.write] at h; exact .inl (by rw [← h])
  | cons d rest =>
    obtain ⟨b, w⟩ := d
    simp only [Memory.write] at h
    split at h
    · simp at h; exact .inl (by rw [← h])
    · split at h
      · simp at h; exact .inl (by rw [← h])
      · simp at h; exact .inr ⟨(b, w), rfl, by rw [← h]⟩

theorem Memory.wf_write (m : Memory α) (a : Nat) (v : α) (h : Memory.wf m = true) :
    Memory.wf (Memory.write m a v) = true := by
  induction m with
  | nil => rfl
  | cons c rest ih =>
    obtain ⟨b, w⟩ := c
    simp only [Memory.write]
    split
    · rename_i hlt
      exact Memory.wf_cons _ _ _ h (by simpa using hlt)
    · rename_i hge
      split
      · rename_i heq
        subst heq
        refine Memory.wf_cons _ _ _ (Memory.wf_tail _ _ h) fun c hc => ?_
        cases rest with
        | nil => simp at hc
        | cons d t =>
          simp only [List.head?_cons, Option.mem_def, Option.some.injEq] at hc
          subst hc
          simp only [Memory.wf, Bool.and_eq_true, decide_eq_true_eq] at h
          exact h.1
      · rename_i hne
        refine Memory.wf_cons _ _ _ (ih (Memory.wf_tail _ _ h)) fun c hc => ?_
        rcases Memory.head?_write _ _ _ _ hc with h1 | ⟨d, hd, h1⟩
        · omega
        · cases rest with
          | nil => simp at hd
          | cons e t =>
            simp only [List.head?_cons, Option.mem_def, Option.some.injEq] at hd
            subst hd
            simp only [Memory.wf, Bool.and_eq_true, decide_eq_true_eq] at h
            omega

/-- Every sequence write keeps the canonical form. -/
theorem Memory.wf_writeSeq (xs : List α) (m : Memory α) (a : Nat) (h : Memory.wf m = true) :
    Memory.wf (Memory.writeSeq m a xs) = true := by
  induction xs generalizing m a with
  | nil => exact h
  | cons y ys ih => exact ih _ _ (Memory.wf_write _ _ _ h)

theorem Memory.below_write (m : Memory α) (a z : Nat) (v : α) (h : Memory.below m z = true) (ha : a < z) :
    Memory.below (Memory.write m a v) z = true := by
  induction m with
  | nil => simp [Memory.write, Memory.below, ha]
  | cons c rest ih =>
    obtain ⟨b, w⟩ := c
    simp only [Memory.below, List.all_cons, Bool.and_eq_true, decide_eq_true_eq] at h ih ⊢
    simp only [Memory.write]
    split
    · simp only [List.all_cons, Bool.and_eq_true, decide_eq_true_eq]
      exact ⟨ha, h.1, h.2⟩
    · split
      · simp only [List.all_cons, Bool.and_eq_true, decide_eq_true_eq]
        exact ⟨ha, h.2⟩
      · simp only [List.all_cons, Bool.and_eq_true, decide_eq_true_eq]
        exact ⟨h.1, ih h.2⟩

/-- A sequence write inside the size keeps every address inside it. -/
theorem Memory.below_writeSeq (xs : List α) (m : Memory α) (a z : Nat) (h : Memory.below m z = true)
    (hz : xs = [] ∨ a + xs.length ≤ z) : Memory.below (Memory.writeSeq m a xs) z = true := by
  induction xs generalizing m a with
  | nil => exact h
  | cons y ys ih =>
    have hlen : a + (ys.length + 1) ≤ z := by simpa using hz
    exact ih _ _ (Memory.below_write _ _ _ _ h (by omega)) (.inr (by omega))

end Sys2Proof.Machine
end

