-- ==== Sys2Proof/Laws/State.lean ====
section
/-! SUPPORT. One lemma per field per update of the state, true by rfl, and the element reads that an update leaves alone. -/

namespace Sys2Proof.Machine

variable {α κ : Type} (s : State α κ)

/-! ### writeBits -/

@[simp] theorem State.writeBits_status (a : Nat) (xs : List Bit) : (s.writeBits a xs).status = s.status := rfl
@[simp] theorem State.writeBits_res (a : Nat) (xs : List Bit) : (s.writeBits a xs).res = s.res := rfl
@[simp] theorem State.writeBits_olen (a : Nat) (xs : List Bit) : (s.writeBits a xs).olen = s.olen := rfl
@[simp] theorem State.writeBits_ldpcN (a : Nat) (xs : List Bit) : (s.writeBits a xs).ldpcN = s.ldpcN := rfl
@[simp] theorem State.writeBits_ldpcK (a : Nat) (xs : List Bit) : (s.writeBits a xs).ldpcK = s.ldpcK := rfl
@[simp] theorem State.writeBits_ldpcDc (a : Nat) (xs : List Bit) : (s.writeBits a xs).ldpcDc = s.ldpcDc := rfl
@[simp] theorem State.writeBits_polarN (a : Nat) (xs : List Bit) : (s.writeBits a xs).polarN = s.polarN := rfl
@[simp] theorem State.writeBits_polarK (a : Nat) (xs : List Bit) : (s.writeBits a xs).polarK = s.polarK := rfl
@[simp] theorem State.writeBits_crcReg (a : Nat) (xs : List Bit) : (s.writeBits a xs).crcReg = s.crcReg := rfl
@[simp] theorem State.writeBits_scalars (a : Nat) (xs : List Bit) : (s.writeBits a xs).scalars = s.scalars := rfl
@[simp] theorem State.writeBits_cmdw (a : Nat) (xs : List Bit) : (s.writeBits a xs).cmdw = s.cmdw := rfl
@[simp] theorem State.writeBits_bm (a : Nat) (xs : List Bit) : (s.writeBits a xs).bm = Memory.writeSeq s.bm a xs := rfl
@[simp] theorem State.writeBits_sm (a : Nat) (xs : List Bit) : (s.writeBits a xs).sm = s.sm := rfl
@[simp] theorem State.writeBits_lm (a : Nat) (xs : List Bit) : (s.writeBits a xs).lm = s.lm := rfl
@[simp] theorem State.writeBits_cfg (a : Nat) (xs : List Bit) : (s.writeBits a xs).cfg = s.cfg := rfl
@[simp] theorem State.writeBits_epoch (a : Nat) (xs : List Bit) : (s.writeBits a xs).epoch = s.epoch := rfl
@[simp] theorem State.writeBits_freeCtr (a : Nat) (xs : List Bit) : (s.writeBits a xs).freeCtr = s.freeCtr := rfl
@[simp] theorem State.writeBits_draws (a : Nat) (xs : List Bit) : (s.writeBits a xs).draws = s.draws := rfl
@[simp] theorem State.writeBits_inputs (a : Nat) (xs : List Bit) : (s.writeBits a xs).inputs = s.inputs := rfl
@[simp] theorem State.writeBits_readData (a : Nat) (xs : List Bit) : (s.writeBits a xs).readData = s.readData := rfl
@[simp] theorem State.writeBits_smCell (a : Nat) (xs : List Bit) (M : NumSystem α κ) (x : Nat) : (s.writeBits a xs).smCell M x = s.smCell M x := rfl
@[simp] theorem State.writeBits_symAt (a : Nat) (xs : List Bit) (M : NumSystem α κ) (x : Nat) : (s.writeBits a xs).symAt M x = s.symAt M x := rfl
@[simp] theorem State.writeBits_lmCell (a : Nat) (xs : List Bit) (M : NumSystem α κ) (x : Nat) : (s.writeBits a xs).lmCell M x = s.lmCell M x := rfl
@[simp] theorem State.writeBits_valAt (a : Nat) (xs : List Bit) (M : NumSystem α κ) (x : Nat) : (s.writeBits a xs).valAt M x = s.valAt M x := rfl
@[simp] theorem State.writeBits_scalar (a : Nat) (xs : List Bit) (j : ScalarIdx) : (s.writeBits a xs).scalar j = s.scalar j := rfl

/-! ### writeSmCells -/

@[simp] theorem State.writeSmCells_status (a : Nat) (xs : List κ) : (s.writeSmCells a xs).status = s.status := rfl
@[simp] theorem State.writeSmCells_res (a : Nat) (xs : List κ) : (s.writeSmCells a xs).res = s.res := rfl
@[simp] theorem State.writeSmCells_olen (a : Nat) (xs : List κ) : (s.writeSmCells a xs).olen = s.olen := rfl
@[simp] theorem State.writeSmCells_ldpcN (a : Nat) (xs : List κ) : (s.writeSmCells a xs).ldpcN = s.ldpcN := rfl
@[simp] theorem State.writeSmCells_ldpcK (a : Nat) (xs : List κ) : (s.writeSmCells a xs).ldpcK = s.ldpcK := rfl
@[simp] theorem State.writeSmCells_ldpcDc (a : Nat) (xs : List κ) : (s.writeSmCells a xs).ldpcDc = s.ldpcDc := rfl
@[simp] theorem State.writeSmCells_polarN (a : Nat) (xs : List κ) : (s.writeSmCells a xs).polarN = s.polarN := rfl
@[simp] theorem State.writeSmCells_polarK (a : Nat) (xs : List κ) : (s.writeSmCells a xs).polarK = s.polarK := rfl
@[simp] theorem State.writeSmCells_crcReg (a : Nat) (xs : List κ) : (s.writeSmCells a xs).crcReg = s.crcReg := rfl
@[simp] theorem State.writeSmCells_scalars (a : Nat) (xs : List κ) : (s.writeSmCells a xs).scalars = s.scalars := rfl
@[simp] theorem State.writeSmCells_cmdw (a : Nat) (xs : List κ) : (s.writeSmCells a xs).cmdw = s.cmdw := rfl
@[simp] theorem State.writeSmCells_bm (a : Nat) (xs : List κ) : (s.writeSmCells a xs).bm = s.bm := rfl
@[simp] theorem State.writeSmCells_sm (a : Nat) (xs : List κ) : (s.writeSmCells a xs).sm = Memory.writeSeq s.sm a xs := rfl
@[simp] theorem State.writeSmCells_lm (a : Nat) (xs : List κ) : (s.writeSmCells a xs).lm = s.lm := rfl
@[simp] theorem State.writeSmCells_cfg (a : Nat) (xs : List κ) : (s.writeSmCells a xs).cfg = s.cfg := rfl
@[simp] theorem State.writeSmCells_epoch (a : Nat) (xs : List κ) : (s.writeSmCells a xs).epoch = s.epoch := rfl
@[simp] theorem State.writeSmCells_freeCtr (a : Nat) (xs : List κ) : (s.writeSmCells a xs).freeCtr = s.freeCtr := rfl
@[simp] theorem State.writeSmCells_draws (a : Nat) (xs : List κ) : (s.writeSmCells a xs).draws = s.draws := rfl
@[simp] theorem State.writeSmCells_inputs (a : Nat) (xs : List κ) : (s.writeSmCells a xs).inputs = s.inputs := rfl
@[simp] theorem State.writeSmCells_readData (a : Nat) (xs : List κ) : (s.writeSmCells a xs).readData = s.readData := rfl
@[simp] theorem State.writeSmCells_readBit (a : Nat) (xs : List κ) (x : Nat) : (s.writeSmCells a xs).readBit x = s.readBit x := rfl
@[simp] theorem State.writeSmCells_lmCell (a : Nat) (xs : List κ) (M : NumSystem α κ) (x : Nat) : (s.writeSmCells a xs).lmCell M x = s.lmCell M x := rfl
@[simp] theorem State.writeSmCells_valAt (a : Nat) (xs : List κ) (M : NumSystem α κ) (x : Nat) : (s.writeSmCells a xs).valAt M x = s.valAt M x := rfl
@[simp] theorem State.writeSmCells_scalar (a : Nat) (xs : List κ) (j : ScalarIdx) : (s.writeSmCells a xs).scalar j = s.scalar j := rfl

/-! ### writeLmCells -/

@[simp] theorem State.writeLmCells_status (a : Nat) (xs : List κ) : (s.writeLmCells a xs).status = s.status := rfl
@[simp] theorem State.writeLmCells_res (a : Nat) (xs : List κ) : (s.writeLmCells a xs).res = s.res := rfl
@[simp] theorem State.writeLmCells_olen (a : Nat) (xs : List κ) : (s.writeLmCells a xs).olen = s.olen := rfl
@[simp] theorem State.writeLmCells_ldpcN (a : Nat) (xs : List κ) : (s.writeLmCells a xs).ldpcN = s.ldpcN := rfl
@[simp] theorem State.writeLmCells_ldpcK (a : Nat) (xs : List κ) : (s.writeLmCells a xs).ldpcK = s.ldpcK := rfl
@[simp] theorem State.writeLmCells_ldpcDc (a : Nat) (xs : List κ) : (s.writeLmCells a xs).ldpcDc = s.ldpcDc := rfl
@[simp] theorem State.writeLmCells_polarN (a : Nat) (xs : List κ) : (s.writeLmCells a xs).polarN = s.polarN := rfl
@[simp] theorem State.writeLmCells_polarK (a : Nat) (xs : List κ) : (s.writeLmCells a xs).polarK = s.polarK := rfl
@[simp] theorem State.writeLmCells_crcReg (a : Nat) (xs : List κ) : (s.writeLmCells a xs).crcReg = s.crcReg := rfl
@[simp] theorem State.writeLmCells_scalars (a : Nat) (xs : List κ) : (s.writeLmCells a xs).scalars = s.scalars := rfl
@[simp] theorem State.writeLmCells_cmdw (a : Nat) (xs : List κ) : (s.writeLmCells a xs).cmdw = s.cmdw := rfl
@[simp] theorem State.writeLmCells_bm (a : Nat) (xs : List κ) : (s.writeLmCells a xs).bm = s.bm := rfl
@[simp] theorem State.writeLmCells_sm (a : Nat) (xs : List κ) : (s.writeLmCells a xs).sm = s.sm := rfl
@[simp] theorem State.writeLmCells_lm (a : Nat) (xs : List κ) : (s.writeLmCells a xs).lm = Memory.writeSeq s.lm a xs := rfl
@[simp] theorem State.writeLmCells_cfg (a : Nat) (xs : List κ) : (s.writeLmCells a xs).cfg = s.cfg := rfl
@[simp] theorem State.writeLmCells_epoch (a : Nat) (xs : List κ) : (s.writeLmCells a xs).epoch = s.epoch := rfl
@[simp] theorem State.writeLmCells_freeCtr (a : Nat) (xs : List κ) : (s.writeLmCells a xs).freeCtr = s.freeCtr := rfl
@[simp] theorem State.writeLmCells_draws (a : Nat) (xs : List κ) : (s.writeLmCells a xs).draws = s.draws := rfl
@[simp] theorem State.writeLmCells_inputs (a : Nat) (xs : List κ) : (s.writeLmCells a xs).inputs = s.inputs := rfl
@[simp] theorem State.writeLmCells_readData (a : Nat) (xs : List κ) : (s.writeLmCells a xs).readData = s.readData := rfl
@[simp] theorem State.writeLmCells_readBit (a : Nat) (xs : List κ) (x : Nat) : (s.writeLmCells a xs).readBit x = s.readBit x := rfl
@[simp] theorem State.writeLmCells_smCell (a : Nat) (xs : List κ) (M : NumSystem α κ) (x : Nat) : (s.writeLmCells a xs).smCell M x = s.smCell M x := rfl
@[simp] theorem State.writeLmCells_symAt (a : Nat) (xs : List κ) (M : NumSystem α κ) (x : Nat) : (s.writeLmCells a xs).symAt M x = s.symAt M x := rfl
@[simp] theorem State.writeLmCells_scalar (a : Nat) (xs : List κ) (j : ScalarIdx) : (s.writeLmCells a xs).scalar j = s.scalar j := rfl

/-! ### putSyms -/

@[simp] theorem State.putSyms_status (N : NumSystem α κ) (a : Nat) (xs : List (SymOf α)) : (s.putSyms N a xs).status = s.status := rfl
@[simp] theorem State.putSyms_res (N : NumSystem α κ) (a : Nat) (xs : List (SymOf α)) : (s.putSyms N a xs).res = s.res := rfl
@[simp] theorem State.putSyms_olen (N : NumSystem α κ) (a : Nat) (xs : List (SymOf α)) : (s.putSyms N a xs).olen = s.olen := rfl
@[simp] theorem State.putSyms_ldpcN (N : NumSystem α κ) (a : Nat) (xs : List (SymOf α)) : (s.putSyms N a xs).ldpcN = s.ldpcN := rfl
@[simp] theorem State.putSyms_ldpcK (N : NumSystem α κ) (a : Nat) (xs : List (SymOf α)) : (s.putSyms N a xs).ldpcK = s.ldpcK := rfl
@[simp] theorem State.putSyms_ldpcDc (N : NumSystem α κ) (a : Nat) (xs : List (SymOf α)) : (s.putSyms N a xs).ldpcDc = s.ldpcDc := rfl
@[simp] theorem State.putSyms_polarN (N : NumSystem α κ) (a : Nat) (xs : List (SymOf α)) : (s.putSyms N a xs).polarN = s.polarN := rfl
@[simp] theorem State.putSyms_polarK (N : NumSystem α κ) (a : Nat) (xs : List (SymOf α)) : (s.putSyms N a xs).polarK = s.polarK := rfl
@[simp] theorem State.putSyms_crcReg (N : NumSystem α κ) (a : Nat) (xs : List (SymOf α)) : (s.putSyms N a xs).crcReg = s.crcReg := rfl
@[simp] theorem State.putSyms_scalars (N : NumSystem α κ) (a : Nat) (xs : List (SymOf α)) : (s.putSyms N a xs).scalars = s.scalars := rfl
@[simp] theorem State.putSyms_cmdw (N : NumSystem α κ) (a : Nat) (xs : List (SymOf α)) : (s.putSyms N a xs).cmdw = s.cmdw := rfl
@[simp] theorem State.putSyms_bm (N : NumSystem α κ) (a : Nat) (xs : List (SymOf α)) : (s.putSyms N a xs).bm = s.bm := rfl
@[simp] theorem State.putSyms_sm (N : NumSystem α κ) (a : Nat) (xs : List (SymOf α)) : (s.putSyms N a xs).sm = Memory.writeSeq s.sm (2 * N.cellsPerNum * a) (xs.flatMap N.symCells) := rfl
@[simp] theorem State.putSyms_lm (N : NumSystem α κ) (a : Nat) (xs : List (SymOf α)) : (s.putSyms N a xs).lm = s.lm := rfl
@[simp] theorem State.putSyms_cfg (N : NumSystem α κ) (a : Nat) (xs : List (SymOf α)) : (s.putSyms N a xs).cfg = s.cfg := rfl
@[simp] theorem State.putSyms_epoch (N : NumSystem α κ) (a : Nat) (xs : List (SymOf α)) : (s.putSyms N a xs).epoch = s.epoch := rfl
@[simp] theorem State.putSyms_freeCtr (N : NumSystem α κ) (a : Nat) (xs : List (SymOf α)) : (s.putSyms N a xs).freeCtr = s.freeCtr := rfl
@[simp] theorem State.putSyms_draws (N : NumSystem α κ) (a : Nat) (xs : List (SymOf α)) : (s.putSyms N a xs).draws = s.draws := rfl
@[simp] theorem State.putSyms_inputs (N : NumSystem α κ) (a : Nat) (xs : List (SymOf α)) : (s.putSyms N a xs).inputs = s.inputs := rfl
@[simp] theorem State.putSyms_readData (N : NumSystem α κ) (a : Nat) (xs : List (SymOf α)) : (s.putSyms N a xs).readData = s.readData := rfl
@[simp] theorem State.putSyms_readBit (N : NumSystem α κ) (a : Nat) (xs : List (SymOf α)) (x : Nat) : (s.putSyms N a xs).readBit x = s.readBit x := rfl
@[simp] theorem State.putSyms_lmCell (N : NumSystem α κ) (a : Nat) (xs : List (SymOf α)) (M : NumSystem α κ) (x : Nat) : (s.putSyms N a xs).lmCell M x = s.lmCell M x := rfl
@[simp] theorem State.putSyms_valAt (N : NumSystem α κ) (a : Nat) (xs : List (SymOf α)) (M : NumSystem α κ) (x : Nat) : (s.putSyms N a xs).valAt M x = s.valAt M x := rfl
@[simp] theorem State.putSyms_scalar (N : NumSystem α κ) (a : Nat) (xs : List (SymOf α)) (j : ScalarIdx) : (s.putSyms N a xs).scalar j = s.scalar j := rfl

/-! ### putVals -/

@[simp] theorem State.putVals_status (N : NumSystem α κ) (a : Nat) (xs : List α) : (s.putVals N a xs).status = s.status := rfl
@[simp] theorem State.putVals_res (N : NumSystem α κ) (a : Nat) (xs : List α) : (s.putVals N a xs).res = s.res := rfl
@[simp] theorem State.putVals_olen (N : NumSystem α κ) (a : Nat) (xs : List α) : (s.putVals N a xs).olen = s.olen := rfl
@[simp] theorem State.putVals_ldpcN (N : NumSystem α κ) (a : Nat) (xs : List α) : (s.putVals N a xs).ldpcN = s.ldpcN := rfl
@[simp] theorem State.putVals_ldpcK (N : NumSystem α κ) (a : Nat) (xs : List α) : (s.putVals N a xs).ldpcK = s.ldpcK := rfl
@[simp] theorem State.putVals_ldpcDc (N : NumSystem α κ) (a : Nat) (xs : List α) : (s.putVals N a xs).ldpcDc = s.ldpcDc := rfl
@[simp] theorem State.putVals_polarN (N : NumSystem α κ) (a : Nat) (xs : List α) : (s.putVals N a xs).polarN = s.polarN := rfl
@[simp] theorem State.putVals_polarK (N : NumSystem α κ) (a : Nat) (xs : List α) : (s.putVals N a xs).polarK = s.polarK := rfl
@[simp] theorem State.putVals_crcReg (N : NumSystem α κ) (a : Nat) (xs : List α) : (s.putVals N a xs).crcReg = s.crcReg := rfl
@[simp] theorem State.putVals_scalars (N : NumSystem α κ) (a : Nat) (xs : List α) : (s.putVals N a xs).scalars = s.scalars := rfl
@[simp] theorem State.putVals_cmdw (N : NumSystem α κ) (a : Nat) (xs : List α) : (s.putVals N a xs).cmdw = s.cmdw := rfl
@[simp] theorem State.putVals_bm (N : NumSystem α κ) (a : Nat) (xs : List α) : (s.putVals N a xs).bm = s.bm := rfl
@[simp] theorem State.putVals_sm (N : NumSystem α κ) (a : Nat) (xs : List α) : (s.putVals N a xs).sm = s.sm := rfl
@[simp] theorem State.putVals_lm (N : NumSystem α κ) (a : Nat) (xs : List α) : (s.putVals N a xs).lm = Memory.writeSeq s.lm (N.cellsPerNum * a) (xs.flatMap N.toCells) := rfl
@[simp] theorem State.putVals_cfg (N : NumSystem α κ) (a : Nat) (xs : List α) : (s.putVals N a xs).cfg = s.cfg := rfl
@[simp] theorem State.putVals_epoch (N : NumSystem α κ) (a : Nat) (xs : List α) : (s.putVals N a xs).epoch = s.epoch := rfl
@[simp] theorem State.putVals_freeCtr (N : NumSystem α κ) (a : Nat) (xs : List α) : (s.putVals N a xs).freeCtr = s.freeCtr := rfl
@[simp] theorem State.putVals_draws (N : NumSystem α κ) (a : Nat) (xs : List α) : (s.putVals N a xs).draws = s.draws := rfl
@[simp] theorem State.putVals_inputs (N : NumSystem α κ) (a : Nat) (xs : List α) : (s.putVals N a xs).inputs = s.inputs := rfl
@[simp] theorem State.putVals_readData (N : NumSystem α κ) (a : Nat) (xs : List α) : (s.putVals N a xs).readData = s.readData := rfl
@[simp] theorem State.putVals_readBit (N : NumSystem α κ) (a : Nat) (xs : List α) (x : Nat) : (s.putVals N a xs).readBit x = s.readBit x := rfl
@[simp] theorem State.putVals_smCell (N : NumSystem α κ) (a : Nat) (xs : List α) (M : NumSystem α κ) (x : Nat) : (s.putVals N a xs).smCell M x = s.smCell M x := rfl
@[simp] theorem State.putVals_symAt (N : NumSystem α κ) (a : Nat) (xs : List α) (M : NumSystem α κ) (x : Nat) : (s.putVals N a xs).symAt M x = s.symAt M x := rfl
@[simp] theorem State.putVals_scalar (N : NumSystem α κ) (a : Nat) (xs : List α) (j : ScalarIdx) : (s.putVals N a xs).scalar j = s.scalar j := rfl

/-! ### setScalar -/

@[simp] theorem State.setScalar_status (i : ScalarIdx) (y : α) : (s.setScalar i y).status = s.status := rfl
@[simp] theorem State.setScalar_res (i : ScalarIdx) (y : α) : (s.setScalar i y).res = s.res := rfl
@[simp] theorem State.setScalar_olen (i : ScalarIdx) (y : α) : (s.setScalar i y).olen = s.olen := rfl
@[simp] theorem State.setScalar_ldpcN (i : ScalarIdx) (y : α) : (s.setScalar i y).ldpcN = s.ldpcN := rfl
@[simp] theorem State.setScalar_ldpcK (i : ScalarIdx) (y : α) : (s.setScalar i y).ldpcK = s.ldpcK := rfl
@[simp] theorem State.setScalar_ldpcDc (i : ScalarIdx) (y : α) : (s.setScalar i y).ldpcDc = s.ldpcDc := rfl
@[simp] theorem State.setScalar_polarN (i : ScalarIdx) (y : α) : (s.setScalar i y).polarN = s.polarN := rfl
@[simp] theorem State.setScalar_polarK (i : ScalarIdx) (y : α) : (s.setScalar i y).polarK = s.polarK := rfl
@[simp] theorem State.setScalar_crcReg (i : ScalarIdx) (y : α) : (s.setScalar i y).crcReg = s.crcReg := rfl
@[simp] theorem State.setScalar_scalars (i : ScalarIdx) (y : α) : (s.setScalar i y).scalars = s.scalars.set i.val y := rfl
@[simp] theorem State.setScalar_cmdw (i : ScalarIdx) (y : α) : (s.setScalar i y).cmdw = s.cmdw := rfl
@[simp] theorem State.setScalar_bm (i : ScalarIdx) (y : α) : (s.setScalar i y).bm = s.bm := rfl
@[simp] theorem State.setScalar_sm (i : ScalarIdx) (y : α) : (s.setScalar i y).sm = s.sm := rfl
@[simp] theorem State.setScalar_lm (i : ScalarIdx) (y : α) : (s.setScalar i y).lm = s.lm := rfl
@[simp] theorem State.setScalar_cfg (i : ScalarIdx) (y : α) : (s.setScalar i y).cfg = s.cfg := rfl
@[simp] theorem State.setScalar_epoch (i : ScalarIdx) (y : α) : (s.setScalar i y).epoch = s.epoch := rfl
@[simp] theorem State.setScalar_freeCtr (i : ScalarIdx) (y : α) : (s.setScalar i y).freeCtr = s.freeCtr := rfl
@[simp] theorem State.setScalar_draws (i : ScalarIdx) (y : α) : (s.setScalar i y).draws = s.draws := rfl
@[simp] theorem State.setScalar_inputs (i : ScalarIdx) (y : α) : (s.setScalar i y).inputs = s.inputs := rfl
@[simp] theorem State.setScalar_readData (i : ScalarIdx) (y : α) : (s.setScalar i y).readData = s.readData := rfl
@[simp] theorem State.setScalar_readBit (i : ScalarIdx) (y : α) (x : Nat) : (s.setScalar i y).readBit x = s.readBit x := rfl
@[simp] theorem State.setScalar_smCell (i : ScalarIdx) (y : α) (M : NumSystem α κ) (x : Nat) : (s.setScalar i y).smCell M x = s.smCell M x := rfl
@[simp] theorem State.setScalar_symAt (i : ScalarIdx) (y : α) (M : NumSystem α κ) (x : Nat) : (s.setScalar i y).symAt M x = s.symAt M x := rfl
@[simp] theorem State.setScalar_lmCell (i : ScalarIdx) (y : α) (M : NumSystem α κ) (x : Nat) : (s.setScalar i y).lmCell M x = s.lmCell M x := rfl
@[simp] theorem State.setScalar_valAt (i : ScalarIdx) (y : α) (M : NumSystem α κ) (x : Nat) : (s.setScalar i y).valAt M x = s.valAt M x := rfl

/-! ### setRes -/

@[simp] theorem State.setRes_status (w : Word) : (s.setRes w).status = s.status := rfl
@[simp] theorem State.setRes_res (w : Word) : (s.setRes w).res = w := rfl
@[simp] theorem State.setRes_olen (w : Word) : (s.setRes w).olen = s.olen := rfl
@[simp] theorem State.setRes_ldpcN (w : Word) : (s.setRes w).ldpcN = s.ldpcN := rfl
@[simp] theorem State.setRes_ldpcK (w : Word) : (s.setRes w).ldpcK = s.ldpcK := rfl
@[simp] theorem State.setRes_ldpcDc (w : Word) : (s.setRes w).ldpcDc = s.ldpcDc := rfl
@[simp] theorem State.setRes_polarN (w : Word) : (s.setRes w).polarN = s.polarN := rfl
@[simp] theorem State.setRes_polarK (w : Word) : (s.setRes w).polarK = s.polarK := rfl
@[simp] theorem State.setRes_crcReg (w : Word) : (s.setRes w).crcReg = s.crcReg := rfl
@[simp] theorem State.setRes_scalars (w : Word) : (s.setRes w).scalars = s.scalars := rfl
@[simp] theorem State.setRes_cmdw (w : Word) : (s.setRes w).cmdw = s.cmdw := rfl
@[simp] theorem State.setRes_bm (w : Word) : (s.setRes w).bm = s.bm := rfl
@[simp] theorem State.setRes_sm (w : Word) : (s.setRes w).sm = s.sm := rfl
@[simp] theorem State.setRes_lm (w : Word) : (s.setRes w).lm = s.lm := rfl
@[simp] theorem State.setRes_cfg (w : Word) : (s.setRes w).cfg = s.cfg := rfl
@[simp] theorem State.setRes_epoch (w : Word) : (s.setRes w).epoch = s.epoch := rfl
@[simp] theorem State.setRes_freeCtr (w : Word) : (s.setRes w).freeCtr = s.freeCtr := rfl
@[simp] theorem State.setRes_draws (w : Word) : (s.setRes w).draws = s.draws := rfl
@[simp] theorem State.setRes_inputs (w : Word) : (s.setRes w).inputs = s.inputs := rfl
@[simp] theorem State.setRes_readData (w : Word) : (s.setRes w).readData = s.readData := rfl
@[simp] theorem State.setRes_readBit (w : Word) (x : Nat) : (s.setRes w).readBit x = s.readBit x := rfl
@[simp] theorem State.setRes_smCell (w : Word) (M : NumSystem α κ) (x : Nat) : (s.setRes w).smCell M x = s.smCell M x := rfl
@[simp] theorem State.setRes_symAt (w : Word) (M : NumSystem α κ) (x : Nat) : (s.setRes w).symAt M x = s.symAt M x := rfl
@[simp] theorem State.setRes_lmCell (w : Word) (M : NumSystem α κ) (x : Nat) : (s.setRes w).lmCell M x = s.lmCell M x := rfl
@[simp] theorem State.setRes_valAt (w : Word) (M : NumSystem α κ) (x : Nat) : (s.setRes w).valAt M x = s.valAt M x := rfl
@[simp] theorem State.setRes_scalar (w : Word) (j : ScalarIdx) : (s.setRes w).scalar j = s.scalar j := rfl

/-! ### setOlen -/

@[simp] theorem State.setOlen_status (n : Nat) : (s.setOlen n).status = s.status := rfl
@[simp] theorem State.setOlen_res (n : Nat) : (s.setOlen n).res = s.res := rfl
@[simp] theorem State.setOlen_olen (n : Nat) : (s.setOlen n).olen = wordOf n := rfl
@[simp] theorem State.setOlen_ldpcN (n : Nat) : (s.setOlen n).ldpcN = s.ldpcN := rfl
@[simp] theorem State.setOlen_ldpcK (n : Nat) : (s.setOlen n).ldpcK = s.ldpcK := rfl
@[simp] theorem State.setOlen_ldpcDc (n : Nat) : (s.setOlen n).ldpcDc = s.ldpcDc := rfl
@[simp] theorem State.setOlen_polarN (n : Nat) : (s.setOlen n).polarN = s.polarN := rfl
@[simp] theorem State.setOlen_polarK (n : Nat) : (s.setOlen n).polarK = s.polarK := rfl
@[simp] theorem State.setOlen_crcReg (n : Nat) : (s.setOlen n).crcReg = s.crcReg := rfl
@[simp] theorem State.setOlen_scalars (n : Nat) : (s.setOlen n).scalars = s.scalars := rfl
@[simp] theorem State.setOlen_cmdw (n : Nat) : (s.setOlen n).cmdw = s.cmdw := rfl
@[simp] theorem State.setOlen_bm (n : Nat) : (s.setOlen n).bm = s.bm := rfl
@[simp] theorem State.setOlen_sm (n : Nat) : (s.setOlen n).sm = s.sm := rfl
@[simp] theorem State.setOlen_lm (n : Nat) : (s.setOlen n).lm = s.lm := rfl
@[simp] theorem State.setOlen_cfg (n : Nat) : (s.setOlen n).cfg = s.cfg := rfl
@[simp] theorem State.setOlen_epoch (n : Nat) : (s.setOlen n).epoch = s.epoch := rfl
@[simp] theorem State.setOlen_freeCtr (n : Nat) : (s.setOlen n).freeCtr = s.freeCtr := rfl
@[simp] theorem State.setOlen_draws (n : Nat) : (s.setOlen n).draws = s.draws := rfl
@[simp] theorem State.setOlen_inputs (n : Nat) : (s.setOlen n).inputs = s.inputs := rfl
@[simp] theorem State.setOlen_readData (n : Nat) : (s.setOlen n).readData = s.readData := rfl
@[simp] theorem State.setOlen_readBit (n : Nat) (x : Nat) : (s.setOlen n).readBit x = s.readBit x := rfl
@[simp] theorem State.setOlen_smCell (n : Nat) (M : NumSystem α κ) (x : Nat) : (s.setOlen n).smCell M x = s.smCell M x := rfl
@[simp] theorem State.setOlen_symAt (n : Nat) (M : NumSystem α κ) (x : Nat) : (s.setOlen n).symAt M x = s.symAt M x := rfl
@[simp] theorem State.setOlen_lmCell (n : Nat) (M : NumSystem α κ) (x : Nat) : (s.setOlen n).lmCell M x = s.lmCell M x := rfl
@[simp] theorem State.setOlen_valAt (n : Nat) (M : NumSystem α κ) (x : Nat) : (s.setOlen n).valAt M x = s.valAt M x := rfl
@[simp] theorem State.setOlen_scalar (n : Nat) (j : ScalarIdx) : (s.setOlen n).scalar j = s.scalar j := rfl

/-! ### setCrcReg -/

@[simp] theorem State.setCrcReg_status (c : BitVec 16) : (s.setCrcReg c).status = s.status := rfl
@[simp] theorem State.setCrcReg_res (c : BitVec 16) : (s.setCrcReg c).res = s.res := rfl
@[simp] theorem State.setCrcReg_olen (c : BitVec 16) : (s.setCrcReg c).olen = s.olen := rfl
@[simp] theorem State.setCrcReg_ldpcN (c : BitVec 16) : (s.setCrcReg c).ldpcN = s.ldpcN := rfl
@[simp] theorem State.setCrcReg_ldpcK (c : BitVec 16) : (s.setCrcReg c).ldpcK = s.ldpcK := rfl
@[simp] theorem State.setCrcReg_ldpcDc (c : BitVec 16) : (s.setCrcReg c).ldpcDc = s.ldpcDc := rfl
@[simp] theorem State.setCrcReg_polarN (c : BitVec 16) : (s.setCrcReg c).polarN = s.polarN := rfl
@[simp] theorem State.setCrcReg_polarK (c : BitVec 16) : (s.setCrcReg c).polarK = s.polarK := rfl
@[simp] theorem State.setCrcReg_crcReg (c : BitVec 16) : (s.setCrcReg c).crcReg = c := rfl
@[simp] theorem State.setCrcReg_scalars (c : BitVec 16) : (s.setCrcReg c).scalars = s.scalars := rfl
@[simp] theorem State.setCrcReg_cmdw (c : BitVec 16) : (s.setCrcReg c).cmdw = s.cmdw := rfl
@[simp] theorem State.setCrcReg_bm (c : BitVec 16) : (s.setCrcReg c).bm = s.bm := rfl
@[simp] theorem State.setCrcReg_sm (c : BitVec 16) : (s.setCrcReg c).sm = s.sm := rfl
@[simp] theorem State.setCrcReg_lm (c : BitVec 16) : (s.setCrcReg c).lm = s.lm := rfl
@[simp] theorem State.setCrcReg_cfg (c : BitVec 16) : (s.setCrcReg c).cfg = s.cfg := rfl
@[simp] theorem State.setCrcReg_epoch (c : BitVec 16) : (s.setCrcReg c).epoch = s.epoch := rfl
@[simp] theorem State.setCrcReg_freeCtr (c : BitVec 16) : (s.setCrcReg c).freeCtr = s.freeCtr := rfl
@[simp] theorem State.setCrcReg_draws (c : BitVec 16) : (s.setCrcReg c).draws = s.draws := rfl
@[simp] theorem State.setCrcReg_inputs (c : BitVec 16) : (s.setCrcReg c).inputs = s.inputs := rfl
@[simp] theorem State.setCrcReg_readData (c : BitVec 16) : (s.setCrcReg c).readData = s.readData := rfl
@[simp] theorem State.setCrcReg_readBit (c : BitVec 16) (x : Nat) : (s.setCrcReg c).readBit x = s.readBit x := rfl
@[simp] theorem State.setCrcReg_smCell (c : BitVec 16) (M : NumSystem α κ) (x : Nat) : (s.setCrcReg c).smCell M x = s.smCell M x := rfl
@[simp] theorem State.setCrcReg_symAt (c : BitVec 16) (M : NumSystem α κ) (x : Nat) : (s.setCrcReg c).symAt M x = s.symAt M x := rfl
@[simp] theorem State.setCrcReg_lmCell (c : BitVec 16) (M : NumSystem α κ) (x : Nat) : (s.setCrcReg c).lmCell M x = s.lmCell M x := rfl
@[simp] theorem State.setCrcReg_valAt (c : BitVec 16) (M : NumSystem α κ) (x : Nat) : (s.setCrcReg c).valAt M x = s.valAt M x := rfl
@[simp] theorem State.setCrcReg_scalar (c : BitVec 16) (j : ScalarIdx) : (s.setCrcReg c).scalar j = s.scalar j := rfl

/-! ### spendFree -/

@[simp] theorem State.spendFree_status : (s.spendFree).status = s.status := rfl
@[simp] theorem State.spendFree_res : (s.spendFree).res = s.res := rfl
@[simp] theorem State.spendFree_olen : (s.spendFree).olen = s.olen := rfl
@[simp] theorem State.spendFree_ldpcN : (s.spendFree).ldpcN = s.ldpcN := rfl
@[simp] theorem State.spendFree_ldpcK : (s.spendFree).ldpcK = s.ldpcK := rfl
@[simp] theorem State.spendFree_ldpcDc : (s.spendFree).ldpcDc = s.ldpcDc := rfl
@[simp] theorem State.spendFree_polarN : (s.spendFree).polarN = s.polarN := rfl
@[simp] theorem State.spendFree_polarK : (s.spendFree).polarK = s.polarK := rfl
@[simp] theorem State.spendFree_crcReg : (s.spendFree).crcReg = s.crcReg := rfl
@[simp] theorem State.spendFree_scalars : (s.spendFree).scalars = s.scalars := rfl
@[simp] theorem State.spendFree_cmdw : (s.spendFree).cmdw = s.cmdw := rfl
@[simp] theorem State.spendFree_bm : (s.spendFree).bm = s.bm := rfl
@[simp] theorem State.spendFree_sm : (s.spendFree).sm = s.sm := rfl
@[simp] theorem State.spendFree_lm : (s.spendFree).lm = s.lm := rfl
@[simp] theorem State.spendFree_cfg : (s.spendFree).cfg = s.cfg := rfl
@[simp] theorem State.spendFree_epoch : (s.spendFree).epoch = s.epoch := rfl
@[simp] theorem State.spendFree_freeCtr : (s.spendFree).freeCtr = s.freeCtr + 1 := rfl
@[simp] theorem State.spendFree_draws : (s.spendFree).draws = s.draws := rfl
@[simp] theorem State.spendFree_inputs : (s.spendFree).inputs = s.inputs := rfl
@[simp] theorem State.spendFree_readData : (s.spendFree).readData = s.readData := rfl
@[simp] theorem State.spendFree_readBit (x : Nat) : (s.spendFree).readBit x = s.readBit x := rfl
@[simp] theorem State.spendFree_smCell (M : NumSystem α κ) (x : Nat) : (s.spendFree).smCell M x = s.smCell M x := rfl
@[simp] theorem State.spendFree_symAt (M : NumSystem α κ) (x : Nat) : (s.spendFree).symAt M x = s.symAt M x := rfl
@[simp] theorem State.spendFree_lmCell (M : NumSystem α κ) (x : Nat) : (s.spendFree).lmCell M x = s.lmCell M x := rfl
@[simp] theorem State.spendFree_valAt (M : NumSystem α κ) (x : Nat) : (s.spendFree).valAt M x = s.valAt M x := rfl
@[simp] theorem State.spendFree_scalar (j : ScalarIdx) : (s.spendFree).scalar j = s.scalar j := rfl

/-! ### dropDraws -/

@[simp] theorem State.dropDraws_status (n : Nat) : (s.dropDraws n).status = s.status := rfl
@[simp] theorem State.dropDraws_res (n : Nat) : (s.dropDraws n).res = s.res := rfl
@[simp] theorem State.dropDraws_olen (n : Nat) : (s.dropDraws n).olen = s.olen := rfl
@[simp] theorem State.dropDraws_ldpcN (n : Nat) : (s.dropDraws n).ldpcN = s.ldpcN := rfl
@[simp] theorem State.dropDraws_ldpcK (n : Nat) : (s.dropDraws n).ldpcK = s.ldpcK := rfl
@[simp] theorem State.dropDraws_ldpcDc (n : Nat) : (s.dropDraws n).ldpcDc = s.ldpcDc := rfl
@[simp] theorem State.dropDraws_polarN (n : Nat) : (s.dropDraws n).polarN = s.polarN := rfl
@[simp] theorem State.dropDraws_polarK (n : Nat) : (s.dropDraws n).polarK = s.polarK := rfl
@[simp] theorem State.dropDraws_crcReg (n : Nat) : (s.dropDraws n).crcReg = s.crcReg := rfl
@[simp] theorem State.dropDraws_scalars (n : Nat) : (s.dropDraws n).scalars = s.scalars := rfl
@[simp] theorem State.dropDraws_cmdw (n : Nat) : (s.dropDraws n).cmdw = s.cmdw := rfl
@[simp] theorem State.dropDraws_bm (n : Nat) : (s.dropDraws n).bm = s.bm := rfl
@[simp] theorem State.dropDraws_sm (n : Nat) : (s.dropDraws n).sm = s.sm := rfl
@[simp] theorem State.dropDraws_lm (n : Nat) : (s.dropDraws n).lm = s.lm := rfl
@[simp] theorem State.dropDraws_cfg (n : Nat) : (s.dropDraws n).cfg = s.cfg := rfl
@[simp] theorem State.dropDraws_epoch (n : Nat) : (s.dropDraws n).epoch = s.epoch := rfl
@[simp] theorem State.dropDraws_freeCtr (n : Nat) : (s.dropDraws n).freeCtr = s.freeCtr := rfl
@[simp] theorem State.dropDraws_draws (n : Nat) : (s.dropDraws n).draws = s.draws.drop n := rfl
@[simp] theorem State.dropDraws_inputs (n : Nat) : (s.dropDraws n).inputs = s.inputs := rfl
@[simp] theorem State.dropDraws_readData (n : Nat) : (s.dropDraws n).readData = s.readData := rfl
@[simp] theorem State.dropDraws_readBit (n : Nat) (x : Nat) : (s.dropDraws n).readBit x = s.readBit x := rfl
@[simp] theorem State.dropDraws_smCell (n : Nat) (M : NumSystem α κ) (x : Nat) : (s.dropDraws n).smCell M x = s.smCell M x := rfl
@[simp] theorem State.dropDraws_symAt (n : Nat) (M : NumSystem α κ) (x : Nat) : (s.dropDraws n).symAt M x = s.symAt M x := rfl
@[simp] theorem State.dropDraws_lmCell (n : Nat) (M : NumSystem α κ) (x : Nat) : (s.dropDraws n).lmCell M x = s.lmCell M x := rfl
@[simp] theorem State.dropDraws_valAt (n : Nat) (M : NumSystem α κ) (x : Nat) : (s.dropDraws n).valAt M x = s.valAt M x := rfl
@[simp] theorem State.dropDraws_scalar (n : Nat) (j : ScalarIdx) : (s.dropDraws n).scalar j = s.scalar j := rfl

/-! ### setInputs -/

@[simp] theorem State.setInputs_status (rest : List Input) : (s.setInputs rest).status = s.status := rfl
@[simp] theorem State.setInputs_res (rest : List Input) : (s.setInputs rest).res = s.res := rfl
@[simp] theorem State.setInputs_olen (rest : List Input) : (s.setInputs rest).olen = s.olen := rfl
@[simp] theorem State.setInputs_ldpcN (rest : List Input) : (s.setInputs rest).ldpcN = s.ldpcN := rfl
@[simp] theorem State.setInputs_ldpcK (rest : List Input) : (s.setInputs rest).ldpcK = s.ldpcK := rfl
@[simp] theorem State.setInputs_ldpcDc (rest : List Input) : (s.setInputs rest).ldpcDc = s.ldpcDc := rfl
@[simp] theorem State.setInputs_polarN (rest : List Input) : (s.setInputs rest).polarN = s.polarN := rfl
@[simp] theorem State.setInputs_polarK (rest : List Input) : (s.setInputs rest).polarK = s.polarK := rfl
@[simp] theorem State.setInputs_crcReg (rest : List Input) : (s.setInputs rest).crcReg = s.crcReg := rfl
@[simp] theorem State.setInputs_scalars (rest : List Input) : (s.setInputs rest).scalars = s.scalars := rfl
@[simp] theorem State.setInputs_cmdw (rest : List Input) : (s.setInputs rest).cmdw = s.cmdw := rfl
@[simp] theorem State.setInputs_bm (rest : List Input) : (s.setInputs rest).bm = s.bm := rfl
@[simp] theorem State.setInputs_sm (rest : List Input) : (s.setInputs rest).sm = s.sm := rfl
@[simp] theorem State.setInputs_lm (rest : List Input) : (s.setInputs rest).lm = s.lm := rfl
@[simp] theorem State.setInputs_cfg (rest : List Input) : (s.setInputs rest).cfg = s.cfg := rfl
@[simp] theorem State.setInputs_epoch (rest : List Input) : (s.setInputs rest).epoch = s.epoch := rfl
@[simp] theorem State.setInputs_freeCtr (rest : List Input) : (s.setInputs rest).freeCtr = s.freeCtr := rfl
@[simp] theorem State.setInputs_draws (rest : List Input) : (s.setInputs rest).draws = s.draws := rfl
@[simp] theorem State.setInputs_inputs (rest : List Input) : (s.setInputs rest).inputs = rest := rfl
@[simp] theorem State.setInputs_readData (rest : List Input) : (s.setInputs rest).readData = s.readData := rfl
@[simp] theorem State.setInputs_readBit (rest : List Input) (x : Nat) : (s.setInputs rest).readBit x = s.readBit x := rfl
@[simp] theorem State.setInputs_smCell (rest : List Input) (M : NumSystem α κ) (x : Nat) : (s.setInputs rest).smCell M x = s.smCell M x := rfl
@[simp] theorem State.setInputs_symAt (rest : List Input) (M : NumSystem α κ) (x : Nat) : (s.setInputs rest).symAt M x = s.symAt M x := rfl
@[simp] theorem State.setInputs_lmCell (rest : List Input) (M : NumSystem α κ) (x : Nat) : (s.setInputs rest).lmCell M x = s.lmCell M x := rfl
@[simp] theorem State.setInputs_valAt (rest : List Input) (M : NumSystem α κ) (x : Nat) : (s.setInputs rest).valAt M x = s.valAt M x := rfl
@[simp] theorem State.setInputs_scalar (rest : List Input) (j : ScalarIdx) : (s.setInputs rest).scalar j = s.scalar j := rfl

/-! ### setReadData -/

@[simp] theorem State.setReadData_status (v : BitVec 64) : (s.setReadData v).status = s.status := rfl
@[simp] theorem State.setReadData_res (v : BitVec 64) : (s.setReadData v).res = s.res := rfl
@[simp] theorem State.setReadData_olen (v : BitVec 64) : (s.setReadData v).olen = s.olen := rfl
@[simp] theorem State.setReadData_ldpcN (v : BitVec 64) : (s.setReadData v).ldpcN = s.ldpcN := rfl
@[simp] theorem State.setReadData_ldpcK (v : BitVec 64) : (s.setReadData v).ldpcK = s.ldpcK := rfl
@[simp] theorem State.setReadData_ldpcDc (v : BitVec 64) : (s.setReadData v).ldpcDc = s.ldpcDc := rfl
@[simp] theorem State.setReadData_polarN (v : BitVec 64) : (s.setReadData v).polarN = s.polarN := rfl
@[simp] theorem State.setReadData_polarK (v : BitVec 64) : (s.setReadData v).polarK = s.polarK := rfl
@[simp] theorem State.setReadData_crcReg (v : BitVec 64) : (s.setReadData v).crcReg = s.crcReg := rfl
@[simp] theorem State.setReadData_scalars (v : BitVec 64) : (s.setReadData v).scalars = s.scalars := rfl
@[simp] theorem State.setReadData_cmdw (v : BitVec 64) : (s.setReadData v).cmdw = s.cmdw := rfl
@[simp] theorem State.setReadData_bm (v : BitVec 64) : (s.setReadData v).bm = s.bm := rfl
@[simp] theorem State.setReadData_sm (v : BitVec 64) : (s.setReadData v).sm = s.sm := rfl
@[simp] theorem State.setReadData_lm (v : BitVec 64) : (s.setReadData v).lm = s.lm := rfl
@[simp] theorem State.setReadData_cfg (v : BitVec 64) : (s.setReadData v).cfg = s.cfg := rfl
@[simp] theorem State.setReadData_epoch (v : BitVec 64) : (s.setReadData v).epoch = s.epoch := rfl
@[simp] theorem State.setReadData_freeCtr (v : BitVec 64) : (s.setReadData v).freeCtr = s.freeCtr := rfl
@[simp] theorem State.setReadData_draws (v : BitVec 64) : (s.setReadData v).draws = s.draws := rfl
@[simp] theorem State.setReadData_inputs (v : BitVec 64) : (s.setReadData v).inputs = s.inputs := rfl
@[simp] theorem State.setReadData_readData (v : BitVec 64) : (s.setReadData v).readData = v := rfl
@[simp] theorem State.setReadData_readBit (v : BitVec 64) (x : Nat) : (s.setReadData v).readBit x = s.readBit x := rfl
@[simp] theorem State.setReadData_smCell (v : BitVec 64) (M : NumSystem α κ) (x : Nat) : (s.setReadData v).smCell M x = s.smCell M x := rfl
@[simp] theorem State.setReadData_symAt (v : BitVec 64) (M : NumSystem α κ) (x : Nat) : (s.setReadData v).symAt M x = s.symAt M x := rfl
@[simp] theorem State.setReadData_lmCell (v : BitVec 64) (M : NumSystem α κ) (x : Nat) : (s.setReadData v).lmCell M x = s.lmCell M x := rfl
@[simp] theorem State.setReadData_valAt (v : BitVec 64) (M : NumSystem α κ) (x : Nat) : (s.setReadData v).valAt M x = s.valAt M x := rfl
@[simp] theorem State.setReadData_scalar (v : BitVec 64) (j : ScalarIdx) : (s.setReadData v).scalar j = s.scalar j := rfl

/-! ### setCmdw -/

@[simp] theorem State.setCmdw_status (i : Nat) (w : Word) : (s.setCmdw i w).status = s.status := rfl
@[simp] theorem State.setCmdw_res (i : Nat) (w : Word) : (s.setCmdw i w).res = s.res := rfl
@[simp] theorem State.setCmdw_olen (i : Nat) (w : Word) : (s.setCmdw i w).olen = s.olen := rfl
@[simp] theorem State.setCmdw_ldpcN (i : Nat) (w : Word) : (s.setCmdw i w).ldpcN = s.ldpcN := rfl
@[simp] theorem State.setCmdw_ldpcK (i : Nat) (w : Word) : (s.setCmdw i w).ldpcK = s.ldpcK := rfl
@[simp] theorem State.setCmdw_ldpcDc (i : Nat) (w : Word) : (s.setCmdw i w).ldpcDc = s.ldpcDc := rfl
@[simp] theorem State.setCmdw_polarN (i : Nat) (w : Word) : (s.setCmdw i w).polarN = s.polarN := rfl
@[simp] theorem State.setCmdw_polarK (i : Nat) (w : Word) : (s.setCmdw i w).polarK = s.polarK := rfl
@[simp] theorem State.setCmdw_crcReg (i : Nat) (w : Word) : (s.setCmdw i w).crcReg = s.crcReg := rfl
@[simp] theorem State.setCmdw_scalars (i : Nat) (w : Word) : (s.setCmdw i w).scalars = s.scalars := rfl
@[simp] theorem State.setCmdw_cmdw (i : Nat) (w : Word) : (s.setCmdw i w).cmdw = s.cmdw.setIfInBounds i w := rfl
@[simp] theorem State.setCmdw_bm (i : Nat) (w : Word) : (s.setCmdw i w).bm = s.bm := rfl
@[simp] theorem State.setCmdw_sm (i : Nat) (w : Word) : (s.setCmdw i w).sm = s.sm := rfl
@[simp] theorem State.setCmdw_lm (i : Nat) (w : Word) : (s.setCmdw i w).lm = s.lm := rfl
@[simp] theorem State.setCmdw_cfg (i : Nat) (w : Word) : (s.setCmdw i w).cfg = s.cfg := rfl
@[simp] theorem State.setCmdw_epoch (i : Nat) (w : Word) : (s.setCmdw i w).epoch = s.epoch := rfl
@[simp] theorem State.setCmdw_freeCtr (i : Nat) (w : Word) : (s.setCmdw i w).freeCtr = s.freeCtr := rfl
@[simp] theorem State.setCmdw_draws (i : Nat) (w : Word) : (s.setCmdw i w).draws = s.draws := rfl
@[simp] theorem State.setCmdw_inputs (i : Nat) (w : Word) : (s.setCmdw i w).inputs = s.inputs := rfl
@[simp] theorem State.setCmdw_readData (i : Nat) (w : Word) : (s.setCmdw i w).readData = s.readData := rfl
@[simp] theorem State.setCmdw_readBit (i : Nat) (w : Word) (x : Nat) : (s.setCmdw i w).readBit x = s.readBit x := rfl
@[simp] theorem State.setCmdw_smCell (i : Nat) (w : Word) (M : NumSystem α κ) (x : Nat) : (s.setCmdw i w).smCell M x = s.smCell M x := rfl
@[simp] theorem State.setCmdw_symAt (i : Nat) (w : Word) (M : NumSystem α κ) (x : Nat) : (s.setCmdw i w).symAt M x = s.symAt M x := rfl
@[simp] theorem State.setCmdw_lmCell (i : Nat) (w : Word) (M : NumSystem α κ) (x : Nat) : (s.setCmdw i w).lmCell M x = s.lmCell M x := rfl
@[simp] theorem State.setCmdw_valAt (i : Nat) (w : Word) (M : NumSystem α κ) (x : Nat) : (s.setCmdw i w).valAt M x = s.valAt M x := rfl
@[simp] theorem State.setCmdw_scalar (i : Nat) (w : Word) (j : ScalarIdx) : (s.setCmdw i w).scalar j = s.scalar j := rfl

/-! ### latchFault -/

@[simp] theorem State.latchFault_status (c : ErrCode) : (s.latchFault c).status = { s.status with fault := true, err := c.code } := rfl
@[simp] theorem State.latchFault_res (c : ErrCode) : (s.latchFault c).res = s.res := rfl
@[simp] theorem State.latchFault_olen (c : ErrCode) : (s.latchFault c).olen = s.olen := rfl
@[simp] theorem State.latchFault_ldpcN (c : ErrCode) : (s.latchFault c).ldpcN = s.ldpcN := rfl
@[simp] theorem State.latchFault_ldpcK (c : ErrCode) : (s.latchFault c).ldpcK = s.ldpcK := rfl
@[simp] theorem State.latchFault_ldpcDc (c : ErrCode) : (s.latchFault c).ldpcDc = s.ldpcDc := rfl
@[simp] theorem State.latchFault_polarN (c : ErrCode) : (s.latchFault c).polarN = s.polarN := rfl
@[simp] theorem State.latchFault_polarK (c : ErrCode) : (s.latchFault c).polarK = s.polarK := rfl
@[simp] theorem State.latchFault_crcReg (c : ErrCode) : (s.latchFault c).crcReg = s.crcReg := rfl
@[simp] theorem State.latchFault_scalars (c : ErrCode) : (s.latchFault c).scalars = s.scalars := rfl
@[simp] theorem State.latchFault_cmdw (c : ErrCode) : (s.latchFault c).cmdw = s.cmdw := rfl
@[simp] theorem State.latchFault_bm (c : ErrCode) : (s.latchFault c).bm = s.bm := rfl
@[simp] theorem State.latchFault_sm (c : ErrCode) : (s.latchFault c).sm = s.sm := rfl
@[simp] theorem State.latchFault_lm (c : ErrCode) : (s.latchFault c).lm = s.lm := rfl
@[simp] theorem State.latchFault_cfg (c : ErrCode) : (s.latchFault c).cfg = s.cfg := rfl
@[simp] theorem State.latchFault_epoch (c : ErrCode) : (s.latchFault c).epoch = s.epoch := rfl
@[simp] theorem State.latchFault_freeCtr (c : ErrCode) : (s.latchFault c).freeCtr = s.freeCtr := rfl
@[simp] theorem State.latchFault_draws (c : ErrCode) : (s.latchFault c).draws = s.draws := rfl
@[simp] theorem State.latchFault_inputs (c : ErrCode) : (s.latchFault c).inputs = s.inputs := rfl
@[simp] theorem State.latchFault_readData (c : ErrCode) : (s.latchFault c).readData = s.readData := rfl
@[simp] theorem State.latchFault_readBit (c : ErrCode) (x : Nat) : (s.latchFault c).readBit x = s.readBit x := rfl
@[simp] theorem State.latchFault_smCell (c : ErrCode) (M : NumSystem α κ) (x : Nat) : (s.latchFault c).smCell M x = s.smCell M x := rfl
@[simp] theorem State.latchFault_symAt (c : ErrCode) (M : NumSystem α κ) (x : Nat) : (s.latchFault c).symAt M x = s.symAt M x := rfl
@[simp] theorem State.latchFault_lmCell (c : ErrCode) (M : NumSystem α κ) (x : Nat) : (s.latchFault c).lmCell M x = s.lmCell M x := rfl
@[simp] theorem State.latchFault_valAt (c : ErrCode) (M : NumSystem α κ) (x : Nat) : (s.latchFault c).valAt M x = s.valAt M x := rfl
@[simp] theorem State.latchFault_scalar (c : ErrCode) (j : ScalarIdx) : (s.latchFault c).scalar j = s.scalar j := rfl

/-! ### setMatch -/

@[simp] theorem State.setMatch_status (m : Bool) : (s.setMatch m).status = { s.status with matched := m } := rfl
@[simp] theorem State.setMatch_res (m : Bool) : (s.setMatch m).res = s.res := rfl
@[simp] theorem State.setMatch_olen (m : Bool) : (s.setMatch m).olen = s.olen := rfl
@[simp] theorem State.setMatch_ldpcN (m : Bool) : (s.setMatch m).ldpcN = s.ldpcN := rfl
@[simp] theorem State.setMatch_ldpcK (m : Bool) : (s.setMatch m).ldpcK = s.ldpcK := rfl
@[simp] theorem State.setMatch_ldpcDc (m : Bool) : (s.setMatch m).ldpcDc = s.ldpcDc := rfl
@[simp] theorem State.setMatch_polarN (m : Bool) : (s.setMatch m).polarN = s.polarN := rfl
@[simp] theorem State.setMatch_polarK (m : Bool) : (s.setMatch m).polarK = s.polarK := rfl
@[simp] theorem State.setMatch_crcReg (m : Bool) : (s.setMatch m).crcReg = s.crcReg := rfl
@[simp] theorem State.setMatch_scalars (m : Bool) : (s.setMatch m).scalars = s.scalars := rfl
@[simp] theorem State.setMatch_cmdw (m : Bool) : (s.setMatch m).cmdw = s.cmdw := rfl
@[simp] theorem State.setMatch_bm (m : Bool) : (s.setMatch m).bm = s.bm := rfl
@[simp] theorem State.setMatch_sm (m : Bool) : (s.setMatch m).sm = s.sm := rfl
@[simp] theorem State.setMatch_lm (m : Bool) : (s.setMatch m).lm = s.lm := rfl
@[simp] theorem State.setMatch_cfg (m : Bool) : (s.setMatch m).cfg = s.cfg := rfl
@[simp] theorem State.setMatch_epoch (m : Bool) : (s.setMatch m).epoch = s.epoch := rfl
@[simp] theorem State.setMatch_freeCtr (m : Bool) : (s.setMatch m).freeCtr = s.freeCtr := rfl
@[simp] theorem State.setMatch_draws (m : Bool) : (s.setMatch m).draws = s.draws := rfl
@[simp] theorem State.setMatch_inputs (m : Bool) : (s.setMatch m).inputs = s.inputs := rfl
@[simp] theorem State.setMatch_readData (m : Bool) : (s.setMatch m).readData = s.readData := rfl
@[simp] theorem State.setMatch_readBit (m : Bool) (x : Nat) : (s.setMatch m).readBit x = s.readBit x := rfl
@[simp] theorem State.setMatch_smCell (m : Bool) (M : NumSystem α κ) (x : Nat) : (s.setMatch m).smCell M x = s.smCell M x := rfl
@[simp] theorem State.setMatch_symAt (m : Bool) (M : NumSystem α κ) (x : Nat) : (s.setMatch m).symAt M x = s.symAt M x := rfl
@[simp] theorem State.setMatch_lmCell (m : Bool) (M : NumSystem α κ) (x : Nat) : (s.setMatch m).lmCell M x = s.lmCell M x := rfl
@[simp] theorem State.setMatch_valAt (m : Bool) (M : NumSystem α κ) (x : Nat) : (s.setMatch m).valAt M x = s.valAt M x := rfl
@[simp] theorem State.setMatch_scalar (m : Bool) (j : ScalarIdx) : (s.setMatch m).scalar j = s.scalar j := rfl

/-! ### setLdpc -/

@[simp] theorem State.setLdpc_status (n k dc : Word) : (s.setLdpc n k dc).status = { s.status with lv := true } := rfl
@[simp] theorem State.setLdpc_res (n k dc : Word) : (s.setLdpc n k dc).res = s.res := rfl
@[simp] theorem State.setLdpc_olen (n k dc : Word) : (s.setLdpc n k dc).olen = s.olen := rfl
@[simp] theorem State.setLdpc_ldpcN (n k dc : Word) : (s.setLdpc n k dc).ldpcN = n := rfl
@[simp] theorem State.setLdpc_ldpcK (n k dc : Word) : (s.setLdpc n k dc).ldpcK = k := rfl
@[simp] theorem State.setLdpc_ldpcDc (n k dc : Word) : (s.setLdpc n k dc).ldpcDc = dc := rfl
@[simp] theorem State.setLdpc_polarN (n k dc : Word) : (s.setLdpc n k dc).polarN = s.polarN := rfl
@[simp] theorem State.setLdpc_polarK (n k dc : Word) : (s.setLdpc n k dc).polarK = s.polarK := rfl
@[simp] theorem State.setLdpc_crcReg (n k dc : Word) : (s.setLdpc n k dc).crcReg = s.crcReg := rfl
@[simp] theorem State.setLdpc_scalars (n k dc : Word) : (s.setLdpc n k dc).scalars = s.scalars := rfl
@[simp] theorem State.setLdpc_cmdw (n k dc : Word) : (s.setLdpc n k dc).cmdw = s.cmdw := rfl
@[simp] theorem State.setLdpc_bm (n k dc : Word) : (s.setLdpc n k dc).bm = s.bm := rfl
@[simp] theorem State.setLdpc_sm (n k dc : Word) : (s.setLdpc n k dc).sm = s.sm := rfl
@[simp] theorem State.setLdpc_lm (n k dc : Word) : (s.setLdpc n k dc).lm = s.lm := rfl
@[simp] theorem State.setLdpc_cfg (n k dc : Word) : (s.setLdpc n k dc).cfg = s.cfg := rfl
@[simp] theorem State.setLdpc_epoch (n k dc : Word) : (s.setLdpc n k dc).epoch = s.epoch := rfl
@[simp] theorem State.setLdpc_freeCtr (n k dc : Word) : (s.setLdpc n k dc).freeCtr = s.freeCtr := rfl
@[simp] theorem State.setLdpc_draws (n k dc : Word) : (s.setLdpc n k dc).draws = s.draws := rfl
@[simp] theorem State.setLdpc_inputs (n k dc : Word) : (s.setLdpc n k dc).inputs = s.inputs := rfl
@[simp] theorem State.setLdpc_readData (n k dc : Word) : (s.setLdpc n k dc).readData = s.readData := rfl
@[simp] theorem State.setLdpc_readBit (n k dc : Word) (x : Nat) : (s.setLdpc n k dc).readBit x = s.readBit x := rfl
@[simp] theorem State.setLdpc_smCell (n k dc : Word) (M : NumSystem α κ) (x : Nat) : (s.setLdpc n k dc).smCell M x = s.smCell M x := rfl
@[simp] theorem State.setLdpc_symAt (n k dc : Word) (M : NumSystem α κ) (x : Nat) : (s.setLdpc n k dc).symAt M x = s.symAt M x := rfl
@[simp] theorem State.setLdpc_lmCell (n k dc : Word) (M : NumSystem α κ) (x : Nat) : (s.setLdpc n k dc).lmCell M x = s.lmCell M x := rfl
@[simp] theorem State.setLdpc_valAt (n k dc : Word) (M : NumSystem α κ) (x : Nat) : (s.setLdpc n k dc).valAt M x = s.valAt M x := rfl
@[simp] theorem State.setLdpc_scalar (n k dc : Word) (j : ScalarIdx) : (s.setLdpc n k dc).scalar j = s.scalar j := rfl

/-! ### setPolar -/

@[simp] theorem State.setPolar_status (n k : Word) : (s.setPolar n k).status = { s.status with pv := true } := rfl
@[simp] theorem State.setPolar_res (n k : Word) : (s.setPolar n k).res = s.res := rfl
@[simp] theorem State.setPolar_olen (n k : Word) : (s.setPolar n k).olen = s.olen := rfl
@[simp] theorem State.setPolar_ldpcN (n k : Word) : (s.setPolar n k).ldpcN = s.ldpcN := rfl
@[simp] theorem State.setPolar_ldpcK (n k : Word) : (s.setPolar n k).ldpcK = s.ldpcK := rfl
@[simp] theorem State.setPolar_ldpcDc (n k : Word) : (s.setPolar n k).ldpcDc = s.ldpcDc := rfl
@[simp] theorem State.setPolar_polarN (n k : Word) : (s.setPolar n k).polarN = n := rfl
@[simp] theorem State.setPolar_polarK (n k : Word) : (s.setPolar n k).polarK = k := rfl
@[simp] theorem State.setPolar_crcReg (n k : Word) : (s.setPolar n k).crcReg = s.crcReg := rfl
@[simp] theorem State.setPolar_scalars (n k : Word) : (s.setPolar n k).scalars = s.scalars := rfl
@[simp] theorem State.setPolar_cmdw (n k : Word) : (s.setPolar n k).cmdw = s.cmdw := rfl
@[simp] theorem State.setPolar_bm (n k : Word) : (s.setPolar n k).bm = s.bm := rfl
@[simp] theorem State.setPolar_sm (n k : Word) : (s.setPolar n k).sm = s.sm := rfl
@[simp] theorem State.setPolar_lm (n k : Word) : (s.setPolar n k).lm = s.lm := rfl
@[simp] theorem State.setPolar_cfg (n k : Word) : (s.setPolar n k).cfg = s.cfg := rfl
@[simp] theorem State.setPolar_epoch (n k : Word) : (s.setPolar n k).epoch = s.epoch := rfl
@[simp] theorem State.setPolar_freeCtr (n k : Word) : (s.setPolar n k).freeCtr = s.freeCtr := rfl
@[simp] theorem State.setPolar_draws (n k : Word) : (s.setPolar n k).draws = s.draws := rfl
@[simp] theorem State.setPolar_inputs (n k : Word) : (s.setPolar n k).inputs = s.inputs := rfl
@[simp] theorem State.setPolar_readData (n k : Word) : (s.setPolar n k).readData = s.readData := rfl
@[simp] theorem State.setPolar_readBit (n k : Word) (x : Nat) : (s.setPolar n k).readBit x = s.readBit x := rfl
@[simp] theorem State.setPolar_smCell (n k : Word) (M : NumSystem α κ) (x : Nat) : (s.setPolar n k).smCell M x = s.smCell M x := rfl
@[simp] theorem State.setPolar_symAt (n k : Word) (M : NumSystem α κ) (x : Nat) : (s.setPolar n k).symAt M x = s.symAt M x := rfl
@[simp] theorem State.setPolar_lmCell (n k : Word) (M : NumSystem α κ) (x : Nat) : (s.setPolar n k).lmCell M x = s.lmCell M x := rfl
@[simp] theorem State.setPolar_valAt (n k : Word) (M : NumSystem α κ) (x : Nat) : (s.setPolar n k).valAt M x = s.valAt M x := rfl
@[simp] theorem State.setPolar_scalar (n k : Word) (j : ScalarIdx) : (s.setPolar n k).scalar j = s.scalar j := rfl

end Sys2Proof.Machine
end

