-- ==== Sys2Proof/Laws/Ops.lean ====
section
/-! SUPPORT. What the shared operations do, said once: element reads after sequence writes, scalar reads after scalar
writes, the range check, a raised fault, the lengths of what commands read. -/

namespace Sys2Proof.Machine

variable {α κ : Type} (s : State α κ) (M : NumSystem α κ)

/-! ## Reads after writes -/

theorem State.readBit_writeBits_outside (a x : Nat) (xs : List Bit) (h : x < a ∨ a + xs.length ≤ x) :
    (s.writeBits a xs).readBit x = s.readBit x := by
  simp only [State.readBit, State.writeBits, Memory.read?_writeSeq_outside _ _ _ _ h]

theorem State.readBit_writeBits_inside (a j : Nat) (xs : List Bit) (h : j < xs.length) :
    (s.writeBits a xs).readBit (a + j) = xs[j] := by
  simp only [State.readBit, State.writeBits, Memory.read?_writeSeq_inside _ _ _ _ h, Option.getD_some]

theorem State.smCell_write_outside (a x : Nat) (xs : List κ) (h : x < a ∨ a + xs.length ≤ x) :
    (s.writeSmCells a xs).smCell M x = s.smCell M x := by
  simp only [State.smCell, State.writeSmCells, Memory.read?_writeSeq_outside _ _ _ _ h]

theorem State.smCell_write_inside (a j : Nat) (xs : List κ) (h : j < xs.length) :
    (s.writeSmCells a xs).smCell M (a + j) = xs[j] := by
  simp only [State.smCell, State.writeSmCells, Memory.read?_writeSeq_inside _ _ _ _ h, Option.getD_some]

theorem State.lmCell_write_outside (a x : Nat) (xs : List κ) (h : x < a ∨ a + xs.length ≤ x) :
    (s.writeLmCells a xs).lmCell M x = s.lmCell M x := by
  simp only [State.lmCell, State.writeLmCells, Memory.read?_writeSeq_outside _ _ _ _ h]

theorem State.lmCell_write_inside (a j : Nat) (xs : List κ) (h : j < xs.length) :
    (s.writeLmCells a xs).lmCell M (a + j) = xs[j] := by
  simp only [State.lmCell, State.writeLmCells, Memory.read?_writeSeq_inside _ _ _ _ h, Option.getD_some]

theorem State.scalar_setScalar_same (i : ScalarIdx) (x : α) : (s.setScalar i x).scalar i = x := by
  simp [State.scalar, State.setScalar]

theorem State.scalar_setScalar_other (i j : ScalarIdx) (x : α) (h : j ≠ i) :
    (s.setScalar i x).scalar j = s.scalar j := by
  have : i.val ≠ j.val := fun e => h (Fin.ext e.symm)
  simp [State.scalar, State.setScalar, this]

/-! ## Ranges and lengths -/

/-- The range check, once: an empty range, or one inside the size. -/
theorem fits_iff (a n z : Nat) : fits a n z = true ↔ n = 0 ∨ a + n ≤ z := by simp [fits]

@[simp] theorem State.length_readBits (a n : Nat) : (s.readBits a n).length = n := by simp [State.readBits]

@[simp] theorem State.length_symsAt (a n : Nat) : (s.symsAt M a n).length = n := by simp [State.symsAt]

@[simp] theorem State.length_valsAt (a n : Nat) : (s.valsAt M a n).length = n := by simp [State.valsAt]

@[simp] theorem length_bitsMsb (n v : Nat) : (bitsMsb n v).length = n := by simp [bitsMsb]

@[simp] theorem State.length_orFreeVals (ok : Bool) (xs : List α) : (s.orFreeVals M ok xs).length = xs.length := by
  simp [State.orFreeVals]

@[simp] theorem State.length_orFreeSyms (ok : Bool) (xs : List (SymOf α)) : (s.orFreeSyms M ok xs).length = xs.length := by
  simp [State.orFreeSyms]

/-! ## Faults -/

/-- A raised fault is a next state, with the fault latched and nothing else changed. -/
theorem State.raise_eq (c : ErrCode) :
    s.raise c = .next { s with status := { s.status with fault := true, err := c.code } } := rfl

/-- Where a command that raises a fault answers a next state, it is the latched one. -/
theorem State.raise_next (c : ErrCode) (t : State α κ) (h : s.raise c = .next t) : t = s.latchFault c := by
  injection h with h
  exact h.symm

end Sys2Proof.Machine
end

