-- ==== Sys2Proof/Laws/Lengths.lean ====
section
/-! SUPPORT. How long the sequence is that each unit hands to a memory write, said once per unit. -/

namespace Sys2Proof.Machine

@[simp] theorem length_crcBits (c : BitVec 16) : (crcBits c).length = 16 := by simp [crcBits]

@[simp] theorem length_chunkIndices (b : Nat) (bits : List Bit) : (chunkIndices b bits).length = ceilDiv bits.length b := by
  simp [chunkIndices]

variable {α : Type} (N : NumRec α)

@[simp] theorem length_modulateBits (c : Config) (sch : Scheme) (bits : List Bit) :
    (modulateBits N c sch bits).length = ceilDiv bits.length (bps sch) := by
  simp [modulateBits]

@[simp] theorem length_hardBits (c : Config) (sch : Scheme) (sym : List (SymOf α)) :
    (hardBits N c sch sym).length = sym.length * bps sch := by
  simp [hardBits, List.length_flatMap]

@[simp] theorem length_softVals (c : Config) (sch : Scheme) (v : α) (sym : List (SymOf α)) :
    (softVals N c sch v sym).length = sym.length * bps sch := by
  simp [softVals, List.length_flatMap]

@[simp] theorem length_addNoise (sigma : α) (draw : Nat → α) (sym : List (SymOf α)) :
    (addNoise N sigma draw sym).length = sym.length := by
  simp [addNoise]

/-- An admitted table has one level for each value of the axis bits of a scheme. -/
theorem length_levels (c : Config) (sch : Scheme) (h : c.tableWf = true) (hs : unknownScheme sch = false) :
    (levels c sch).length = 2 ^ (bps sch / 2) := by
  simp only [Config.tableWf, levelsWf, Bool.and_eq_true, beq_iff_eq] at h
  cases sch
  · exact h.1.1.1.1.1
  · exact h.1.1.2.1.1
  · exact h.1.2.1.1
  · exact h.2.1.1
  · exact absurd hs (by simp [unknownScheme])

/-- A constellation has one point for each index. -/
theorem length_constellation (c : Config) (sch : Scheme) (h : c.tableWf = true) (hs : unknownScheme sch = false) :
    (constellation N c sch).length = 2 ^ bps sch := by
  have hl := length_levels c sch h hs
  have hb : 2 ^ (bps sch / 2) * 2 ^ (bps sch / 2) = 2 ^ bps sch := by
    cases sch <;> simp [bps]
  simp only [constellation, axis, List.length_flatMap, List.map_map, Function.comp_def, List.length_map, List.map_const',
    List.sum_replicate, smul_eq_mul, hl, hb]

theorem length_fitBits (k : Nat) (x : List Bit) : (fitBits k x).length = k := by
  simp only [fitBits, List.length_append, List.length_take, List.length_replicate]
  omega

theorem length_ldpcEncode (n k dc : Nat) (x : List Bit) (h : k ≤ n) : (ldpcEncode n k dc x).length = n := by
  simp only [ldpcEncode, List.length_append, length_fitBits, List.length_map, List.length_range]
  omega

@[simp] theorem length_hardThreshold (l : List α) : (hardThreshold N l).length = l.length := by simp [hardThreshold]

@[simp] theorem length_butterflyStage (dist : Nat) (u : List Bit) : (butterflyStage dist u).length = u.length := by
  simp [butterflyStage]

@[simp] theorem length_polarTransform (u : List Bit) : (polarTransform u).length = u.length := by
  have h : ∀ (stages : List Nat) (v : List Bit),
      (stages.foldl (fun v stage => butterflyStage (2 ^ stage) v) v).length = v.length := by
    intro stages
    induction stages with
    | nil => intro v; rfl
    | cons a rest ih => intro v; rw [List.foldl_cons, ih, length_butterflyStage]
  exact h _ _

@[simp] theorem length_placeBits (n k : Nat) (d : List Bit) : (placeBits n k d).length = n := by
  have h : ∀ (l : List (Nat × Bit)) (v : List Bit), (l.foldl (fun u x => u.set x.1 x.2) v).length = v.length := by
    intro l
    induction l with
    | nil => intro v; rfl
    | cons a rest ih => intro v; rw [List.foldl_cons, ih, List.length_set]
  simp [placeBits, h]

/-- `takeInfo` gives one bit for each information position. -/
@[simp] theorem length_takeInfo (n k : Nat) (u : List Bit) : (takeInfo n k u).length = (infoPositions n k).length := by
  simp [takeInfo]

end Sys2Proof.Machine
end

