-- ==== Sys2Proof/Laws/Elements.lean ====
section
/-! SUPPORT. Symbols and values read back after a sequence write, the register value of a number, and what the shared
conversion operation can do. -/

namespace Sys2Proof.Machine

variable {α κ : Type} (s : State α κ) (M : NumSystem α κ)

/-! ## Blocks of cells -/

theorem length_flatMap_block {β γ : Type} (f : β → List γ) (n : Nat) (hf : ∀ x, (f x).length = n) (xs : List β) :
    (xs.flatMap f).length = n * xs.length := by
  induction xs with
  | nil => rfl
  | cons x rest ih => rw [List.flatMap_cons, List.length_append, ih, hf, List.length_cons, Nat.mul_succ, Nat.add_comm]

/-- Cell `i` of block `j` of a list whose blocks are all `n` cells long. -/
theorem getElem?_flatMap_block {β γ : Type} (f : β → List γ) (n : Nat) (hf : ∀ x, (f x).length = n) (xs : List β)
    (j i : Nat) (hj : j < xs.length) (hi : i < n) : (xs.flatMap f)[n * j + i]? = (f xs[j])[i]? := by
  induction xs generalizing j with
  | nil => simp at hj
  | cons x rest ih =>
    rw [List.flatMap_cons]
    cases j with
    | zero => rw [List.getElem?_append_left (by rw [hf]; omega)]; simp
    | succ k =>
      have hk : k < rest.length := by simpa using hj
      have hpos : (f x).length ≤ n * (k + 1) + i := by rw [hf, Nat.mul_succ]; omega
      have hsub : n * (k + 1) + i - (f x).length = n * k + i := by rw [hf, Nat.mul_succ]; omega
      rw [List.getElem?_append_right hpos, hsub, ih k hk]
      simp

/-! ## Storage -/

/-- A binary64 value is read back from its eight bytes. -/
theorem binary64_storage (r : Rounding) : StorageLaws (binary64System r) where
  length x := by simp [binary64System, Num64.bytes]
  roundTrip x f h := by
    have hb : ∀ i, i < 8 → x.bits.extractLsb' (8 * i) 8 = f i := by
      intro i hi
      have := h i hi
      simpa [binary64System, Num64.bytes, hi] using this
    cases x with
    | mk bits =>
      have hlt := bits.isLt
      simp only [binary64System, Num64.ofBytes, Num64.mk.injEq]
      apply BitVec.eq_of_toNat_eq
      simp only [joinWords, wordOfBytes, BitVec.toNat_ofNat, ← hb 0 (by omega), ← hb 1 (by omega), ← hb 2 (by omega),
        ← hb 3 (by omega), ← hb (4 + 0) (by omega), ← hb (4 + 1) (by omega), ← hb (4 + 2) (by omega),
        ← hb (4 + 3) (by omega), BitVec.extractLsb'_toNat, Nat.shiftRight_eq_div_pow]
      omega

/-- An exact real is read back from its cell. -/
theorem reals_storage : StorageLaws realSystem where
  length _ := rfl
  roundTrip x f h := by
    have := h 0 Nat.one_pos
    simpa [realSystem] using this.symm

/-! ## Reads after writes -/

variable {M}

theorem StorageLaws.length_symCells (h : StorageLaws M) (x : SymOf α) : (M.symCells x).length = 2 * M.cellsPerNum := by
  rw [NumSystem.symCells, List.length_append, h.length, h.length, Nat.two_mul]

/-- `LM[a + j]` after `MemWrite(LM, a, xs)` is `xs[j]`. -/
theorem State.valAt_putVals_inside (hM : StorageLaws M) (a j : Nat) (xs : List α) (h : j < xs.length) :
    (s.putVals M a xs).valAt M (a + j) = xs[j] := by
  refine hM.roundTrip _ _ fun i hi => ?_
  have hget := getElem?_flatMap_block M.toCells M.cellsPerNum hM.length xs j i h hi
  have hlen : M.cellsPerNum * j + i < (xs.flatMap M.toCells).length := by
    by_contra hc
    rw [List.getElem?_eq_none (by omega), eq_comm, List.getElem?_eq_none_iff, hM.length] at hget
    omega
  rw [List.getElem?_eq_getElem hlen] at hget
  rw [← hget, show M.cellsPerNum * (a + j) + i = M.cellsPerNum * a + (M.cellsPerNum * j + i) by rw [Nat.mul_add]; omega]
  exact congrArg some (State.lmCell_write_inside s M _ _ _ hlen).symm

/-- `SM[a + j]` after `MemWrite(SM, a, xs)` is `xs[j]`. -/
theorem State.symAt_putSyms_inside (hM : StorageLaws M) (a j : Nat) (xs : List (SymOf α)) (h : j < xs.length) :
    (s.putSyms M a xs).symAt M (a + j) = xs[j] := by
  have key : ∀ i, i < 2 * M.cellsPerNum →
      (M.symCells xs[j])[i]? = some ((s.putSyms M a xs).smCell M (2 * M.cellsPerNum * (a + j) + i)) := by
    intro i hi
    have hget := getElem?_flatMap_block M.symCells (2 * M.cellsPerNum) hM.length_symCells xs j i h hi
    have hlen : 2 * M.cellsPerNum * j + i < (xs.flatMap M.symCells).length := by
      by_contra hc
      rw [List.getElem?_eq_none (by omega), eq_comm, List.getElem?_eq_none_iff, hM.length_symCells] at hget
      omega
    rw [List.getElem?_eq_getElem hlen] at hget
    rw [← hget, show 2 * M.cellsPerNum * (a + j) + i = 2 * M.cellsPerNum * a + (2 * M.cellsPerNum * j + i) by
      rw [Nat.mul_add]; omega]
    exact congrArg some (State.smCell_write_inside s M _ _ _ hlen).symm
  have hre : M.ofCells (fun i => (s.putSyms M a xs).smCell M (2 * M.cellsPerNum * (a + j) + i)) = xs[j].re :=
    hM.roundTrip _ _ fun i hi => by
      rw [← key i (by omega), NumSystem.symCells, List.getElem?_append_left (by rw [hM.length]; exact hi)]
  have him : M.ofCells (fun i => (s.putSyms M a xs).smCell M (2 * M.cellsPerNum * (a + j) + M.cellsPerNum + i)) =
      xs[j].im :=
    hM.roundTrip _ _ fun i hi => by
      rw [Nat.add_assoc _ M.cellsPerNum, ← key (M.cellsPerNum + i) (by omega), NumSystem.symCells,
        List.getElem?_append_right (by rw [hM.length]; omega), hM.length, Nat.add_sub_cancel_left]
  rw [State.symAt, hre, him]

/-- A sequence of symbols, read back. -/
theorem State.symsAt_putSyms_same (hM : StorageLaws M) (a : Nat) (xs : List (SymOf α)) :
    (s.putSyms M a xs).symsAt M a xs.length = xs := by
  apply List.ext_getElem
  · simp
  · intro j h1 h2
    simpa [State.symsAt] using State.symAt_putSyms_inside s hM a j xs h2

/-- `BM[a + j]` after `MemWrite(BM, a, xs)`, read as a sequence. -/
theorem State.readBits_writeBits_same (a : Nat) (xs : List Bit) : (s.writeBits a xs).readBits a xs.length = xs := by
  apply List.ext_getElem
  · simp
  · intro j h1 h2
    simpa [State.readBits] using State.readBit_writeBits_inside s a j xs h2

/-! ## The canonical form -/

/-- Each memory of the state right after reset is in canonical form. -/
theorem State.reset_memories_wf :
    Memory.wf State.reset.bm = true ∧ Memory.wf State.reset.sm = true ∧ Memory.wf State.reset.lm = true := ⟨rfl, rfl, rfl⟩

/-- Each write to a memory of the state keeps its canonical form. -/
theorem State.writes_keep_wf (a : Nat) :
    (∀ xs, Memory.wf s.bm = true → Memory.wf (s.writeBits a xs).bm = true) ∧
    (∀ xs, Memory.wf s.sm = true → Memory.wf (s.writeSmCells a xs).sm = true) ∧
    ∀ xs, Memory.wf s.lm = true → Memory.wf (s.writeLmCells a xs).lm = true :=
  ⟨fun xs h => Memory.wf_writeSeq xs _ _ h, fun xs h => Memory.wf_writeSeq xs _ _ h,
    fun xs h => Memory.wf_writeSeq xs _ _ h⟩

/-! ## Registers -/

/-- A number that fits its register is there as itself. -/
theorem wordOf_toNat (n : Nat) (h : n < 2 ^ 32) : (wordOf n).toNat = n := by
  rw [wordOf, if_pos h, BitVec.toNat_ofNat, Nat.mod_eq_of_lt h]

@[simp] theorem wordOf_word (w : Word) : wordOf w.toNat = w := by
  apply BitVec.eq_of_toNat_eq
  rw [wordOf_toNat _ w.isLt]

/-- What a conversion can do: raise `ERR_PARAM`, or write its scalar and move the counter of free values on. -/
theorem State.convert_cases (M : NumSystem α κ) (ss st sd : ScalarIdx) (bpsWord : Word) (f : α → α → α → α) :
    (convertible M.toNumRec bpsWord (s.scalar st) = false ∧ s.convert M ss st sd bpsWord f = s.raise .param) ∨
    (convertible M.toNumRec bpsWord (s.scalar st) = true ∧
      s.convert M ss st sd bpsWord f =
        .next ((s.setScalar sd (s.orFree M (M.allFinite [s.scalar ss, s.scalar st]) 0
          (f (s.scalar ss) (M.ofNat bpsWord.toNat) (s.scalar st)))).spendFree)) := by
  unfold State.convert
  cases h : convertible M.toNumRec bpsWord (s.scalar st)
  · exact .inl ⟨rfl, rfl⟩
  · exact .inr ⟨rfl, rfl⟩

end Sys2Proof.Machine
end

