-- ==== Sys2Proof/Laws/Enclosure.lean ====
section
/-! SUPPORT. What the fixed-point enclosures of Machine/Enclosure.lean enclose: one lemma per operation, in real numbers. -/

namespace Sys2Proof

/-! ## Integer square roots -/

theorem isqrtFuel_spec (fuel n : Nat) (h : n < 4 ^ fuel) :
    isqrtFuel fuel n * isqrtFuel fuel n ≤ n ∧ n < (isqrtFuel fuel n + 1) * (isqrtFuel fuel n + 1) := by
  induction fuel generalizing n with
  | zero =>
    have : n = 0 := by simpa using h
    subst this
    simp [isqrtFuel]
  | succ k ih =>
    have hk : n / 4 < 4 ^ k := by
      rw [Nat.div_lt_iff_lt_mul (by omega)]
      rwa [Nat.pow_succ] at h
    obtain ⟨h1, h2⟩ := ih (n / 4) hk
    have hdiv := Nat.div_add_mod n 4
    have hmod := Nat.mod_lt n (show 0 < 4 by omega)
    simp only [isqrtFuel]
    generalize isqrtFuel k (n / 4) = r at *
    split
    · refine ⟨‹_›, ?_⟩
      have : (2 * r + 1 + 1) * (2 * r + 1 + 1) = 4 * ((r + 1) * (r + 1)) := by ring
      omega
    · refine ⟨?_, by omega⟩
      have : 2 * r * (2 * r) = 4 * (r * r) := by ring
      omega

theorem isqrtFrom_spec (x n : Nat) :
    isqrtFrom x n * isqrtFrom x n ≤ n ∧ n < (isqrtFrom x n + 1) * (isqrtFrom x n + 1) := by
  unfold isqrtFrom
  dsimp only
  split
  · assumption
  · refine isqrtFuel_spec _ _ ?_
    have h := Nat.lt_log2_self (n := n)
    refine Nat.lt_of_lt_of_le h ?_
    rw [show (4 : Nat) = 2 ^ 2 from rfl, ← Nat.pow_mul]
    exact Nat.pow_le_pow_right (by omega) (by omega)

/-! ## Operations -/

/-- The real `x` lies in the enclosure `e`, in units of `1 / u`. -/
def Enclosure.Holds (u : Nat) (e : Enclosure) (x : ℝ) : Prop := (e.lo : ℝ) ≤ x * u ∧ x * u ≤ e.hi

theorem fixedOne_pos : (0 : ℝ) < (fixedOne : ℝ) := by
  have : 0 < fixedOne := by unfold fixedOne; positivity
  exact_mod_cast this

/-- The root encloses the real root. -/
theorem Enclosure.root_holds {e : Enclosure} {x : ℝ} (hx : 0 ≤ x) (h : e.Holds fixedOne x) :
    e.root.Holds fixedOne (Real.sqrt x) := by
  have hu := fixedOne_pos
  have hs := Real.sq_sqrt hx
  have hs0 := Real.sqrt_nonneg x
  obtain ⟨h1, h2⟩ := h
  constructor
  · have hl := (isqrtFrom_spec (isqrtFrom (min (2 ^ ((e.hi * fixedOne).log2 / 2 + 1)) ((e.hi + fixedOne) / 2 + 1))
      (e.hi * fixedOne) + 1) (e.lo * fixedOne)).1
    have hl' : ((e.root.lo : Nat) : ℝ) * e.root.lo ≤ e.lo * fixedOne := by exact_mod_cast hl
    refine abs_le_of_sq_le_sq' ?_ (by positivity) |>.2
    have := mul_le_mul_of_nonneg_right h1 hu.le
    calc (e.root.lo : ℝ) ^ 2 ≤ e.lo * fixedOne := by rw [sq]; exact hl'
      _ ≤ x * fixedOne * fixedOne := this
      _ = (Real.sqrt x * fixedOne) ^ 2 := by rw [mul_pow, hs]; ring
  · have hh := (isqrtFrom_spec (min (2 ^ ((e.hi * fixedOne).log2 / 2 + 1)) ((e.hi + fixedOne) / 2 + 1))
      (e.hi * fixedOne)).2
    have hh' : ((e.hi : Nat) : ℝ) * fixedOne ≤ (e.root.hi : ℝ) * e.root.hi := by exact_mod_cast hh.le
    refine abs_le_of_sq_le_sq' ?_ (by positivity) |>.2
    have := mul_le_mul_of_nonneg_right h2 hu.le
    calc (Real.sqrt x * fixedOne) ^ 2 = x * fixedOne * fixedOne := by rw [mul_pow, hs]; ring
      _ ≤ e.hi * fixedOne := this
      _ ≤ (e.root.hi : ℝ) ^ 2 := by rw [sq]; exact hh'

theorem nat_div_le (a b : Nat) : ((a / b : Nat) : ℝ) ≤ (a : ℝ) / b := Nat.cast_div_le

theorem le_nat_div_succ (a b : Nat) (h : 0 < b) : (a : ℝ) / b ≤ ((a / b + 1 : Nat) : ℝ) := by
  have hb : (0 : ℝ) < b := by exact_mod_cast h
  rw [div_le_iff₀ hb]
  exact_mod_cast (Nat.lt_div_mul_add h (a := a)).le.trans (by rw [Nat.add_mul, Nat.one_mul])

theorem le_nat_div_ceil (a b : Nat) (h : 0 < b) : (a : ℝ) / b ≤ (((a + (b - 1)) / b : Nat) : ℝ) := by
  have hb : (0 : ℝ) < b := by exact_mod_cast h
  rw [div_le_iff₀ hb]
  have h1 := Nat.div_add_mod (a + (b - 1)) b
  have h2 := Nat.mod_lt (a + (b - 1)) h
  have : a ≤ (a + (b - 1)) / b * b := by rw [Nat.mul_comm]; omega
  exact_mod_cast this

/-- The product encloses the product of two reals that are not negative. -/
theorem Enclosure.mul_holds {a b : Enclosure} {x y : ℝ} (hx : 0 ≤ x) (hy : 0 ≤ y) (ha : a.Holds fixedOne x)
    (hb : b.Holds fixedOne y) : (a.mul b).Holds fixedOne (x * y) := by
  have hu := fixedOne_pos
  have hun : 0 < fixedOne := by exact_mod_cast hu
  obtain ⟨a1, a2⟩ := ha
  obtain ⟨b1, b2⟩ := hb
  have ha0 : (0 : ℝ) ≤ (a.lo : ℝ) := Nat.cast_nonneg _
  have hb0 : (0 : ℝ) ≤ (b.lo : ℝ) := Nat.cast_nonneg _
  have hxu : 0 ≤ x * (fixedOne : ℝ) := by positivity
  have hyu : 0 ≤ y * (fixedOne : ℝ) := by positivity
  constructor
  · refine (nat_div_le _ _).trans ?_
    rw [div_le_iff₀ hu, Nat.cast_mul]
    calc (a.lo : ℝ) * b.lo ≤ (x * fixedOne) * (y * fixedOne) := mul_le_mul a1 b1 hb0 hxu
      _ = x * y * fixedOne * fixedOne := by ring
  · refine le_trans ?_ (le_nat_div_succ _ _ hun)
    rw [le_div_iff₀ hu, Nat.cast_mul]
    calc x * y * fixedOne * fixedOne = (x * fixedOne) * (y * fixedOne) := by ring
      _ ≤ (a.hi : ℝ) * b.hi := mul_le_mul a2 b2 hyu (hxu.trans a2)

/-- The quotient encloses the quotient of reals that are not negative, the divisor surely above zero. -/
theorem Enclosure.div_holds {a b : Enclosure} {x y : ℝ} (hx : 0 ≤ x) (hb0 : 0 < b.lo) (ha : a.Holds fixedOne x)
    (hb : b.Holds fixedOne y) : (a.div b).Holds fixedOne (x / y) := by
  have hu := fixedOne_pos
  obtain ⟨a1, a2⟩ := ha
  obtain ⟨b1, b2⟩ := hb
  have hlo : (0 : ℝ) < b.lo := by exact_mod_cast hb0
  have hyu : 0 < y * (fixedOne : ℝ) := hlo.trans_le b1
  have hy : 0 < y := (mul_pos_iff_of_pos_right hu).mp hyu
  have hhi : (0 : ℝ) < b.hi := hyu.trans_le b2
  have hxu : 0 ≤ x * (fixedOne : ℝ) := by positivity
  have key : x / y * fixedOne = (x * fixedOne) * fixedOne / (y * fixedOne) := by field_simp
  constructor
  · refine (nat_div_le _ _).trans ?_
    rw [key, Nat.cast_mul]
    gcongr
  · refine le_trans ?_ (le_nat_div_succ _ _ hb0)
    rw [key, Nat.cast_mul]
    gcongr

/-- The reciprocal encloses the reciprocal, in units of `1 / d`. -/
theorem Enclosure.recip_holds {a : Enclosure} {x : ℝ} (d : Nat) (ha0 : 0 < a.lo) (ha : a.Holds fixedOne x) :
    (a.recip d).Holds d (1 / x) := by
  have hu := fixedOne_pos
  obtain ⟨a1, a2⟩ := ha
  have hlo : (0 : ℝ) < a.lo := by exact_mod_cast ha0
  have hxu : 0 < x * (fixedOne : ℝ) := hlo.trans_le a1
  have hx : 0 < x := (mul_pos_iff_of_pos_right hu).mp hxu
  have hhi : (0 : ℝ) < a.hi := hxu.trans_le a2
  have key : 1 / x * d = (d * fixedOne : ℝ) / (x * fixedOne) := by field_simp
  constructor
  · refine (nat_div_le _ _).trans ?_
    rw [key, Nat.cast_mul]
    gcongr
  · refine le_trans ?_ (le_nat_div_ceil _ _ ha0)
    rw [key, Nat.cast_mul]
    gcongr

/-! ## The two walks -/

/-- The real power `b^t` for some exponent within one unit of `frac / 2^n`: what the walk down the ladder encloses. -/
theorem powWalk_holds (n frac : Nat) (rung acc : Enclosure) (b a t : ℝ) (hb : 1 ≤ b) (ha : 0 ≤ a)
    (hrung : rung.Holds fixedOne b) (hacc : acc.Holds fixedOne a) (hlo : (frac : ℝ) ≤ t * 2 ^ n)
    (hhi : t * 2 ^ n ≤ frac + 1) (hfrac : frac < 2 ^ n) : (powWalk n rung frac acc).Holds fixedOne (a * b ^ t) := by
  induction n generalizing frac rung acc b a t with
  | zero =>
    have hf : frac = 0 := by simpa using hfrac
    subst hf
    have h0 : 0 ≤ t := by simpa using hlo
    have h1 : t ≤ 1 := by simpa using hhi
    have hbt1 : 1 ≤ b ^ t := Real.one_le_rpow hb h0
    have hbt2 : b ^ t ≤ b := (Real.rpow_le_rpow_of_exponent_le hb h1).trans_eq (Real.rpow_one b)
    have hu := fixedOne_pos
    have hmul := (Enclosure.mul_holds ha (by linarith) hacc hrung).2
    refine ⟨hacc.1.trans ?_, le_trans ?_ hmul⟩
    · gcongr
      exact le_mul_of_one_le_right ha hbt1
    · gcongr
  | succ n ih =>
    have hb0 : 0 ≤ b := by linarith
    have hc : 1 ≤ Real.sqrt b := Real.one_le_sqrt.mpr hb
    have hroot := Enclosure.root_holds hb0 hrung
    have hpow : ∀ y : ℝ, b ^ y = Real.sqrt b ^ (2 * y) := by
      intro y
      rw [Real.sqrt_eq_rpow, ← Real.rpow_mul hb0]
      congr 1
      ring
    have hdouble : t * 2 ^ (n + 1) = 2 * t * 2 ^ n := by ring
    rw [hdouble] at hlo hhi
    simp only [powWalk]
    split
    · rename_i hle
      have hmod : frac % 2 ^ n = frac - 2 ^ n := by
        rw [Nat.mod_eq_sub_mod hle, Nat.mod_eq_of_lt]
        rw [Nat.pow_succ] at hfrac
        omega
      have hcast : ((frac - 2 ^ n : Nat) : ℝ) = frac - 2 ^ n := by push_cast [Nat.cast_sub hle]; ring
      have hab : a * b ^ t = a * Real.sqrt b * Real.sqrt b ^ (2 * t - 1) := by
        rw [hpow, Real.rpow_sub (by linarith), Real.rpow_one]
        field_simp
      rw [hab, hmod]
      refine ih _ _ _ _ _ _ hc (by positivity) hroot (Enclosure.mul_holds ha (by positivity) hacc hroot) ?_ ?_ ?_
      · rw [hcast]; linarith
      · rw [hcast]; linarith
      · rw [Nat.pow_succ] at hfrac; omega
    · rename_i hlt
      rw [hpow, Nat.mod_eq_of_lt (by omega)]
      exact ih _ _ _ _ _ _ hc ha hroot hacc hlo hhi (by omega)

/-- A root stays at 1 or above. -/
theorem Enclosure.one_le_root {e : Enclosure} (h : fixedOne ≤ e.lo) : fixedOne ≤ e.root.lo := by
  have h1 := (isqrtFrom_spec e.root.hi (e.lo * fixedOne)).2
  have h2 : fixedOne * fixedOne ≤ e.lo * fixedOne := Nat.mul_le_mul_right _ h
  have h3 : fixedOne * fixedOne < (e.root.lo + 1) * (e.root.lo + 1) := h2.trans_lt h1
  by_contra h4
  exact absurd (Nat.mul_le_mul (show e.root.lo + 1 ≤ fixedOne by omega) (show e.root.lo + 1 ≤ fixedOne by omega)) (by omega)

/-- A product of enclosures at 1 or above stays there. -/
theorem Enclosure.one_le_mul {a b : Enclosure} (ha : fixedOne ≤ a.lo) (hb : fixedOne ≤ b.lo) : fixedOne ≤ (a.mul b).lo := by
  have hun : 0 < fixedOne := by exact_mod_cast fixedOne_pos
  exact (Nat.le_div_iff_mul_le hun).mpr (Nat.mul_le_mul ha hb)

/-- A power stays at 1 or above. -/
theorem one_le_powWalk (n frac : Nat) (rung acc : Enclosure) (hr : fixedOne ≤ rung.lo) (ha : fixedOne ≤ acc.lo) :
    fixedOne ≤ (powWalk n rung frac acc).lo := by
  induction n generalizing frac rung acc with
  | zero => exact ha
  | succ n ih =>
    refine ih _ _ _ (Enclosure.one_le_root hr) ?_
    split
    · exact Enclosure.one_le_mul ha (Enclosure.one_le_root hr)
    · exact ha

/-- What is left of the argument when the digits have been taken out: `log r = (digits found) · log b + log r'`, `r'` at
least 1 and enclosed by the rest. -/
theorem logWalk_holds (n digits : Nat) (rung rest : Enclosure) (b r : ℝ) (hb : 1 ≤ b) (hr : 1 ≤ r)
    (hone : fixedOne ≤ rung.lo) (hrung : rung.Holds fixedOne b) (hrest : rest.Holds fixedOne r) :
    ∃ r' : ℝ, 1 ≤ r' ∧ (logWalk n rung rest digits).2.Holds fixedOne r' ∧
      2 ^ n * Real.log r = ((logWalk n rung rest digits).1 - 2 ^ n * digits) * Real.log b + 2 ^ n * Real.log r' := by
  induction n generalizing digits rung rest b r with
  | zero => exact ⟨r, hr, hrest, by simp [logWalk]⟩
  | succ n ih =>
    have hb0 : 0 ≤ b := by linarith
    have hc : 1 ≤ Real.sqrt b := Real.one_le_sqrt.mpr hb
    have hroot := Enclosure.root_holds hb0 hrung
    have hlog : Real.log b = 2 * Real.log (Real.sqrt b) := by rw [Real.log_sqrt hb0]; ring
    have hu := fixedOne_pos
    simp only [logWalk]
    split
    · rename_i hle
      have hle' : (rung.root.hi : ℝ) ≤ rest.lo := by exact_mod_cast hle
      have hcr : Real.sqrt b ≤ r := by
        have := hroot.2.trans (hle'.trans hrest.1)
        exact le_of_mul_le_mul_right this hu
      have hlo : 0 < rung.root.lo := lt_of_lt_of_le (by exact_mod_cast hu) (Enclosure.one_le_root hone)
      obtain ⟨r', h1, h2, h3⟩ := ih (2 * digits + 1) rung.root (rest.div rung.root) (Real.sqrt b) (r / Real.sqrt b) hc
        ((one_le_div (by linarith)).mpr hcr) (Enclosure.one_le_root hone) hroot
        (Enclosure.div_holds (by linarith) hlo hrest hroot)
      refine ⟨r', h1, h2, ?_⟩
      rw [Real.log_div (by linarith) (by linarith)] at h3
      rw [hlog, pow_succ]
      push_cast at h3
      linear_combination 2 * h3
    · obtain ⟨r', h1, h2, h3⟩ := ih (2 * digits) rung.root rest (Real.sqrt b) r hc hr
        (Enclosure.one_le_root hone) hroot hrest
      refine ⟨r', h1, h2, ?_⟩
      rw [hlog, pow_succ]
      push_cast at h3
      linear_combination 2 * h3

/-! ## Powers and logarithms -/

/-- The real base. -/
noncomputable def LogBase.base : LogBase → ℝ
  | .two => 2
  | .e => Real.exp 1
  | .ten => 10

/-- `e` to one part in 64!. -/
theorem eulerNum_bounds :
    (eulerNum : ℝ) / Nat.factorial 64 ≤ Real.exp 1 ∧ Real.exp 1 ≤ ((eulerNum : ℝ) + 1) / Nat.factorial 64 := by
  have hsum : ((eulerNum : ℝ) / Nat.factorial 64) = ∑ m ∈ Finset.range 65, (1 : ℝ) ^ m / Nat.factorial m := by
    have h : ((eulerNum : ℚ) / Nat.factorial 64) = ∑ m ∈ Finset.range 65, (1 : ℚ) ^ m / Nat.factorial m := by
      decide +kernel
    have h' := congrArg (fun q : ℚ => (q : ℝ)) h
    push_cast at h'
    exact h'
  constructor
  · rw [hsum]
    exact Real.sum_le_exp_of_nonneg (by norm_num) 65
  · have hb := Real.exp_bound' (x := 1) (by norm_num) (by norm_num) (n := 65) (by norm_num)
    rw [← hsum] at hb
    refine hb.trans ?_
    rw [add_div]
    refine add_le_add le_rfl ?_
    rw [show Nat.factorial 65 = 65 * Nat.factorial 64 from Nat.factorial_succ 64]
    have hf : (0 : ℝ) < Nat.factorial 64 := by exact_mod_cast Nat.factorial_pos 64
    push_cast
    rw [div_le_div_iff₀ (by positivity) hf]
    nlinarith

/-- The exponent of the top rung. -/
noncomputable def topExponent : ℝ := 2 ^ topBits

theorem topExponent_pos : 0 < topExponent := by unfold topExponent; positivity

/-- The top rung encloses `b^(2^topBits)`. -/
theorem LogBase.top_holds (b : LogBase) : b.top.Holds fixedOne (b.base ^ topExponent) := by
  have hpow : b.base ^ topExponent = b.base ^ (2 ^ topBits : Nat) := by
    rw [← Real.rpow_natCast, topExponent, Nat.cast_pow, Nat.cast_ofNat]
  have hu := fixedOne_pos
  rw [hpow]
  cases b with
  | two =>
    simp only [LogBase.top, LogBase.base, Enclosure.Holds, Nat.cast_mul, Nat.cast_pow, Nat.cast_ofNat, le_refl, and_self]
  | ten =>
    simp only [LogBase.top, LogBase.base, Enclosure.Holds, Nat.cast_mul, Nat.cast_pow, Nat.cast_ofNat, le_refl, and_self]
  | e =>
    obtain ⟨h1, h2⟩ := eulerNum_bounds
    generalize hn : 2 ^ topBits = n at *
    have hfn : 0 < Nat.factorial 64 ^ n := Nat.pow_pos (Nat.factorial_pos 64)
    have hf : (0 : ℝ) < (Nat.factorial 64 : ℝ) ^ n := by exact_mod_cast hfn
    simp only [LogBase.top, LogBase.base, Enclosure.Holds, hn]
    constructor
    · refine (nat_div_le _ _).trans ?_
      push_cast
      rw [mul_div_right_comm, ← div_pow]
      gcongr
    · refine le_trans ?_ (le_nat_div_succ _ _ hfn)
      push_cast
      rw [mul_div_right_comm, ← div_pow]
      gcongr

/-- Every base is at least 2, so its logarithm is at least 1/2. -/
theorem LogBase.two_le_base (b : LogBase) : 2 ≤ b.base := by
  cases b with
  | two => exact le_refl _
  | e => exact (by norm_num : (2 : ℝ) ≤ 2.7182818283).trans Real.exp_one_gt_d9.le
  | ten => norm_num [LogBase.base]

theorem LogBase.half_le_log_base (b : LogBase) : 1 / 2 ≤ Real.log b.base := by
  have h := Real.log_le_log (by norm_num) b.two_le_base
  have := Real.log_two_gt_d9
  linarith

theorem LogBase.one_le_top (b : LogBase) : fixedOne ≤ b.top.lo := by
  cases b <;> decide +kernel

/-- The scale of the ladder: `2^scaleBits` of the last rung's exponent make 1. -/
theorem ladder_scale : (2 : ℝ) ^ ladderDepth = topExponent * fixedOne := by
  unfold topExponent ladderDepth fixedOne
  push_cast
  rw [pow_add, mul_comm]

/-- `b^y` for `0 ≤ y < 2^topBits` is enclosed where `frac` is the floor of `y · 2^scaleBits`. -/
theorem LogBase.pow_holds (b : LogBase) (frac : Nat) (y : ℝ) (hlo : (frac : ℝ) ≤ y * fixedOne)
    (hhi : y * fixedOne ≤ frac + 1) (hfrac : frac < 2 ^ ladderDepth) : (b.pow frac).Holds fixedOne (b.base ^ y) := by
  have hb := b.two_le_base
  have htop : 1 ≤ b.base ^ topExponent := Real.one_le_rpow (by linarith) topExponent_pos.le
  have hscale : y * fixedOne = y / topExponent * 2 ^ ladderDepth := by
    rw [ladder_scale, ← mul_assoc, div_mul_cancel₀ _ topExponent_pos.ne']
  have h := powWalk_holds ladderDepth frac b.top ⟨fixedOne, fixedOne⟩ _ 1 (y / topExponent) htop zero_le_one b.top_holds
    ⟨by simp, by simp⟩ (hscale ▸ hlo) (hscale ▸ hhi) hfrac
  rw [one_mul, ← Real.rpow_mul (by linarith), mul_div_cancel₀ _ topExponent_pos.ne'] at h
  exact h

/-- Digits `d` and a rest `r'` at least 1 below `hi` bound a logarithm to a base of at least `√e`. -/
theorem log_bounds (U d hi : Nat) (T lb lx r' : ℝ) (hU : (0 : ℝ) < U) (hT : 0 < T) (hlb : 1 / 2 ≤ lb) (h1 : 1 ≤ r')
    (h2 : r' * U ≤ hi) (h3 : T * U * lx = d * (T * lb) + T * U * Real.log r') :
    (⟨d, d + 2 * (hi - U)⟩ : Enclosure).Holds U (lx / lb) := by
  have h4 : U * lx = d * lb + U * Real.log r' := by
    refine mul_left_cancel₀ hT.ne' ?_
    linear_combination h3
  have hlr0 : 0 ≤ Real.log r' := Real.log_nonneg h1
  have hlr1 : Real.log r' ≤ r' - 1 := Real.log_le_sub_one_of_pos (by linarith)
  have hkey : lx / lb * U = d + U * Real.log r' / lb := by
    have : lb ≠ 0 := by linarith
    field_simp
    linarith
  have hhi : (U : ℝ) ≤ hi := le_trans (le_mul_of_one_le_left hU.le h1) h2
  have hsub : ((hi - U : Nat) : ℝ) = hi - U := Nat.cast_sub (by exact_mod_cast hhi)
  have hprod := mul_le_mul_of_nonneg_left hlr1 hU.le
  constructor
  · rw [hkey]
    exact le_add_of_nonneg_right (div_nonneg (mul_nonneg hU.le hlr0) (by linarith))
  · rw [hkey]
    push_cast
    rw [hsub]
    refine add_le_add le_rfl ?_
    rw [div_le_iff₀ (by linarith)]
    nlinarith

/-- `log_b (p/q)` is enclosed for `p/q` from 1 on. -/
theorem LogBase.log_holds (b : LogBase) (p q : Nat) (hq : 0 < q) (hpq : q ≤ p) :
    (b.log p q).Holds fixedOne (Real.logb b.base ((p : ℝ) / q)) := by
  have hb := b.two_le_base
  have hqr : (0 : ℝ) < q := by exact_mod_cast hq
  have hr : 1 ≤ (p : ℝ) / q := (one_le_div hqr).mpr (by exact_mod_cast hpq)
  have htop : 1 ≤ b.base ^ topExponent := Real.one_le_rpow (by linarith) topExponent_pos.le
  have hrest : (⟨p * fixedOne / q, p * fixedOne / q + 1⟩ : Enclosure).Holds fixedOne ((p : ℝ) / q) := by
    constructor
    · refine (nat_div_le _ _).trans ?_
      rw [Nat.cast_mul, mul_div_right_comm]
    · refine le_trans ?_ (le_nat_div_succ _ _ hq)
      rw [Nat.cast_mul, mul_div_right_comm]
  obtain ⟨r', h1, h2, h3⟩ := logWalk_holds ladderDepth 0 b.top _ _ _ htop hr b.one_le_top b.top_holds hrest
  rw [Real.log_rpow (by linarith), ladder_scale, Nat.cast_zero, mul_zero, sub_zero] at h3
  exact log_bounds _ _ _ _ _ _ r' fixedOne_pos topExponent_pos b.half_le_log_base h1 h2.2 h3

/-! ## Cosine -/

/-- The real `x` lies in the signed enclosure `c`, in units of `2^-bits`. -/
def SignedEnclosure.Holds (bits : Nat) (c : SignedEnclosure) (x : ℝ) : Prop :=
  (c.lo : ℝ) ≤ x * 2 ^ bits ∧ x * 2 ^ bits ≤ c.hi

/-- Doubling encloses `2 x² − 1`. -/
theorem cosDouble_holds (bits : Nat) (c : SignedEnclosure) (x : ℝ) (hx : |x| ≤ 1) (h : c.Holds bits x) :
    (cosDouble bits c).Holds bits (2 * x ^ 2 - 1) := by
  obtain ⟨h1, h2⟩ := h
  have hB : (0 : ℝ) < 2 ^ bits := by positivity
  have hBi : (0 : Int) < 2 ^ bits := by positivity
  have hx2 : x ^ 2 ≤ 1 := by rwa [sq_le_one_iff_abs_le_one]
  have hcast : ((2 ^ bits : Int) : ℝ) = 2 ^ bits := by push_cast; rfl
  have hval : (2 * x ^ 2 - 1) * 2 ^ bits = 2 * (x * 2 ^ bits) ^ 2 / 2 ^ bits - 2 ^ bits := by
    field_simp
  generalize x * 2 ^ bits = y at *
  have hleast : ((if 0 ≤ c.lo then c.lo * c.lo else if c.hi ≤ 0 then c.hi * c.hi else 0 : Int) : ℝ) ≤ y ^ 2 := by
    split
    · rename_i h0
      have h0' : (0 : ℝ) ≤ c.lo := by exact_mod_cast h0
      push_cast
      nlinarith
    · split
      · rename_i h0
        have h0' : (c.hi : ℝ) ≤ 0 := by exact_mod_cast h0
        push_cast
        nlinarith
      · simpa using sq_nonneg y
  have hmost : y ^ 2 ≤ ((max (c.lo * c.lo) (c.hi * c.hi) : Int) : ℝ) := by
    rw [Int.cast_max]
    push_cast
    rcases le_total 0 y with h0 | h0
    · exact le_max_of_le_right (by nlinarith)
    · exact le_max_of_le_left (by nlinarith)
  unfold cosDouble SignedEnclosure.Holds
  dsimp only
  generalize (if 0 ≤ c.lo then c.lo * c.lo else if c.hi ≤ 0 then c.hi * c.hi else 0 : Int) = least at *
  generalize (max (c.lo * c.lo) (c.hi * c.hi) : Int) = most at *
  rw [hval]
  constructor
  · have hq : ((2 * least / 2 ^ bits : Int) : ℝ) ≤ 2 * least / 2 ^ bits := by
      rw [le_div_iff₀ hB, ← hcast]
      exact_mod_cast Int.ediv_mul_le _ hBi.ne'
    have : (2 * least : ℝ) / 2 ^ bits ≤ 2 * y ^ 2 / 2 ^ bits := by gcongr
    rw [Int.cast_sub, hcast]
    linarith
  · have hq : (2 * most : ℝ) / 2 ^ bits ≤ ((2 * most / 2 ^ bits : Int) : ℝ) + 1 := by
      rw [div_le_iff₀ hB, ← hcast]
      exact_mod_cast (Int.lt_ediv_add_one_mul_self (2 * most) hBi).le
    have : 2 * y ^ 2 / 2 ^ bits ≤ (2 * most : ℝ) / 2 ^ bits := by gcongr
    rw [Int.cast_min, le_min_iff, hcast]
    refine ⟨?_, ?_⟩
    · rw [← hval]
      nlinarith
    · rw [Int.cast_sub, hcast, Int.cast_add, Int.cast_one]
      linarith

/-- Doubling the angle `n` times. -/
theorem cosWalk_holds (bits n : Nat) (c : SignedEnclosure) (t : ℝ) (h : c.Holds bits (Real.cos t)) :
    (cosWalk bits n c).Holds bits (Real.cos (2 ^ n * t)) := by
  induction n generalizing c t with
  | zero => simpa [cosWalk] using h
  | succ n ih =>
    have := ih (cosDouble bits c) (2 * t) (by
      rw [Real.cos_two_mul]
      exact cosDouble_holds bits c _ (Real.abs_cos_le_one t) h)
    rwa [pow_succ, mul_assoc]

/-- The enclosure of the cosine of `u · 2^-1074`. -/
theorem cosEnclosure_holds (u : Nat) : (cosEnclosure u).Holds (cosBits u) (Real.cos (u / 2 ^ 1074)) := by
  have hj : (u : ℝ) ≤ 2 ^ (1074 + cosHalvings u) := by
    have h1 := Nat.lt_log2_self (n := u)
    have h2 : 2 ^ (u.log2 + 1) ≤ 2 ^ (1074 + cosHalvings u) :=
      Nat.pow_le_pow_right (by omega) (by unfold cosHalvings; omega)
    exact_mod_cast (h1.trans_le h2).le
  unfold cosEnclosure
  dsimp only
  generalize cosBits u = bits at *
  generalize cosHalvings u = j at *
  have hP : (0 : ℝ) < 2 ^ (1074 + j) := by positivity
  have ht0 : 0 ≤ (u : ℝ) / 2 ^ (1074 + j) := by positivity
  have ht1 : (u : ℝ) / 2 ^ (1074 + j) ≤ 1 := (div_le_one hP).mpr hj
  have hangle : (u : ℝ) / 2 ^ 1074 = 2 ^ j * (u / 2 ^ (1074 + j)) := by
    rw [pow_add, mul_comm ((2 : ℝ) ^ 1074), ← mul_div_assoc, mul_div_mul_left _ _ (pow_ne_zero _ two_ne_zero)]
  rw [hangle]
  refine cosWalk_holds _ _ _ _ ?_
  have hlow := Real.one_sub_sq_div_two_le_cos (x := (u : ℝ) / 2 ^ (1074 + j))
  have hup := (abs_le.mp (Real.cos_bound (abs_le.mpr ⟨le_trans (by norm_num) ht0, ht1⟩))).2
  rw [abs_of_nonneg ht0] at hup
  have hB : (0 : ℝ) < 2 ^ bits := by positivity
  have hhalf1 := nat_div_le (u * u * 2 ^ bits) (2 ^ (2149 + 2 * j))
  have hhalf2 := le_nat_div_succ (u * u * 2 ^ bits) (2 ^ (2149 + 2 * j)) (by positivity)
  have htail := le_nat_div_succ (5 * u * u * u * u * 2 ^ bits) (96 * 2 ^ (4296 + 4 * j)) (by positivity)
  have e1 : ((u * u * 2 ^ bits : Nat) : ℝ) / ((2 ^ (2149 + 2 * j) : Nat) : ℝ) =
      (u / 2 ^ (1074 + j)) ^ 2 / 2 * 2 ^ bits := by
    rw [show 2149 + 2 * j = (1074 + j) * 2 + 1 by omega, pow_succ, pow_mul]
    push_cast
    field_simp
  have e2 : ((5 * u * u * u * u * 2 ^ bits : Nat) : ℝ) / ((96 * 2 ^ (4296 + 4 * j) : Nat) : ℝ) =
      (u / 2 ^ (1074 + j)) ^ 4 * (5 / 96) * 2 ^ bits := by
    rw [show 4296 + 4 * j = (1074 + j) * 4 by omega, pow_mul]
    push_cast
    field_simp
  rw [e1] at hhalf1 hhalf2
  rw [e2] at htail
  generalize (u : ℝ) / 2 ^ (1074 + j) = t at *
  generalize u * u * 2 ^ bits / 2 ^ (2149 + 2 * j) = half at *
  generalize 5 * u * u * u * u * 2 ^ bits / (96 * 2 ^ (4296 + 4 * j)) = tail at *
  rw [Nat.cast_add, Nat.cast_one] at hhalf2 htail
  have hcos := Real.cos_le_one t
  constructor
  · push_cast
    nlinarith
  · rw [Int.cast_min, le_min_iff]
    push_cast
    exact ⟨by nlinarith, by nlinarith⟩

end Sys2Proof
end

