-- ==== Sys2Proof/Laws/HostPort.lean ====
section
/-! SUPPORT. What a step, a register write by the host and a doorbell can do, said once. -/

namespace Sys2Proof.Machine

variable (s : State)

/-- With no input the engine is idle. -/
theorem step_idle (h : s.inputs = []) : step s = .next s := by simp only [step, h]

/-- With an input, the step takes it. -/
theorem step_takes (a : Input) (rest : List Input) (h : s.inputs = a :: rest) :
    step s = (s.setInputs rest).take a := by
  simp only [step, h]

/-- An aligned word of the register block is found there. -/
theorem hostPlace_register (c : Config) (off : Nat) (h : off < 0x100) (h4 : off % 4 = 0) :
    hostPlace c .w32 (c.regBase + off) = .ok (.registers, off) := by
  have hr : hostRegion c (c.regBase + off) = some (.registers, off) := by
    rw [hostRegion, if_pos ⟨by omega, by omega⟩, Nat.add_sub_cancel_left]
  simp [hostPlace, hr, widthAllowed, Width.bytes, h4]

/-- A host write of a word of the register block is `writeReg`. -/
theorem State.take_register_write (off : Nat) (data : BitVec 64) (h : off < 0x100) (h4 : off % 4 = 0) :
    s.take (.hostWrite .w32 (s.cfg.regBase + off) data) = s.writeReg .w32 off data := by
  simp only [State.take, hostPlace_register _ _ h h4, State.hostStore]

/-- A write to `DOORBELL` is the doorbell, whatever the value. -/
theorem State.writeReg_doorbell (w : Width) (data : BitVec 64) : s.writeReg w 0x0A0 data = s.doorbell := by
  simp [State.writeReg]

/-- A write to `SOFT_RESET` is the reset, whatever the value. -/
theorem State.writeReg_softReset (w : Width) (data : BitVec 64) : s.writeReg w 0x0C0 data = .next s.afterReset := by
  simp [State.writeReg]

/-- A doorbell is ignored while `FAULT` is 1, raises `ERR_ILLEGAL` for words that are no command, and else runs the
command. -/
theorem State.doorbell_cases :
    (s.status.fault = true ∧ s.doorbell = .next s) ∨
    (s.status.fault = false ∧ (∃ e, decode s.cmdw = .error e) ∧ s.doorbell = s.raise .illegal) ∨
    (s.status.fault = false ∧ ∃ i, decode s.cmdw = .ok i ∧ s.doorbell = exec i s) := by
  cases hf : s.status.fault
  · right
    cases hd : decode s.cmdw with
    | error e => exact .inl ⟨rfl, ⟨e, rfl⟩, by simp [State.doorbell, State.ring, hf, hd]⟩
    | ok i => exact .inr ⟨rfl, i, rfl, by simp [State.doorbell, State.ring, hf, hd]⟩
  · exact .inl ⟨rfl, by simp [State.doorbell, State.ring, hf]⟩

end Sys2Proof.Machine
end

