-- ==== Sys2Proof/Laws/Num.lean ====
section
/-! SUPPORT. Binary64 patterns: their units rise, the floor of a number of units, the parts of a pattern made from a sign and
a magnitude, and what the enclosures of Machine/Num.lean enclose. -/

namespace Sys2Proof

/-! ## Patterns -/

/-- The units of a pattern by its exponent field and its significand field. -/
theorem magUnits_eq (e f : Nat) (hf : f < 2 ^ 52) :
    magUnits (e * 2 ^ 52 + f) = if e = 0 then f else (2 ^ 52 + f) * 2 ^ (e - 1) := by
  have h1 : (e * 2 ^ 52 + f) / 2 ^ 52 = e := by omega
  have h2 : (e * 2 ^ 52 + f) % 2 ^ 52 = f := by omega
  unfold magUnits
  rw [h1, h2]
  split
  · rename_i h
    rw [h]
    omega
  · rfl

theorem magUnits_lt_succ (k : Nat) : magUnits k < magUnits (k + 1) := by
  obtain ⟨e, f, hf, rfl⟩ : ∃ e f, f < 2 ^ 52 ∧ k = e * 2 ^ 52 + f := ⟨k / 2 ^ 52, k % 2 ^ 52, by omega, by omega⟩
  rw [magUnits_eq e f hf]
  by_cases hlast : f + 1 < 2 ^ 52
  · rw [Nat.add_assoc, magUnits_eq e (f + 1) hlast]
    split
    · omega
    · exact Nat.mul_lt_mul_of_pos_right (by omega) (by positivity)
  · have hk : e * 2 ^ 52 + f + 1 = (e + 1) * 2 ^ 52 + 0 := by omega
    rw [hk, magUnits_eq (e + 1) 0 (by positivity), if_neg (Nat.succ_ne_zero e)]
    split
    · rename_i h0
      subst h0
      simpa using hf
    · obtain ⟨d, rfl⟩ : ∃ d, e = d + 1 := ⟨e - 1, by omega⟩
      simp only [Nat.add_sub_cancel, Nat.add_zero]
      rw [Nat.pow_succ]
      have hp : 0 < 2 ^ d := by positivity
      have h2 : (2 ^ 52 + f) * 2 ^ d < 2 ^ 52 * 2 * 2 ^ d := Nat.mul_lt_mul_of_pos_right (by omega) hp
      calc (2 ^ 52 + f) * 2 ^ d < 2 ^ 52 * 2 * 2 ^ d := h2
        _ = 2 ^ 52 * (2 ^ d * 2) := by ring

/-- The units of patterns rise with the patterns. -/
theorem magUnits_strictMono : StrictMono magUnits := strictMono_nat_of_lt_succ magUnits_lt_succ

/-- `floorMag n` is the last pattern whose units do not exceed `n`. -/
theorem floorMag_spec (n : Nat) : magUnits (floorMag n) ≤ n ∧ n < magUnits (floorMag n + 1) := by
  unfold floorMag
  by_cases h : n < 2 ^ 53
  · have hlog : n.log2 - 52 = 0 := by
      rcases Nat.eq_zero_or_pos n with h0 | h0
      · subst h0; rfl
      · have := (Nat.log2_lt (by omega)).mpr h
        omega
    have hu : magUnits n = n := by
      unfold magUnits
      split
      · rfl
      · rename_i hd
        have h1 : n / 2 ^ 52 = 1 := by omega
        rw [h1]
        omega
    rw [hlog, pow_zero, Nat.div_one, Nat.zero_mul, Nat.zero_add, hu]
    have hsucc := magUnits_lt_succ n
    rw [hu] at hsucc
    exact ⟨le_refl _, hsucc⟩
  · have hlog : 53 ≤ n.log2 := (Nat.le_log2 (by omega)).mpr (by omega)
    have h1 : 2 ^ n.log2 ≤ n := Nat.log2_self_le (by omega)
    have h2 : n < 2 ^ (n.log2 + 1) := Nat.lt_log2_self
    obtain ⟨s, hs⟩ : ∃ s, n.log2 = s + 53 := ⟨n.log2 - 53, by omega⟩
    rw [hs] at h1 h2 ⊢
    have hp : 0 < 2 ^ (s + 1) := by positivity
    have hq1 : 2 ^ 52 ≤ n / 2 ^ (s + 1) := by
      rw [Nat.le_div_iff_mul_le hp, ← Nat.pow_add]
      exact (Nat.pow_le_pow_right (by omega) (by omega)).trans h1
    have hq2 : n / 2 ^ (s + 1) < 2 ^ 53 := by
      rw [Nat.div_lt_iff_lt_mul hp, ← Nat.pow_add]
      exact h2.trans_le (Nat.pow_le_pow_right (by omega) (by omega))
    have hdiv := Nat.div_add_mod n (2 ^ (s + 1))
    have hmod := Nat.mod_lt n hp
    have hsub : s + 53 - 52 = s + 1 := by omega
    rw [hsub]
    generalize n / 2 ^ (s + 1) = q at *
    have hk : (s + 1) * 2 ^ 52 + q = (s + 2) * 2 ^ 52 + (q - 2 ^ 52) := by omega
    have hu : ∀ r, r < 2 ^ 52 → magUnits ((s + 2) * 2 ^ 52 + r) = (2 ^ 52 + r) * 2 ^ (s + 1) := by
      intro r hr
      rw [magUnits_eq _ r hr, if_neg (by omega), show s + 2 - 1 = s + 1 by omega]
    constructor
    · rw [hk, hu _ (by omega), show 2 ^ 52 + (q - 2 ^ 52) = q by omega, Nat.mul_comm]
      omega
    · by_cases hlast : q - 2 ^ 52 + 1 < 2 ^ 52
      · rw [hk, Nat.add_assoc, hu _ hlast, show 2 ^ 52 + (q - 2 ^ 52 + 1) = q + 1 by omega, Nat.mul_comm, Nat.mul_succ]
        omega
      · have hfull : q - 2 ^ 52 + 1 = 2 ^ 52 := by omega
        have hnext : (s + 2) * 2 ^ 52 + (q - 2 ^ 52) + 1 = (s + 3) * 2 ^ 52 + 0 := by
          rw [Nat.add_assoc, hfull]
          ring
        have hpow : n < 2 ^ 52 * 2 ^ (s + 2) := by
          rw [← Nat.pow_add]
          exact h2.trans_le (Nat.pow_le_pow_right (by omega) (by omega))
        rw [hk, hnext, magUnits_eq _ 0 (by positivity), if_neg (by omega)]
        exact hpow

/-- The magnitude and the sign of a pattern made from them. -/
theorem Num64.ofMag_mag (neg : Bool) (k : Nat) (h : k < 2 ^ 63) : (Num64.ofMag neg k).mag = k := by
  unfold Num64.ofMag Num64.mag
  cases neg <;> simp only [BitVec.toNat_ofNat, if_true, if_false, Bool.false_eq_true] <;> omega

theorem Num64.ofMag_sign (neg : Bool) (k : Nat) (h : k < 2 ^ 63) : (Num64.ofMag neg k).sign = neg := by
  unfold Num64.ofMag Num64.sign
  rw [BitVec.msb_eq_decide]
  cases neg <;> simp only [BitVec.toNat_ofNat, if_true, if_false, Bool.false_eq_true] <;> simp <;> omega

/-! ## Enclosures -/

/-- The real value of a positive finite pattern. -/
theorem unitsPerOne_pos : (0 : ℝ) < (unitsPerOne : ℝ) := by
  have : 0 < unitsPerOne := by unfold unitsPerOne; positivity
  exact_mod_cast this

/-- An enclosure in fine units. -/
theorem fineUnits_holds (e : Enclosure) (x : ℝ) (h : e.Holds fixedOne x) :
    (fineUnits e).Holds (fixedOne * unitsPerOne) x := by
  have hu := unitsPerOne_pos
  constructor
  · unfold fineUnits
    push_cast
    nlinarith [h.1]
  · unfold fineUnits
    push_cast
    nlinarith [h.2]

/-- `powEnclosure b x` encloses `b^x` for a finite `x` below `2^topBits` in magnitude. -/
theorem powEnclosure_holds (b : LogBase) (x : Num64) (hx : magUnits x.mag < 2 ^ topBits * unitsPerOne) :
    (powEnclosure b x).Holds (fixedOne * unitsPerOne)
      (b.base ^ (if x.sign then -((magUnits x.mag : ℝ) / unitsPerOne) else (magUnits x.mag : ℝ) / unitsPerOne)) := by
  unfold powEnclosure
  dsimp only
  rw [if_pos hx]
  have hu := unitsPerOne_pos
  have hf := fixedOne_pos
  have hsplit : unitsPerOne = fixedOne * 2 ^ (1074 - scaleBits) := by
    unfold unitsPerOne fixedOne
    rw [← Nat.pow_add]
    congr 1
  have hw : 0 < 2 ^ (1074 - scaleBits) := by positivity
  generalize 2 ^ (1074 - scaleBits) = w at *
  have hwr : (0 : ℝ) < w := by exact_mod_cast hw
  generalize magUnits x.mag = u at *
  have hy : (u : ℝ) / unitsPerOne * fixedOne = (u : ℝ) / w := by
    rw [hsplit]
    push_cast
    field_simp
  have hlt : u / w < 2 ^ ladderDepth := by
    rw [Nat.div_lt_iff_lt_mul hw]
    have : 2 ^ ladderDepth * w = 2 ^ topBits * unitsPerOne := by
      rw [hsplit]
      unfold ladderDepth fixedOne
      rw [Nat.pow_add]
      ring
    omega
  have hpow := b.pow_holds (u / w) ((u : ℝ) / unitsPerOne) (by rw [hy]; exact nat_div_le u w)
    (by rw [hy]; exact_mod_cast le_nat_div_succ u w hw) hlt
  split
  · have hone : 0 < (b.pow (u / w)).lo := by
      have h1 := one_le_powWalk ladderDepth (u / w) b.top ⟨fixedOne, fixedOne⟩ b.one_le_top (le_refl _)
      have h2 : 0 < fixedOne := by exact_mod_cast hf
      exact h2.trans_le h1
    have hrec := Enclosure.recip_holds (fixedOne * unitsPerOne) hone hpow
    rwa [one_div, ← Real.rpow_neg (by linarith [b.two_le_base])] at hrec
  · exact fineUnits_holds _ _ hpow

/-- `logEnclosure b x` encloses the magnitude of `log_b x` for a finite `x` above zero. -/
theorem logEnclosure_holds (b : LogBase) (x : Num64) (hx : 0 < magUnits x.mag) :
    (logEnclosure b x).Holds (fixedOne * unitsPerOne) |Real.logb b.base ((magUnits x.mag : ℝ) / unitsPerOne)| := by
  have hu := unitsPerOne_pos
  have hun : 0 < unitsPerOne := by exact_mod_cast hu
  have hb := b.two_le_base
  unfold logEnclosure belowOne
  dsimp only
  generalize magUnits x.mag = u at *
  have hur : (0 : ℝ) < u := by exact_mod_cast hx
  refine fineUnits_holds _ _ ?_
  by_cases h : u < unitsPerOne
  · have hlog : |Real.logb b.base ((u : ℝ) / unitsPerOne)| = Real.logb b.base ((unitsPerOne : ℝ) / u) := by
      rw [← inv_div, Real.logb_inv, abs_neg, abs_of_nonneg]
      exact Real.logb_nonneg (by linarith) ((one_le_div hur).mpr (by exact_mod_cast h.le))
    rw [hlog, if_pos (by simpa using h)]
    exact b.log_holds _ _ hx h.le
  · have hge : unitsPerOne ≤ u := by omega
    rw [if_neg (by simpa using hge), abs_of_nonneg]
    · exact b.log_holds _ _ hun hge
    · exact Real.logb_nonneg (by linarith) ((one_le_div hu).mpr (by exact_mod_cast hge))

end Sys2Proof
end

