-- ==== Sys2Proof/Laws/PerInstr.lean ====
section
/-! SUPPORT. Statements made per command. `OpcodeByte`: the encoding of a command has the opcode of spec/30_encoding.md R75
in `W0[7:0]`, and the reserved bits of `W0` (R71) are 0. -/

namespace Sys2Proof.Laws

/-- The encoding of `i` carries its opcode and no reserved bit. -/
def OpcodeByte.Statement (i : Instr) : Prop :=
  fieldOp (encode i)[0] = Machine.opcodeOf i ∧ (encode i)[0] &&& reservedMask = 0#32

theorem OpcodeByte.nop : OpcodeByte.Statement (.nop) :=
  ⟨fieldOp_packW0 _ _ _ _ _, packW0_reserved _ _ _ _ _⟩

theorem OpcodeByte.sets (sd : ScalarIdx) (aux0 aux1 : Word) : OpcodeByte.Statement (.sets sd aux0 aux1) :=
  ⟨fieldOp_packW0 _ _ _ _ _, packW0_reserved _ _ _ _ _⟩

theorem OpcodeByte.crc16 (src len aux0 : Word) : OpcodeByte.Statement (.crc16 src len aux0) :=
  ⟨fieldOp_packW0 _ _ _ _ _, packW0_reserved _ _ _ _ _⟩

theorem OpcodeByte.crcAppend (src len dst : Word) : OpcodeByte.Statement (.crcAppend src len dst) :=
  ⟨fieldOp_packW0 _ _ _ _ _, packW0_reserved _ _ _ _ _⟩

theorem OpcodeByte.crcVerify (src len : Word) : OpcodeByte.Statement (.crcVerify src len) :=
  ⟨fieldOp_packW0 _ _ _ _ _, packW0_reserved _ _ _ _ _⟩

theorem OpcodeByte.modulate (sch : Scheme) (src len dst : Word) : OpcodeByte.Statement (.modulate sch src len dst) :=
  ⟨fieldOp_packW0 _ _ _ _ _, packW0_reserved _ _ _ _ _⟩

theorem OpcodeByte.getBps (sch : Scheme) : OpcodeByte.Statement (.getBps sch) :=
  ⟨fieldOp_packW0 _ _ _ _ _, packW0_reserved _ _ _ _ _⟩

theorem OpcodeByte.getConst (sch : Scheme) (dst : Word) : OpcodeByte.Statement (.getConst sch dst) :=
  ⟨fieldOp_packW0 _ _ _ _ _, packW0_reserved _ _ _ _ _⟩

theorem OpcodeByte.demodHard (sch : Scheme) (src len dst : Word) : OpcodeByte.Statement (.demodHard sch src len dst) :=
  ⟨fieldOp_packW0 _ _ _ _ _, packW0_reserved _ _ _ _ _⟩

theorem OpcodeByte.demodSoft (sch : Scheme) (ss : ScalarIdx) (src len dst : Word) : OpcodeByte.Statement (.demodSoft sch ss src len dst) :=
  ⟨fieldOp_packW0 _ _ _ _ _, packW0_reserved _ _ _ _ _⟩

theorem OpcodeByte.awgnAdd (ss st sd : ScalarIdx) (src len dst bps : Word) : OpcodeByte.Statement (.awgnAdd ss st sd src len dst bps) :=
  ⟨fieldOp_packW0 _ _ _ _ _, packW0_reserved _ _ _ _ _⟩

theorem OpcodeByte.nvarEbn0 (ss st sd : ScalarIdx) (bps : Word) : OpcodeByte.Statement (.nvarEbn0 ss st sd bps) :=
  ⟨fieldOp_packW0 _ _ _ _ _, packW0_reserved _ _ _ _ _⟩

theorem OpcodeByte.snr2ebn0 (ss st sd : ScalarIdx) (bps : Word) : OpcodeByte.Statement (.snr2ebn0 ss st sd bps) :=
  ⟨fieldOp_packW0 _ _ _ _ _, packW0_reserved _ _ _ _ _⟩

theorem OpcodeByte.ebn02snr (ss st sd : ScalarIdx) (bps : Word) : OpcodeByte.Statement (.ebn02snr ss st sd bps) :=
  ⟨fieldOp_packW0 _ _ _ _ _, packW0_reserved _ _ _ _ _⟩

theorem OpcodeByte.berBpsk (ss sd : ScalarIdx) : OpcodeByte.Statement (.berBpsk ss sd) :=
  ⟨fieldOp_packW0 _ _ _ _ _, packW0_reserved _ _ _ _ _⟩

theorem OpcodeByte.measSnr (sd : ScalarIdx) (src len src2 len2 : Word) : OpcodeByte.Statement (.measSnr sd src len src2 len2) :=
  ⟨fieldOp_packW0 _ _ _ _ _, packW0_reserved _ _ _ _ _⟩

theorem OpcodeByte.ldpcCfg (n p q : Word) : OpcodeByte.Statement (.ldpcCfg n p q) :=
  ⟨fieldOp_packW0 _ _ _ _ _, packW0_reserved _ _ _ _ _⟩

theorem OpcodeByte.ldpcEnc (src len dst : Word) : OpcodeByte.Statement (.ldpcEnc src len dst) :=
  ⟨fieldOp_packW0 _ _ _ _ _, packW0_reserved _ _ _ _ _⟩

theorem OpcodeByte.ldpcDec (src len dst maxIter : Word) : OpcodeByte.Statement (.ldpcDec src len dst maxIter) :=
  ⟨fieldOp_packW0 _ _ _ _ _, packW0_reserved _ _ _ _ _⟩

theorem OpcodeByte.polarCfg (n k : Word) : OpcodeByte.Statement (.polarCfg n k) :=
  ⟨fieldOp_packW0 _ _ _ _ _, packW0_reserved _ _ _ _ _⟩

theorem OpcodeByte.polarEnc (src len dst : Word) : OpcodeByte.Statement (.polarEnc src len dst) :=
  ⟨fieldOp_packW0 _ _ _ _ _, packW0_reserved _ _ _ _ _⟩

theorem OpcodeByte.polarDec (src len dst listSize : Word) : OpcodeByte.Statement (.polarDec src len dst listSize) :=
  ⟨fieldOp_packW0 _ _ _ _ _, packW0_reserved _ _ _ _ _⟩

theorem OpcodeByte.polarXform (src len dst : Word) : OpcodeByte.Statement (.polarXform src len dst) :=
  ⟨fieldOp_packW0 _ _ _ _ _, packW0_reserved _ _ _ _ _⟩

end Sys2Proof.Laws
end

