-- ==== Sys2Proof/Laws/Reals.lean ====
section
/-! SUPPORT. The points of a constellation by index, and the exact reals as an instance of the laws of R17. -/

namespace Sys2Proof.Machine

/-! ## The points of a constellation -/

/-- A list of `m` elements that has every member of a repeat-free list of `m` elements repeats none. -/
theorem nodup_of_contains (a t : List Int) (ha : a.Nodup) (hl : t.length = a.length) (h : ∀ v ∈ a, v ∈ t) : t.Nodup :=
  ((List.subperm_of_subset ha h).perm_of_length_le (by omega)).nodup_iff.mp ha

theorem nodup_levelSet (m : Nat) : (levelSet m).Nodup :=
  List.Nodup.map (fun i j h => by simpa using h) List.nodup_range

/-- An admitted axis table repeats no level. -/
theorem nodup_of_levelsWf (m : Nat) (t : List Int) (h : levelsWf m t = true) : t.Nodup := by
  simp only [levelsWf, Bool.and_eq_true, beq_iff_eq, List.all_eq_true, List.contains_iff_mem] at h
  exact nodup_of_contains (levelSet m) t (nodup_levelSet m) (by simp [levelSet, h.1.1]) h.1.2

theorem nodup_levels (c : Config) (sch : Scheme) (h : c.tableWf = true) : (levels c sch).Nodup := by
  simp only [Config.tableWf, Bool.and_eq_true] at h
  cases sch
  · exact nodup_of_levelsWf _ _ h.1.1.1
  · exact nodup_of_levelsWf _ _ h.1.1.2
  · exact nodup_of_levelsWf _ _ h.1.2
  · exact nodup_of_levelsWf _ _ h.2
  · exact List.nodup_nil

variable {α : Type} (N : NumRec α)

/-- Point `idx` has the real level `idx mod M` and the imaginary level `idx / M` (R121(c), R122). -/
theorem pointAt_constellation (c : Config) (sch : Scheme) (idx : Nat) (h : c.tableWf = true) (hs : unknownScheme sch = false)
    (hi : idx < 2 ^ bps sch) :
    let m := 2 ^ (bps sch / 2)
    let ax := fun j => (axis N c sch).getD j N.zero
    idx % m < m ∧ idx / m < m ∧ pointAt N (constellation N c sch) idx = ⟨ax (idx % m), ax (idx / m)⟩ := by
  intro m ax
  have hm : 0 < m := Nat.two_pow_pos _
  have hmm : m * m = 2 ^ bps sch := by cases sch <;> simp [m, bps]
  have hlen : (axis N c sch).length = m := by simp [axis, length_levels c sch h hs, m]
  have h1 : idx % m < m := Nat.mod_lt _ hm
  have h2 : idx / m < m := Nat.div_lt_of_lt_mul (by omega)
  refine ⟨h1, h2, ?_⟩
  have hget := getElem?_flatMap_block (fun im => (axis N c sch).map fun re => (⟨re, im⟩ : SymOf α)) m
    (fun _ => by simp [hlen]) (axis N c sch) (idx / m) (idx % m) (by omega) h1
  rw [Nat.div_add_mod] at hget
  simp only [pointAt, constellation, List.getD_eq_getElem?_getD]
  rw [hget]
  simp [ax, List.getElem?_eq_getElem (show idx % m < (axis N c sch).length by omega),
    List.getElem?_eq_getElem (show idx / m < (axis N c sch).length by omega)]

/-! ## The exact reals -/

/-- The coordinate of a level index. -/
theorem exactReals_axis (c : Config) (sch : Scheme) (j : Nat) (hj : j < (levels c sch).length) :
    (axis exactReals c sch).getD j exactReals.zero = ((levels c sch)[j] : ℝ) / Real.sqrt (energy sch) := by
  have hlevel : ∀ v : Int, levelNum exactReals v = (v : ℝ) := by
    intro v
    rcases lt_or_ge v 0 with hv | hv
    · have : ((v.natAbs : Int) : ℝ) = -(v : ℝ) := by rw [Int.ofNat_natAbs_of_nonpos hv.le]; push_cast; ring
      simp only [levelNum, if_pos hv, exactReals]
      rw [← Int.cast_natCast, this, neg_neg]
    · have : ((v.natAbs : Int) : ℝ) = (v : ℝ) := by rw [Int.natAbs_of_nonneg hv]
      simp only [levelNum, if_neg (not_lt.mpr hv), exactReals]
      rw [← Int.cast_natCast, this]
  simp [axis, hj, hlevel]
  simp [exactReals]

/-- The distance of two points of an admitted constellation. -/
theorem exactReals_dist (c : Config) (sch : Scheme) (i j : Nat) (h : c.tableWf = true) (hs : unknownScheme sch = false)
    (hi : i < 2 ^ bps sch) (hj : j < 2 ^ bps sch) :
    let d := dist exactReals (pointAt exactReals (constellation exactReals c sch) i)
      (pointAt exactReals (constellation exactReals c sch) j)
    (i = j → d = 0) ∧ (i ≠ j → 0 < d) := by
  obtain ⟨hi1, hi2, ei⟩ := pointAt_constellation exactReals c sch i h hs hi
  obtain ⟨hj1, hj2, ej⟩ := pointAt_constellation exactReals c sch j h hs hj
  have hl := length_levels c sch h hs
  have hE : (0 : ℝ) < Real.sqrt (energy sch) := Real.sqrt_pos.mpr (by cases sch <;> simp [energy])
  have hne : ∀ a b, a < 2 ^ (bps sch / 2) → b < 2 ^ (bps sch / 2) → a ≠ b →
      (axis exactReals c sch).getD a exactReals.zero - (axis exactReals c sch).getD b exactReals.zero ≠ 0 := by
    intro a b ha hb hab
    rw [exactReals_axis c sch a (by omega), exactReals_axis c sch b (by omega), div_sub_div_same]
    refine div_ne_zero (sub_ne_zero.mpr fun he => hab ?_) hE.ne'
    exact (nodup_levels c sch h).getElem_inj_iff.mp (by exact_mod_cast he)
  refine ⟨fun he => by subst he; simp [Machine.dist, exactReals], fun he => ?_⟩
  rw [ei, ej]
  simp only [Machine.dist]
  by_cases hre : i % 2 ^ (bps sch / 2) = j % 2 ^ (bps sch / 2)
  · have him : i / 2 ^ (bps sch / 2) ≠ j / 2 ^ (bps sch / 2) := fun hd => he (by
      rw [← Nat.div_add_mod i (2 ^ (bps sch / 2)), ← Nat.div_add_mod j (2 ^ (bps sch / 2)), hre, hd])
    exact add_pos_of_nonneg_of_pos (mul_self_nonneg _) (mul_self_pos.mpr (hne _ _ hi2 hj2 him))
  · exact add_pos_of_pos_of_nonneg (mul_self_pos.mpr (hne _ _ hi1 hj1 hre)) (mul_self_nonneg _)

end Sys2Proof.Machine
end

