-- ==== Sys2Proof/Tests/Slice0.lean ====
section
/-! SUPPORT. The model's own tests: ill-formed terms that the checks refuse, words written out from spec/95_test_vectors.md
§2.7, one step per command on values of spec/95_test_vectors.md, and a witness for the hypotheses of each statement of
Certificates/Slice0/Obligations.lean. -/

namespace Sys2Proof.Tests

set_option Elab.async false

open Sys2Proof.Machine

/-! ## Helpers -/

/-- The state a step leads to, if it leads to one. -/
def after : Result → Option State
  | .next t => some t
  | .fault _ => none
  | .refused _ => none

/-- Why a step is refused, if it is. -/
def stop : Result → Option Refusal
  | .next _ => none
  | .refused r => some r

/-- Round-to-nearest, so that an inexact result is a number the kernel can compute. -/
def nearCfg : Config := { Config.defaults with rounding := .nearestEven }

/-- The reset state with round-to-nearest. -/
def base : State := { State.reset with cfg := nearCfg }

/-- The same, with given bits from bit address 0 on. -/
def withBits (xs : List Bit) : State := base.writeBits 0 xs

/-- Bits from a list of 0 and 1. -/
def bs (xs : List Nat) : List Bit := xs.map fun x => x == 1

/-- A `Num` from its pattern. -/
def num (v : BitVec 64) : Num64 := ⟨v⟩

/-- Small integers and halves as `Num`s. -/
def one : Num64 := num 0x3FF0000000000000
def two : Num64 := num 0x4000000000000000
def half : Num64 := num 0x3FE0000000000000
def minusTwo : Num64 := num 0xC000000000000000
def twenty : Num64 := num 0x4034000000000000
def hundred : Num64 := num 0x4059000000000000
def notANumber : Num64 := num 0x7FF8000000000000

/-- The words of a command with the given `W0`, `W1`, `W2`, `W3`, `W6`, `W7`. -/
def words (w0 w1 w2 w3 w6 w7 : Word) : Words := #v[w0, w1, w2, w3, 0, 0, w6, w7]

/-- What the decoder answers, as an option. -/
def dec (w : Words) : Option Instr :=
  match decode w with
  | .ok i => some i
  | .error _ => none

/-! ## WellFormed refuses ill-formed terms -/

theorem test_scheme_code_below_four_is_ill_formed :
    (Scheme.unknown 0).wf = false ∧ (Scheme.unknown 3).wf = false ∧ (Scheme.unknown 4).wf = true := by decide

theorem test_instr_with_ill_formed_scheme_is_ill_formed :
    (Instr.modulate (.unknown 1) 0 0 0).wf = false ∧ (Instr.getBps (.unknown 1)).wf = false ∧
      (Instr.getConst (.unknown 1) 0).wf = false ∧ (Instr.demodHard (.unknown 1) 0 0 0).wf = false ∧
      (Instr.demodSoft (.unknown 1) 0 0 0 0).wf = false := by decide

theorem test_default_config_is_well_formed : Config.defaults.wf = true := by decide

theorem test_sizes_are_checked :
    { Config.defaults with bmBits := 12 }.sizesWf = false ∧ { Config.defaults with bmBits := 0 }.sizesWf = false ∧
      { Config.defaults with smSyms := 0 }.sizesWf = false ∧ { Config.defaults with lmVals := 0 }.sizesWf = false ∧
      { Config.defaults with ldpcNMax := 647 }.sizesWf = false := by decide

theorem test_overlapping_windows_are_refused :
    { Config.defaults with bmBase := 0xFF }.mapWf = false ∧ { Config.defaults with smBase := 0 }.mapWf = false ∧
      { Config.defaults with lmBase := 0x80 }.mapWf = false ∧
      { Config.defaults with smBase := 0x11FFF }.mapWf = false ∧
      { Config.defaults with lmBase := 0x10000 }.mapWf = false ∧
      { Config.defaults with lmBase := 0x13FFFF }.mapWf = false := by decide

/-- A wrong length, a repeated level, and the natural order, which is not Gray. -/
theorem test_bad_tables_are_refused :
    levelsWf 4 [-3, -1, 3] = false ∧ levelsWf 4 [-3, -3, 3, 1] = false ∧ levelsWf 4 [-3, -1, 1, 3] = false ∧
      { Config.defaults with levels16 := [] }.tableWf = false := by decide

/-! ## Decoding: the words of spec/95_test_vectors.md §2.7 -/

theorem test_decode_nop : dec (words 0x00000000 0 0 0 0 0) = some .nop := by decide
theorem test_decode_sets : dec (words 0x00700001 0 0 0 0x47AE147B 0x3F747AE1) = some (.sets 7 0x47AE147B 0x3F747AE1) := by
  decide
theorem test_decode_crc16 : dec (words 0x00000010 0 8 0 0x00001021 0) = some (.crc16 0 8 0x1021) := by decide
theorem test_decode_crcAppend : dec (words 0x00000011 0 8 0 0 0) = some (.crcAppend 0 8 0) := by decide
theorem test_decode_crcVerify : dec (words 0x00000012 0 24 0 0 0) = some (.crcVerify 0 24) := by decide
theorem test_decode_mod : dec (words 0x00000120 0 7 0 0 0) = some (.modulate .qam16 0 7 0) := by decide
theorem test_decode_getBps : dec (words 0x00000221 0 0 0 0 0) = some (.getBps .qam64) := by decide
theorem test_decode_getConst : dec (words 0x00000322 0 0 0 0 0) = some (.getConst .qam256 0) := by decide
theorem test_decode_demodHard : dec (words 0x00000028 0 4 0 0 0) = some (.demodHard .qpsk 0 4 0) := by decide
theorem test_decode_demodSoft : dec (words 0x00002029 0 4 16 0 0) = some (.demodSoft .qpsk 2 0 4 16) := by decide
theorem test_decode_awgnAdd : dec (words 0x00210030 0 4 4 2 0) = some (.awgnAdd 0 1 2 0 4 4 2) := by decide
theorem test_decode_nvarEbn0 : dec (words 0x00310031 0 0 0 4 0) = some (.nvarEbn0 0 1 3 4) := by decide
theorem test_decode_snr2ebn0 : dec (words 0x00512032 0 0 0 4 0) = some (.snr2ebn0 2 1 5 4) := by decide
theorem test_decode_ebn02snr : dec (words 0x00210033 0 0 0 4 0) = some (.ebn02snr 0 1 2 4) := by decide
theorem test_decode_berBpsk : dec (words 0x00400034 0 0 0 0 0) = some (.berBpsk 0 4) := by decide
theorem test_decode_measSnr : dec #v[0x00600035, 0, 4, 0, 4, 4, 0, 0] = some (.measSnr 6 0 4 4 4) := by decide
theorem test_decode_ldpcCfg : dec (words 0x00000040 0 648 0 1 2) = some (.ldpcCfg 648 1 2) := by decide
theorem test_decode_ldpcEnc : dec (words 0x00000041 0 324 1024 0 0) = some (.ldpcEnc 0 324 1024) := by decide
theorem test_decode_ldpcDec : dec (words 0x00000042 0 648 2048 50 0) = some (.ldpcDec 0 648 2048 50) := by decide
theorem test_decode_polarCfg : dec (words 0x00000050 0 8 0 4 0) = some (.polarCfg 8 4) := by decide
theorem test_decode_polarEnc : dec (words 0x00000051 0 4 8 0 0) = some (.polarEnc 0 4 8) := by decide
theorem test_decode_polarDec : dec (words 0x00000052 0 8 16 8 0) = some (.polarDec 0 8 16 8) := by decide
theorem test_decode_polarXform : dec (words 0x00000053 0 8 0 0 0) = some (.polarXform 0 8 0) := by decide

theorem test_decode_illegal_words :
    [0x00000002, 0x0000000F, 0x00000013, 0x00000023, 0x0000002A, 0x00000036, 0x00000043, 0x00000054, 0x000000FF, 0x00000810,
      0x00008010, 0x00080010, 0x00800010, 0x80000010].all (fun w0 => dec (words w0 0 0 0 0 0) == none) = true := by decide

/-- An unknown scheme decodes; fields an opcode does not use are ignored. -/
theorem test_decode_unknown_scheme_and_ignored_fields :
    dec (words 0x00000720 1 2 3 4 5) = some (.modulate (.unknown 7) 1 2 3) ∧
      dec #v[0x00777700, 1, 2, 3, 4, 5, 6, 7] = some .nop := by decide

/-- The reset state is that of the implementation on the host's interface. -/
theorem test_reset_of_the_implementation : State.reset = (Implementation.onHost Config.defaults).reset := rfl

/-- The opcode table's bits, and a run from reset: the doorbell of the staged `GET_BPS sch=64qam` writes 6 to `RES`. -/
theorem test_table_word_runs_from_reset :
    decodeTableWord 32 0x221 = some (.getBps .qam64) ∧
      (after (step (State.reset.withFetchWord 32 0x221))).map (fun t => t.res) = some 6#32 := by decide +kernel

/-! ## CRC (spec/95_test_vectors.md §2.1) -/

theorem test_crc16_of_AA : (after (exec (.crc16 0 8 0x1021) (withBits (bitsMsb 8 0xAA)))).map (fun t => (t.res, t.crcReg)) =
    some (0xE15A#32, 0xE15A#16) := by decide +kernel

theorem test_crc_check_values :
    crc 0x1021#16 checkDigits = 0xA69D#16 ∧ crc 0x8005#16 (bitsMsb 8 0xAA) = 0xFDA8#16 ∧
      crc 0x0000#16 (bitsMsb 8 0xAA) = 0xFFAA#16 ∧ crc 0x1021#16 (List.replicate 17 true) = 0xD5C0#16 := by decide +kernel

theorem test_crcAppend_of_AA :
    (after (exec (.crcAppend 0 8 0) (withBits (bitsMsb 8 0xAA)))).map (fun t => (t.readBits 0 24, t.olen, t.res)) =
      some (bitsMsb 24 0xAAE15A, 24#32, 0xE15A#32) := by decide +kernel

theorem test_crcVerify_detects_a_flip :
    (after (exec (.crcVerify 0 24) (withBits (bitsMsb 24 0xAAE15A)))).map (fun t => (t.status.matched, t.res)) =
        some (true, 1#32) ∧
      (after (exec (.crcVerify 0 24) (withBits (bitsMsb 24 0xABE15A)))).map (fun t => (t.status.matched, t.crcReg)) =
        some (false, 0xE15B#16) := by decide +kernel

/-! ## Modulator and demodulator (§2.2, §2.3) -/

/-- Two chunks of 16QAM, the last one padded: indices 11 and 2. -/
theorem test_mod_pads_the_last_chunk :
    (after (exec (.modulate .qam16 0 7 0) (withBits (bs [1, 0, 1, 1, 0, 0, 1])))).map
        (fun t => (t.olen, t.readSyms 0 2 == [11, 2].map (fun j => pointAt nearCfg.num (constellation nearCfg.num nearCfg .qam16) j))) =
      some (2#32, true) := by decide +kernel

theorem test_getConst_coordinate_patterns :
    (after (exec (.getConst .qam16 5) base)).map (fun t => (t.olen, t.readSym (5 + 14))) =
      some (16#32, ⟨num 0x3FEE5B9D136C6D96, num 0x3FD43D136248490F⟩) := by decide +kernel

theorem test_mod_of_unknown_scheme_faults :
    (after (exec (.modulate (.unknown 4) 0 8 0) base)).map (fun t => t.status.toWord) = some 0x501#32 := by decide +kernel

theorem test_getBps_of_unknown_scheme : (after (exec (.getBps (.unknown 7)) base)).map (fun t => t.res) = some 2#32 := by
  decide +kernel

/-- The four-way tie at the origin goes to index 0, the tie between 2 and 3 to index 2. -/
theorem test_demodHard_ties :
    (after (exec (.demodHard .qpsk 0 2 0) (base.writeSyms 0 [⟨Num64.zero, Num64.zero⟩, ⟨Num64.zero, one⟩]))).map
      (fun t => t.readBits 0 4) = some (bs [0, 0, 1, 0]) := by decide +kernel

/-- `16qam` at index 14 with variance 1/2: position 0 is negative, position 3 positive (the signs of its bits 1, 1, 1, 0). -/
theorem test_demodSoft_signs :
    (after (exec (.demodSoft .qam16 2 0 1 3)
      ((base.setScalar 2 half).writeSyms 0 [pointAt nearCfg.num (constellation nearCfg.num nearCfg .qam16) 14]))).map
      (fun t => (t.olen, hardThreshold nearCfg.num (t.readVals 3 4))) = some (4#32, bs [1, 1, 1, 0]) := by decide +kernel

theorem test_demodSoft_of_zero_variance_faults :
    (after (exec (.demodSoft .qpsk 0 0 1 0) base)).map (fun t => t.status.toWord) = some 0x401#32 := by decide +kernel

/-! ## Noise and conversions (§2.4) -/

/-- 20 dB: variance 0.005 in `S7`, linear SNR 100 in `S0`; zero draws leave the symbol. -/
theorem test_awgnAdd_at_20_dB :
    (after (exec (.awgnAdd 1 0 7 0 1 4 2)
      { ((base.setScalar 1 twenty).writeSyms 0 [⟨one, two⟩]) with draws := [Num64.zero, Num64.zero, one] })).map
      (fun t => (t.scalar 7, t.scalar 0, t.readSym 4, t.draws)) =
      some (num 0x3F747AE147AE147B, hundred, ⟨one, two⟩, [one]) := by decide +kernel

theorem test_nvarEbn0_worked_example :
    (after (exec (.nvarEbn0 0 1 3 4) (State.reset.setScalar 1 half))).map (fun t => t.scalar 3) =
      some (num 0x3FD0000000000000) := by decide +kernel

/-- 20 dB over 1 bit at rate 1 is 20 dB; a rate of 0 faults. -/
theorem test_snr2ebn0_of_unit_efficiency :
    (after (exec (.snr2ebn0 0 1 2 1) ((base.setScalar 0 twenty).setScalar 1 one))).map (fun t => t.scalar 2) = some twenty ∧
      (after (exec (.snr2ebn0 0 1 2 1) base)).map (fun t => t.status.toWord) = some 0x401#32 := by decide +kernel

/-- 20 dB over 2 bits at rate 1/2 is 20 dB; 0 bits per symbol fault. -/
theorem test_ebn02snr_of_unit_efficiency :
    (after (exec (.ebn02snr 0 1 2 2) ((base.setScalar 0 twenty).setScalar 1 half))).map (fun t => t.scalar 2) = some twenty ∧
      (after (exec (.ebn02snr 0 1 2 0) ((base.setScalar 0 twenty).setScalar 1 half))).map (fun t => t.status.toWord) =
        some 0x401#32 := by decide +kernel

/-- `|x − n/d| ≤ 10^-digits · n/d`, in units: how a decimal of spec/95_test_vectors.md is compared with a result. -/
def near (x : Num64) (n d digits : Nat) : Bool :=
  decide ((x.units * d - (n * unitsPerOne : Nat)).natAbs * 10 ^ digits ≤ n * unitsPerOne)

/-- `Erfc(0) = 0.999999999`, `Erfc(1) = 0.15729931025` and `Erfc(−1) = 1.84270068975`. -/
theorem test_erfc_check_values :
    near (erfc nearCfg.num Num64.zero) 999999999 1000000000 15 = true ∧
      near (erfc nearCfg.num one) 15729931025 100000000000 10 = true ∧
      near (erfc nearCfg.num (num 0xBFF0000000000000)) 184270068975 100000000000 11 = true := by decide +kernel

/-- The first value of each pair of §2.4: 0.0786496551 at 0 dB and 3.8755572·10^-6 at 10 dB. -/
theorem test_berBpsk_values :
    near (berOf nearCfg.num Num64.zero) 786496551 10000000000 9 = true ∧
      near (berOf nearCfg.num (num 0x4024000000000000)) 38755572 10000000000000 7 = true := by decide +kernel

/-- 0.0228783385 at 3 dB, where `pow10`, `sqrt` and `exp` are all inexact. -/
theorem test_berBpsk_at_3_dB :
    near (berOf nearCfg.num (num 0x4008000000000000)) 228783385 10000000000 8 = true := by decide +kernel

/-- At 3 dB: linear SNR 1.9952623149688795, variance 0.2505936168136362. -/
theorem test_lin_and_variance_at_3_dB :
    near (lin nearCfg.num (num 0x4008000000000000)) 19952623149688795 10000000000000000 15 = true ∧
      near (noiseVariance nearCfg.num (lin nearCfg.num (num 0x4008000000000000))) 2505936168136362 10000000000000000 15 =
        true := by decide +kernel

/-- 3 dB over 4 bits at rate 1/2 is 6.010299956639811 dB. -/
theorem test_ebn02snr_at_3_dB :
    near (ebn0ToSnrOf nearCfg.num (num 0x4008000000000000) (num 0x4010000000000000) half) 6010299956639811 1000000000000000
      15 = true := by decide +kernel

/-- The uniforms (0.1, 0.5) give −2.145966026. -/
theorem test_boxMuller :
    near (boxMuller nearCfg.num (num 0x3FB999999999999A) half).neg 2145966026 1000000000 9 = true := by decide +kernel

/-- `BER_BPSK` writes its target and nothing else. -/
theorem test_berBpsk_writes_its_target :
    (after (exec (.berBpsk 0 4) base)).map (fun t => (t.scalar 0, t.scalar 5, t.status.fault)) =
      some (Num64.zero, Num64.zero, false) := by decide +kernel

/-- Signal power 1 and error power 1/100 or less: here 1 over 1, which is 0 dB; equal sequences fault. -/
theorem test_measSnr_zero_dB_and_zero_error :
    (after (exec (.measSnr 6 0 1 1 1) (base.writeSyms 0 [⟨one, Num64.zero⟩, ⟨two, Num64.zero⟩]))).map
        (fun t => t.scalar 6) = some Num64.zero ∧
      (after (exec (.measSnr 6 0 1 0 1) (base.writeSyms 0 [⟨one, Num64.zero⟩]))).map (fun t => t.status.toWord) =
        some 0x401#32 := by decide +kernel

/-! ## Coders (§2.5, §2.6) -/

theorem test_ldpcCfg_three_quarters :
    (after (exec (.ldpcCfg 648 3 4) base)).map (fun t => (t.ldpcK, t.ldpcDc, t.status.toWord)) =
      some (486#32, 12#32, 0x4#32) := by decide +kernel

theorem test_ldpcCfg_of_rate_one_faults :
    (after (exec (.ldpcCfg 648 2 2) base)).map (fun t => t.status.toWord) = some 0x401#32 := by decide +kernel

/-- The LDPC coder (12, 1/2). -/
def ldpc12 : State := base.setLdpc 12 6 6

theorem test_ldpcEnc_pads :
    (after (exec (.ldpcEnc 0 3 16) (ldpc12.writeBits 0 (bs [1, 1, 1])))).map (fun t => t.readBits 16 12) =
      some (bs [1, 1, 1, 0, 0, 0, 1, 0, 1, 0, 1, 0]) := by decide +kernel

theorem test_ldpcEnc_truncates :
    (after (exec (.ldpcEnc 0 8 16) (ldpc12.writeBits 0 (bs [1, 0, 1, 1, 0, 1, 1, 1])))).map (fun t => t.readBits 16 12) =
      some (bs [1, 0, 1, 1, 0, 1, 0, 0, 0, 0, 0, 0]) := by decide +kernel

/-- −0 and NaN give bit 0; only the first four of six are present. -/
theorem test_ldpcDec_thresholds :
    (after (exec (.ldpcDec 0 4 9 50)
      (ldpc12.writeVals 0 [minusTwo, notANumber, num 0x8000000000000000, minusTwo]))).map
      (fun t => (t.olen, t.readBits 9 4)) = some (4#32, bs [1, 0, 0, 1]) := by decide +kernel

theorem test_polarCfg_bounds :
    (after (exec (.polarCfg 8 8) base)).map (fun t => t.status.toWord) = some 0x8#32 ∧
      (after (exec (.polarCfg 12 4) base)).map (fun t => t.status.toWord) = some 0x401#32 := by decide +kernel

/-- The Polar coder (8, 4). -/
def polar84 : State := base.setPolar 8 4

theorem test_polarEnc_of_1011 :
    (after (exec (.polarEnc 0 4 8) (polar84.writeBits 0 (bs [1, 0, 1, 1])))).map (fun t => t.readBits 8 8) =
      some (bs [1, 1, 1, 1, 0, 0, 1, 1]) := by decide +kernel

/-- One wrong sign at index 3 changes two data bits. -/
theorem test_polarDec_with_and_without_an_error :
    (after (exec (.polarDec 0 8 16 8)
      (polar84.writeVals 0 [minusTwo, minusTwo, minusTwo, minusTwo, two, two, minusTwo, minusTwo]))).map
      (fun t => t.readBits 16 4) = some (bs [1, 0, 1, 1]) ∧
    (after (exec (.polarDec 0 8 16 8)
      (polar84.writeVals 0 [minusTwo, minusTwo, minusTwo, two, two, two, minusTwo, minusTwo]))).map
      (fun t => t.readBits 16 4) = some (bs [0, 1, 1, 1]) := by decide +kernel

/-- Overlap: the source is read before the destination is written (§2.9). -/
theorem test_polarXform_overlap :
    (after (exec (.polarXform 0 8 4) (withBits (bs [1, 0, 1, 1, 0, 0, 1, 0])))).map (fun t => t.readBits 0 12) =
      some (bs [1, 0, 1, 1, 0, 1, 1, 1, 1, 0, 1, 0]) := by decide +kernel

/-! ## System, host port, faults (§2.8, §2.9, P5) -/

theorem test_sets_loads_minus_two :
    (after (exec (.sets 0 0 0xC0000000) base)).map (fun t => t.scalar 0) = some minusTwo := by decide +kernel

/-- A byte written to `BM`, most significant bit first. -/
theorem test_host_byte_order :
    (after ((base).take (.hostWrite .w8 0x10000 0xA5))).map (fun t => t.readBits 0 8) =
      some (bs [1, 0, 1, 0, 0, 1, 0, 1]) := by decide +kernel

/-- The high half of 0.005 in `LM[1]`, little-endian. -/
theorem test_host_reads_half_a_num :
    (after ((base.writeVals 1 [num 0x3F747AE147AE147B]).take (.hostRead .w32 0x20000C))).map (fun t => t.readData) =
      some 0x3F747AE1#64 := by decide +kernel

/-- A symbol's imaginary part at +8 of its 16 bytes. -/
theorem test_host_reads_a_symbol :
    (after ((base.writeSyms 1 [⟨one, two⟩]).take (.hostRead .w64 0x100018))).map (fun t => t.readData) =
      some 0x4000000000000000#64 := by decide +kernel

theorem test_host_stops :
    stop (base.take (.hostRead .w32 0x9000)) = some .hostUnmapped ∧
      stop (base.take (.hostRead .w32 0x2)) = some .hostMisaligned ∧
      stop (base.take (.hostRead .w32 0x10000)) = some .hostWidth := by decide +kernel

/-- `POLAR_ENC` before `POLAR_CFG`: `STATUS` reads 0x601, and a soft reset clears it. -/
theorem test_fault_and_soft_reset :
    (after (exec (.polarEnc 0 4 8) base)).map (fun t => t.readReg 0) = some 0x601#32 ∧
      (after ((base.latchFault .noCfg).take (.hostWrite .w32 0x0C0 1))).map (fun t => t.readReg 0) = some 0#32 := by
  decide +kernel

theorem test_fault_priority :
    (after (exec (.demodSoft (.unknown 5) 0 0x4001 1 0) base)).map (fun t => t.status.err) = some 5#8 ∧
      (after (exec (.demodSoft .qam16 0 0x4001 1 0) base)).map (fun t => t.status.err) = some 4#8 ∧
      (after (exec (.polarEnc 0 3 0x10000) polar84)).map (fun t => t.status.err) = some 3#8 ∧
      (after (exec (.measSnr 0 0 2 0x4000 3) base)).map (fun t => t.status.err) = some 3#8 := by decide +kernel

/-! ## Assembler and reference functions (§2.7, §2.10) -/

theorem test_assembler_aliases_and_defaults :
    assemble .ldpcCfg648 [("p", .int 1), ("q", .int 2)] = some #v[0x40, 0, 648, 0, 0, 0, 1, 2] ∧
      assemble .ldpcDec [("len", .int 648), ("dst", .int 2048)] = some #v[0x42, 0, 648, 2048, 0, 0, 50, 0] ∧
      assemble .sets [("sd", .scalar 7), ("val", .real false 5 1000)] =
        some #v[0x00700001, 0, 0, 0, 0, 0, 0x47AE147B, 0x3F747AE1] ∧
      assemble .ldpcCfg648 [("len", .int 100), ("p", .int 1), ("q", .int 2)] = none ∧
      assemble .nop [("colour", .int 1)] = none := by decide +kernel

theorem test_metrics :
    calculateBER (bs [1, 0, 1, 0]) (bs [1, 1, 1, 0]) = .ok (1 / 4) ∧
      calculateBLER 4 true (bs [0, 0, 0, 0, 1, 1, 1, 1]) (bs [0, 0, 0, 1, 1, 1, 1, 1]) = .ok (1 / 2) ∧
      levenshteinDistance [1, 0, 1] [1, 1] = 1 ∧ levenshteinDistance [1, 0, 1] ([] : List Nat) = 3 := by decide +kernel

/-! ## Witnesses: a state and operands that meet the hypotheses of each statement -/

/-- A doorbell write waits in the queue. -/
def ringing (w : Words) : State := base.stage w

theorem witness_DecodeInvertsEncode :
    (Instr.awgnAdd 7 6 5 0xFFFFFFFF 0 0x80000000 1).wf = true ∧
      (Instr.demodSoft (.unknown 7) 7 0xFFFFFFFF 0 0x80000000).wf = true := by decide

theorem witness_DecodeAcceptsTheOpcodeMap : dec (words 0x00777553 1 2 3 4 5) = some (.polarXform 1 2 3) := by decide

theorem witness_DoorbellRunsTheStagedCommand :
    (ringing (words 0x221 0 0 0 0 0)).inputs =
        .hostWrite .w32 ((ringing (words 0x221 0 0 0 0 0)).cfg.regBase + 0x0A0) 1#64 :: [] ∧
      (ringing (words 0x221 0 0 0 0 0)).status.fault = false ∧
      dec (ringing (words 0x221 0 0 0 0 0)).cmdw = some (.getBps .qam64) ∧
      decodeTableWord 32 0x221 = some (.getBps .qam64) := by decide

theorem witness_IllegalAndIgnoredDoorbells :
    ((ringing (words 0x810 0 0 0 0 0)).inputs =
        .hostWrite .w32 ((ringing (words 0x810 0 0 0 0 0)).cfg.regBase + 0x0A0) 1#64 :: [] ∧
      (ringing (words 0x810 0 0 0 0 0)).status.fault = false ∧
      decodeBits (ringing (words 0x810 0 0 0 0 0)).cmdw ∉ opcodes) ∧
    (((base.latchFault .noCfg).stage (words 0x221 0 0 0 0 0)).inputs =
        .hostWrite .w32 (base.cfg.regBase + 0x0A0) 1#64 :: [] ∧
      ((base.latchFault .noCfg).stage (words 0x221 0 0 0 0 0)).status.fault = true) := by decide

/-- A faulted state whose next input is a soft reset. -/
def softResetting : State := (base.latchFault .addr).setInputs [ringSoftReset nearCfg]

theorem witness_ResetsAgree :
    softResetting.inputs = .hostWrite .w32 (softResetting.cfg.regBase + 0x0C0) 1#64 :: [] := by decide

theorem witness_AFaultWritesNothingElse :
    base.status.fault = false ∧ (after (exec (.ldpcEnc 0 1 0) base)).map (fun t => t.status.fault) = some true := by
  decide +kernel

theorem witness_SchemeCoderAndLengthFaults :
    (base.status.lv = false ∧ base.status.pv = false) ∧
      (polar84.status.pv = true ∧ (3#32 ≠ polar84.polarK ∧ 5#32 ≠ polar84.polarK)) ∧
      (polar84.status.pv = true ∧ (7#32 ≠ polar84.polarN ∧ 9#32 ≠ polar84.polarN)) ∧
      (1#32 ≠ 0#32 ∧ 1#32 ≠ 2#32) := by decide

theorem witness_ParameterFaults :
    2 ^ 16 ≤ (0x10000#32).toNat ∧
      (unknownScheme .qam256 = false ∧ Num64.lt Num64.zero (base.scalar 0) = false ∧
        Num64.lt Num64.zero notANumber = false ∧ Num64.lt Num64.zero minusTwo = false) ∧
      base.cfg.ldpcNMax < (8193#32).toNat ∧ (2#32).toNat ≤ (2#32).toNat ∧
      2 ^ base.cfg.polarMMax < (16384#32).toNat ∧ (8#32).toNat < (9#32).toNat := by decide +kernel

/-- No power of two is 12: it lies between 8 and 16. -/
theorem witness_ParameterFaults_no_power : ∀ m, (12#32).toNat ≠ 2 ^ m := by
  intro m h
  have h12 : (12#32).toNat = 12 := rfl
  rw [h12] at h
  rcases Nat.lt_or_ge m 4 with hm | hm
  · interval_cases m <;> omega
  · have := Nat.pow_le_pow_right (n := 2) (by omega) hm
    omega

theorem witness_RangeFaults_source :
    1#32 ≠ 0#32 ∧ base.cfg.bmBits < (65536#32).toNat + (1#32).toNat ∧ base.cfg.smSyms < (16384#32).toNat + (1#32).toNat ∧
      base.cfg.lmVals < (65536#32).toNat + (1#32).toNat ∧ (0xFFFF#32).toNat < 2 ^ 16 ∧
      unknownScheme .qpsk = false ∧ Num64.lt Num64.zero ((base.setScalar 0 half).scalar 0) = true ∧
      polarLength base.cfg (1#32).toNat = true := by decide +kernel

/-- A coder whose `LEN` operands are 1 and whose output is longer. -/
def polar11 : State := (base.setPolar 1 1).setLdpc 12 6 6

theorem witness_RangeFaults_coders :
    polar11.status.lv = true ∧ polar11.status.pv = true ∧ 1#32 = polar11.polarK ∧ 1#32 = polar11.polarN ∧
      polar11.ldpcN ≠ 0#32 ∧ polar11.cfg.bmBits < (65525#32).toNat + polar11.ldpcN.toNat ∧
      polar11.cfg.bmBits < (65536#32).toNat + polar11.polarN.toNat ∧
      polar11.cfg.bmBits < (65536#32).toNat + polar11.polarK.toNat ∧
      min (1#32).toNat polar11.ldpcK.toNat ≠ 0 ∧
      polar11.cfg.bmBits < (65536#32).toNat + min (1#32).toNat polar11.ldpcK.toNat ∧
      polar11.cfg.bmBits < (65520#32).toNat + ((1#32).toNat + 16) := by decide

theorem witness_RangeFaults_destination :
    base.cfg.smSyms < (16381#32).toNat + 2 ^ bps .qpsk ∧
      base.cfg.smSyms < (16380#32).toNat + ceilDiv (9#32).toNat (bps .qpsk) ∧
      base.cfg.bmBits < (0#32).toNat + (8193#32).toNat * bps .qam256 ∧
      base.cfg.lmVals < (65535#32).toNat + (1#32).toNat * bps .qpsk ∧
      base.cfg.smSyms < (16384#32).toNat + (1#32).toNat ∧
      polarLength base.cfg (8192#32).toNat = true ∧ base.cfg.bmBits < (57345#32).toNat + (8192#32).toNat := by
  decide +kernel

theorem witness_EveryStepKeepsTheInvariant :
    (ringing (words 0x40 0 648 0 1 2)).inv = true ∧
      (after (step (ringing (words 0x40 0 648 0 1 2)))).map (fun t => t.status.lv) = some true := by decide +kernel

theorem witness_EveryCommandWritesItsTargetsOnly :
    base.inv = true ∧ (after (exec (.crcAppend 0 0 65520) base)).map (fun t => t.olen) = some 16#32 := by decide +kernel

/-- The last range that fits each memory, and the empty range that fits anywhere. -/
theorem witness_fits :
    fits (65528#32).toNat (8#32).toNat base.cfg.bmBits = true ∧ fits (16380#32).toNat (4#32).toNat base.cfg.smSyms = true ∧
      fits (65528#32).toNat (8#32).toNat base.cfg.lmVals = true ∧
      fits (0xFFFFFFFF#32).toNat (0#32).toNat base.cfg.bmBits = true := by decide

theorem witness_Crc16Completes :
    (0xFFFF#32).toNat < 2 ^ 16 ∧ fits (65528#32).toNat (8#32).toNat base.cfg.bmBits = true := by decide

theorem witness_CrcAppendCompletes_and_AppendedCrcVerifies :
    fits (0#32).toNat (8#32).toNat base.cfg.bmBits = true ∧
      (65512#32).toNat + ((8#32).toNat + 16) ≤ base.cfg.bmBits ∧ (8#32).toNat + 16 < 2 ^ 32 := by decide

theorem witness_CrcVerifyCompletes :
    fits (0#32).toNat (65536#32).toNat base.cfg.bmBits = true ∧ (15#32).toNat < 16 ∧ 16 ≤ (16#32).toNat := by decide

/-- The last bit of the trailer inverted. -/
theorem witness_EverySingleBitFlipIsDetected :
    fits (0#32).toNat (24#32).toNat base.cfg.bmBits = true ∧ 23 < (bitsMsb 8 0xAA).length + 16 ∧
      (withBits (bitsMsb 24 0xAAE15B)).readBits (0#32).toNat (24#32).toNat =
        flipBit (bitsMsb 8 0xAA ++ crcBits (crc 0x1021#16 (bitsMsb 8 0xAA))) 23 := by decide +kernel

theorem witness_GetConstCompletes :
    base.cfg.tableWf = true ∧ unknownScheme .qam256 = false ∧ (16128#32).toNat + 2 ^ bps .qam256 ≤ base.cfg.smSyms := by
  decide

theorem witness_ModCompletes :
    base.cfg.tableWf = true ∧ unknownScheme .qam64 = false ∧ fits (65529#32).toNat (7#32).toNat base.cfg.bmBits = true ∧
      fits (16382#32).toNat (ceilDiv (7#32).toNat (bps .qam64)) base.cfg.smSyms = true := by decide

theorem witness_MeanEnergyIsTheDivisor :
    Config.defaults.tableWf = true ∧ unknownScheme .qpsk = false ∧ unknownScheme .qam16 = false ∧
      unknownScheme .qam64 = false ∧ unknownScheme .qam256 = false := by decide

theorem isNaN_asNaN (x : Num64) : x.asNaN.isNaN = true := by
  unfold Num64.asNaN
  split
  · assumption
  · decide +kernel

/-- Distances that `<` orders, all of them equal distances, and distances that are all NaNs. -/
theorem witness_NearestIsTheFirstMinimum :
    let pts := constellation nearCfg.num nearCfg .qpsk
    let d := fun (r : Sym) j => Machine.dist nearCfg.num r (pointAt nearCfg.num pts j)
    let lt := nearCfg.num.lt
    let r : Sym := ⟨one, two⟩
    let z : Sym := ⟨Num64.zero, Num64.zero⟩
    let ix := List.range 4
    pts.length = 4 ∧ ix.all (fun i => !lt (d r i) (d r i)) = true ∧
      ix.all (fun i => ix.all fun j => ix.all fun k =>
        (!(lt (d r i) (d r j) && lt (d r j) (d r k)) || lt (d r i) (d r k)) &&
          (!lt (d r i) (d r k) || lt (d r i) (d r j) || lt (d r j) (d r k))) = true ∧
      ix.all (fun i => ix.all fun j => !lt (d z i) (d z j)) = true ∧
      ∀ (rd : Rounding) (c : Sym), (dist (binary64 rd) ⟨notANumber, one⟩ c).isNaN = true := by
  refine ⟨by decide +kernel, by decide +kernel, by decide +kernel, by decide +kernel, fun rd c => ?_⟩
  have h : notANumber.isNaN = true := by decide +kernel
  simp [Machine.dist, binary64, Num64.sub, Num64.add, Num64.mul, Num64.lift, h, isNaN_asNaN]

theorem witness_DemodHardCompletes :
    unknownScheme .qam256 = false ∧ fits (8192#32).toNat (8192#32).toNat base.cfg.smSyms = true ∧
      fits (0#32).toNat ((8192#32).toNat * bps .qam256) base.cfg.bmBits = true := by decide

/-- A symbol at the end of `SM` and a variance of 1/2. -/
def received : State := (base.setScalar 0 half).writeSyms 16383 [⟨one, two⟩]

/-- An infinite variance, which is above zero. -/
def receivedInf : State := received.setScalar 0 (num 0x7FF0000000000000)

/-- Both clauses: finite inputs with finite distances, and an infinite variance. -/
theorem witness_DemodSoftCompletes :
    received.cfg.tableWf = true ∧ unknownScheme .qam16 = false ∧
      [received, receivedInf].all (fun s => Num64.lt Num64.zero (s.scalar 0) &&
        fits (16383#32).toNat (1#32).toNat s.cfg.smSyms && fits (65532#32).toNat ((1#32).toNat * bps .qam16) s.cfg.lmVals) =
        true ∧
      allFinite (received.scalar 0 :: symNums (received.readSyms (16383#32).toNat (1#32).toNat)) = true ∧
      allFinite (receivedInf.scalar 0 :: symNums (receivedInf.readSyms (16383#32).toNat (1#32).toNat)) = false ∧
      ∀ k, k < 2 ^ bps .qam16 → (Machine.dist nearCfg.num (received.readSym 16383)
        (pointAt nearCfg.num (constellation nearCfg.num nearCfg .qam16) k)).isFinite = true := by
  decide +kernel

theorem witness_HostRegisterAccess :
    (0x03C % 4 = 0 ∧ unlistedOffset 0x03C = true) ∧ (0x0FC % 4 = 0 ∧ unlistedOffset 0x0FC = true) ∧
      (0x020 % 4 = 0 ∧ 0x020 ≤ 0x020) ∧ unlistedOffset 0x020 = false ∧ unlistedOffset 0x0A0 = false ∧
      unlistedOffset 0x0C0 = false := by decide

/-- A record that meets the laws of R17: the exact reals. -/
theorem witness_NumLaws : NumLaws exactReals (fun _ => True) (fun _ => False) id where
  zero := ⟨trivial, rfl⟩
  isZero x _ := by simp [exactReals]
  n1 a b _ _ := by simp [exactReals]
  n2 c sch i j h hs hi hj := by
    have hd := exactReals_dist c sch i j h hs hi hj
    exact ⟨trivial, fun he => decide_eq_true (hd.1 he), fun he => decide_eq_true (hd.2 he)⟩
  n2Zero a b c d _ _ _ _ hab hcd := by
    simp only [id] at hab hcd
    exact ⟨trivial, by simp [exactReals, hab, hcd]⟩
  n3 x h := by
    rcases h with h | h
    · have : x = 0 := by simpa [exactReals] using h
      simp [NumRec.negative, exactReals, this]
    · exact h.elim
  n4 n _ := ⟨trivial, rfl⟩
  n5 a _ := ⟨trivial, by simp [exactReals]⟩

/-- Distances from a point of the constellation, under laws that exact reals meet. -/
theorem witness_NearestIsTheFirstMinimum_laws :
    NumLaws exactReals (fun _ => True) (fun _ => False) id ∧
      constellation exactReals Config.defaults .qpsk ≠ [] := by
  refine ⟨witness_NumLaws, fun h => ?_⟩
  have := length_constellation exactReals Config.defaults .qpsk (by decide) rfl
  simp [h, bps] at this

/-- The engine over exact reals right after reset, with some bits. -/
noncomputable def realState : State ℝ ℝ := Implementation.forProofs.reset.writeBits 0 (bs [1, 0, 1, 1, 0, 0, 1])

/-- A whole number of chunks and one with a padded last chunk; the machine over exact reals, on ranges that fit. -/
theorem witness_HardDemodulationInvertsModulation :
    (Config.defaults.tableWf = true ∧ unknownScheme .qam64 = false ∧ (bitsMsb 12 0xABC).length % bps .qam64 = 0 ∧
      ceilDiv (bitsMsb 7 0x55).length (bps .qam64) * bps .qam64 - (bitsMsb 7 0x55).length = 5) ∧
    NumLaws Implementation.forProofs.num.toNumRec (fun _ => True) (fun _ => False) id ∧
    StorageLaws Implementation.forProofs.num ∧ realState.cfg = Config.defaults ∧
    realState.readBits (0#32).toNat (7#32).toNat = bs [1, 0, 1, 1, 0, 0, 1] ∧
    fits (0#32).toNat (7#32).toNat Config.defaults.bmBits = true ∧
    fits (16382#32).toNat (ceilDiv (7#32).toNat (bps .qam64)) Config.defaults.smSyms = true ∧
    fits (65524#32).toNat (ceilDiv (7#32).toNat (bps .qam64) * bps .qam64) Config.defaults.bmBits = true :=
  ⟨by decide, witness_NumLaws, reals_storage, rfl, State.readBits_writeBits_same _ 0 _, by decide, by decide, by decide⟩

theorem witness_NoiseFreeLlrSignsAreTheBits :
    Config.defaults.tableWf = true ∧ unknownScheme .qam256 = false ∧ 255 < 2 ^ bps .qam256 ∧ 7 < bps .qam256 := by decide

/-- The least variance above 0 and the greatest one below 2^1023. -/
def boundaryVariances : List Num64 := [num 0x0000000000000001, num 0x7FDFFFFFFFFFFFFF]

/-- At both boundary variances the LLRs of a noise-free symbol have the signs of its bits 1, 0, and are not zero. -/
theorem test_llr_signs_at_boundary_variances :
    boundaryVariances.all (fun v =>
      hardThreshold nearCfg.num (softVals nearCfg.num nearCfg .qpsk v [pointAt nearCfg.num (constellation nearCfg.num nearCfg .qpsk) 2])
        == [true, false]) = true := by decide +kernel

/-- A positive real variance; a record that meets the laws of R17 and at that variance the premise on the signs of LLRs. -/
theorem witness_LlrSigns (sch : Scheme) (hs : unknownScheme sch = false) :
    (0 : ℝ) < 1 / 2 ∧ NumLaws exactReals (fun _ => True) (fun _ => False) id ∧
      LlrSigns exactReals (constellation exactReals Config.defaults sch) (1 / 2) := by
  refine ⟨by norm_num, witness_NumLaws, fun i j hi hj hij => ?_⟩
  have h : Config.defaults.tableWf = true := by decide
  rw [length_constellation _ _ _ h hs] at hi hj
  have h0 := (exactReals_dist _ sch i i h hs hi hi).1 rfl
  have hp := (exactReals_dist _ sch i j h hs hi hj).2 hij
  simp only [NumRec.negative, exactReals] at h0 hp ⊢
  rw [h0]
  constructor
  · exact decide_eq_true (by norm_num; exact hp)
  · exact decide_eq_false (by norm_num; exact hp.le)

/-- A record that rounds once per operation: the exact reals. -/
theorem witness_RoundsOnce : RoundsOnce exactReals (fun _ => True) id where
  neg a _ := ⟨trivial, rfl⟩
  add a b z _ _ _ h := ⟨trivial, h.symm⟩
  sub a b z _ _ _ h := ⟨trivial, h.symm⟩
  mul a b z _ _ _ h := ⟨trivial, h.symm⟩
  div a b z _ _ _ _ h := ⟨trivial, h.symm⟩
  pow10 a _ h := ⟨trivial, by simp only [id] at h; simp [exactReals, h]⟩
  sign a b z _ _ _ _ _ _ := by simp [NumRec.negative, exactReals]

/-- The variance 1/2 is in the range of every scheme. -/
theorem witness_LlrRange (sch : Scheme) (hs : unknownScheme sch = false) :
    LlrRange exactReals (fun _ => True) id (constellation exactReals Config.defaults sch) (1 / 2) := by
  have h : Config.defaults.tableWf = true := by decide
  have hlen := length_constellation exactReals Config.defaults sch h hs
  let pts := constellation exactReals Config.defaults sch
  let d := fun i j => Machine.dist exactReals (pointAt exactReals pts i) (pointAt exactReals pts j)
  let f : Fin pts.length × Fin pts.length → ℝ := fun x => if x.1 = x.2 then 1 else d x.1 x.2
  have hpos : 0 < pts.length := by rw [hlen]; exact Nat.two_pow_pos _
  have : Nonempty (Fin pts.length × Fin pts.length) := ⟨(⟨0, hpos⟩, ⟨0, hpos⟩)⟩
  obtain ⟨x, hx⟩ := Finite.exists_min f
  have hd : ∀ i j, i < pts.length → j < pts.length → i ≠ j → 0 < d i j := fun i j hi hj hij =>
    (exactReals_dist _ sch i j h hs (by rwa [← hlen]) (by rwa [← hlen])).2 hij
  have hmin : 0 < f x := by
    by_cases he : x.1 = x.2
    · simp [f, he]
    · simp only [f, if_neg he]
      exact hd _ _ x.1.isLt x.2.isLt fun e => he (Fin.ext e)
  refine ⟨trivial, by norm_num, ⟨1, trivial, by norm_num⟩, f x, trivial, hmin, fun i j hi hj hij => ?_⟩
  have hle := hx (⟨i, hi⟩, ⟨j, hj⟩)
  have hne : (⟨i, hi⟩ : Fin pts.length) ≠ ⟨j, hj⟩ := fun e => hij (by simpa using e)
  simp only [f, if_neg hne] at hle
  simpa [f, d, pts] using hle

/-- The engine over exact reals right after reset, with 0 dB in `S0` and a rate of 1/2 in `S1`. -/
noncomputable def realScalars : State ℝ ℝ := (Implementation.forProofs.reset.setScalar 0 0).setScalar 1 (1 / 2)

theorem realScalars_values : realScalars.scalar 0 = 0 ∧ realScalars.scalar 1 = 1 / 2 :=
  ⟨by rw [realScalars, State.scalar_setScalar_other _ _ _ _ (by decide), State.scalar_setScalar_same],
    State.scalar_setScalar_same _ _ _⟩

theorem witness_ConversionsInExactReals : 4#32 ≠ 0#32 ∧ 0 < realScalars.scalar 1 ∧ 1 ≤ 4 ∧ (0 : ℝ) < 1 / 2 :=
  ⟨by decide, by rw [realScalars_values.2]; norm_num, by omega, by norm_num⟩

/-- Two draws for one symbol. -/
theorem witness_ZeroDrawsLeaveSymbolsUnchanged_reals :
    let s : State ℝ ℝ := { realScalars with draws := [0, 0] }
    fits (16383#32).toNat (1#32).toNat s.cfg.smSyms = true ∧ fits (0#32).toNat (1#32).toNat s.cfg.smSyms = true ∧
      2 * (1#32).toNat ≤ s.draws.length ∧ ∀ x ∈ s.draws, x = 0 := by
  refine ⟨by decide, by decide, by decide, ?_⟩
  simp

/-- Both records' premises, a finite σ, draws of 0 and a finite symbol. -/
theorem witness_ZeroDrawsLeaveSymbolsUnchanged :
    NumLaws exactReals (fun _ => True) (fun _ => False) id ∧ RoundsOnce exactReals (fun _ => True) id ∧
      (∀ _ : Nat, True ∧ id (0 : ℝ) = 0) ∧ ([⟨1, -2⟩] : List (SymOf ℝ))[0]? = some ⟨1, -2⟩ :=
  ⟨witness_NumLaws, witness_RoundsOnce, fun _ => ⟨trivial, rfl⟩, rfl⟩

/-- Both clauses: finite inputs, and a symbol that is a NaN. -/
theorem witness_AwgnAddCompletes :
    fits (16383#32).toNat (1#32).toNat received.cfg.smSyms = true ∧ fits (0#32).toNat (1#32).toNat received.cfg.smSyms = true ∧
      allFinite (received.scalar 0 :: symNums (received.readSyms (16383#32).toNat (1#32).toNat) ++
        (List.range (2 * (1#32).toNat)).map (({ received with draws := [one, two] } : State).draw received.cfg.system)) = true ∧
      allFinite (received.scalar 0 ::
        symNums ((received.writeSyms 16383 [⟨notANumber, one⟩]).readSyms (16383#32).toNat (1#32).toNat)) = false := by
  decide +kernel

theorem witness_ConversionsComplete :
    1#32 ≠ 0#32 ∧ Num64.lt Num64.zero (received.scalar 0) = true ∧
      Num64.lt Num64.zero (num 0x0000000000000001) = true := by decide +kernel

/-- Both clauses: the engine over exact reals is an implementation that meets the premises and has the value 1/4. -/
theorem witness_NoiseVarianceOfTheWorkedExample :
    let I := Implementation.forProofs
    NumLaws I.num.toNumRec (fun x => I.num.finite x = true) (fun _ => False) id ∧
      RoundsOnce I.num.toNumRec (fun x => I.num.finite x = true) id ∧ I.num.finite (1 / 4) = true ∧
      I.num.finite (realScalars.scalar 0) = true ∧ realScalars.scalar 0 = 0 ∧
      I.num.finite (realScalars.scalar 1) = true ∧ realScalars.scalar 1 = 1 / 2 := by
  have hf : (fun x => Implementation.forProofs.num.finite x = true) = fun _ => True := by
    funext x
    simp [Implementation.forProofs, realSystem]
  refine ⟨?_, ?_, rfl, rfl, realScalars_values.1, rfl, realScalars_values.2⟩
  · rw [hf]
    exact witness_NumLaws
  · rw [hf]
    exact witness_RoundsOnce

/-- A transmitted 1 and a received 2. -/
def paired : State := base.writeSyms 0 [⟨one, Num64.zero⟩, ⟨two, Num64.zero⟩]

/-- Both clauses: powers that are not zero, and an error power of zero. -/
theorem witness_MeasSnrCompletes :
    1#32 ≠ 0#32 ∧ fits (0#32).toNat (1#32).toNat paired.cfg.smSyms = true ∧
      fits (1#32).toNat (1#32).toNat paired.cfg.smSyms = true ∧
      (signalPower nearCfg.num (paired.readSyms 0 1)).isZero = false ∧
      (errorPower nearCfg.num ((paired.readSyms 0 1).zip (paired.readSyms 1 1))).isZero = false ∧
      (errorPower nearCfg.num ((paired.readSyms 0 1).zip (paired.readSyms 0 1))).isZero = true := by decide +kernel

/-- Finite operands, a divisor that is not zero, and a radicand that is not negative; 0.3275911 as a decimal constant. -/
theorem witness_RoundingIsExactOrANeighbour :
    minusTwo.isFinite = true ∧ two.isFinite = true ∧ two.isZero = false ∧ two.sign = false ∧
      (num 0x7FEFFFFFFFFFFFFF).isFinite = true ∧ 0 < 10000000 ∧ 3275911 ≤ 10000000 * 2 ^ 1000 := by decide +kernel

/-- The enclosures of 10^0.3, e^-1, log10 2, log2 0.1, ln 2 and cos 1 name neighbours. -/
theorem witness_TranscendentalsRoundToANeighbour :
    (num 0x3FD3333333333333).isFinite = true ∧ (powEnclosure .ten (num 0x3FD3333333333333)).decided = true ∧
      (powEnclosure .e (num 0xBFF0000000000000)).decided = true ∧
      two.sign = false ∧ two.isZero = false ∧ (logEnclosure .ten two).decided = true ∧
      (logEnclosure .e two).decided = true ∧ (logEnclosure .two (num 0x3FB999999999999A)).decided = true ∧
      (cosMagnitude one).map (fun x => (x.1, x.2.decided)) = some (false, true) := by decide +kernel

theorem witness_LdpcCfgCompletes :
    8192#32 ≠ 0#32 ∧ (8192#32).toNat ≤ base.cfg.ldpcNMax ∧ 1#32 ≠ 0#32 ∧ (1#32).toNat < (2#32).toNat := by decide

theorem witness_MatrixIsTheCyclicStride : 11 < 12 := by decide

theorem witness_LdpcEncCompletes :
    ldpc12.status.lv = true ∧ ldpc12.ldpcK.toNat ≤ ldpc12.ldpcN.toNat ∧
      fits (0#32).toNat (3#32).toNat ldpc12.cfg.bmBits = true ∧
      fits (65524#32).toNat ldpc12.ldpcN.toNat ldpc12.cfg.bmBits = true := by decide

theorem witness_LdpcEncoderIsSystematicAndLinear :
    (bs [1, 0, 1]).length = 3 ∧ (bs [1, 0, 1]).length = (bs [0, 1, 1]).length := by decide

theorem witness_LdpcDecCompletes :
    ldpc12.status.lv = true ∧ fits (65524#32).toNat (12#32).toNat ldpc12.cfg.lmVals = true ∧
      fits (65530#32).toNat (min (12#32).toNat ldpc12.ldpcK.toNat) ldpc12.cfg.bmBits = true := by decide

theorem witness_NoiseFreeLdpcLinkReturnsTheData :
    Config.defaults.tableWf = true ∧ unknownScheme .qam16 = false ∧ (bs [1, 0, 1, 1, 0, 1]).length = 6 ∧ 6 ≤ 12 := by
  decide

theorem witness_BitReversalIsAnInvolution : 7 < 2 ^ 3 ∧ 2 < 3 := by decide

theorem witness_InformationPositionsAreTheMostReliable :
    8 ≤ 2 ^ 3 ∧ 7 ∈ infoPositions (2 ^ 3) 3 ∧ 6 ∈ frozenPositions (2 ^ 3) 3 := by decide +kernel

theorem witness_PolarTransform : (bs [1, 0, 1, 1, 0, 0, 1, 0]).length = 2 ^ 3 ∧ 7 < 2 ^ 3 ∧ 2 < 3 := by decide

theorem witness_PolarCfgCompletes :
    (8192#32).toNat = 2 ^ 13 ∧ 13 ≤ base.cfg.polarMMax ∧ (8192#32).toNat ≤ (8192#32).toNat := by decide

theorem witness_PolarXformCompletes :
    (8#32).toNat = 2 ^ 3 ∧ 3 ≤ base.cfg.polarMMax ∧ (65528#32).toNat + (8#32).toNat ≤ base.cfg.bmBits ∧
      (65528#32).toNat + (8#32).toNat ≤ base.cfg.bmBits := by decide

theorem witness_PolarEncCompletes :
    polar84.status.pv = true ∧ polar84.polarInv = true ∧
      fits (65532#32).toNat polar84.polarK.toNat polar84.cfg.bmBits = true ∧
      fits (65528#32).toNat polar84.polarN.toNat polar84.cfg.bmBits = true := by decide

theorem witness_PolarDecCompletes :
    polar84.status.pv = true ∧ polar84.polarInv = true ∧
      fits (65528#32).toNat polar84.polarN.toNat polar84.cfg.lmVals = true ∧
      fits (65532#32).toNat polar84.polarK.toNat polar84.cfg.bmBits = true := by decide

/-- LLRs whose signs are the codeword of `[1, 0, 1, 1]`. -/
def polarLlrs : State := polar84.writeVals 0 [minusTwo, minusTwo, minusTwo, minusTwo, two, two, minusTwo, minusTwo]

theorem witness_NoiseFreePolarLinkReturnsTheData :
    polarLlrs.status.pv = true ∧ polarLlrs.polarInv = true ∧
      fits (0#32).toNat polarLlrs.polarN.toNat polarLlrs.cfg.lmVals = true ∧
      fits (16#32).toNat polarLlrs.polarK.toNat polarLlrs.cfg.bmBits = true ∧
      (bs [1, 0, 1, 1]).length = polarLlrs.polarK.toNat ∧
      ∀ j, j < polarLlrs.polarN.toNat → Num64.lt (polarLlrs.readVal ((0#32).toNat + j)) Num64.zero =
        (polarTransform (placeBits polarLlrs.polarN.toNat polarLlrs.polarK.toNat (bs [1, 0, 1, 1]))).getD j false := by
  decide +kernel

theorem witness_HostByteWritesAreMsbFirst :
    base.cfg.wf = true ∧ 8191 < base.cfg.bmBits / 8 ∧
      (base.setInputs [.hostWrite .w8 (base.cfg.bmBase + 8191) 0xA5, .hostRead .w8 (base.cfg.bmBase + 8191)]).inputs =
        .hostWrite .w8 (base.cfg.bmBase + 8191) 0xA5 :: .hostRead .w8 (base.cfg.bmBase + 8191) :: [] := by decide

theorem witness_HostNumWritesAreLittleEndian :
    base.cfg.wf = true ∧ 65535 < base.cfg.lmVals ∧
      (base.setInputs [.hostWrite .w64 (base.cfg.lmBase + 8 * 65535) 0x3F747AE147AE147B]).inputs =
        .hostWrite .w64 (base.cfg.lmBase + 8 * 65535) 0x3F747AE147AE147B :: [] := by decide

theorem witness_BerIsTheDifferingFraction :
    (bs [1, 0]).length = (bs [1, 1]).length ∧ bs [1, 0] ≠ [] ∧ (bs [1]).length ≠ (bs []).length := by decide

theorem witness_InformationMeasuresAreBoundedAndAgree :
    ([0, 0, 1, 1] : List Nat) ≠ [] ∧ ([0, 0, 1, 1] : List Nat).length ≠ ([0] : List Nat).length ∧
    ([0, 0, 1, 1] : List Nat).length = ([0, 1, 0, 1] : List Nat).length ∧ ([0, 0, 1, 1] : List Nat).dedup.length ≤ 2 := by
  decide

end Sys2Proof.Tests
end

section
/-! SUPPORT. What every command answers: a next state, latched where a check fails. `Answers` is the form in which the checks
of a command are peeled off one at a time. -/

namespace Sys2Proof.Machine

variable {α κ : Type}

/-- The answer `r` is a next state with the property `p`. -/
def Answers (p : State α κ → Prop) (r : ResultOf α κ) : Prop := ∃ t, r = .next t ∧ p t

theorem answers_next {p : State α κ → Prop} {t : State α κ} (h : p t) : Answers p (.next t) := ⟨t, rfl, h⟩

/-- A check in front of an answer: the latched state has the property, and so has the answer where the check passes. -/
theorem answers_check {p : State α κ → Prop} {r : ResultOf α κ} {c : Prop} [Decidable c] {s : State α κ} {e : ErrCode}
    (hfault : p (s.latchFault e)) (hpass : ¬c → Answers p r) : Answers p (if c then s.raise e else r) := by
  split
  · exact answers_next hfault
  · exact hpass ‹_›

/-- The meaning of a command on the host's interface is the one over the system of the configuration. -/
theorem exec_eq_execOver (i : Instr) (s : State) : exec i s = execOver s.cfg.system i s := by
  cases i <;> rfl

/-- Every conversion answers a next state. -/
theorem State.convert_answers (s : State α κ) (M : NumSystem α κ) (ss st sd : ScalarIdx) (b : Word) (f : α → α → α → α) :
    Answers (fun _ => True) (s.convert M ss st sd b f) :=
  answers_check trivial fun _ => answers_next trivial

/-- Every command answers a next state, over every system. -/
theorem execOver_answers (M : NumSystem α κ) (i : Instr) (s : State α κ) : Answers (fun _ => True) (execOver M i s) := by
  cases i with
  | nop => exact answers_next trivial
  | sets => exact answers_next trivial
  | getBps => exact answers_next trivial
  | berBpsk => exact answers_next trivial
  | nvarEbn0 => exact s.convert_answers M _ _ _ _ _
  | snr2ebn0 => exact s.convert_answers M _ _ _ _ _
  | ebn02snr => exact s.convert_answers M _ _ _ _ _
  | crcAppend => exact answers_check trivial fun _ => answers_next trivial
  | crcVerify => exact answers_check trivial fun _ => answers_next trivial
  | awgnAdd => exact answers_check trivial fun _ => answers_next trivial
  | ldpcCfg => exact answers_check trivial fun _ => answers_next trivial
  | polarCfg => exact answers_check trivial fun _ => answers_next trivial
  | crc16 => exact answers_check trivial fun _ => answers_check trivial fun _ => answers_next trivial
  | modulate => exact answers_check trivial fun _ => answers_check trivial fun _ => answers_next trivial
  | getConst => exact answers_check trivial fun _ => answers_check trivial fun _ => answers_next trivial
  | demodHard => exact answers_check trivial fun _ => answers_check trivial fun _ => answers_next trivial
  | ldpcEnc => exact answers_check trivial fun _ => answers_check trivial fun _ => answers_next trivial
  | ldpcDec => exact answers_check trivial fun _ => answers_check trivial fun _ => answers_next trivial
  | polarXform => exact answers_check trivial fun _ => answers_check trivial fun _ => answers_next trivial
  | demodSoft =>
    exact answers_check trivial fun _ => answers_check trivial fun _ => answers_check trivial fun _ => answers_next trivial
  | polarEnc =>
    exact answers_check trivial fun _ => answers_check trivial fun _ => answers_check trivial fun _ => answers_next trivial
  | polarDec =>
    exact answers_check trivial fun _ => answers_check trivial fun _ => answers_check trivial fun _ => answers_next trivial
  | measSnr =>
    exact answers_check trivial fun _ => answers_check trivial fun _ => answers_check trivial fun _ =>
      answers_check trivial fun _ => answers_check trivial fun _ => answers_next trivial

/-- Settles O8: the two meanings of a command are one, and its checks are peeled off down to a next state. -/
theorem everyCommandAnswersANextState : Obligations.EveryCommandAnswersANextState := by
  unfold Obligations.EveryCommandAnswersANextState
  refine ⟨fun i s => ?_, fun α κ I i s => ?_, fun i s => exec_eq_execOver i s⟩
  · obtain ⟨t, ht, -⟩ := execOver_answers s.cfg.system i s
    exact ⟨t, (exec_eq_execOver i s).trans ht⟩
  · obtain ⟨t, ht, -⟩ := execOver_answers I.num i s
    exact ⟨t, ht⟩

end Sys2Proof.Machine
end

section
/-! SUPPORT. The invariant of a run: what each operation of the state does to it, what each command does to it, and what the
host's accesses do to it. -/

namespace Sys2Proof.Machine

variable (s : State)

/-! ## Operations that touch nothing the invariant speaks of -/

@[simp] theorem State.inv_setScalar (i : ScalarIdx) (x : Num64) : (s.setScalar i x).inv = s.inv := rfl
@[simp] theorem State.inv_setRes (w : Word) : (s.setRes w).inv = s.inv := rfl
@[simp] theorem State.inv_setOlen (n : Nat) : (s.setOlen n).inv = s.inv := rfl
@[simp] theorem State.inv_setCrcReg (c : BitVec 16) : (s.setCrcReg c).inv = s.inv := rfl
@[simp] theorem State.inv_spendFree : s.spendFree.inv = s.inv := rfl
@[simp] theorem State.inv_dropDraws (n : Nat) : (s.dropDraws n).inv = s.inv := rfl
@[simp] theorem State.inv_setInputs (rest : List Input) : (s.setInputs rest).inv = s.inv := rfl
@[simp] theorem State.inv_setReadData (v : BitVec 64) : (s.setReadData v).inv = s.inv := rfl
@[simp] theorem State.inv_setCmdw (i : Nat) (w : Word) : (s.setCmdw i w).inv = s.inv := rfl
@[simp] theorem State.inv_setMatch (m : Bool) : (s.setMatch m).inv = s.inv := rfl

/-! ## Operations that touch one part of it -/

theorem State.inv_iff : s.inv = true ↔
    s.cfg.wf = true ∧ s.faultInv = true ∧ s.ldpcInv = true ∧ s.polarInv = true ∧ s.memInv = true := by
  simp only [State.inv, Bool.and_eq_true, and_assoc]

theorem State.memInv_iff : s.memInv = true ↔
    (Memory.wf s.bm = true ∧ Memory.below s.bm s.cfg.bmBits = true) ∧
    (Memory.wf s.sm = true ∧ Memory.below s.sm (16 * s.cfg.smSyms) = true) ∧
    (Memory.wf s.lm = true ∧ Memory.below s.lm (8 * s.cfg.lmVals) = true) := by
  simp only [State.memInv, Bool.and_eq_true]
  tauto

theorem ErrCode.code_range (c : ErrCode) : 1 ≤ c.code.toNat ∧ c.code.toNat ≤ 6 := by
  cases c <;> decide

variable {s}

/-- A latched fault has one of the six codes. -/
theorem State.inv_latchFault (c : ErrCode) (h : s.inv = true) : (s.latchFault c).inv = true := by
  obtain ⟨hcfg, -, hldpc, hpolar, hmem⟩ := s.inv_iff.mp h
  exact (State.inv_iff _).mpr ⟨hcfg, decide_eq_true c.code_range, hldpc, hpolar, hmem⟩

/-- Where all parts but the memories are those of `s`, the memories decide. -/
theorem State.inv_of_memInv {t : State} (h : s.inv = true) (hcfg : t.cfg = s.cfg) (hstatus : t.status = s.status)
    (hldpc : t.ldpcInv = s.ldpcInv) (hpolar : t.polarInv = s.polarInv) (hmem : t.memInv = true) : t.inv = true := by
  obtain ⟨h1, h2, h3, h4, -⟩ := s.inv_iff.mp h
  refine t.inv_iff.mpr ⟨hcfg ▸ h1, ?_, hldpc.trans h3, hpolar.trans h4, hmem⟩
  rw [State.faultInv, hstatus]
  exact h2

theorem State.inv_writeBits {a : Nat} {xs : List Bit} (h : s.inv = true) (hfit : fits a xs.length s.cfg.bmBits = true) :
    (s.writeBits a xs).inv = true := by
  obtain ⟨-, -, -, -, hmem⟩ := s.inv_iff.mp h
  obtain ⟨⟨hwf, hbelow⟩, hsm, hlm⟩ := s.memInv_iff.mp hmem
  rw [fits_iff, List.length_eq_zero_iff] at hfit
  exact State.inv_of_memInv h rfl rfl rfl rfl
    ((State.memInv_iff _).mpr ⟨⟨Memory.wf_writeSeq _ _ _ hwf, Memory.below_writeSeq _ _ _ _ hbelow hfit⟩, hsm, hlm⟩)

theorem State.inv_writeSmCells {a : Nat} {xs : List Byte} (h : s.inv = true)
    (hfit : fits a xs.length (16 * s.cfg.smSyms) = true) : (s.writeSmCells a xs).inv = true := by
  obtain ⟨-, -, -, -, hmem⟩ := s.inv_iff.mp h
  obtain ⟨hbm, ⟨hwf, hbelow⟩, hlm⟩ := s.memInv_iff.mp hmem
  rw [fits_iff, List.length_eq_zero_iff] at hfit
  exact State.inv_of_memInv h rfl rfl rfl rfl
    ((State.memInv_iff _).mpr ⟨hbm, ⟨Memory.wf_writeSeq _ _ _ hwf, Memory.below_writeSeq _ _ _ _ hbelow hfit⟩, hlm⟩)

theorem State.inv_writeLmCells {a : Nat} {xs : List Byte} (h : s.inv = true)
    (hfit : fits a xs.length (8 * s.cfg.lmVals) = true) : (s.writeLmCells a xs).inv = true := by
  obtain ⟨-, -, -, -, hmem⟩ := s.inv_iff.mp h
  obtain ⟨hbm, hsm, hwf, hbelow⟩ := s.memInv_iff.mp hmem
  rw [fits_iff, List.length_eq_zero_iff] at hfit
  exact State.inv_of_memInv h rfl rfl rfl rfl
    ((State.memInv_iff _).mpr ⟨hbm, hsm, Memory.wf_writeSeq _ _ _ hwf, Memory.below_writeSeq _ _ _ _ hbelow hfit⟩)

/-- A range of elements fits iff the range of their cells does. -/
theorem fits_mul {u a n z : Nat} (h : fits a n z = true) : fits (u * a) (u * n) (u * z) = true := by
  rw [fits_iff] at h ⊢
  rcases h with rfl | h
  · exact .inl (Nat.mul_zero u)
  · exact .inr (by rw [← Nat.mul_add]; exact Nat.mul_le_mul_left u h)

theorem State.inv_putSyms {a : Nat} {xs : List Sym} (h : s.inv = true) (hfit : fits a xs.length s.cfg.smSyms = true) :
    (s.putSyms s.cfg.system a xs).inv = true := by
  refine State.inv_writeSmCells h ?_
  rw [length_flatMap_block s.cfg.system.symCells 16 (binary64_storage s.cfg.rounding).length_symCells]
  exact fits_mul hfit

theorem State.inv_putVals {a : Nat} {xs : List Num64} (h : s.inv = true) (hfit : fits a xs.length s.cfg.lmVals = true) :
    (s.putVals s.cfg.system a xs).inv = true := by
  refine State.inv_writeLmCells h ?_
  rw [length_flatMap_block s.cfg.system.toCells 8 (binary64_storage s.cfg.rounding).length]
  exact fits_mul hfit

theorem State.inv_setLdpc {n k dc : Word} (h : s.inv = true) (hn : 1 ≤ n.toNat) (hmax : n.toNat ≤ s.cfg.ldpcNMax)
    (hk : k.toNat < n.toNat) (hdc : dc = wordOf (3 * n.toNat / (n.toNat - k.toNat))) : (s.setLdpc n k dc).inv = true := by
  obtain ⟨hcfg, hfault, -, hpolar, hmem⟩ := s.inv_iff.mp h
  exact (State.inv_iff _).mpr ⟨hcfg, hfault, decide_eq_true ⟨hn, hmax, hk, hdc⟩, hpolar, hmem⟩

theorem State.inv_setPolar {n k : Word} (h : s.inv = true) (hn : polarLength s.cfg n.toNat = true)
    (hk : k.toNat ≤ n.toNat) : (s.setPolar n k).inv = true := by
  obtain ⟨hcfg, hfault, hldpc, -, hmem⟩ := s.inv_iff.mp h
  exact (State.inv_iff _).mpr ⟨hcfg, hfault, hldpc, Bool.and_eq_true _ _ ▸ ⟨hn, decide_eq_true hk⟩, hmem⟩

/-- Every reset meets the invariant where the parameters are admitted. -/
theorem State.inv_afterReset (h : s.inv = true) : s.afterReset.inv = true := by
  obtain ⟨hcfg, -⟩ := s.inv_iff.mp h
  exact (State.inv_iff _).mpr ⟨hcfg, rfl, rfl, rfl, rfl⟩

/-! ## Polar lengths and information positions -/

/-- The test of R212 holds of powers of two only. -/
theorem eq_two_pow_of_isPow2 (n : Nat) (h : isPow2 n = true) : n = 2 ^ n.log2 := by
  simp only [isPow2, Bool.and_eq_true, decide_eq_true_eq] at h
  obtain ⟨h0, hand⟩ := h
  by_contra hne
  have hlow : 2 ^ n.log2 ≤ n - 1 := by
    have := Nat.log2_self_le h0
    omega
  have hbits : (n &&& (n - 1)).testBit n.log2 = true := by
    rw [Nat.testBit_and, Nat.testBit_log2 h0, Bool.true_and]
    exact Nat.testBit_of_two_pow_le_and_two_pow_add_one_gt hlow (by have := Nat.lt_log2_self (n := n); omega)
  simp [hand] at hbits

/-- Bit reversal stays below the power of two. -/
theorem bitRev_lt (m i : Nat) : bitRev m i < 2 ^ m := by
  induction m generalizing i with
  | zero => simp [bitRev]
  | succ m ih =>
    have := ih (i / 2)
    have hmod : i % 2 ≤ 1 := by omega
    have := Nat.mul_le_mul_right (2 ^ m) hmod
    rw [bitRev, Nat.pow_succ]
    omega

/-- Bit reversal tells two indices below the power of two apart. -/
theorem bitRev_injOn (m i j : Nat) (hi : i < 2 ^ m) (hj : j < 2 ^ m) (h : bitRev m i = bitRev m j) : i = j := by
  induction m generalizing i j with
  | zero => simp at hi hj; omega
  | succ m ih =>
    rw [Nat.pow_succ] at hi hj
    have hli := bitRev_lt m (i / 2)
    have hlj := bitRev_lt m (j / 2)
    simp only [bitRev] at h
    have hmod : i % 2 = j % 2 := by
      rcases Nat.mod_two_eq_zero_or_one i with h1 | h1 <;> rcases Nat.mod_two_eq_zero_or_one j with h2 | h2 <;>
        simp only [h1, h2] at h ⊢ <;> omega
    have hdiv := ih (i / 2) (j / 2) (by omega) (by omega) (by rw [hmod] at h; omega)
    omega

/-- A power of two has no more than `k` information positions (R211): their reversals are different numbers of the last `k`. -/
theorem length_infoPositions_le (m k : Nat) : (infoPositions (2 ^ m) k).length ≤ k := by
  have hnodup : ((infoPositions (2 ^ m) k).map (bitRev m)).Nodup := by
    refine List.Nodup.map_on (fun i hi j hj h => ?_) (List.nodup_range.filter _)
    simp only [infoPositions, List.mem_filter, List.mem_range] at hi hj
    exact bitRev_injOn m i j hi.1 hj.1 h
  have hsub : (infoPositions (2 ^ m) k).map (bitRev m) ⊆ List.Ico (2 ^ m - k) (2 ^ m) := by
    intro x hx
    obtain ⟨i, hi, rfl⟩ := List.mem_map.mp hx
    simp only [infoPositions, List.mem_filter, isInfo, Nat.log2_two_pow, decide_eq_true_eq] at hi
    exact List.Ico.mem.mpr ⟨hi.2, bitRev_lt m i⟩
  have := (List.subperm_of_subset hnodup hsub).length_le
  rw [List.length_map, List.Ico.length] at this
  omega

/-! ## Commands -/

/-- A check in front of an answer that keeps the invariant. -/
theorem State.inv_check {r : Result} {c : Prop} [Decidable c] {e : ErrCode} (h : s.inv = true)
    (hpass : ¬c → Answers (fun t => t.inv = true) r) : Answers (fun t => t.inv = true) (if c then s.raise e else r) :=
  answers_check (State.inv_latchFault e h) hpass

/-- The coder that `LDPC_CFG` constructs has fewer data bits than its block length, so that they fit their register. -/
theorem ldpcCfg_dataBits_lt (n p q : Word) (hn : n.toNat ≠ 0) (hpq : p.toNat < q.toNat) :
    n.toNat * p.toNat / q.toNat < n.toNat := by
  rw [Nat.div_lt_iff_lt_mul (by omega)]
  exact Nat.mul_lt_mul_of_pos_left hpq (by omega)

theorem inv_execLdpcCfg (n p q : Word) (h : s.inv = true) : Answers (fun t => t.inv = true) (execLdpcCfg n p q s) := by
  refine State.inv_check h fun hc => answers_next ?_
  push Not at hc
  obtain ⟨hn, hmax, hp, hpq⟩ := hc
  have hk := ldpcCfg_dataBits_lt n p q hn hpq
  have hkw := wordOf_toNat _ (hk.trans n.isLt)
  exact State.inv_setLdpc h (Nat.one_le_iff_ne_zero.mpr hn) hmax (hkw.trans_lt hk) (by rw [hkw]; rfl)

theorem inv_execPolarCfg (n k : Word) (h : s.inv = true) : Answers (fun t => t.inv = true) (execPolarCfg n k s) := by
  refine State.inv_check h fun hc => answers_next ?_
  simp only [Bool.or_eq_true, Bool.not_eq_true', decide_eq_true_eq, not_or, Bool.not_eq_false, not_lt] at hc
  exact State.inv_setPolar h hc.1 hc.2

/-- A conversion writes one scalar register. -/
theorem State.inv_convert (ss st sd : ScalarIdx) (b : Word) (f : Num64 → Num64 → Num64 → Num64) (h : s.inv = true) :
    Answers (fun t => t.inv = true) (s.convert s.cfg.system ss st sd b f) :=
  State.inv_check h fun _ => answers_next h

/-- A passed pair of range checks. -/
theorem fits_of_check {a b : Bool} (h : ¬(!(a && b)) = true) : a = true ∧ b = true := by
  simpa using h

theorem fits_mono {a n m z : Nat} (hmn : m ≤ n) (h : fits a n z = true) : fits a m z = true := by
  rw [fits_iff] at h ⊢
  omega

/-- The check of R51 on the bits that a command writes. -/
theorem State.inv_bits_and_length {a n m : Nat} {xs : List Bit} (h : s.inv = true) (hlen : xs.length ≤ n)
    (hfit : fits a n s.cfg.bmBits = true) : ((s.writeBits a xs).setOlen m).inv = true :=
  (State.inv_setOlen _ _).trans (State.inv_writeBits h (fits_mono hlen hfit))

theorem inv_execAwgnAdd (ss st sd : ScalarIdx) (src len dst b : Word) (h : s.inv = true) :
    Answers (fun t => t.inv = true) (execAwgnAdd ss st sd src len dst b s) := by
  refine State.inv_check h fun hf => answers_next ?_
  simp only [State.inv_spendFree, State.inv_dropDraws, State.inv_setScalar, State.inv_setOlen]
  exact State.inv_putSyms h (by simpa using (fits_of_check hf).2)

theorem inv_execCrcAppend (src len dst : Word) (h : s.inv = true) :
    Answers (fun t => t.inv = true) (execCrcAppend src len dst s) := by
  refine State.inv_check h fun hf => answers_next ?_
  simp only [State.inv_setRes, State.inv_setCrcReg]
  exact State.inv_bits_and_length h (by simp) (fits_of_check hf).2

theorem inv_execModulate (sch : Scheme) (src len dst : Word) (h : s.inv = true) :
    Answers (fun t => t.inv = true) (execModulate sch src len dst s) := by
  refine State.inv_check h fun _ => State.inv_check h fun hf => answers_next ?_
  rw [State.inv_setOlen]
  exact State.inv_putSyms h (by simpa using (fits_of_check hf).2)

theorem inv_execGetConst (sch : Scheme) (dst : Word) (h : s.inv = true) :
    Answers (fun t => t.inv = true) (execGetConst sch dst s) := by
  refine State.inv_check h fun hs => State.inv_check h fun hf => answers_next ?_
  obtain ⟨hcfg, -⟩ := s.inv_iff.mp h
  simp only [Config.wf, Bool.and_eq_true] at hcfg
  rw [State.inv_setOlen]
  refine State.inv_putSyms h ?_
  rw [length_constellation _ _ _ hcfg.2 (by simpa using hs)]
  simpa using hf

theorem inv_execDemodSoft (sch : Scheme) (ss : ScalarIdx) (src len dst : Word) (h : s.inv = true) :
    Answers (fun t => t.inv = true) (execDemodSoft sch ss src len dst s) := by
  refine State.inv_check h fun _ => State.inv_check h fun _ => State.inv_check h fun hf => answers_next ?_
  rw [State.inv_spendFree, State.inv_setOlen]
  exact State.inv_putVals h (by simpa using (fits_of_check hf).2)

/-- The LDPC encoder writes a whole block, since a constructed coder has no more data bits than its block length. -/
theorem inv_execLdpcEnc (src len dst : Word) (h : s.inv = true) :
    Answers (fun t => t.inv = true) (execLdpcEnc src len dst s) := by
  refine State.inv_check h fun hlv => State.inv_check h fun hf => answers_next ?_
  obtain ⟨-, -, hldpc, -⟩ := s.inv_iff.mp h
  rw [State.ldpcInv, if_pos (by simpa using hlv), decide_eq_true_eq] at hldpc
  exact State.inv_bits_and_length h (length_ldpcEncode _ _ _ _ hldpc.2.2.1.le).le (fits_of_check hf).2

/-- The Polar decoder writes no more bits than the coder has data bits. -/
theorem inv_execPolarDec (src len dst listSize : Word) (h : s.inv = true) :
    Answers (fun t => t.inv = true) (execPolarDec src len dst listSize s) := by
  refine State.inv_check h fun hpv => State.inv_check h fun _ => State.inv_check h fun hf => answers_next ?_
  obtain ⟨-, -, -, hpolar, -⟩ := s.inv_iff.mp h
  rw [State.polarInv, if_pos (by simpa using hpv), polarLength, Bool.and_eq_true, Bool.and_eq_true] at hpolar
  refine State.inv_bits_and_length h ?_ (fits_of_check hf).2
  rw [length_takeInfo, eq_two_pow_of_isPow2 _ hpolar.1.1]
  exact length_infoPositions_le _ _

/-- Every command keeps the invariant. -/
theorem inv_exec (i : Instr) (h : s.inv = true) : Answers (fun t => t.inv = true) (exec i s) := by
  cases i with
  | nop => exact answers_next h
  | sets => exact answers_next h
  | getBps => exact answers_next h
  | berBpsk => exact answers_next h
  | nvarEbn0 => exact State.inv_convert _ _ _ _ _ h
  | snr2ebn0 => exact State.inv_convert _ _ _ _ _ h
  | ebn02snr => exact State.inv_convert _ _ _ _ _ h
  | crc16 => exact State.inv_check h fun _ => State.inv_check h fun _ => answers_next h
  | crcVerify => exact State.inv_check h fun _ => answers_next h
  | measSnr =>
    exact State.inv_check h fun _ => State.inv_check h fun _ => State.inv_check h fun _ => State.inv_check h fun _ =>
      State.inv_check h fun _ => answers_next h
  | ldpcCfg n p q => exact inv_execLdpcCfg n p q h
  | polarCfg n k => exact inv_execPolarCfg n k h
  | crcAppend src len dst => exact inv_execCrcAppend src len dst h
  | modulate sch src len dst => exact inv_execModulate sch src len dst h
  | getConst sch dst => exact inv_execGetConst sch dst h
  | demodSoft sch ss src len dst => exact inv_execDemodSoft sch ss src len dst h
  | awgnAdd ss st sd src len dst b => exact inv_execAwgnAdd ss st sd src len dst b h
  | ldpcEnc src len dst => exact inv_execLdpcEnc src len dst h
  | polarDec src len dst listSize => exact inv_execPolarDec src len dst listSize h
  | demodHard =>
    exact State.inv_check h fun _ => State.inv_check h fun hf =>
      answers_next (State.inv_bits_and_length h (by simp) (fits_of_check hf).2)
  | ldpcDec =>
    exact State.inv_check h fun _ => State.inv_check h fun hf =>
      answers_next (State.inv_bits_and_length h (by simp) (fits_of_check hf).2)
  | polarXform =>
    exact State.inv_check h fun _ => State.inv_check h fun hf =>
      answers_next (State.inv_bits_and_length h (by simp) (fits_of_check hf).2)
  | polarEnc =>
    exact State.inv_check h fun _ => State.inv_check h fun _ => State.inv_check h fun hf =>
      answers_next (State.inv_bits_and_length h (by simp) (fits_of_check hf).2)

/-! ## The host's accesses -/

/-- A place that the host may access lies in its range, aligned, and of a width that the range has. -/
theorem hostPlace_ok (c : Config) (w : Width) (a : Nat) (g : Region) (off : Nat) (h : hostPlace c w a = .ok (g, off)) :
    hostRegion c a = some (g, off) ∧ widthAllowed g off w = true ∧ off % w.bytes = 0 := by
  unfold hostPlace at h
  split at h
  · cases h
  · split at h
    · cases h
    · rename_i hregion hwidth
      split at h
      · cases h
        exact ⟨hregion, by simpa using hwidth, ‹_›⟩
      · cases h

/-- The offset of a place lies below the size of its range. -/
theorem hostRegion_bound (c : Config) (a : Nat) (g : Region) (off : Nat) (h : hostRegion c a = some (g, off)) :
    (g = .bmWindow → off < c.bmBits / 8) ∧ (g = .smWindow → off < 16 * c.smSyms) ∧ (g = .lmWindow → off < 8 * c.lmVals) := by
  unfold hostRegion at h
  split at h
  · cases h; simp
  · split at h
    · cases h; simp; omega
    · split at h
      · cases h; simp; omega
      · split at h
        · cases h; simp; omega
        · cases h

/-- A doorbell keeps the invariant. -/
theorem State.inv_doorbell (h : s.inv = true) : Answers (fun t => t.inv = true) s.doorbell := by
  rcases s.doorbell_cases with ⟨-, hd⟩ | ⟨-, -, hd⟩ | ⟨-, i, -, hd⟩ <;> rw [hd]
  · exact answers_next h
  · exact answers_next (State.inv_latchFault _ h)
  · exact inv_exec i h

/-- A host write to the register block keeps the invariant. -/
theorem State.inv_writeReg (w : Width) (off : Nat) (data : BitVec 64) (h : s.inv = true) :
    Answers (fun t => t.inv = true) (s.writeReg w off data) := by
  unfold State.writeReg
  split
  · cases w <;> exact answers_next h
  · split
    · exact answers_next h
    · split
      · exact State.inv_doorbell h
      · split
        · exact answers_next (State.inv_afterReset h)
        · exact answers_next h

/-- Aligned bytes that begin inside a size that is a multiple of 8 end inside it. -/
theorem fits_aligned (off z : Nat) (w : Width) (hoff : off < 8 * z) (ha : off % w.bytes = 0) :
    fits off w.bytes (8 * z) = true := by
  rw [fits_iff]
  cases w <;> simp only [Width.bytes] at ha ⊢ <;> omega

/-- A host write keeps the invariant. -/
theorem State.inv_hostStore (w : Width) (a : Nat) (g : Region) (off : Nat) (data : BitVec 64) (h : s.inv = true)
    (hp : hostPlace s.cfg w a = .ok (g, off)) : Answers (fun t => t.inv = true) (s.hostStore w g off data) := by
  obtain ⟨hregion, -, halign⟩ := hostPlace_ok _ _ _ _ _ hp
  obtain ⟨hbm, hsm, hlm⟩ := hostRegion_bound _ _ _ _ hregion
  cases g with
  | registers => exact State.inv_writeReg w off data h
  | bmWindow =>
    have := hbm rfl
    exact answers_next (State.inv_writeBits h (by rw [fits_iff, length_bitsMsb]; omega))
  | smWindow =>
    have hz : 16 * s.cfg.smSyms = 8 * (2 * s.cfg.smSyms) := by omega
    refine answers_next (State.inv_writeSmCells h ?_)
    rw [bytesOf, List.length_map, List.length_range, hz]
    exact fits_aligned _ _ _ (hz ▸ hsm rfl) halign
  | lmWindow =>
    refine answers_next (State.inv_writeLmCells h ?_)
    rw [bytesOf, List.length_map, List.length_range]
    exact fits_aligned _ _ _ (hlm rfl) halign

/-- One input keeps the invariant where it is not refused. -/
theorem State.inv_take (a : Input) (t : State) (h : s.inv = true) (ht : s.take a = .next t) : t.inv = true := by
  have of_answers : ∀ {r : Result}, Answers (fun t => t.inv = true) r → r = .next t → t.inv = true := by
    rintro r ⟨u, hu, hinv⟩ hr
    cases hu.symm.trans hr
    exact hinv
  cases a with
  | hardReset => exact of_answers (answers_next (State.inv_afterReset h)) ht
  | hostRead w a =>
    simp only [State.take] at ht
    split at ht
    · exact of_answers (answers_next ((State.inv_setReadData _ _).trans h)) ht
    · cases ht
  | hostWrite w a data =>
    simp only [State.take] at ht
    split at ht
    · exact of_answers (State.inv_hostStore w a _ _ data h ‹_›) ht
    · cases ht

/-- Settles O13: a step takes one input, each input keeps the invariant, and the reset state is a value to evaluate. -/
theorem everyStepKeepsTheInvariant : Obligations.EveryStepKeepsTheInvariant := by
  unfold Obligations.EveryStepKeepsTheInvariant
  refine ⟨fun s t h hstep => ?_, by decide⟩
  cases hin : s.inputs with
  | nil =>
    rw [step_idle s hin] at hstep
    cases hstep
    exact h
  | cons a rest =>
    rw [step_takes s a rest hin] at hstep
    exact State.inv_take a t ((State.inv_setInputs s rest).trans h) hstep

end Sys2Proof.Machine
end

section
/-! SUPPORT. The frame of a command, composed from the frames of the state's operations. -/

namespace Sys2Proof.Machine

variable {α κ : Type} {M : NumSystem α κ} {w : WriteSet} {s t u : State α κ}

/-! ## Composition -/

theorem UntouchedOver.trans (h : UntouchedOver M w s t) (h' : UntouchedOver M w t u) : UntouchedOver M w s u := by
  obtain ⟨hbm, hsm, hlm, hscalar, hres, holen, hcrc, hmatch, hldpc, hpolar, hfree, hrest⟩ := h
  obtain ⟨hbm', hsm', hlm', hscalar', hres', holen', hcrc', hmatch', hldpc', hpolar', hfree', hrest'⟩ := h'
  refine ⟨fun a ha => (hbm' a ha).trans (hbm a ha), fun a ha => (hsm' a ha).trans (hsm a ha),
    fun a ha => (hlm' a ha).trans (hlm a ha), fun i hi => (hscalar' i hi).trans (hscalar i hi),
    fun hw => (hres' hw).trans (hres hw), fun hw => (holen' hw).trans (holen hw), fun hw => (hcrc' hw).trans (hcrc hw),
    fun hw => (hmatch' hw).trans (hmatch hw), fun hw => ?_, fun hw => ?_, fun hw => ?_, ?_⟩
  · simpa only [hldpc hw] using hldpc' hw
  · simpa only [hpolar hw] using hpolar' hw
  · simpa only [hfree hw] using hfree' hw
  · simpa only [hrest] using hrest'

/-! ## One rule per operation -/

theorem untouched_setScalar {i : ScalarIdx} {x : α} (hw : i ∈ w.scalars) : UntouchedOver M w t (t.setScalar i x) := by
  have hother : ∀ j, j ∉ w.scalars → (t.setScalar i x).scalar j = t.scalar j := fun j hj =>
    State.scalar_setScalar_other t i j x fun hji => hj (hji ▸ hw)
  simpa [UntouchedOver] using hother

theorem untouched_setOlen {n : Nat} (hw : w.olen = true) : UntouchedOver M w t (t.setOlen n) := by
  simp [UntouchedOver, hw]

theorem untouched_spendFree (hw : w.free = true) : UntouchedOver M w t t.spendFree := by
  simp [UntouchedOver, hw]

theorem untouched_dropDraws {n : Nat} (hw : w.free = true) : UntouchedOver M w t (t.dropDraws n) := by
  simp [UntouchedOver, hw]

theorem untouched_putSyms {a : Nat} {xs : List (SymOf α)} (hM : StorageLaws M) (hw : w.sm = (a, xs.length)) :
    UntouchedOver M w t (t.putSyms M a xs) := by
  have hcells : ∀ x, outsideRange (2 * M.cellsPerNum) w.sm x → (t.putSyms M a xs).smCell M x = t.smCell M x := by
    intro x hx
    refine State.smCell_write_outside t M _ _ _ ?_
    rwa [length_flatMap_block M.symCells _ hM.length_symCells, ← Nat.mul_add, ← outsideRange.eq_1 _ (a, _), ← hw]
  simpa [UntouchedOver] using hcells

theorem untouched_putVals {a : Nat} {xs : List α} (hM : StorageLaws M) (hw : w.lm = (a, xs.length)) :
    UntouchedOver M w t (t.putVals M a xs) := by
  have hcells : ∀ x, outsideRange M.cellsPerNum w.lm x → (t.putVals M a xs).lmCell M x = t.lmCell M x := by
    intro x hx
    refine State.lmCell_write_outside t M _ _ _ ?_
    rwa [length_flatMap_block M.toCells _ hM.length, ← Nat.mul_add, ← outsideRange.eq_1 _ (a, _), ← hw]
  simpa [UntouchedOver] using hcells

/-! ## Completion -/

/-- Completion on the host's interface is completion over the system of the configuration. -/
theorem completes_iff (i : Instr) (s : State) (p : State → Prop) :
    Completes i s p ↔ CompletesOver s.cfg.system i s p := by
  rw [Completes, CompletesOver, exec_eq_execOver]

/-- A property that follows from another one. -/
theorem CompletesOver.imp {i : Instr} {p q : State α κ → Prop} (h : CompletesOver M i s p) (hpq : ∀ t, p t → q t) :
    CompletesOver M i s q := by
  obtain ⟨t, hexec, hp, hframe⟩ := h
  exact ⟨t, hexec, hpq t hp, hframe⟩

theorem State.orFree_of_finite (s : State α κ) (M : NumSystem α κ) {ok : Bool} (j : Nat) (x : α) (h : ok = true) :
    s.orFree M ok j x = x := if_pos h

theorem State.orFree_of_not_finite (s : State α κ) (M : NumSystem α κ) {ok : Bool} (j : Nat) (x : α) (h : ok = false) :
    s.orFree M ok j x = M.freeNum s.freeCtr j := if_neg (by simp [h])

/-- The record of the machine that the host sees. -/
theorem system_toNumRec (c : Config) : c.system.toNumRec = c.num := rfl

theorem system_allFinite (c : Config) (xs : List Num64) : c.system.allFinite xs = allFinite xs := rfl

theorem system_cellsPerNum (c : Config) : c.system.cellsPerNum = 8 := rfl
theorem system_ofCells (c : Config) : c.system.ofCells = Num64.ofBytes := rfl
theorem system_unwrittenSm (c : Config) : c.system.unwrittenSm = Config.unwrittenSmByte := rfl
theorem system_unwrittenLm (c : Config) : c.system.unwrittenLm = Config.unwrittenLmByte := rfl

/-- How the memories hold symbols and values does not depend on the configuration. -/
theorem readSym_eq (c : Config) (t : State) (i : Nat) : t.readSym i = t.symAt c.system i := by
  simp only [State.readSym, State.symAt, State.smCell, system_cellsPerNum, system_ofCells, system_unwrittenSm]

theorem readVal_eq (c : Config) (t : State) (i : Nat) : t.readVal i = t.valAt c.system i := by
  simp only [State.readVal, State.valAt, State.lmCell, system_cellsPerNum, system_ofCells, system_unwrittenLm]

/-- The storage laws of the machine that the host sees. -/
theorem system_storage (c : Config) : StorageLaws c.system := binary64_storage c.rounding

end Sys2Proof.Machine
end

section
/-! SUPPORT. The noise unit (spec/43_awgn.md): what its commands write, over every system, in binary64, in exact reals and over
every record that rounds once per operation. -/

namespace Sys2Proof.Machine

variable {α κ : Type}

/-! ## Conversions -/

/-- What a conversion writes: its formula where `S[SS]` and `S[ST]` are finite, a free value else (R18, R164). -/
def convertValue (M : NumSystem α κ) (s : State α κ) (ss st : ScalarIdx) (b : Word) (f : α → α → α → α) : α :=
  s.orFree M (M.allFinite [s.scalar ss, s.scalar st]) 0 (f (s.scalar ss) (M.ofNat b.toNat) (s.scalar st))

/-- A conversion in its domain writes that value to `S[SD]` and nothing else. -/
theorem State.convert_completes (s : State α κ) (M : NumSystem α κ) (ss st sd : ScalarIdx) (b : Word)
    (f : α → α → α → α) (hc : convertible M.toNumRec b (s.scalar st) = true) :
    ∃ t, s.convert M ss st sd b f = .next t ∧ t.scalar sd = convertValue M s ss st b f ∧
      UntouchedOver M { WriteSet.none with scalars := [sd], free := true } s t := by
  rcases s.convert_cases M ss st sd b f with ⟨hf, -⟩ | ⟨-, hnext⟩
  · exact absurd hc (by simp [hf])
  · exact ⟨_, hnext, State.scalar_setScalar_same _ _ _,
      (untouched_setScalar (by simp)).trans (untouched_spendFree rfl)⟩

/-- The three conversions in their domain (R164). -/
theorem conversions_complete (M : NumSystem α κ) (s : State α κ) (ss st sd : ScalarIdx) (b : Word)
    (hc : convertible M.toNumRec b (s.scalar st) = true) :
    CompletesOver M (.nvarEbn0 ss st sd b) s (fun t => t.scalar sd = convertValue M s ss st b (nvarOf M.toNumRec)) ∧
    CompletesOver M (.snr2ebn0 ss st sd b) s (fun t => t.scalar sd = convertValue M s ss st b (snrToEbn0Of M.toNumRec)) ∧
    CompletesOver M (.ebn02snr ss st sd b) s (fun t => t.scalar sd = convertValue M s ss st b (ebn0ToSnrOf M.toNumRec)) :=
  ⟨s.convert_completes M ss st sd b _ hc, s.convert_completes M ss st sd b _ hc, s.convert_completes M ss st sd b _ hc⟩

theorem one_le_toNat_of_ne_zero {b : Word} (hb : b ≠ 0#32) : 1 ≤ b.toNat := by
  by_contra h
  exact hb (BitVec.eq_of_toNat_eq (by simp; omega))

/-- The check of R164, once. -/
theorem convertible_iff (N : NumRec α) (b : Word) (rate : α) :
    convertible N b rate = true ↔ 1 ≤ b.toNat ∧ N.lt N.zero rate = true := by
  simp [convertible]

/-- In binary64 a conversion writes its formula on finite inputs, a free value else. -/
theorem convertValue_binary64 (s : State) (ss st : ScalarIdx) (b : Word) (f : Num64 → Num64 → Num64 → Num64) :
    convertValue s.cfg.system s ss st b f =
      if (s.scalar ss).isFinite && (s.scalar st).isFinite then f (s.scalar ss) (s.cfg.num.ofNat b.toNat) (s.scalar st)
      else Config.freeNum s.freeCtr 0 := by
  have hok : s.cfg.system.allFinite [s.scalar ss, s.scalar st] = ((s.scalar ss).isFinite && (s.scalar st).isFinite) :=
    congrArg _ (Bool.and_true _)
  rw [convertValue, hok]
  rfl

/-- Settles O33: each formula of R165 to R167 is the value that the conversion writes. -/
theorem conversionsComplete : Obligations.ConversionsComplete := by
  unfold Obligations.ConversionsComplete
  intro s ss st sd b hb hrate num N x n
  obtain ⟨hnvar, hsnr, hebn0⟩ := conversions_complete s.cfg.system s ss st sd b
    ((convertible_iff _ _ _).mpr ⟨one_le_toNat_of_ne_zero hb, hrate⟩)
  simp only [convertValue_binary64] at hnvar hsnr hebn0
  exact ⟨(completes_iff _ _ _).mpr hnvar, (completes_iff _ _ _).mpr hsnr, (completes_iff _ _ _).mpr hebn0⟩

/-! ### In exact reals -/

/-- Every value of the exact reals is finite. -/
theorem reals_allFinite (xs : List ℝ) : realSystem.allFinite xs = true := List.all_eq_true.mpr fun _ _ => rfl

theorem convertValue_reals (s : State ℝ ℝ) (ss st : ScalarIdx) (b : Word) (f : ℝ → ℝ → ℝ → ℝ) :
    convertValue realSystem s ss st b f = f (s.scalar ss) b.toNat (s.scalar st) :=
  s.orFree_of_finite realSystem 0 _ (reals_allFinite _)

theorem nvarOf_reals (x b rate : ℝ) : nvarOf exactReals x b rate = 1 / (2 * ((10 : ℝ) ^ (x / 10) * b * rate)) := by
  simp [nvarOf, noiseVariance, lin, exactReals]

theorem logb_lin (x : ℝ) : Real.logb 10 ((10 : ℝ) ^ (x / 10)) = x / 10 :=
  Real.logb_rpow (by norm_num) (by norm_num)

/-- `Db(Lin(x) / (b · rate))` is a difference of decibels (R166). -/
theorem snrToEbn0Of_reals (x : ℝ) {b rate : ℝ} (hb : 0 < b) (hrate : 0 < rate) :
    snrToEbn0Of exactReals x b rate = x - 10 * Real.logb 10 (b * rate) := by
  have hlin : (10 : ℝ) ^ (x / 10) ≠ 0 := (Real.rpow_pos_of_pos (by norm_num) _).ne'
  simp only [snrToEbn0Of, db, lin, exactReals, Nat.cast_ofNat]
  rw [Real.logb_div hlin (by positivity), logb_lin]
  ring

/-- `Db(Lin(x) · b · rate)` is a sum of decibels (R167). -/
theorem ebn0ToSnrOf_reals (x : ℝ) {b rate : ℝ} (hb : 0 < b) (hrate : 0 < rate) :
    ebn0ToSnrOf exactReals x b rate = x + 10 * Real.logb 10 (b * rate) := by
  have hlin : (10 : ℝ) ^ (x / 10) ≠ 0 := (Real.rpow_pos_of_pos (by norm_num) _).ne'
  simp only [ebn0ToSnrOf, db, lin, exactReals, Nat.cast_ofNat]
  rw [mul_assoc, Real.logb_mul hlin (by positivity), logb_lin]
  ring

/-- The check of R164 in exact reals. -/
theorem convertible_reals {b : Word} {rate : ℝ} (hb : b ≠ 0#32) (hrate : 0 < rate) :
    convertible realSystem.toNumRec b rate = true :=
  (convertible_iff _ _ _).mpr ⟨one_le_toNat_of_ne_zero hb, decide_eq_true hrate⟩

/-- Settles O34: the conversions add and subtract the same number of decibels. -/
theorem conversionsInExactReals : Obligations.ConversionsInExactReals := by
  unfold Obligations.ConversionsInExactReals
  refine ⟨fun s ss st sd b hb hrate => ?_, fun x rate n hn hrate => ?_⟩
  · have hn : (0 : ℝ) < b.toNat := Nat.cast_pos.mpr (one_le_toNat_of_ne_zero hb)
    obtain ⟨hnvar, hsnr, hebn0⟩ := conversions_complete realSystem s ss st sd b (convertible_reals hb hrate)
    simp only [convertValue_reals] at hnvar hsnr hebn0
    exact ⟨hnvar.imp fun t ht => ht.trans (nvarOf_reals _ _ _),
      hsnr.imp fun t ht => ht.trans (snrToEbn0Of_reals _ hn hrate),
      hebn0.imp fun t ht => ht.trans (ebn0ToSnrOf_reals _ hn hrate)⟩
  · have hn' : (0 : ℝ) < exactReals.ofNat n := Nat.cast_pos.mpr hn
    refine ⟨?_, ?_⟩
    · rw [ebn0ToSnrOf_reals x hn' hrate, snrToEbn0Of_reals _ hn' hrate, add_sub_cancel_right]
    · rw [snrToEbn0Of_reals x hn' hrate, ebn0ToSnrOf_reals _ hn' hrate, sub_add_cancel]

/-! ### Over every record that rounds once per operation -/

section RoundsOnce

variable {N : NumRec α} {finite nan : α → Prop} {value : α → ℝ}

/-- `x` is finite and stands for the real `v`. -/
def StandsFor (finite : α → Prop) (value : α → ℝ) (x : α) (v : ℝ) : Prop := finite x ∧ value x = v

theorem NumLaws.standsFor_ofNat (hN : NumLaws N finite nan value) {n : Nat} (hn : n ≤ 255) :
    StandsFor finite value (N.ofNat n) n := hN.n4 n hn

theorem NumLaws.standsFor_zero (hN : NumLaws N finite nan value) : StandsFor finite value N.zero 0 := hN.zero

theorem RoundsOnce.standsFor_add (hR : RoundsOnce N finite value) {a b z : α} {u v : ℝ} (ha : StandsFor finite value a u)
    (hb : StandsFor finite value b v) (hz : StandsFor finite value z (u + v)) :
    StandsFor finite value (N.add a b) (u + v) := by
  obtain ⟨hf, hv⟩ := hR.add a b z ha.1 hb.1 hz.1 (by rw [ha.2, hb.2, hz.2])
  exact ⟨hf, hv.trans hz.2⟩

theorem RoundsOnce.standsFor_sub (hR : RoundsOnce N finite value) {a b z : α} {u v : ℝ} (ha : StandsFor finite value a u)
    (hb : StandsFor finite value b v) (hz : StandsFor finite value z (u - v)) :
    StandsFor finite value (N.sub a b) (u - v) := by
  obtain ⟨hf, hv⟩ := hR.sub a b z ha.1 hb.1 hz.1 (by rw [ha.2, hb.2, hz.2])
  exact ⟨hf, hv.trans hz.2⟩

theorem RoundsOnce.standsFor_mul (hR : RoundsOnce N finite value) {a b z : α} {u v : ℝ} (ha : StandsFor finite value a u)
    (hb : StandsFor finite value b v) (hz : StandsFor finite value z (u * v)) :
    StandsFor finite value (N.mul a b) (u * v) := by
  obtain ⟨hf, hv⟩ := hR.mul a b z ha.1 hb.1 hz.1 (by rw [ha.2, hb.2, hz.2])
  exact ⟨hf, hv.trans hz.2⟩

theorem RoundsOnce.standsFor_div (hR : RoundsOnce N finite value) {a b z : α} {u v : ℝ} (ha : StandsFor finite value a u)
    (hb : StandsFor finite value b v) (hv0 : v ≠ 0) (hz : StandsFor finite value z (u / v)) :
    StandsFor finite value (N.div a b) (u / v) := by
  obtain ⟨hf, hv⟩ := hR.div a b z ha.1 hb.1 hz.1 (by rwa [hb.2]) (by rw [ha.2, hb.2, hz.2])
  exact ⟨hf, hv.trans hz.2⟩

/-- `Lin(0)` is 1. -/
theorem RoundsOnce.standsFor_lin_zero (hN : NumLaws N finite nan value) (hR : RoundsOnce N finite value) {x : α}
    (hx : StandsFor finite value x 0) : StandsFor finite value (lin N x) 1 := by
  have h10 := hN.standsFor_ofNat (n := 10) (by norm_num)
  have hdiv := hR.standsFor_div (z := N.zero) hx h10 (by norm_num) (by simpa using hN.standsFor_zero)
  exact hR.pow10 _ hdiv.1 (by simpa using hdiv.2)

/-- `1 / (2 · (Lin(0) · 4 · ½))` is ¼, with no result on the way rounded (R165). -/
theorem RoundsOnce.standsFor_workedExample (hN : NumLaws N finite nan value) (hR : RoundsOnce N finite value)
    {x rate quarter : α} (hx : StandsFor finite value x 0) (hrate : StandsFor finite value rate (1 / 2))
    (hquarter : StandsFor finite value quarter (1 / 4)) :
    StandsFor finite value (nvarOf N x (N.ofNat 4) rate) (1 / 4) := by
  have h1 := hN.standsFor_ofNat (n := 1) (by norm_num)
  have h2 := hN.standsFor_ofNat (n := 2) (by norm_num)
  have h4 := hN.standsFor_ofNat (n := 4) (by norm_num)
  push_cast at h1 h2 h4
  have hlin4 := hR.standsFor_mul (z := N.ofNat 4) (hR.standsFor_lin_zero hN hx) h4 (by norm_num; exact h4)
  have hsnr := hR.standsFor_mul (z := N.ofNat 2) hlin4 hrate (by norm_num; exact h2)
  have hden := hR.standsFor_mul (z := N.ofNat 4) h2 hsnr (by norm_num; exact h4)
  have hvar := hR.standsFor_div (z := quarter) h1 hden (by norm_num) (by norm_num; simpa using hquarter)
  have hquot : (1 : ℝ) / (2 * (1 * 4 * (1 / 2))) = 1 / 4 := by norm_num
  exact hquot ▸ hvar

end RoundsOnce

/-- Settles O35: in exact reals by the formula of R165, elsewhere operation by operation. -/
theorem noiseVarianceOfTheWorkedExample : Obligations.NoiseVarianceOfTheWorkedExample := by
  unfold Obligations.NoiseVarianceOfTheWorkedExample
  refine ⟨fun s ss st sd hx hrate => ?_, ?_⟩
  · have hc := convertible_reals (b := 4#32) (rate := s.scalar st) (by decide) (by rw [hrate]; norm_num)
    refine (conversions_complete realSystem s ss st sd 4#32 hc).1.imp fun t ht => ?_
    rw [ht, convertValue_reals, hx, hrate]
    exact (nvarOf_reals _ _ _).trans (by norm_num)
  · intro α κ I nan value finite hN hR s ss st sd quarter hqf hqv hxf hxv hrf hrv
    have hc : convertible I.num.toNumRec 4#32 (s.scalar st) = true := by
      refine (convertible_iff _ _ _).mpr ⟨by decide, (hN.n1 _ _ hN.zero.1 hrf).mpr ?_⟩
      rw [hN.zero.2, hrv]
      norm_num
    have hok : I.num.allFinite [s.scalar ss, s.scalar st] = true := by
      simpa [NumSystem.allFinite] using ⟨hxf, hrf⟩
    refine (conversions_complete I.num s ss st sd 4#32 hc).1.imp fun t ht => ?_
    rw [ht, convertValue, State.orFree_of_finite _ _ _ _ hok]
    exact hR.standsFor_workedExample hN ⟨hxf, hxv⟩ ⟨hrf, hrv⟩ ⟨hqf, hqv⟩

/-! ## Theoretical BER -/

/-- Settles O36: the formula of R168 and R169 is the one that the command computes. -/
theorem berBpskCompletes : Obligations.BerBpskCompletes := by
  unfold Obligations.BerBpskCompletes
  intro s ss sd N x u horner q y erfX
  have hok : s.cfg.system.allFinite [s.scalar ss] = (s.scalar ss).isFinite := Bool.and_true _
  have hvalue : (s.setScalar sd (s.orFree s.cfg.system (s.cfg.system.allFinite [s.scalar ss]) 0
      (berOf N (s.scalar ss)))).spendFree.scalar sd =
      if (s.scalar ss).isFinite then N.mul (N.decimal false 5 10) (N.sub (N.ofNat 1) erfX)
      else Config.freeNum s.freeCtr 0 := by
    rw [hok]
    exact State.scalar_setScalar_same _ _ _
  exact ⟨_, rfl, hvalue, (untouched_setScalar (by simp [writeSet])).trans (untouched_spendFree rfl)⟩

/-! ## Measured SNR -/

/-- The signal power of the symbols read at `a` (R170). -/
theorem signalPower_symsAt (s : State α κ) (M : NumSystem α κ) (a n : Nat) :
    signalPower M.toNumRec (s.symsAt M a n) =
      M.div ((List.range n).foldl (fun p j => M.add p
        (M.add (M.mul (s.symAt M (a + j)).re (s.symAt M (a + j)).re)
          (M.mul (s.symAt M (a + j)).im (s.symAt M (a + j)).im))) M.zero) (M.ofNat n) := by
  rw [signalPower, State.length_symsAt]
  simp only [State.symsAt, List.foldl_map, symPower]

/-- The error power of the symbols read at `a` and received at `b` (R170). -/
theorem errorPower_symsAt (s : State α κ) (M : NumSystem α κ) (a b n : Nat) :
    errorPower M.toNumRec ((s.symsAt M a n).zip (s.symsAt M b n)) =
      M.div ((List.range n).foldl (fun p j =>
        let er := M.sub (s.symAt M (b + j)).re (s.symAt M (a + j)).re
        let ei := M.sub (s.symAt M (b + j)).im (s.symAt M (a + j)).im
        M.add p (M.add (M.mul er er) (M.mul ei ei))) M.zero) (M.ofNat n) := by
  simp only [errorPower, State.symsAt, List.zip_map', List.foldl_map, symPower, List.length_map, List.length_range]

/-- Symbols read from memory are finite iff each coordinate is. -/
theorem allFinite_symNums_symsAt (s : State α κ) (M : NumSystem α κ) (a n : Nat) :
    M.allFinite (symNums (s.symsAt M a n)) = true ↔
      ∀ j, j < n → M.finite (s.symAt M (a + j)).re = true ∧ M.finite (s.symAt M (a + j)).im = true := by
  simp [NumSystem.allFinite, symNums, State.symsAt]

theorem NumSystem.allFinite_append (M : NumSystem α κ) (xs ys : List α) :
    M.allFinite (xs ++ ys) = true ↔ M.allFinite xs = true ∧ M.allFinite ys = true := by
  simp [NumSystem.allFinite]

/-- What `MEAS_SNR` does on equal lengths that are not zero and ranges that fit: it raises `ERR_PARAM` where a power is zero,
and writes the ratio of the powers in dB, or a free value, else (R170, R171). -/
theorem measSnr_cases (M : NumSystem α κ) (s : State α κ) (sd : ScalarIdx) (src len src2 : Word) (hlen : len ≠ 0#32)
    (hsrc : fits src.toNat len.toNat s.cfg.smSyms = true) (hsrc2 : fits src2.toNat len.toNat s.cfg.smSyms = true) :
    let tx := s.symsAt M src.toNat len.toNat
    let rx := s.symsAt M src2.toNat len.toNat
    let ps := signalPower M.toNumRec tx
    let pe := errorPower M.toNumRec (tx.zip rx)
    (M.isZero ps = true ∨ M.isZero pe = true → execMeasSnrOver M sd src len src2 len s = s.raise .param) ∧
    (M.isZero ps = false ∧ M.isZero pe = false → CompletesOver M (.measSnr sd src len src2 len) s fun t =>
      t.scalar sd = s.orFree M (M.allFinite (symNums tx ++ symNums rx)) 0 (db M.toNumRec (M.div ps pe))) := by
  intro tx rx ps pe
  have h0 : len.toNat ≠ 0 := by
    have := one_le_toNat_of_ne_zero hlen
    omega
  have hexec : execMeasSnrOver M sd src len src2 len s =
      if M.isZero ps then s.raise .param
      else if M.isZero pe then s.raise .param
      else .next ((s.setScalar sd (s.orFree M (M.allFinite (symNums tx ++ symNums rx)) 0
        (db M.toNumRec (M.div ps pe)))).spendFree) := by
    simp only [execMeasSnrOver, h0, hsrc, hsrc2, if_false, ne_eq, not_true_eq_false, Bool.and_self, Bool.not_true,
      Bool.false_eq_true, tx, rx, ps, pe]
  refine ⟨fun hzero => ?_, fun ⟨hps, hpe⟩ => ?_⟩
  · rw [hexec]
    rcases hzero with h | h
    · rw [if_pos h]
    · simp [h]
  · rw [hps, hpe] at hexec
    exact ⟨_, hexec, State.scalar_setScalar_same _ _ _,
      (untouched_setScalar (by simp [writeSet])).trans (untouched_spendFree rfl)⟩

/-- Settles O37: the powers are those of the symbols that the ranges hold. -/
theorem measSnrCompletes : Obligations.MeasSnrCompletes := by
  unfold Obligations.MeasSnrCompletes
  intro s sd src len src2 hlen hsrc hsrc2
  obtain ⟨hfault, hnext⟩ := measSnr_cases s.cfg.system s sd src len src2 hlen hsrc hsrc2
  simp only [signalPower_symsAt, errorPower_symsAt, db, State.orFree, NumSystem.allFinite_append,
    allFinite_symNums_symsAt, ← forall_and, and_assoc] at hfault hnext
  exact ⟨fun h => (completes_iff _ _ _).mpr (hnext h), fun h => (hfault h).trans (State.raise_eq _ _)⟩

/-! ## Noise -/

/-- What `AWGN_ADD` does on ranges that fit: its output symbols, the variance and the linear SNR, each free where an input is
not finite (R18, R161, R162). -/
theorem awgnAdd_completesOver (M : NumSystem α κ) (hM : StorageLaws M) (s : State α κ) (ss st sd : ScalarIdx)
    (src len dst b : Word) (hsrc : fits src.toNat len.toNat s.cfg.smSyms = true)
    (hdst : fits dst.toNat len.toNat s.cfg.smSyms = true) :
    let snr := lin M.toNumRec (s.scalar ss)
    let var := noiseVariance M.toNumRec snr
    let sym := s.symsAt M src.toNat len.toNat
    let ok := M.allFinite (s.scalar ss :: symNums sym ++ (List.range (2 * len.toNat)).map (s.draw M))
    CompletesOver M (.awgnAdd ss st sd src len dst b) s fun t =>
      t.olen = len ∧ t.draws = s.draws.drop (2 * len.toNat) ∧ t.freeCtr = s.freeCtr + 1 ∧
      t.scalar sd = s.orFree M ok (2 * len.toNat) var ∧ t.scalar (sd + 1) = s.orFree M ok (2 * len.toNat + 1) snr ∧
      ∀ j, j < len.toNat →
        let x := s.symAt M (src.toNat + j)
        t.symAt M (dst.toNat + j) =
          ⟨s.orFree M ok (2 * j) (M.add x.re (M.mul (M.sqrt var) (s.draw M (2 * j)))),
            s.orFree M ok (2 * j + 1) (M.add x.im (M.mul (M.sqrt var) (s.draw M (2 * j + 1))))⟩ := by
  intro snr var sym ok
  let out := s.orFreeSyms M ok (addNoise M.toNumRec (M.sqrt var) (s.draw M) sym)
  have hlen : out.length = len.toNat := by simp [out, sym]
  have hsd : sd ≠ sd + 1 := by
    revert sd
    decide
  refine ⟨_, if_neg (by simp [hsrc, hdst]), ?_, ?_⟩
  · refine ⟨by simp, by simp, by simp, ?_, State.scalar_setScalar_same _ _ _, fun j hj => ?_⟩
    · rw [State.spendFree_scalar, State.dropDraws_scalar, State.scalar_setScalar_other _ _ _ _ hsd,
        State.scalar_setScalar_same]
    · simp only [State.spendFree_symAt, State.dropDraws_symAt, State.setScalar_symAt, State.setOlen_symAt]
      rw [State.symAt_putSyms_inside s hM dst.toNat j out (hlen.symm ▸ hj)]
      simp [out, State.orFreeSyms, addNoise, sym, State.symsAt]
  · refine (((((untouched_putSyms hM ?_).trans (untouched_setOlen rfl)).trans (untouched_setScalar ?_)).trans
      (untouched_setScalar ?_)).trans (untouched_dropDraws rfl)).trans (untouched_spendFree rfl)
    · exact congrArg (Prod.mk dst.toNat) hlen.symm
    · simp [writeSet]
    · simp [writeSet]

/-- Settles O32: the values are those of the general statement, by whether every input is finite. -/
theorem awgnAddCompletes : Obligations.AwgnAddCompletes := by
  unfold Obligations.AwgnAddCompletes
  intro s ss st sd src len dst b hsrc hdst
  have h := awgnAdd_completesOver s.cfg.system (system_storage s.cfg) s ss st sd src len dst b hsrc hdst
  simp only [system_toNumRec, system_allFinite, lin, noiseVariance] at h
  refine (completes_iff _ _ _).mpr (h.imp ?_)
  rintro t ⟨holen, hdraws, hctr, hvar, hsnr, hsyms⟩
  simp only [readSym_eq s.cfg t]
  refine ⟨holen, hdraws, fun hok => ?_, fun hok => ?_⟩
  · simp only [State.orFree_of_finite _ _ _ _ hok] at hvar hsnr hsyms
    exact ⟨hvar, hsnr, hsyms⟩
  · simp only [State.orFree_of_not_finite _ _ _ _ hok] at hvar hsnr hsyms
    exact ⟨hctr, hvar, hsnr, hsyms⟩

/-! ### Zero draws -/

/-- Adding `σ · 0` keeps the value of a finite number. -/
theorem RoundsOnce.add_mul_zero {N : NumRec α} {finite nan : α → Prop} {value : α → ℝ} (hN : NumLaws N finite nan value)
    (hR : RoundsOnce N finite value) {a sigma d : α} (ha : finite a) (hsigma : finite sigma)
    (hd : StandsFor finite value d 0) : StandsFor finite value (N.add a (N.mul sigma d)) (value a) := by
  have hmul := hR.standsFor_mul (z := N.zero) ⟨hsigma, rfl⟩ hd (by simpa using hN.standsFor_zero)
  simpa using hR.standsFor_add (z := a) ⟨ha, rfl⟩ hmul ⟨ha, by simp⟩

/-- Settles O38: `σ · 0` is zero, and adding zero keeps a value. -/
theorem zeroDrawsLeaveSymbolsUnchanged : Obligations.ZeroDrawsLeaveSymbolsUnchanged := by
  unfold Obligations.ZeroDrawsLeaveSymbolsUnchanged
  refine ⟨fun s ss st sd src len dst b hsrc hdst hdraws hzero => ?_,
    fun α N finite nan value hN hR sigma draw sym hsigma hdraw hsym j x hx => ?_⟩
  · refine (awgnAdd_completesOver realSystem reals_storage s ss st sd src len dst b hsrc hdst).imp ?_
    rintro t ⟨-, -, -, -, -, hsyms⟩ j hj
    have hdraw : ∀ i, i < 2 * len.toNat → s.draw realSystem i = 0 := fun i hi => by
      have hi' : i < s.draws.length := by omega
      rw [State.draw, List.getD_eq_getElem _ _ hi']
      exact hzero _ (List.getElem_mem hi')
    have hkeep : ∀ a sigma d : ℝ, d = 0 → realSystem.add a (realSystem.mul sigma d) = a := fun a sigma d hd => by
      simp [realSystem, exactReals, hd]
    rw [hsyms j hj, State.orFree_of_finite _ _ _ _ (reals_allFinite _), State.orFree_of_finite _ _ _ _ (reals_allFinite _),
      hkeep _ _ _ (hdraw _ (by omega)), hkeep _ _ _ (hdraw _ (by omega))]
  · obtain ⟨hre, him⟩ := hsym x (List.mem_of_getElem? hx)
    obtain ⟨hre', hvre⟩ := RoundsOnce.add_mul_zero hN hR hre hsigma (hdraw (2 * j))
    obtain ⟨him', hvim⟩ := RoundsOnce.add_mul_zero hN hR him hsigma (hdraw (2 * j + 1))
    exact ⟨_, by rw [addNoise, List.getElem?_mapIdx, hx]; rfl, hre', him', hvre, hvim⟩

end Sys2Proof.Machine
end

section
/-! SUPPORT. The scans of the two demodulators (spec/42_demodulator.md R141, R143): what the comparison must meet, which index
or distance a scan keeps, and that the chunks of the modulator give their bits back (spec/41_modulator.md R125). -/

namespace Sys2Proof.Machine

variable {α κ : Type} {N : NumRec α}

/-! ## What the comparison must meet -/

/-- `<` is irreflexive and transitive on the values with the property `P`. -/
structure LtOrders (N : NumRec α) (P : α → Prop) : Prop where
  irrefl : ∀ a, P a → N.lt a a = false
  trans : ∀ a b c, P a → P b → P c → N.lt a b = true → N.lt b c = true → N.lt a c = true

/-- The laws of R17 order the finite values. -/
theorem NumLaws.ltOrders {finite nan : α → Prop} {value : α → ℝ} (hN : NumLaws N finite nan value) : LtOrders N finite where
  irrefl a ha := by
    rw [Bool.eq_false_iff, ne_eq, hN.n1 a a ha ha]
    exact lt_irrefl _
  trans a b c ha hb hc hab hbc := by
    rw [hN.n1 _ _ ha hb] at hab
    rw [hN.n1 _ _ hb hc] at hbc
    exact (hN.n1 _ _ ha hc).mpr (hab.trans hbc)

/-- Below a NaN, or with a NaN below, lies nothing; the others are ordered by their places on the line. -/
theorem Num64.lt_iff (a b : Num64) : Num64.lt a b = true ↔ a.isNaN = false ∧ b.isNaN = false ∧ a.order < b.order := by
  simp [Num64.lt, and_assoc]

/-- Binary64 orders all its values, a NaN being below none. -/
theorem binary64_ltOrders (rd : Rounding) : LtOrders (binary64 rd) fun _ => True where
  irrefl a _ := by
    rw [Bool.eq_false_iff]
    exact fun h => lt_irrefl _ ((Num64.lt_iff a a).mp h).2.2
  trans a b c _ _ _ hab hbc := by
    obtain ⟨ha, -, hlt⟩ := (Num64.lt_iff a b).mp hab
    obtain ⟨-, hc, hlt'⟩ := (Num64.lt_iff b c).mp hbc
    exact (Num64.lt_iff a c).mpr ⟨ha, hc, hlt.trans hlt'⟩

/-! ## The nearest point -/

/-- The distance of a symbol to point `j`. -/
def distTo (N : NumRec α) (pts : List (SymOf α)) (r : SymOf α) (j : Nat) : α := dist N r (pointAt N pts j)

/-- `below` is a strict weak order on the indices below `n`. -/
def StrictWeakBelow (below : Nat → Nat → Prop) (n : Nat) : Prop :=
  (∀ i, i < n → ¬below i i) ∧
    ∀ i j k, i < n → j < n → k < n → (below i j → below j k → below i k) ∧ (below i k → below i j ∨ below j k)

/-- `best` is the first of the indices below `n` that no other one is below. -/
def FirstMinimum (below : Nat → Nat → Prop) (n best : Nat) : Prop :=
  best < n ∧ (∀ j, j < n → ¬below j best) ∧ ∀ j, j < best → below best j

/-- The next index takes over where it is below the first minimum so far. -/
theorem FirstMinimum.take {below : Nat → Nat → Prop} {n idx best : Nat} (hw : StrictWeakBelow below n) (hidx : idx < n)
    (h : FirstMinimum below idx best) (hlt : below idx best) : FirstMinimum below (idx + 1) idx := by
  obtain ⟨hirrefl, hweak⟩ := hw
  obtain ⟨hbest, hmin, -⟩ := h
  refine ⟨Nat.lt_succ_self idx, fun j hj hbelow => ?_, fun j hj => ?_⟩
  · rcases Nat.lt_succ_iff_lt_or_eq.mp hj with hj | rfl
    · exact hmin j hj ((hweak j idx best (by omega) hidx (by omega)).1 hbelow hlt)
    · exact hirrefl j hidx hbelow
  · exact ((hweak idx j best hidx (by omega) (by omega)).2 hlt).resolve_right (hmin j hj)

/-- Otherwise the first minimum so far stays. -/
theorem FirstMinimum.keep {below : Nat → Nat → Prop} {idx best : Nat} (h : FirstMinimum below idx best)
    (hlt : ¬below idx best) : FirstMinimum below (idx + 1) best := by
  obtain ⟨hbest, hmin, hfirst⟩ := h
  refine ⟨by omega, fun j hj => ?_, hfirst⟩
  rcases Nat.lt_succ_iff_lt_or_eq.mp hj with hj | rfl
  · exact hmin j hj
  · exact hlt

/-- The scan of R141 keeps the first minimum of the indices it has passed. -/
theorem nearestScan_firstMinimum (pts : List (SymOf α)) (r : SymOf α)
    (hw : StrictWeakBelow (fun i j => N.lt (distTo N pts r i) (distTo N pts r j) = true) pts.length)
    (rest : List (SymOf α)) (idx best : Nat) (hrest : pts.drop idx = rest) (hidx : idx ≤ pts.length)
    (h : FirstMinimum (fun i j => N.lt (distTo N pts r i) (distTo N pts r j) = true) idx best) :
    FirstMinimum (fun i j => N.lt (distTo N pts r i) (distTo N pts r j) = true) pts.length
      (nearestScan N r best (distTo N pts r best) idx rest) := by
  induction rest generalizing idx best with
  | nil =>
    have : idx = pts.length := Nat.le_antisymm hidx (List.drop_eq_nil_iff.mp hrest)
    rwa [nearestScan, ← this]
  | cons c rest ih =>
    have hlt : idx < pts.length := by
      by_contra hge
      rw [List.drop_eq_nil_of_le (by omega)] at hrest
      cases hrest
    rw [List.drop_eq_getElem_cons hlt] at hrest
    obtain ⟨hc, hnext⟩ := List.cons.inj hrest
    have hd : dist N r c = distTo N pts r idx := by
      rw [distTo, pointAt, List.getD_eq_getElem _ _ hlt, hc]
    simp only [nearestScan, hd]
    split
    · exact ih (idx + 1) idx hnext hlt (h.take hw hlt ‹_›)
    · exact ih (idx + 1) best hnext hlt (h.keep ‹_›)

/-- `Nearest` is the first minimum where `<` is a strict weak order on the distances of the symbol. -/
theorem nearest_firstMinimum (pts : List (SymOf α)) (r : SymOf α) (hpts : pts ≠ [])
    (hw : StrictWeakBelow (fun i j => N.lt (distTo N pts r i) (distTo N pts r j) = true) pts.length) :
    FirstMinimum (fun i j => N.lt (distTo N pts r i) (distTo N pts r j) = true) pts.length (nearest N pts r) := by
  cases pts with
  | nil => exact absurd rfl hpts
  | cons c rest =>
    refine nearestScan_firstMinimum (c :: rest) r hw rest 1 0 rfl (by simp) ⟨Nat.one_pos, fun j hj => ?_, fun j hj => ?_⟩
    · rw [Nat.lt_one_iff.mp hj]
      exact hw.1 0 (by simp)
    · omega

/-- Where no distance is below another, the first index is kept. -/
theorem nearest_eq_zero (pts : List (SymOf α)) (r : SymOf α) (hpts : pts ≠ [])
    (h : ∀ i j, i < pts.length → j < pts.length → ¬N.lt (distTo N pts r i) (distTo N pts r j) = true) :
    nearest N pts r = 0 := by
  obtain ⟨hlt, -, hfirst⟩ := nearest_firstMinimum pts r hpts ⟨fun i hi => h i i hi hi, fun i j k hi hj hk =>
    ⟨fun hij => absurd hij (h i j hi hj), fun hik => absurd hik (h i k hi hk)⟩⟩
  by_contra hne
  exact h _ 0 hlt (List.length_pos_of_ne_nil hpts) (hfirst 0 (by omega))

/-- Under the laws of R17 `Nearest` is the first minimum of finite distances. -/
theorem NumLaws.nearest_firstMinimum {finite nan : α → Prop} {value : α → ℝ} (hN : NumLaws N finite nan value)
    (pts : List (SymOf α)) (r : SymOf α) (hpts : pts ≠ []) (hfin : ∀ j, j < pts.length → finite (distTo N pts r j)) :
    FirstMinimum (fun i j => N.lt (distTo N pts r i) (distTo N pts r j) = true) pts.length (nearest N pts r) := by
  refine Machine.nearest_firstMinimum pts r hpts ⟨fun i hi => ?_, fun i j k hi hj hk => ⟨?_, ?_⟩⟩
  · simp [hN.ltOrders.irrefl _ (hfin i hi)]
  · exact hN.ltOrders.trans _ _ _ (hfin i hi) (hfin j hj) (hfin k hk)
  · simp only [hN.n1 _ _ (hfin i hi) (hfin k hk), hN.n1 _ _ (hfin i hi) (hfin j hj), hN.n1 _ _ (hfin j hj) (hfin k hk)]
    exact fun hik => (lt_or_ge _ _).imp_right fun hji => hji.trans_lt hik

/-- Settles O27: the scan keeps the first minimum wherever `<` orders the distances; a NaN is below nothing. -/
theorem nearestIsTheFirstMinimum : Obligations.NearestIsTheFirstMinimum := by
  unfold Obligations.NearestIsTheFirstMinimum
  refine ⟨?_, ?_, fun rd pts r hpts hnan => ?_⟩
  · intro α N finite nan value hN pts r hpts d hfin
    obtain ⟨hlt, hmin, hfirst⟩ := hN.nearest_firstMinimum pts r hpts hfin
    exact ⟨hlt, fun j hj => Bool.eq_false_iff.mpr (hmin j hj), hfirst⟩
  · intro α N pts r hpts d below
    exact ⟨fun hirrefl hweak => nearest_firstMinimum pts r hpts ⟨hirrefl, hweak⟩, nearest_eq_zero pts r hpts⟩
  · refine nearest_eq_zero pts r hpts fun i j hi _ hlt => ?_
    have hlt' := ((Num64.lt_iff _ _).mp hlt).1
    rw [distTo, hnan i hi] at hlt'
    cases hlt'

/-! ## The least distance to the points of a list -/

/-- One step of the scan that keeps the least distance. -/
def minStep (N : NumRec α) (r : SymOf α) (best : Option α) (c : SymOf α) : Option α :=
  match best with
  | none => some (dist N r c)
  | some m => if N.lt (dist N r c) m then some (dist N r c) else some m

theorem minDist_eq_foldl (r : SymOf α) (l : List (SymOf α)) : minDist N r l = l.foldl (minStep N r) none := rfl

/-- The distance kept is that of a point passed; no point passed is nearer where `<` orders the distances. -/
def KeptOf (N : NumRec α) (r : SymOf α) (l : List (SymOf α)) (m : α) : Prop :=
  (∃ c ∈ l, m = dist N r c) ∧
    ∀ P, LtOrders N P → (∀ c ∈ l, P (dist N r c)) → ∀ c ∈ l, N.lt (dist N r c) m = false

theorem keptOf_minStep_none (r c : SymOf α) : ∃ m, minStep N r none c = some m ∧ KeptOf N r [c] m := by
  refine ⟨dist N r c, rfl, ⟨c, List.mem_singleton_self c, rfl⟩, fun P hP hl x hx => ?_⟩
  rw [List.mem_singleton.mp hx]
  exact hP.irrefl _ (hl c (List.mem_singleton_self c))

theorem KeptOf.minStep {r : SymOf α} {l : List (SymOf α)} {m : α} (h : KeptOf N r l m) (c : SymOf α) :
    ∃ m', minStep N r (some m) c = some m' ∧ KeptOf N r (l ++ [c]) m' := by
  obtain ⟨⟨x, hx, rfl⟩, hleast⟩ := h
  by_cases hlt : N.lt (dist N r c) (dist N r x) = true
  · refine ⟨dist N r c, if_pos hlt, ⟨c, by simp, rfl⟩, fun P hP hl y hy => ?_⟩
    have hc := hl c (by simp)
    rcases List.mem_append.mp hy with hy | hy
    · by_contra hyc
      have hyx := hP.trans _ _ _ (hl y (by simp [hy])) hc (hl x (by simp [hx])) (by simpa using hyc) hlt
      simp [hleast P hP (fun z hz => hl z (by simp [hz])) y hy] at hyx
    · rw [List.mem_singleton.mp hy]
      exact hP.irrefl _ hc
  · refine ⟨dist N r x, if_neg hlt, ⟨x, by simp [hx], rfl⟩, fun P hP hl y hy => ?_⟩
    rcases List.mem_append.mp hy with hy | hy
    · exact hleast P hP (fun z hz => hl z (by simp [hz])) y hy
    · rw [List.mem_singleton.mp hy]
      simpa using hlt

/-- What the least distance of a list that is not empty is. -/
theorem minDist_keptOf (r : SymOf α) (l : List (SymOf α)) (hl : l ≠ []) : ∃ m, minDist N r l = some m ∧ KeptOf N r l m := by
  have hscan : ∀ (rest passed : List (SymOf α)) (m : α), KeptOf N r passed m →
      ∃ m', rest.foldl (minStep N r) (some m) = some m' ∧ KeptOf N r (passed ++ rest) m' := by
    intro rest
    induction rest with
    | nil => exact fun passed m h => ⟨m, rfl, by simpa using h⟩
    | cons c rest ih =>
      intro passed m h
      obtain ⟨m', hstep, hkept⟩ := h.minStep c
      rw [List.foldl_cons, hstep, List.append_cons]
      exact ih _ m' hkept
  cases l with
  | nil => exact absurd rfl hl
  | cons c rest =>
    obtain ⟨m, hstep, hkept⟩ := keptOf_minStep_none (N := N) r c
    rw [minDist_eq_foldl, List.foldl_cons, hstep]
    exact hscan rest [c] m hkept

/-- The points of a subset are those whose index has the bit (R143). -/
theorem mem_subsetAt (b p : Nat) (v : Bit) (pts : List (SymOf α)) (c : SymOf α) :
    c ∈ subsetAt b p v pts ↔ ∃ i, i < pts.length ∧ i.testBit (b - 1 - p) = v ∧ c = pointAt N pts i := by
  simp only [subsetAt, List.mem_map, List.mem_filter, beq_iff_eq, Prod.exists, List.mk_mem_zipIdx_iff_getElem?]
  constructor
  · rintro ⟨x, i, ⟨hx, hbit⟩, rfl⟩
    obtain ⟨hi, hget⟩ := List.getElem?_eq_some_iff.mp hx
    exact ⟨i, hi, hbit, by rw [pointAt, List.getD_eq_getElem _ _ hi, hget]⟩
  · rintro ⟨i, hi, hbit, rfl⟩
    exact ⟨_, i, ⟨by rw [pointAt, List.getD_eq_getElem _ _ hi, List.getElem?_eq_getElem hi], hbit⟩, rfl⟩

/-- `i` is an index with the bit `v` at place `p` whose distance the scan of R143 keeps. -/
def LeastOf (N : NumRec α) (pts : List (SymOf α)) (b : Nat) (r : SymOf α) (p : Nat) (v : Bit) (i : Nat) : Prop :=
  i < 2 ^ b ∧ i.testBit (b - 1 - p) = v ∧ minDist N r (subsetAt b p v pts) = some (distTo N pts r i) ∧
    ∀ P, LtOrders N P → (∀ k, k < 2 ^ b → P (distTo N pts r k)) →
      ∀ k, k < 2 ^ b → k.testBit (b - 1 - p) = v → N.lt (distTo N pts r k) (distTo N pts r i) = false

/-- The scan of R143 keeps the distance of some point of its subset. -/
theorem exists_leastOf (pts : List (SymOf α)) (b : Nat) (hlen : pts.length = 2 ^ b) (r : SymOf α) (p : Nat) (hp : p < b)
    (v : Bit) : ∃ i, LeastOf N pts b r p v i := by
  have hne : subsetAt b p v pts ≠ [] := by
    have hmem : pointAt N pts (if v then 2 ^ (b - 1 - p) else 0) ∈ subsetAt b p v pts := by
      refine (mem_subsetAt b p v pts _).mpr ⟨_, ?_, ?_, rfl⟩
      · rw [hlen]
        split
        · exact Nat.pow_lt_pow_right (by omega) (by omega)
        · exact Nat.two_pow_pos b
      · cases v <;> simp
    exact List.ne_nil_of_mem hmem
  obtain ⟨m, hm, ⟨c, hc, rfl⟩, hleast⟩ := minDist_keptOf (N := N) r _ hne
  obtain ⟨i, hi, hbit, rfl⟩ := (mem_subsetAt (N := N) b p v pts c).mp hc
  refine ⟨i, hlen ▸ hi, hbit, hm, fun P hP hall k hk hkbit => hleast P hP (fun x hx => ?_) _ ?_⟩
  · obtain ⟨j, hj, -, rfl⟩ := (mem_subsetAt (N := N) b p v pts x).mp hx
    exact hall j (hlen ▸ hj)
  · exact (mem_subsetAt b p v pts _).mpr ⟨k, hlen.symm ▸ hk, hkbit, rfl⟩

/-- The LLR from the two distances that the scans keep (R143). -/
theorem llr_eq_of_leastOf {pts : List (SymOf α)} {b : Nat} {r : SymOf α} {p i1 i0 : Nat} (h1 : LeastOf N pts b r p true i1)
    (h0 : LeastOf N pts b r p false i0) (v : α) :
    llr N pts b v r p = N.div (N.sub (distTo N pts r i1) (distTo N pts r i0)) (N.mul (N.ofNat 2) v) := by
  obtain ⟨-, -, hmin1, -⟩ := h1
  obtain ⟨-, -, hmin0, -⟩ := h0
  rw [llr, hmin1, hmin0]
  rfl

/-! ## The soft demodulator's command -/

/-- LLR `j · b + p` belongs to bit `p` of symbol `j` (R146). -/
theorem getElem?_softVals (c : Config) (sch : Scheme) (v : α) (sym : List (SymOf α)) (j p : Nat) (hj : j < sym.length)
    (hp : p < bps sch) :
    (softVals N c sch v sym)[j * bps sch + p]? = some (llr N (constellation N c sch) (bps sch) v sym[j] p) := by
  rw [softVals, Nat.mul_comm, getElem?_flatMap_block _ (bps sch) (fun _ => by simp) sym j p hj hp]
  simp [hp]

/-- What `DEMOD_SOFT` does on a positive variance and ranges that fit: the LLRs, or free values (R18, R144, R145). -/
theorem demodSoft_completesOver (M : NumSystem α κ) (hM : StorageLaws M) (s : State α κ) (sch : Scheme) (ss : ScalarIdx)
    (src len dst : Word) (hsch : unknownScheme sch = false) (hv : M.lt M.zero (s.scalar ss) = true)
    (hsrc : fits src.toNat len.toNat s.cfg.smSyms = true) (hdst : fits dst.toNat (len.toNat * bps sch) s.cfg.lmVals = true) :
    let ok := M.allFinite (s.scalar ss :: symNums (s.symsAt M src.toNat len.toNat))
    CompletesOver M (.demodSoft sch ss src len dst) s fun t =>
      t.olen = wordOf (len.toNat * bps sch) ∧ t.freeCtr = s.freeCtr + 1 ∧
      (∀ j p, j < len.toNat → p < bps sch → t.valAt M (dst.toNat + (j * bps sch + p)) = s.orFree M ok (j * bps sch + p)
        (llr M.toNumRec (constellation M.toNumRec s.cfg sch) (bps sch) (s.scalar ss) (s.symAt M (src.toNat + j)) p)) ∧
      (ok = false → ∀ j, j < len.toNat * bps sch → t.valAt M (dst.toNat + j) = M.freeNum s.freeCtr j) := by
  intro ok
  let vals := softVals M.toNumRec s.cfg sch (s.scalar ss) (s.symsAt M src.toNat len.toNat)
  let out := s.orFreeVals M ok vals
  have hlen : out.length = len.toNat * bps sch := by simp [out, vals]
  have hexec : execDemodSoftOver M sch ss src len dst s =
      .next (((s.putVals M dst.toNat out).setOlen (len.toNat * bps sch)).spendFree) := by
    simp only [execDemodSoftOver, hsch, hv, hsrc, hdst, Bool.false_eq_true, if_false, Bool.not_true, Bool.and_self]
    rfl
  have hread : ∀ j, (hj : j < out.length) →
      (((s.putVals M dst.toNat out).setOlen (len.toNat * bps sch)).spendFree).valAt M (dst.toNat + j) = out[j] := by
    intro j hj
    rw [State.spendFree_valAt, State.setOlen_valAt]
    exact State.valAt_putVals_inside s hM dst.toNat j out hj
  refine ⟨_, hexec, ⟨by simp, by simp, fun j p hj hp => ?_, fun hok j hj => ?_⟩, ?_⟩
  · have hjp : j * bps sch + p < out.length := by
      rw [hlen]
      exact lt_of_lt_of_le (Nat.add_lt_add_left hp _) (by rw [← Nat.succ_mul]; exact Nat.mul_le_mul_right _ hj)
    have hval := getElem?_softVals (N := M.toNumRec) s.cfg sch (s.scalar ss) (s.symsAt M src.toNat len.toNat) j p
      (by simpa using hj) hp
    have hget : vals[j * bps sch + p]'(by simpa [out] using hjp) = _ :=
      (List.getElem?_eq_some_iff.mp hval).2
    rw [hread _ hjp]
    simp only [out, State.orFreeVals, List.getElem_mapIdx, hget]
    simp [State.symsAt]
  · rw [hread j (hlen.symm ▸ hj)]
    simp only [out, State.orFreeVals, List.getElem_mapIdx, State.orFree_of_not_finite _ _ _ _ hok]
  · exact ((untouched_putVals hM (congrArg (Prod.mk dst.toNat) hlen.symm)).trans (untouched_setOlen rfl)).trans
      (untouched_spendFree rfl)

/-- Settles O29: each LLR is made of the two distances that the scans of R143 keep. -/
theorem demodSoftCompletes : Obligations.DemodSoftCompletes := by
  unfold Obligations.DemodSoftCompletes
  intro s sch ss src len dst htable hsch hv hsrc hdst
  have h := demodSoft_completesOver s.cfg.system (system_storage s.cfg) s sch ss src len dst hsch hv hsrc hdst
  simp only [system_toNumRec, system_allFinite] at h
  refine (completes_iff _ _ _).mpr (h.imp ?_)
  rintro t ⟨holen, hctr, hvals, hfree⟩
  simp only [readVal_eq s.cfg t]
  refine ⟨holen, fun hok j p hj hp => ?_, fun hok => ⟨hctr, hfree hok⟩⟩
  have hlen := length_constellation s.cfg.num s.cfg sch htable hsch
  obtain ⟨i1, h1⟩ := exists_leastOf (N := s.cfg.num) _ _ hlen (s.readSym (src.toNat + j)) p hp true
  obtain ⟨i0, h0⟩ := exists_leastOf (N := s.cfg.num) _ _ hlen (s.readSym (src.toNat + j)) p hp false
  have hval := hvals j p hj hp
  rw [State.orFree_of_finite _ _ _ _ hok, llr_eq_of_leastOf h1 h0] at hval
  obtain ⟨hi1, hbit1, hmin1, hleast1⟩ := h1
  obtain ⟨hi0, hbit0, hmin0, hleast0⟩ := h0
  exact ⟨i1, i0, ⟨hi1, hbit1, hmin1, fun _ => hleast1 _ (binary64_ltOrders _) fun _ _ => trivial⟩,
    ⟨hi0, hbit0, hmin0, fun _ => hleast0 _ (binary64_ltOrders _) fun _ _ => trivial⟩, hval⟩

end Sys2Proof.Machine
end

section
/-! SUPPORT. Chunks of bits give their bits back; the hard round trip, the signs of noise-free LLRs and the LDPC link over every
record that meets the laws of R17 (spec/42_demodulator.md R146, R147, spec/44_ldpc.md R199). -/

namespace Sys2Proof.Machine

variable {α κ : Type} {N : NumRec α}

/-! ## Chunks (R14, R125) -/

/-- Reading one more bit doubles the value. -/
theorem valMsb_append_singleton (x : List Bit) (b : Bit) : valMsb (x ++ [b]) = 2 * valMsb x + b.toNat := by
  simp [valMsb]

theorem valMsb_lt (x : List Bit) : valMsb x < 2 ^ x.length := by
  induction x using List.reverseRecOn with
  | nil => simp [valMsb]
  | append_singleton x b ih =>
    have := Bool.toNat_lt b
    rw [valMsb_append_singleton, List.length_append, List.length_singleton, Nat.pow_succ]
    omega

theorem bitsMsb_succ (n v : Nat) : bitsMsb (n + 1) v = bitsMsb n (v / 2) ++ [v.testBit 0] := by
  rw [bitsMsb, List.range_succ, List.map_append]
  congr 1
  · refine List.map_congr_left fun j hj => ?_
    have hj := List.mem_range.mp hj
    rw [← Nat.testBit_succ, show n + 1 - 1 - j = n - 1 - j + 1 by omega]
  · simp

/-- The bits of a sequence's value are the sequence (R14). -/
theorem bitsMsb_valMsb (x : List Bit) : bitsMsb x.length (valMsb x) = x := by
  induction x using List.reverseRecOn with
  | nil => rfl
  | append_singleton x b ih =>
    have := Bool.toNat_lt b
    rw [valMsb_append_singleton, List.length_append, List.length_singleton, bitsMsb_succ,
      show (2 * valMsb x + b.toNat) / 2 = valMsb x by omega, ih, Nat.testBit_zero]
    cases b <;> simp

/-- A Bit sequence, padded with zeros to whole chunks of `b` bits (R125). -/
def padBits (b : Nat) (bits : List Bit) : List Bit :=
  bits ++ List.replicate (ceilDiv bits.length b * b - bits.length) false

/-- The chunks hold all bits. -/
theorem le_ceilDiv_mul (n b : Nat) (hb : 0 < b) : n ≤ ceilDiv n b * b := by
  have h1 := Nat.div_add_mod (n + (b - 1)) b
  have h2 := Nat.mod_lt (n + (b - 1)) hb
  rw [ceilDiv, Nat.mul_comm]
  omega

theorem length_padBits (b : Nat) (hb : 0 < b) (bits : List Bit) : (padBits b bits).length = ceilDiv bits.length b * b := by
  have := le_ceilDiv_mul bits.length b hb
  rw [padBits, List.length_append, List.length_replicate]
  omega

/-- Whole chunks need no padding. -/
theorem padBits_of_dvd (b : Nat) (hb : 0 < b) (bits : List Bit) (h : bits.length % b = 0) : padBits b bits = bits := by
  obtain ⟨q, hq⟩ := Nat.dvd_of_mod_eq_zero h
  have hceil : ceilDiv bits.length b = q := by
    rw [ceilDiv, hq, Nat.mul_add_div hb, Nat.div_eq_of_lt (by omega), Nat.add_zero]
  rw [padBits, hceil, hq, Nat.mul_comm, Nat.sub_self, List.replicate_zero, List.append_nil]

/-- The chunks of a sequence, one after the other. -/
theorem flatMap_chunks (b n : Nat) (x : List Bit) :
    ((List.range n).flatMap fun j => (x.drop (j * b)).take b) = x.take (n * b) := by
  induction n with
  | zero => simp
  | succ n ih =>
    rw [List.range_succ, List.flatMap_append, ih, List.flatMap_singleton, Nat.succ_mul, List.take_add]

/-- What holds of the chunks of a padded sequence: their indices are below `2^b`, and their bits are the sequence. -/
theorem chunkIndices_spec (b : Nat) (hb : 0 < b) (bits : List Bit) :
    (∀ i ∈ chunkIndices b bits, i < 2 ^ b) ∧ (chunkIndices b bits).flatMap (bitsMsb b) = padBits b bits := by
  have hlen := length_padBits b hb bits
  have hchunk : ∀ j, j < ceilDiv bits.length b → (((padBits b bits).drop (j * b)).take b).length = b := by
    intro j hj
    have := Nat.mul_le_mul_right b (Nat.succ_le_of_lt hj)
    rw [Nat.succ_mul] at this
    rw [List.length_take, List.length_drop, hlen]
    omega
  have hindices : chunkIndices b bits =
      (List.range (ceilDiv bits.length b)).map fun j => valMsb (((padBits b bits).drop (j * b)).take b) := rfl
  rw [hindices]
  refine ⟨fun i hi => ?_, ?_⟩
  · obtain ⟨j, hj, rfl⟩ := List.mem_map.mp hi
    refine (valMsb_lt _).trans_eq ?_
    rw [hchunk j (List.mem_range.mp hj)]
  · rw [List.flatMap_map]
    refine Eq.trans ?_ ((flatMap_chunks b _ (padBits b bits)).trans (List.take_of_length_le hlen.le))
    refine List.flatMap_congr fun j hj => ?_
    have hbits := bitsMsb_valMsb (((padBits b bits).drop (j * b)).take b)
    rwa [hchunk j (List.mem_range.mp hj)] at hbits

theorem bps_pos (sch : Scheme) : 0 < bps sch := by cases sch <;> simp [bps]

/-! ## Noise-free symbols -/

section NoiseFree

variable {finite nan : α → Prop} {value : α → ℝ} {c : Config} {sch : Scheme}

/-- The distance of a point to another one is above zero, to itself zero. -/
theorem NumLaws.value_dist (hN : NumLaws N finite nan value) (hc : c.tableWf = true) (hs : unknownScheme sch = false)
    {i j : Nat} (hi : i < 2 ^ bps sch) (hj : j < 2 ^ bps sch) :
    let d := distTo N (constellation N c sch) (pointAt N (constellation N c sch) i) j
    finite d ∧ (i = j → value d = 0) ∧ (i ≠ j → 0 < value d) := by
  intro d
  obtain ⟨hfin, hzero, hpos⟩ := hN.n2 c sch i j hc hs hi hj
  refine ⟨hfin, fun h => (hN.isZero d hfin).mp (hzero h), fun h => ?_⟩
  have := (hN.n1 _ _ hN.zero.1 hfin).mp (hpos h)
  rwa [hN.zero.2] at this

/-- The nearest point to a point of the constellation is that point. -/
theorem NumLaws.nearest_point (hN : NumLaws N finite nan value) (hc : c.tableWf = true) (hs : unknownScheme sch = false)
    {i : Nat} (hi : i < 2 ^ bps sch) :
    nearest N (constellation N c sch) (pointAt N (constellation N c sch) i) = i := by
  have hlen := length_constellation N c sch hc hs
  have hd := fun {j} (hj : j < 2 ^ bps sch) => hN.value_dist hc hs hi hj
  have hpts : constellation N c sch ≠ [] := by
    rw [← List.length_pos_iff, hlen]
    exact Nat.two_pow_pos _
  obtain ⟨hlt, hmin, -⟩ := hN.nearest_firstMinimum _ (pointAt N (constellation N c sch) i) hpts
    fun j hj => (hd (hlen ▸ hj)).1
  by_contra hne
  refine hmin i (hlen.symm ▸ hi) ((hN.n1 _ _ (hd hi).1 (hd (hlen ▸ hlt)).1).mpr ?_)
  rw [(hd hi).2.1 rfl]
  exact (hd (hlen ▸ hlt)).2.2 (Ne.symm hne)

/-- Demodulating modulated bits gives them back, padded. -/
theorem NumLaws.hardBits_modulateBits (hN : NumLaws N finite nan value) (hc : c.tableWf = true)
    (hs : unknownScheme sch = false) (bits : List Bit) :
    hardBits N c sch (modulateBits N c sch bits) = padBits (bps sch) bits := by
  obtain ⟨hlt, hflat⟩ := chunkIndices_spec (bps sch) (bps_pos sch) bits
  rw [hardBits, modulateBits, List.flatMap_map, ← hflat]
  exact List.flatMap_congr fun i hi => by rw [hN.nearest_point hc hs (hlt i hi)]

/-- On a noise-free symbol the scan of the subset that its index lies in keeps the distance to the symbol's own point. -/
theorem NumLaws.leastOf_own (hN : NumLaws N finite nan value) (hc : c.tableWf = true) (hs : unknownScheme sch = false)
    {idx i p : Nat} {v : Bit} (hidx : idx < 2 ^ bps sch) (hbit : idx.testBit (bps sch - 1 - p) = v)
    (h : LeastOf N (constellation N c sch) (bps sch) (pointAt N (constellation N c sch) idx) p v i) : i = idx := by
  obtain ⟨hi, -, -, hleast⟩ := h
  have hd := fun {j} (hj : j < 2 ^ bps sch) => hN.value_dist hc hs hidx hj
  by_contra hne
  have hnot := hleast finite hN.ltOrders (fun k hk => (hd hk).1) idx hidx hbit
  rw [Bool.eq_false_iff, ne_eq, hN.n1 _ _ (hd hidx).1 (hd hi).1, (hd hidx).2.1 rfl] at hnot
  exact hnot ((hd hi).2.2 (Ne.symm hne))

/-- The LLR of a noise-free symbol is made of the distance to its own point and that to a point with the other bit. -/
theorem NumLaws.llr_point (hN : NumLaws N finite nan value) (hc : c.tableWf = true) (hs : unknownScheme sch = false)
    {idx p : Nat} (v : α) (hidx : idx < 2 ^ bps sch) (hp : p < bps sch) :
    let d := distTo N (constellation N c sch) (pointAt N (constellation N c sch) idx)
    ∃ other, other < 2 ^ bps sch ∧ idx ≠ other ∧
      llr N (constellation N c sch) (bps sch) v (pointAt N (constellation N c sch) idx) p =
        if idx.testBit (bps sch - 1 - p) then N.div (N.sub (d idx) (d other)) (N.mul (N.ofNat 2) v)
        else N.div (N.sub (d other) (d idx)) (N.mul (N.ofNat 2) v) := by
  intro d
  have hlen := length_constellation N c sch hc hs
  obtain ⟨i1, h1⟩ := exists_leastOf (N := N) _ _ hlen (pointAt N (constellation N c sch) idx) p hp true
  obtain ⟨i0, h0⟩ := exists_leastOf (N := N) _ _ hlen (pointAt N (constellation N c sch) idx) p hp false
  have hllr := llr_eq_of_leastOf h1 h0 v
  have hdiff : i1 ≠ i0 := fun h => by
    have hb1 := h1.2.1
    rw [h, h0.2.1] at hb1
    cases hb1
  cases hbit : idx.testBit (bps sch - 1 - p) with
  | true =>
    obtain rfl := hN.leastOf_own hc hs hidx hbit h1
    exact ⟨i0, h0.1, hdiff, hllr⟩
  | false =>
    obtain rfl := hN.leastOf_own hc hs hidx hbit h0
    exact ⟨i1, h1.1, hdiff.symm, hllr⟩

/-- The sign of a noise-free LLR is its bit (R147). -/
theorem NumLaws.negative_llr_point (hN : NumLaws N finite nan value) (hc : c.tableWf = true)
    (hs : unknownScheme sch = false) {idx p : Nat} {v : α} (hv : LlrSigns N (constellation N c sch) v)
    (hidx : idx < 2 ^ bps sch) (hp : p < bps sch) :
    N.negative (llr N (constellation N c sch) (bps sch) v (pointAt N (constellation N c sch) idx) p) =
      idx.testBit (bps sch - 1 - p) := by
  have hlen := length_constellation N c sch hc hs
  obtain ⟨other, hother, hne, hllr⟩ := hN.llr_point hc hs v hidx hp
  obtain ⟨hneg, hpos⟩ := hv idx other (hlen.symm ▸ hidx) (hlen.symm ▸ hother) hne
  rw [hllr]
  cases idx.testBit (bps sch - 1 - p) with
  | true => exact hneg
  | false => exact hpos

/-- The thresholded LLRs of modulated bits are the bits, padded. -/
theorem NumLaws.hardThreshold_softVals_modulateBits (hN : NumLaws N finite nan value) (hc : c.tableWf = true)
    (hs : unknownScheme sch = false) {v : α} (hv : LlrSigns N (constellation N c sch) v) (bits : List Bit) :
    hardThreshold N (softVals N c sch v (modulateBits N c sch bits)) = padBits (bps sch) bits := by
  obtain ⟨hlt, hflat⟩ := chunkIndices_spec (bps sch) (bps_pos sch) bits
  rw [hardThreshold, softVals, modulateBits, List.flatMap_map, List.map_flatMap, ← hflat]
  refine List.flatMap_congr fun i hi => ?_
  rw [List.map_map, bitsMsb]
  exact List.map_congr_left fun p hp => hN.negative_llr_point hc hs hv (hlt i hi) (List.mem_range.mp hp)

/-- One rounding per operation keeps the signs of R143's quotients at every variance in the range. -/
theorem RoundsOnce.llrSigns (hN : NumLaws N finite nan value) (hR : RoundsOnce N finite value) (hc : c.tableWf = true)
    (hs : unknownScheme sch = false) {v : α} (hv : LlrRange N finite value (constellation N c sch) v) :
    LlrSigns N (constellation N c sch) v := by
  obtain ⟨hvf, hv0, ⟨w, hwf, hwv⟩, z, hzf, hz0, hzle⟩ := hv
  have hlen := length_constellation N c sch hc hs
  have h2 := hN.standsFor_ofNat (n := 2) (by norm_num)
  have hden := hR.standsFor_mul h2 ⟨hvf, rfl⟩ ⟨hwf, by rw [hwv]; norm_num⟩
  rw [Nat.cast_ofNat] at hden
  have hden0 : 0 < 2 * value v := by linarith
  have hsign : ∀ x u, StandsFor finite value x u → value z * (2 * value v) ≤ |u| →
      (N.negative (N.div x (N.mul (N.ofNat 2) v)) = true ↔ u / (2 * value v) < 0) := by
    rintro x u ⟨hxf, rfl⟩ hle
    have := hR.sign x _ z hxf hden.1 hzf (by rw [hden.2]; exact hden0.ne') hz0
      (by rwa [hden.2, abs_of_pos hden0])
    rwa [hden.2] at this
  intro i j hi hj hne d
  obtain ⟨hif, hiv, -⟩ := hN.value_dist hc hs (hlen ▸ hi) (hlen ▸ hi)
  obtain ⟨hjf, -, hjv⟩ := hN.value_dist hc hs (hlen ▸ hi) (hlen ▸ hj)
  have hle := hzle i j hi hj hne
  have hdi : StandsFor finite value (d i) 0 := ⟨hif, hiv rfl⟩
  have hdj : StandsFor finite value (d j) (value (d j)) := ⟨hjf, rfl⟩
  have hpos : 0 < value (d j) := hjv hne
  obtain ⟨hnegf, hneg⟩ := hR.neg _ hjf
  have hminus := hR.standsFor_sub (z := N.neg (d j)) hdi hdj ⟨hnegf, hneg.trans (zero_sub _).symm⟩
  have hplus := hR.standsFor_sub (z := d j) hdj hdi (by simpa using hdj)
  refine ⟨(hsign _ _ hminus ?_).mpr ?_, ?_⟩
  · rwa [zero_sub, abs_neg, abs_of_pos hpos]
  · exact div_neg_of_neg_of_pos (by linarith) hden0
  · rw [Bool.eq_false_iff, ne_eq, hsign _ _ hplus (by rwa [sub_zero, abs_of_pos hpos]), not_lt]
    exact div_nonneg (by linarith) hden0.le

end NoiseFree

/-! ## The hard round trip through the two commands -/

theorem ceilDiv_le (n b : Nat) (hb : 2 ≤ b) : ceilDiv n b ≤ n := by
  rw [ceilDiv]
  rcases Nat.eq_zero_or_pos n with rfl | hn
  · rw [Nat.div_eq_of_lt (by omega)]
  · refine Nat.le_of_lt_succ ((Nat.div_lt_iff_lt_mul (by omega)).mpr ?_)
    have : n * 2 ≤ n * b := Nat.mul_le_mul_left n hb
    rw [Nat.succ_mul]
    omega

theorem two_le_bps (sch : Scheme) : 2 ≤ bps sch := by cases sch <;> simp [bps]

/-- `MOD` on a known scheme and ranges that fit (R125). -/
theorem execModulateOver_eq (M : NumSystem α κ) (s : State α κ) (sch : Scheme) (src len dst : Word)
    (hs : unknownScheme sch = false) (hsrc : fits src.toNat len.toNat s.cfg.bmBits = true)
    (hdst : fits dst.toNat (ceilDiv len.toNat (bps sch)) s.cfg.smSyms = true) :
    execModulateOver M sch src len dst s =
      .next ((s.putSyms M dst.toNat (modulateBits M.toNumRec s.cfg sch (s.readBits src.toNat len.toNat))).setOlen
        (ceilDiv len.toNat (bps sch))) := by
  simp only [execModulateOver, hs, hsrc, hdst, Bool.false_eq_true, if_false, Bool.and_self, Bool.not_true]

/-- `DEMOD_HARD` on a known scheme and ranges that fit (R142). -/
theorem execDemodHardOver_eq (M : NumSystem α κ) (s : State α κ) (sch : Scheme) (src len dst : Word)
    (hs : unknownScheme sch = false) (hsrc : fits src.toNat len.toNat s.cfg.smSyms = true)
    (hdst : fits dst.toNat (len.toNat * bps sch) s.cfg.bmBits = true) :
    execDemodHardOver M sch src len dst s =
      .next ((s.writeBits dst.toNat (hardBits M.toNumRec s.cfg sch (s.symsAt M src.toNat len.toNat))).setOlen
        (len.toNat * bps sch)) := by
  simp only [execDemodHardOver, hs, hsrc, hdst, Bool.false_eq_true, if_false, Bool.and_self, Bool.not_true]

/-- The bits of a written sequence stand where they were written. -/
theorem bitsAt_writeBits (s : State α κ) (a n : Nat) (xs : List Bit) : BitsAt ((s.writeBits a xs).setOlen n) a xs := by
  intro j hj
  rw [State.setOlen_readBit, State.readBit_writeBits_inside s a j xs hj, List.getD_eq_getElem _ _ hj]

/-- `DEMOD_HARD` of what `MOD` wrote writes the padded bits. -/
theorem modulate_then_demodHard (M : NumSystem α κ) (hM : StorageLaws M) {finite nan : α → Prop} {value : α → ℝ}
    (hN : NumLaws M.toNumRec finite nan value) (s : State α κ) (sch : Scheme) (src len mid dst : Word)
    (hc : s.cfg.tableWf = true) (hs : unknownScheme sch = false) (hsrc : fits src.toNat len.toNat s.cfg.bmBits = true)
    (hmid : fits mid.toNat (ceilDiv len.toNat (bps sch)) s.cfg.smSyms = true)
    (hdst : fits dst.toNat (ceilDiv len.toNat (bps sch) * bps sch) s.cfg.bmBits = true) :
    ∃ t u, execOver M (.modulate sch src len mid) s = .next t ∧
      execOver M (.demodHard sch mid (BitVec.ofNat 32 (ceilDiv len.toNat (bps sch))) dst) t = .next u ∧
      BitsAt u dst.toNat (padBits (bps sch) (s.readBits src.toNat len.toNat)) := by
  have hn : (BitVec.ofNat 32 (ceilDiv len.toNat (bps sch))).toNat = ceilDiv len.toNat (bps sch) := by
    rw [BitVec.toNat_ofNat, Nat.mod_eq_of_lt]
    exact (ceilDiv_le _ _ (two_le_bps sch)).trans_lt len.isLt
  have hmod := execModulateOver_eq M s sch src len mid hs hsrc hmid
  obtain ⟨t, ht, hcfg, hsyms⟩ : ∃ t, execModulateOver M sch src len mid s = .next t ∧ t.cfg = s.cfg ∧
      t.symsAt M mid.toNat (ceilDiv len.toNat (bps sch)) =
        modulateBits M.toNumRec s.cfg sch (s.readBits src.toNat len.toNat) := by
    refine ⟨_, hmod, rfl, ?_⟩
    have hread := State.symsAt_putSyms_same s hM mid.toNat
      (modulateBits M.toNumRec s.cfg sch (s.readBits src.toNat len.toNat))
    rwa [length_modulateBits, State.length_readBits] at hread
  rw [← hcfg] at hmid hdst
  have hdemod := execDemodHardOver_eq M t sch mid _ dst hs (hn.symm ▸ hmid) (hn.symm ▸ hdst)
  refine ⟨t, _, ht, hdemod, ?_⟩
  rw [hn, hsyms, hcfg, hN.hardBits_modulateBits hc hs]
  exact bitsAt_writeBits t _ _ _

/-- Settles O30: a point is nearest to itself, and the bits of the chunks are the padded sequence. -/
theorem hardDemodulationInvertsModulation : Obligations.HardDemodulationInvertsModulation := by
  unfold Obligations.HardDemodulationInvertsModulation
  intro c sch bits hc hs padded
  refine ⟨fun α N finite nan value hN => hN.hardBits_modulateBits hc hs bits, padBits_of_dvd _ (bps_pos sch) bits, ?_⟩
  rintro α κ I finite nan value hN hM s src len mid dst rfl rfl hsrc hmid hdst
  exact modulate_then_demodHard I.num hM hN s sch src len mid dst hc hs hsrc hmid hdst

end Sys2Proof.Machine
end

section
/-! SUPPORT. The exact reals: they meet the laws of R17, two points of a constellation are at least `2/√E` apart, and the two
demodulators agree (spec/42_demodulator.md R147). -/

namespace Sys2Proof.Machine

/-! ## The laws -/

/-- The exact reals meet N1 to N5 (R17). -/
theorem exactReals_numLaws : NumLaws exactReals (fun _ => True) (fun _ => False) id where
  zero := ⟨trivial, rfl⟩
  isZero x _ := decide_eq_true_iff
  n1 a b _ _ := decide_eq_true_iff
  n2Zero a b c d _ _ _ _ hab hcd := by
    obtain rfl : a = b := hab
    obtain rfl : c = d := hcd
    exact ⟨trivial, by simp [exactReals]⟩
  n2 c sch i j hc hs hi hj := by
    obtain ⟨hzero, hpos⟩ := exactReals_dist c sch i j hc hs hi hj
    exact ⟨trivial, fun h => decide_eq_true (hzero h), fun h => decide_eq_true (hpos h)⟩
  n3 x hx := by
    have hx0 : x = 0 := by simpa [exactReals] using hx
    simp [NumRec.negative, exactReals, hx0]
  n4 n _ := ⟨trivial, rfl⟩
  n5 a _ := ⟨trivial, add_zero a⟩

/-! ## Levels -/

/-- The levels of an admitted table are odd integers from −(m−1) to m−1, a different one for each index. -/
theorem levels_mem_levelSet (c : Config) (sch : Scheme) (hc : c.tableWf = true) (hs : unknownScheme sch = false) :
    ∀ v ∈ levels c sch, v ∈ levelSet (2 ^ (bps sch / 2)) := by
  have hall : ∀ (m : Nat) (t : List Int), levelsWf m t = true → ∀ v ∈ t, v ∈ levelSet m := by
    intro m t h v hv
    simp only [levelsWf, Bool.and_eq_true, beq_iff_eq, List.all_eq_true, List.contains_iff_mem] at h
    obtain ⟨⟨hlen, hmem⟩, -⟩ := h
    have hperm := (List.subperm_of_subset (nodup_levelSet m) hmem).perm_of_length_le (by simp [levelSet, hlen])
    exact hperm.mem_iff.mpr hv
  simp only [Config.tableWf, Bool.and_eq_true] at hc
  obtain ⟨⟨⟨h2, h4⟩, h8⟩, h16⟩ := hc
  cases sch with
  | qpsk => exact hall 2 _ h2
  | qam16 => exact hall 4 _ h4
  | qam64 => exact hall 8 _ h8
  | qam256 => exact hall 16 _ h16
  | unknown code => cases hs

/-- Two levels of an admitted table at different indices are at least 2 apart. -/
theorem two_le_abs_levels_sub (c : Config) (sch : Scheme) (hc : c.tableWf = true) (hs : unknownScheme sch = false)
    {a b : Nat} (ha : a < (levels c sch).length) (hb : b < (levels c sch).length) (hab : a ≠ b) :
    2 ≤ |(levels c sch)[a] - (levels c sch)[b]| := by
  have hne : (levels c sch)[a] ≠ (levels c sch)[b] := fun h => hab ((nodup_levels c sch hc).getElem_inj_iff.mp h)
  obtain ⟨i, -, hi⟩ := List.mem_map.mp (levels_mem_levelSet c sch hc hs _ (List.getElem_mem ha))
  obtain ⟨j, -, hj⟩ := List.mem_map.mp (levels_mem_levelSet c sch hc hs _ (List.getElem_mem hb))
  rw [← hi, ← hj] at hne ⊢
  rw [le_abs]
  omega

theorem energy_pos (sch : Scheme) : 0 < energy sch := by cases sch <;> simp [energy]

/-- Two different points of an admitted constellation have a distance of at least `4/E`. -/
theorem exactReals_dist_ge (c : Config) (sch : Scheme) (hc : c.tableWf = true) (hs : unknownScheme sch = false) {i j : Nat}
    (hi : i < 2 ^ bps sch) (hj : j < 2 ^ bps sch) (hij : i ≠ j) :
    4 / (energy sch : ℝ) ≤ distTo exactReals (constellation exactReals c sch)
      (pointAt exactReals (constellation exactReals c sch) i) j := by
  obtain ⟨hi1, hi2, ei⟩ := pointAt_constellation exactReals c sch i hc hs hi
  obtain ⟨hj1, hj2, ej⟩ := pointAt_constellation exactReals c sch j hc hs hj
  have hl := length_levels c sch hc hs
  have hE : (0 : ℝ) < energy sch := by exact_mod_cast energy_pos sch
  have haxis : ∀ a b, a < 2 ^ (bps sch / 2) → b < 2 ^ (bps sch / 2) → a ≠ b →
      4 / (energy sch : ℝ) ≤
        ((axis exactReals c sch).getD a exactReals.zero - (axis exactReals c sch).getD b exactReals.zero) ^ 2 := by
    intro a b ha hb hab
    rw [exactReals_axis c sch a (by omega), exactReals_axis c sch b (by omega), div_sub_div_same, div_pow,
      Real.sq_sqrt hE.le]
    have h2 : (2 : ℝ) ≤ |((levels c sch)[a] : ℝ) - (levels c sch)[b]| := by
      exact_mod_cast two_le_abs_levels_sub c sch hc hs (by omega) (by omega) hab
    have h4 : (4 : ℝ) ≤ (((levels c sch)[a] : ℝ) - (levels c sch)[b]) ^ 2 := by
      rw [← sq_abs]
      nlinarith
    gcongr
  have hdist : distTo exactReals (constellation exactReals c sch)
      (pointAt exactReals (constellation exactReals c sch) i) j =
      ((axis exactReals c sch).getD (i % 2 ^ (bps sch / 2)) exactReals.zero -
        (axis exactReals c sch).getD (j % 2 ^ (bps sch / 2)) exactReals.zero) ^ 2 +
      ((axis exactReals c sch).getD (i / 2 ^ (bps sch / 2)) exactReals.zero -
        (axis exactReals c sch).getD (j / 2 ^ (bps sch / 2)) exactReals.zero) ^ 2 := by
    rw [distTo, ei, ej, sq, sq]
    rfl
  rw [hdist]
  by_cases hre : i % 2 ^ (bps sch / 2) = j % 2 ^ (bps sch / 2)
  · have him : i / 2 ^ (bps sch / 2) ≠ j / 2 ^ (bps sch / 2) := fun hd => hij (by
      rw [← Nat.div_add_mod i (2 ^ (bps sch / 2)), ← Nat.div_add_mod j (2 ^ (bps sch / 2)), hre, hd])
    exact (haxis _ _ hi2 hj2 him).trans (le_add_of_nonneg_left (sq_nonneg _))
  · exact (haxis _ _ hi1 hj1 hre).trans (le_add_of_nonneg_right (sq_nonneg _))

/-! ## The two demodulators -/

theorem exactReals_lt (a b : ℝ) : exactReals.lt a b = true ↔ a < b := decide_eq_true_iff

theorem exactReals_negative (x : ℝ) : exactReals.negative x = true ↔ x < 0 := decide_eq_true_iff

/-- The quotient of R143 in exact reals. -/
theorem exactReals_quotient (a b v : ℝ) :
    exactReals.div (exactReals.sub a b) (exactReals.mul (exactReals.ofNat 2) v) = (a - b) / (2 * v) := by
  simp [exactReals]

/-- A kept distance is the least of its subset. -/
theorem LeastOf.le {pts : List (SymOf ℝ)} {b p i : Nat} {r : SymOf ℝ} {v : Bit}
    (h : LeastOf exactReals pts b r p v i) {k : Nat} (hk : k < 2 ^ b) (hbit : k.testBit (b - 1 - p) = v) :
    distTo exactReals pts r i ≤ distTo exactReals pts r k := by
  obtain ⟨-, -, -, hleast⟩ := h
  have hnot := hleast (fun _ => True) exactReals_numLaws.ltOrders (fun _ _ => trivial) k hk hbit
  rw [Bool.eq_false_iff, ne_eq, exactReals_lt] at hnot
  exact not_lt.mp hnot

/-- The nearest point is no farther than any other. -/
theorem exactReals_nearest_le {pts : List (SymOf ℝ)} (r : SymOf ℝ) (hpts : pts ≠ []) {k : Nat} (hk : k < pts.length) :
    distTo exactReals pts r (nearest exactReals pts r) ≤ distTo exactReals pts r k := by
  obtain ⟨-, hmin, -⟩ := exactReals_numLaws.nearest_firstMinimum pts r hpts fun _ _ => trivial
  exact not_lt.mp fun hlt => hmin k hk ((exactReals_lt _ _).mpr hlt)

/-- The sign of an LLR agrees with the bit of the nearest index, for every received symbol (R147). -/
theorem exactReals_llr_sign {pts : List (SymOf ℝ)} {b : Nat} (hlen : pts.length = 2 ^ b) {p : Nat} (hp : p < b) {v : ℝ}
    (hv : 0 < v) (r : SymOf ℝ) :
    ((nearest exactReals pts r).testBit (b - 1 - p) = true → llr exactReals pts b v r p ≤ 0) ∧
    ((nearest exactReals pts r).testBit (b - 1 - p) = false → 0 ≤ llr exactReals pts b v r p) ∧
    (llr exactReals pts b v r p = 0 →
      minDist exactReals r (subsetAt b p true pts) = minDist exactReals r (subsetAt b p false pts)) := by
  have hpts : pts ≠ [] := by
    rw [← List.length_pos_iff, hlen]
    exact Nat.two_pow_pos _
  have hw : nearest exactReals pts r < 2 ^ b :=
    hlen ▸ (exactReals_numLaws.nearest_firstMinimum pts r hpts fun _ _ => trivial).1
  obtain ⟨i1, h1⟩ := exists_leastOf (N := exactReals) pts b hlen r p hp true
  obtain ⟨i0, h0⟩ := exists_leastOf (N := exactReals) pts b hlen r p hp false
  rw [llr_eq_of_leastOf h1 h0, exactReals_quotient]
  refine ⟨fun hbit => ?_, fun hbit => ?_, fun hzero => ?_⟩
  · have hle := (h1.le hw hbit).trans (exactReals_nearest_le r hpts (hlen.symm ▸ h0.1))
    exact div_nonpos_of_nonpos_of_nonneg (by linarith) (by linarith)
  · have hle := (h0.le hw hbit).trans (exactReals_nearest_le r hpts (hlen.symm ▸ h1.1))
    exact div_nonneg (by linarith) (by linarith)
  · rw [div_eq_zero_iff] at hzero
    have heq : distTo exactReals pts r i1 = distTo exactReals pts r i0 := by
      rcases hzero with h | h <;> linarith
    rw [h1.2.2.1, h0.2.2.1, heq]

section NoiseFree

variable {c : Config} {sch : Scheme}

/-- The magnitude and the sign of a noise-free LLR (R147). -/
theorem exactReals_llr_point (hc : c.tableWf = true) (hs : unknownScheme sch = false) {v : ℝ} (hv : 0 < v) {idx p : Nat}
    (hidx : idx < 2 ^ bps sch) (hp : p < bps sch) :
    let l := llr exactReals (constellation exactReals c sch) (bps sch) v
      (pointAt exactReals (constellation exactReals c sch) idx) p
    2 / (energy sch * v) ≤ |l| ∧ (idx.testBit (bps sch - 1 - p) = true ↔ l < 0) := by
  intro l
  obtain ⟨other, hother, hne, hl⟩ := exactReals_numLaws.llr_point hc hs v hidx hp
  have hE : (0 : ℝ) < energy sch := by exact_mod_cast energy_pos sch
  have hzero := (exactReals_numLaws.value_dist hc hs hidx hidx).2.1 rfl
  have hge := exactReals_dist_ge c sch hc hs hidx hother hne
  simp only [id_eq] at hzero
  simp only [exactReals_quotient, hzero] at hl
  generalize distTo exactReals (constellation exactReals c sch)
    (pointAt exactReals (constellation exactReals c sch) idx) other = d at hge hl
  have hd : 0 < d := lt_of_lt_of_le (by positivity) hge
  have hbound : 2 / (energy sch * v) ≤ d / (2 * v) := by
    calc 2 / (energy sch * v) = 4 / (energy sch : ℝ) / (2 * v) := by field_simp; norm_num
      _ ≤ d / (2 * v) := by gcongr
  have hpos : 0 < d / (2 * v) := by positivity
  change l = _ at hl
  cases hbit : idx.testBit (bps sch - 1 - p) with
  | true =>
    have hl' : l = -(d / (2 * v)) := by rw [hl, hbit, if_pos rfl, zero_sub, neg_div]
    rw [hl', abs_neg, abs_of_pos hpos]
    exact ⟨hbound, iff_of_true rfl (by linarith)⟩
  | false =>
    have hl' : l = d / (2 * v) := by rw [hl, hbit, if_neg Bool.false_ne_true, sub_zero]
    rw [hl', abs_of_pos hpos]
    exact ⟨hbound, iff_of_false Bool.false_ne_true (by linarith)⟩

/-- Exact reals keep the signs of R143's quotients at every variance above zero. -/
theorem exactReals_llrSigns (hc : c.tableWf = true) (hs : unknownScheme sch = false) {v : ℝ} (hv : 0 < v) :
    LlrSigns exactReals (constellation exactReals c sch) v := by
  have hlen := length_constellation exactReals c sch hc hs
  intro i j hi hj hne d
  have hzero : d i = 0 := (exactReals_numLaws.value_dist hc hs (hlen ▸ hi) (hlen ▸ hi)).2.1 rfl
  have hpos : 0 < d j := (exactReals_numLaws.value_dist hc hs (hlen ▸ hi) (hlen ▸ hj)).2.2 hne
  rw [exactReals_negative, Bool.eq_false_iff, ne_eq, exactReals_negative, exactReals_quotient, exactReals_quotient, hzero]
  exact ⟨div_neg_of_neg_of_pos (by linarith) (by linarith), not_lt.mpr (div_nonneg (by linarith) (by linarith))⟩

end NoiseFree

/-- Settles O31: the kept distances of the two subsets, one of which is that of the nearest point. -/
theorem noiseFreeLlrSignsAreTheBits : Obligations.NoiseFreeLlrSignsAreTheBits := by
  unfold Obligations.NoiseFreeLlrSignsAreTheBits
  intro c sch p hc hs hp pts llrOf bit
  refine ⟨fun v r hv => exactReals_llr_sign (length_constellation exactReals c sch hc hs) hp hv r,
    fun v idx hv hidx => exactReals_llr_point hc hs hv hidx hp, ?_, fun v hv => exactReals_llrSigns hc hs hv, ?_⟩
  · exact fun α N finite nan value hN v idx hidx hv => hN.negative_llr_point hc hs hv hidx hp
  · exact fun α N finite nan value hN hR v hv => hR.llrSigns hN hc hs hv

/-! ## The LDPC link -/

/-- The first `k` bits of a codeword that was sent without noise are the data (R195, R199). -/
theorem NumLaws.ldpcLink {α : Type} {N : NumRec α} {finite nan : α → Prop} {value : α → ℝ}
    (hN : NumLaws N finite nan value) {c : Config} {sch : Scheme} (hc : c.tableWf = true) (hs : unknownScheme sch = false)
    {v : α} (hv : LlrSigns N (constellation N c sch) v) {n k : Nat} (dc : Nat) {d : List Bit} (hd : d.length = k)
    (hk : k ≤ n) :
    (hardThreshold N ((softVals N c sch v (modulateBits N c sch (ldpcEncode n k dc d))).take n)).take k = d := by
  have hword := length_ldpcEncode n k dc d hk
  have hdata : fitBits k d = d := by
    rw [fitBits, hd, Nat.sub_self, List.replicate_zero, List.append_nil, ← hd, List.take_length]
  have hthreshold := hN.hardThreshold_softVals_modulateBits hc hs hv (ldpcEncode n k dc d)
  rw [hardThreshold] at hthreshold ⊢
  rw [List.map_take, hthreshold, padBits, List.take_append_of_le_length hword.ge, List.take_of_length_le hword.le,
    ldpcEncode, hdata, List.take_append_of_le_length hd.ge, List.take_of_length_le hd.le]

/-- Settles O47: the signs of the LLRs are the codeword, whose first bits are the data. -/
theorem noiseFreeLdpcLinkReturnsTheData : Obligations.NoiseFreeLdpcLinkReturnsTheData := by
  unfold Obligations.NoiseFreeLdpcLinkReturnsTheData
  intro c sch n k dc d hc hs hd hk word
  refine ⟨fun v hv => exactReals_numLaws.ldpcLink hc hs (exactReals_llrSigns hc hs hv) dc hd hk, ?_, ?_⟩
  · exact fun α N finite nan value hN v hv => hN.ldpcLink hc hs hv dc hd hk
  · exact fun α N finite nan value hN hR v hv => hN.ldpcLink hc hs (hR.llrSigns hN hc hs hv) dc hd hk

end Sys2Proof.Machine
end

section
/-! SUPPORT. Rounding in binary64 (spec/00_scope.md R16): the real value of a pattern, what a rounded fraction or root is, and
that every operation gives the exact result or a neighbour of it. -/

namespace Sys2Proof.Machine

/-! ## The real value of a pattern -/

theorem magInf_lt : magInf < 2 ^ 63 := by decide

theorem Num64.isFinite_iff (x : Num64) : x.isFinite = true ↔ x.mag < magInf := decide_eq_true_iff

theorem Num64.isZero_iff (x : Num64) : x.isZero = true ↔ x.mag = 0 := decide_eq_true_iff

theorem realOf_eq_units (x : Num64) : realOf x = (x.units : ℝ) / unitsPerOne := by
  rw [realOf, Num64.toRat, Rat.cast_div, Rat.cast_intCast, Rat.cast_natCast]

theorem realOf_of_sign {x : Num64} (h : x.sign = true) : realOf x = -((magUnits x.mag : ℝ) / unitsPerOne) := by
  rw [realOf_eq_units, Num64.units, if_pos h]
  push_cast
  exact neg_div _ _

theorem realOf_of_not_sign {x : Num64} (h : x.sign = false) : realOf x = (magUnits x.mag : ℝ) / unitsPerOne := by
  rw [realOf_eq_units, Num64.units, if_neg (by simp [h])]
  push_cast
  rfl

/-- The magnitude of a value, in units. -/
theorem abs_realOf_mul (x : Num64) : |realOf x| * unitsPerOne = magUnits x.mag := by
  have hU := unitsPerOne_pos
  have h0 : 0 ≤ (magUnits x.mag : ℝ) / unitsPerOne := div_nonneg (Nat.cast_nonneg _) (Nat.cast_nonneg _)
  have habs : |realOf x| = (magUnits x.mag : ℝ) / unitsPerOne := by
    cases h : x.sign with
    | true => rw [realOf_of_sign h, abs_neg, abs_of_nonneg h0]
    | false => rw [realOf_of_not_sign h, abs_of_nonneg h0]
  rw [habs, div_mul_cancel₀ _ hU.ne']

theorem magUnits_zero : magUnits 0 = 0 := rfl

theorem magUnits_eq_zero_iff (k : Nat) : magUnits k = 0 ↔ k = 0 := by
  rw [← magUnits_zero]
  exact magUnits_strictMono.injective.eq_iff

theorem realOf_eq_zero_iff (x : Num64) : realOf x = 0 ↔ x.mag = 0 := by
  rw [← magUnits_eq_zero_iff, ← abs_eq_zero, ← mul_eq_zero_iff_right unitsPerOne_pos.ne', abs_realOf_mul, Nat.cast_eq_zero]

/-- A sign bit that is set makes a value that is not zero negative. -/
theorem sign_iff_of_ne_zero {x : Num64} (h : realOf x ≠ 0) : x.sign = true ↔ realOf x < 0 := by
  have hU := unitsPerOne_pos
  have h0 : 0 ≤ (magUnits x.mag : ℝ) / unitsPerOne := div_nonneg (Nat.cast_nonneg _) (Nat.cast_nonneg _)
  cases hs : x.sign with
  | true =>
    rw [realOf_of_sign hs] at h ⊢
    exact iff_of_true rfl (lt_of_le_of_ne (neg_nonpos.mpr h0) h)
  | false =>
    rw [realOf_of_not_sign hs]
    exact iff_of_false Bool.false_ne_true (not_lt.mpr h0)

theorem realOf_nonneg_of_not_sign {x : Num64} (h : x.sign = false) : 0 ≤ realOf x := by
  rw [realOf_of_not_sign h]
  exact div_nonneg (Nat.cast_nonneg _) (Nat.cast_nonneg _)

/-- Two finite values are ordered as their places on the line. -/
theorem order_lt_iff (a b : Num64) : a.order < b.order ↔ realOf a < realOf b := by
  have hU := unitsPerOne_pos
  have hmono : ∀ i j : Nat, (magUnits i : ℝ) < magUnits j ↔ i < j := fun i j => by
    rw [Nat.cast_lt]
    exact magUnits_strictMono.lt_iff_lt
  have hpos : ∀ k : Nat, (0 : ℝ) < magUnits k ↔ 0 < k := fun k => by
    simpa [magUnits_zero] using hmono 0 k
  have h0 : ∀ k : Nat, (0 : ℝ) ≤ magUnits k := fun k => Nat.cast_nonneg _
  rw [realOf_eq_units, realOf_eq_units, div_lt_div_iff_of_pos_right hU]
  cases ha : a.sign <;> cases hb : b.sign <;> simp only [Num64.order, Num64.units, ha, hb, if_true, if_false,
    Bool.false_eq_true, Int.cast_neg, Int.cast_natCast]
  · rw [hmono]
    omega
  · exact iff_of_false (by omega) (by linarith [h0 a.mag, h0 b.mag])
  · have hsum : -(magUnits a.mag : ℝ) < magUnits b.mag ↔ (0 : ℝ) < magUnits a.mag ∨ (0 : ℝ) < magUnits b.mag := by
      constructor
      · intro h
        by_contra hc
        push Not at hc
        linarith
      · rintro (h | h) <;> linarith [h0 a.mag, h0 b.mag]
    rw [hsum, hpos, hpos]
    omega
  · rw [neg_lt_neg_iff, neg_lt_neg_iff, hmono]
    omega

/-! ## Unary minus -/

theorem Num64.mag_neg (x : Num64) : (Num64.neg x).mag = x.mag := by
  have h : ((Num64.neg x).bits.setWidth 63).toNat = (x.bits.setWidth 63).toNat := by
    rw [Num64.neg, BitVec.setWidth_xor, show (0x8000000000000000#64).setWidth 63 = 0#63 by decide, BitVec.xor_zero]
  simpa [Num64.mag, BitVec.toNat_setWidth] using h

theorem Num64.sign_neg (x : Num64) : (Num64.neg x).sign = !x.sign := by
  simp [Num64.sign, Num64.neg, BitVec.msb_xor, show (0x8000000000000000#64).msb = true by decide]

theorem Num64.isFinite_neg (x : Num64) : (Num64.neg x).isFinite = x.isFinite := by
  rw [Num64.isFinite, Num64.isFinite, Num64.mag_neg]

theorem Num64.units_neg (x : Num64) : (Num64.neg x).units = -x.units := by
  cases h : x.sign <;> simp [Num64.units, Num64.sign_neg, Num64.mag_neg, h]

theorem realOf_neg (x : Num64) : realOf (Num64.neg x) = -realOf x := by
  rw [realOf_eq_units, realOf_eq_units, Num64.units_neg, Int.cast_neg, neg_div]

/-! ## Neighbours -/

/-- A pattern made of the sign of `v` and one of two neighbouring magnitudes around that of `v` is next to it. -/
theorem nextTo_ofMag {v : ℝ} {neg : Bool} {k k' : Nat} (hk : k < magInf) (hk' : k' = k ∨ k' = k + 1)
    (hlo : (magUnits k : ℝ) ≤ |v| * unitsPerOne) (hhi : k + 1 < magInf → |v| * unitsPerOne ≤ magUnits (k + 1))
    (hsign : v ≠ 0 → (neg = true ↔ v < 0)) : NextTo v (Num64.ofMag neg k') := by
  have hlt := magInf_lt
  refine ⟨⟨k, hk, hlo, hhi, ?_⟩, ?_⟩
  · rwa [Num64.ofMag_mag _ _ (by omega)]
  · rwa [Num64.ofMag_sign _ _ (by omega)]

/-- It rounds `v` where the magnitude is that of `v` whenever binary64 has it. -/
theorem roundsTo_ofMag {v : ℝ} {neg : Bool} {k k' : Nat} (hk : k < magInf) (hk' : k' = k ∨ k' = k + 1)
    (hlo : (magUnits k : ℝ) ≤ |v| * unitsPerOne) (hhi : k + 1 < magInf → |v| * unitsPerOne ≤ magUnits (k + 1))
    (hsign : v ≠ 0 → (neg = true ↔ v < 0))
    (hexact : ∀ m, m < magInf → (magUnits m : ℝ) = |v| * unitsPerOne → k' = m) : RoundsTo v (Num64.ofMag neg k') := by
  refine ⟨nextTo_ofMag hk hk' hlo hhi hsign, fun z hz hzv => ?_⟩
  have hlt := magInf_lt
  have hzmag := (Num64.isFinite_iff z).mp hz
  have hmag : (Num64.ofMag neg k').mag = z.mag := by
    rw [Num64.ofMag_mag _ _ (by omega)]
    exact hexact z.mag hzmag (by rw [← hzv, abs_realOf_mul])
  refine ⟨(Num64.isFinite_iff _).mpr (hmag ▸ hzmag), ?_⟩
  by_cases hv : v = 0
  · rw [hv] at hzv ⊢
    rw [realOf_eq_zero_iff] at hzv ⊢
    rw [hmag, hzv]
  · have hsame : (Num64.ofMag neg k').sign = z.sign := by
      rw [Num64.ofMag_sign _ _ (by omega), Bool.eq_iff_iff, hsign hv, sign_iff_of_ne_zero (hzv ▸ hv), hzv]
    rw [← hzv, realOf_eq_units, realOf_eq_units, Num64.units, Num64.units, hmag, hsame]

theorem Rounding.pick_eq (r : Rounding) (k : Nat) (mid : Ordering) (away : Bool) :
    r.pick k mid away = k ∨ r.pick k mid away = k + 1 := by
  unfold Rounding.pick
  cases r with
  | free => cases away <;> simp
  | nearestEven =>
    cases mid with
    | lt => exact .inl rfl
    | gt => exact .inr rfl
    | eq =>
      dsimp only
      split
      · exact .inl rfl
      · exact .inr rfl

theorem floorMag_eq_of_bounds {n k : Nat} (h1 : magUnits k ≤ n) (h2 : n < magUnits (k + 1)) : floorMag n = k := by
  obtain ⟨h3, h4⟩ := floorMag_spec n
  have := magUnits_strictMono.lt_iff_lt.mp (h1.trans_lt h4)
  have := magUnits_strictMono.lt_iff_lt.mp (h3.trans_lt h2)
  omega

theorem floorMag_magUnits (k : Nat) : floorMag (magUnits k) = k :=
  floorMag_eq_of_bounds le_rfl (magUnits_lt_succ k)

/-- The lower neighbour of a fraction `p/q` of units. -/
def fracFloor (p q : Nat) : Nat := min (floorMag (p / q)) (magInf - 1)

/-- What the lower neighbour of a fraction is. -/
theorem fracFloor_spec (p q : Nat) (hq : 0 < q) :
    fracFloor p q < magInf ∧ magUnits (fracFloor p q) * q ≤ p ∧
      (fracFloor p q + 1 < magInf → p < magUnits (fracFloor p q + 1) * q) ∧
      ∀ m, m < magInf → magUnits m * q = p → fracFloor p q = m := by
  obtain ⟨h1, h2⟩ := floorMag_spec (p / q)
  have hinf : 0 < magInf := by decide
  refine ⟨by unfold fracFloor; omega, ?_, fun h => ?_, fun m hm hp => ?_⟩
  · rw [← Nat.le_div_iff_mul_le hq]
    exact (magUnits_strictMono.monotone (Nat.min_le_left _ _)).trans h1
  · have hfloor : fracFloor p q = floorMag (p / q) := by
      unfold fracFloor at h ⊢
      omega
    rw [hfloor]
    exact (Nat.div_lt_iff_lt_mul hq).mp h2
  · rw [fracFloor, ← hp, Nat.mul_div_cancel _ hq, floorMag_magUnits]
    omega

/-- A rounded fraction is made of its lower neighbour or the next pattern, the lower one where it is exact. -/
theorem ofFrac_eq (r : Rounding) (neg : Bool) (p q : Nat) :
    ∃ k', Num64.ofFrac r neg p q = Num64.ofMag neg k' ∧ (k' = fracFloor p q ∨ k' = fracFloor p q + 1) ∧
      (magUnits (fracFloor p q) * q = p → k' = fracFloor p q) := by
  refine ⟨_, rfl, ?_, fun h => if_pos h⟩
  split
  · exact .inl rfl
  · exact Rounding.pick_eq r _ _ _

/-- A rounded fraction rounds the real of its sign and magnitude. -/
theorem roundsTo_ofFrac (r : Rounding) {neg : Bool} {p q : Nat} (hq : 0 < q) {v : ℝ} (hv : |v| * unitsPerOne * q = p)
    (hsign : v ≠ 0 → (neg = true ↔ v < 0)) : RoundsTo v (Num64.ofFrac r neg p q) := by
  obtain ⟨hlt, hle, hnext, hexact⟩ := fracFloor_spec p q hq
  obtain ⟨k', hk', hcases, hk⟩ := ofFrac_eq r neg p q
  have hq' : (0 : ℝ) < q := by exact_mod_cast hq
  rw [hk']
  refine roundsTo_ofMag hlt hcases ?_ (fun h => ?_) hsign fun m hm hmv => ?_
  · refine le_of_mul_le_mul_right ?_ hq'
    rw [hv]
    exact_mod_cast hle
  · refine le_of_mul_le_mul_right ?_ hq'
    rw [hv]
    exact_mod_cast (hnext h).le
  · have hp : magUnits m * q = p := by
      rw [← hmv] at hv
      exact_mod_cast hv
    have hm' := hexact m hm hp
    rw [hk (by rw [hm', hp]), hm']

/-! ## The operations -/

theorem Num64.lift_of_finite (op : NumOp) {a b : Num64} (f : Num64) (ha : a.isFinite = true) (hb : b.isFinite = true) :
    Num64.lift op a b f = f := by
  have hnan : ∀ x : Num64, x.isFinite = true → x.isNaN = false := fun x hx => by
    rw [Num64.isFinite_iff] at hx
    rw [Num64.isNaN, decide_eq_false_iff_not]
    omega
  simp [Num64.lift, hnan a ha, hnan b hb, ha, hb]

theorem roundsTo_add (r : Rounding) {a b : Num64} (ha : a.isFinite = true) (hb : b.isFinite = true) :
    RoundsTo (realOf a + realOf b) (Num64.add r a b) := by
  have hU := unitsPerOne_pos
  have hv : realOf a + realOf b = ((a.units + b.units : Int) : ℝ) / unitsPerOne := by
    rw [realOf_eq_units, realOf_eq_units, Int.cast_add, add_div]
  rw [Num64.add, Num64.lift_of_finite _ _ ha hb, hv]
  generalize a.units + b.units = n
  dsimp only
  split
  · rename_i h0
    have hinf : 0 < magInf := by decide
    rw [h0, Int.cast_zero, zero_div]
    refine roundsTo_ofMag (k := 0) hinf (.inl rfl) ?_ (fun _ => ?_) (fun h => absurd rfl h)
      fun m _ hm => ?_
    · rw [abs_zero, zero_mul, magUnits_zero, Nat.cast_zero]
    · rw [abs_zero, zero_mul]
      exact Nat.cast_nonneg _
    · rw [abs_zero, zero_mul, Nat.cast_eq_zero, magUnits_eq_zero_iff] at hm
      exact hm.symm
  · refine roundsTo_ofFrac r Nat.one_pos ?_ fun _ => ?_
    · rw [abs_div, abs_of_pos hU, div_mul_cancel₀ _ hU.ne', Nat.cast_one, mul_one, Nat.cast_natAbs, Int.cast_abs]
    · rw [decide_eq_true_iff, div_lt_iff₀ hU, zero_mul, Int.cast_lt_zero]

theorem roundsTo_sub (r : Rounding) {a b : Num64} (ha : a.isFinite = true) (hb : b.isFinite = true) :
    RoundsTo (realOf a - realOf b) (Num64.sub r a b) := by
  have h := roundsTo_add r ha ((Num64.isFinite_neg b).trans hb)
  rwa [realOf_neg, ← sub_eq_add_neg] at h

/-- The sign of a product or a quotient. -/
theorem sign_bne_iff {a b : Num64} (ha : realOf a ≠ 0) (hb : realOf b ≠ 0) :
    (a.sign != b.sign) = true ↔ realOf a * realOf b < 0 := by
  rw [bne_iff_ne, ne_eq, Bool.eq_iff_iff, sign_iff_of_ne_zero ha, sign_iff_of_ne_zero hb, mul_neg_iff]
  rcases lt_or_gt_of_ne ha with h1 | h1 <;> rcases lt_or_gt_of_ne hb with h2 | h2 <;> simp [h1, h2, h1.not_gt, h2.not_gt]

theorem roundsTo_mul (r : Rounding) {a b : Num64} (ha : a.isFinite = true) (hb : b.isFinite = true) :
    RoundsTo (realOf a * realOf b) (Num64.mul r a b) := by
  have hU := unitsPerOne_pos
  rw [Num64.mul, Num64.lift_of_finite _ _ ha hb]
  refine roundsTo_ofFrac r (by exact_mod_cast hU) ?_ fun h => ?_
  · rw [Nat.cast_mul, ← abs_realOf_mul a, ← abs_realOf_mul b, abs_mul]
    ring
  · exact sign_bne_iff (left_ne_zero_of_mul h) (right_ne_zero_of_mul h)

theorem roundsTo_div (r : Rounding) {a b : Num64} (ha : a.isFinite = true) (hb : b.isFinite = true)
    (hb0 : b.isZero = false) : RoundsTo (realOf a / realOf b) (Num64.div r a b) := by
  have hU := unitsPerOne_pos
  have hmag : b.mag ≠ 0 := fun h => by rw [(Num64.isZero_iff b).mpr h] at hb0; cases hb0
  have hb' : realOf b ≠ 0 := fun h => hmag ((realOf_eq_zero_iff b).mp h)
  rw [Num64.div, Num64.lift_of_finite _ _ ha hb, if_neg (by simp [hb0])]
  refine roundsTo_ofFrac r (Nat.pos_of_ne_zero fun h => hmag ((magUnits_eq_zero_iff _).mp h)) ?_ fun h => ?_
  · have habs : |realOf b| ≠ 0 := abs_ne_zero.mpr hb'
    rw [Nat.cast_mul, ← abs_realOf_mul a, ← abs_realOf_mul b, abs_div]
    field_simp
  · rw [div_ne_zero_iff] at h
    rw [sign_bne_iff h.1 h.2, mul_neg_iff, div_neg_iff]

theorem roundsTo_ofNat (r : Rounding) (n : Nat) : RoundsTo n (Num64.ofNat r n) := by
  refine roundsTo_ofFrac r Nat.one_pos ?_ fun _ => ?_
  · rw [abs_of_nonneg (Nat.cast_nonneg n), Nat.cast_one, mul_one, Nat.cast_mul]
  · exact iff_of_false Bool.false_ne_true (not_lt.mpr (Nat.cast_nonneg n))

end Sys2Proof.Machine
end

section
/-! SUPPORT. The root and the decimal constants of binary64 (spec/00_scope.md R16, spec/43_awgn.md R168). -/

namespace Sys2Proof.Machine

/-! ## The root -/

theorem unitsPerOne_le_magInf : unitsPerOne ≤ magUnits magInf := by decide +kernel

/-- The floor of the square root, once. -/
theorem isqrt_spec (n : Nat) : isqrt n * isqrt n ≤ n ∧ n < (isqrt n + 1) * (isqrt n + 1) := isqrtFrom_spec _ n

theorem isqrt_mul_self (m : Nat) : isqrt (m * m) = m := by
  obtain ⟨h1, h2⟩ := isqrt_spec (m * m)
  have := Nat.mul_self_le_mul_self_iff.mp h1
  have := Nat.mul_self_lt_mul_self_iff.mp h2
  omega

/-- A rounded root is made of the lower neighbour of the integer root or the next pattern, the lower one where it is exact. -/
theorem ofRoot_eq (r : Rounding) (n : Nat) :
    ∃ k', Num64.ofRoot r n = Num64.ofMag false k' ∧ (k' = floorMag (isqrt n) ∨ k' = floorMag (isqrt n) + 1) ∧
      (magUnits (floorMag (isqrt n)) * magUnits (floorMag (isqrt n)) = n → k' = floorMag (isqrt n)) := by
  refine ⟨_, rfl, ?_, fun h => if_pos h⟩
  split
  · exact .inl rfl
  · exact Rounding.pick_eq r _ _ _

/-- A rounded root of `m` units of units rounds the real root. -/
theorem roundsTo_ofRoot (r : Rounding) {m : Nat} (hm : m < magUnits magInf) {v : ℝ} (hv0 : 0 ≤ v)
    (hv : (v * unitsPerOne) * (v * unitsPerOne) = (m * unitsPerOne : Nat)) :
    RoundsTo v (Num64.ofRoot r (m * unitsPerOne)) := by
  have hU := unitsPerOne_pos
  have hUn : 0 < unitsPerOne := by exact_mod_cast hU
  obtain ⟨k', hk', hcases, hexact⟩ := ofRoot_eq r (m * unitsPerOne)
  obtain ⟨hlo, hhi⟩ := isqrt_spec (m * unitsPerOne)
  obtain ⟨hflo, hfhi⟩ := floorMag_spec (isqrt (m * unitsPerOne))
  have hlt : floorMag (isqrt (m * unitsPerOne)) < magInf := by
    refine magUnits_strictMono.lt_iff_lt.mp (Nat.mul_self_lt_mul_self_iff.mp ?_)
    calc _ ≤ m * unitsPerOne := (Nat.mul_le_mul hflo hflo).trans hlo
      _ < magUnits magInf * unitsPerOne := Nat.mul_lt_mul_of_pos_right hm hUn
      _ ≤ magUnits magInf * magUnits magInf := Nat.mul_le_mul_left _ unitsPerOne_le_magInf
  have hvU : 0 ≤ v * unitsPerOne := mul_nonneg hv0 hU.le
  rw [hk']
  generalize m * unitsPerOne = n at *
  refine roundsTo_ofMag hlt hcases ?_ (fun _ => ?_) (fun _ => iff_of_false Bool.false_ne_true (not_lt.mpr hv0))
    fun i _ hi => ?_
  · rw [abs_of_nonneg hv0]
    refine (mul_self_le_mul_self_iff (Nat.cast_nonneg _) hvU).mpr ?_
    rw [hv]
    exact_mod_cast (Nat.mul_le_mul hflo hflo).trans hlo
  · rw [abs_of_nonneg hv0]
    refine (mul_self_le_mul_self_iff hvU (Nat.cast_nonneg _)).mpr ?_
    rw [hv]
    exact_mod_cast (hhi.trans_le (Nat.mul_le_mul hfhi hfhi)).le
  · rw [abs_of_nonneg hv0] at hi
    have hn : n = magUnits i * magUnits i := by
      rw [← hi] at hv
      exact_mod_cast hv.symm
    have hroot : floorMag (isqrt n) = i := by rw [hn, isqrt_mul_self, floorMag_magUnits]
    rw [hexact (by rw [hroot, hn]), hroot]

theorem roundsTo_sqrt (r : Rounding) {a : Num64} (ha : a.isFinite = true) (hs : a.sign = false) :
    RoundsTo (Real.sqrt (realOf a)) (Num64.sqrt r a) := by
  have hfin := (Num64.isFinite_iff a).mp ha
  have hinf := magInf_lt
  rw [Num64.sqrt, Num64.lift_of_finite _ _ ha ha]
  split
  · rename_i hz
    have hzero : realOf a = 0 := (realOf_eq_zero_iff a).mpr ((Num64.isZero_iff a).mp hz)
    rw [hzero, Real.sqrt_zero]
    have hmag := (Num64.isZero_iff a).mp hz
    refine ⟨⟨⟨0, by decide, ?_, fun _ => ?_, .inl hmag⟩, fun h => absurd rfl h⟩, fun _ _ _ => ⟨ha, hzero⟩⟩
    · rw [abs_zero, zero_mul, magUnits_zero, Nat.cast_zero]
    · rw [abs_zero, zero_mul]
      exact Nat.cast_nonneg _
  · rw [if_neg (by simp [hs])]
    refine roundsTo_ofRoot r (magUnits_strictMono hfin) (Real.sqrt_nonneg _) ?_
    have hnonneg := realOf_nonneg_of_not_sign hs
    rw [Nat.cast_mul, ← abs_realOf_mul a, abs_of_nonneg hnonneg]
    calc Real.sqrt (realOf a) * unitsPerOne * (Real.sqrt (realOf a) * unitsPerOne)
        = Real.sqrt (realOf a) * Real.sqrt (realOf a) * (unitsPerOne * unitsPerOne) := by ring
      _ = realOf a * unitsPerOne * unitsPerOne := by rw [Real.mul_self_sqrt hnonneg]; ring

/-! ## Decimal constants -/

/-- Of two neighbours around a real the one that round-to-nearest picks is no farther from it than any other pattern. -/
theorem nearest_of_neighbour {k k' m : Nat} {x : ℝ} (hlo : (magUnits k : ℝ) ≤ x) (hhi : x ≤ magUnits (k + 1))
    (hk : k' = k ∧ 2 * x ≤ magUnits k + magUnits (k + 1) ∨ k' = k + 1 ∧ (magUnits k : ℝ) + magUnits (k + 1) ≤ 2 * x) :
    |(magUnits k' : ℝ) - x| ≤ |(magUnits m : ℝ) - x| := by
  have hfar : x - magUnits k ≤ |(magUnits m : ℝ) - x| ∨ magUnits (k + 1) - x ≤ |(magUnits m : ℝ) - x| := by
    rcases Nat.lt_or_ge k m with h | h
    · have : (magUnits (k + 1) : ℝ) ≤ magUnits m := by exact_mod_cast magUnits_strictMono.monotone h
      exact .inr ((by linarith : _ ≤ (magUnits m : ℝ) - x).trans (le_abs_self _))
    · have : (magUnits m : ℝ) ≤ magUnits k := by exact_mod_cast magUnits_strictMono.monotone h
      exact .inl ((by linarith : _ ≤ -((magUnits m : ℝ) - x)).trans (neg_le_abs _))
  rcases hk with ⟨rfl, hmid⟩ | ⟨rfl, hmid⟩
  · rw [abs_of_nonpos (by linarith)]
    rcases hfar with h | h <;> linarith
  · rw [abs_of_nonneg (by linarith)]
    rcases hfar with h | h <;> linarith

/-- Round-to-nearest picks the lower neighbour below the midpoint, the upper one above it. -/
theorem pick_nearestEven (k a b : Nat) (away : Bool) :
    Rounding.nearestEven.pick k (compare a b) away = k ∧ a ≤ b ∨
      Rounding.nearestEven.pick k (compare a b) away = k + 1 ∧ b ≤ a := by
  rcases Nat.lt_trichotomy a b with h | h | h
  · rw [Nat.compare_eq_lt.mpr h]
    exact .inl ⟨rfl, h.le⟩
  · rw [Nat.compare_eq_eq.mpr h]
    simp only [Rounding.pick]
    split
    · exact .inl ⟨rfl, h.le⟩
    · exact .inr ⟨rfl, h.ge⟩
  · rw [Nat.compare_eq_gt.mpr h]
    exact .inr ⟨rfl, h.le⟩

/-- A fraction below the largest finite value is rounded to the nearest pattern. -/
theorem ofFrac_nearestEven (neg : Bool) {p q : Nat} (hq : 0 < q) (hfin : fracFloor p q + 1 < magInf) :
    ∃ k', k' < magInf ∧ Num64.ofFrac .nearestEven neg p q = Num64.ofMag neg k' ∧
      ∀ m, |(magUnits k' : ℝ) - p / q| ≤ |(magUnits m : ℝ) - p / q| := by
  obtain ⟨-, hle, hnext, -⟩ := fracFloor_spec p q hq
  have hq' : (0 : ℝ) < q := by exact_mod_cast hq
  have hlo : (magUnits (fracFloor p q) : ℝ) ≤ p / q := by
    rw [le_div_iff₀ hq']
    exact_mod_cast hle
  have hhi : (p : ℝ) / q ≤ magUnits (fracFloor p q + 1) := by
    rw [div_le_iff₀ hq']
    exact_mod_cast (hnext hfin).le
  refine ⟨_, ?_, rfl, fun m => ?_⟩
  · split
    · exact (Nat.lt_succ_self _).trans hfin
    · rcases Rounding.pick_eq .nearestEven (fracFloor p q)
        (compare (2 * p) ((magUnits (fracFloor p q) + magUnits (fracFloor p q + 1)) * q)) (Config.roundAway neg p q) with h | h
      · exact h.trans_lt ((Nat.lt_succ_self _).trans hfin)
      · exact h.trans_lt hfin
  · change |(magUnits (if magUnits (fracFloor p q) * q = p then fracFloor p q else _) : ℝ) - p / q| ≤ _
    split
    · rename_i h
      have hp : (p : ℝ) / q = magUnits (fracFloor p q) := by
        rw [div_eq_iff hq'.ne']
        exact_mod_cast h.symm
      rw [hp, sub_self, abs_zero]
      exact abs_nonneg _
    · refine nearest_of_neighbour hlo hhi ?_
      have hmid : ∀ s : Nat, (2 * p ≤ s * q ↔ 2 * ((p : ℝ) / q) ≤ s) ∧ (s * q ≤ 2 * p ↔ (s : ℝ) ≤ 2 * ((p : ℝ) / q)) := by
        intro s
        rw [← mul_div_assoc, div_le_iff₀ hq', le_div_iff₀ hq']
        exact ⟨by exact_mod_cast Iff.rfl, by exact_mod_cast Iff.rfl⟩
      have hsum := hmid (magUnits (fracFloor p q) + magUnits (fracFloor p q + 1))
      rw [Nat.cast_add] at hsum
      rw [← hsum.1, ← hsum.2]
      exact pick_nearestEven _ _ _ _

theorem decimalRange : 2 ^ 1000 * unitsPerOne < magUnits (magInf - 1) := by decide +kernel

/-- The real value of a pattern made from a sign and a magnitude. -/
theorem realOf_ofMag (neg : Bool) {k : Nat} (hk : k < 2 ^ 63) :
    realOf (Num64.ofMag neg k) = if neg then -((magUnits k : ℝ) / unitsPerOne) else (magUnits k : ℝ) / unitsPerOne := by
  have hmag := Num64.ofMag_mag neg k hk
  have hsign := Num64.ofMag_sign neg k hk
  cases neg with
  | true => rw [realOf_of_sign hsign, hmag, if_pos rfl]
  | false => rw [realOf_of_not_sign hsign, hmag, if_neg Bool.false_ne_true]

/-- A decimal constant in range is the nearest binary64 value (R168). -/
theorem ofDecimal_nearest (neg : Bool) {n d : Nat} (z : Num64) (hd : 0 < d) (hn : n ≤ d * 2 ^ 1000) :
    let x : ℝ := if neg then -(n / d : ℝ) else n / d
    (Num64.ofDecimal neg n d).isFinite = true ∧ |realOf (Num64.ofDecimal neg n d) - x| ≤ |realOf z - x| := by
  intro x
  have hU := unitsPerOne_pos
  have hinf := magInf_lt
  have hfloor : fracFloor (n * unitsPerOne) d + 1 < magInf := by
    have hdiv : n * unitsPerOne / d ≤ 2 ^ 1000 * unitsPerOne := by
      refine Nat.div_le_of_le_mul ?_
      rw [← Nat.mul_assoc]
      exact Nat.mul_le_mul_right _ hn
    have hlt : floorMag (n * unitsPerOne / d) < magInf - 1 :=
      magUnits_strictMono.lt_iff_lt.mp ((floorMag_spec _).1.trans_lt (hdiv.trans_lt decimalRange))
    unfold fracFloor
    omega
  obtain ⟨k', hk', hof, hnear⟩ := ofFrac_nearestEven neg hd hfloor
  have hfrac : ((n * unitsPerOne : Nat) : ℝ) / d = n / d * unitsPerOne := by rw [Nat.cast_mul, mul_div_right_comm]
  rw [hfrac] at hnear
  rw [Num64.ofDecimal, hof]
  refine ⟨(Num64.isFinite_iff _).mpr ?_, ?_⟩
  · rwa [Num64.ofMag_mag _ _ (by omega)]
  · have hx : |x| = (n : ℝ) / d := by
      have h0 : 0 ≤ (n : ℝ) / d := div_nonneg (Nat.cast_nonneg _) (Nat.cast_nonneg _)
      cases neg with
      | true => exact (abs_neg _).trans (abs_of_nonneg h0)
      | false => exact abs_of_nonneg h0
    have hself : |realOf (Num64.ofMag neg k') - x| * unitsPerOne = |(magUnits k' : ℝ) - n / d * unitsPerOne| := by
      rw [realOf_ofMag neg (by omega), ← abs_of_pos hU, ← abs_mul, abs_of_pos hU]
      generalize (unitsPerOne : ℝ) = u at hU ⊢
      cases neg with
      | true =>
        rw [← abs_neg]
        congr 1
        simp only [x, if_true]
        field_simp
        ring
      | false =>
        congr 1
        simp only [x, if_false, Bool.false_eq_true]
        field_simp
    have hother : |(magUnits z.mag : ℝ) - n / d * unitsPerOne| ≤ |realOf z - x| * unitsPerOne := by
      rw [← abs_realOf_mul z, ← hx, ← sub_mul, abs_mul, abs_of_pos hU]
      exact mul_le_mul_of_nonneg_right (abs_abs_sub_abs_le _ _) hU.le
    exact le_of_mul_le_mul_right (hself.trans_le ((hnear z.mag).trans hother)) hU

/-- Settles O40: each operation rounds a fraction or a root of units once. -/
theorem roundingIsExactOrANeighbour : Obligations.RoundingIsExactOrANeighbour := by
  unfold Obligations.RoundingIsExactOrANeighbour
  refine ⟨fun r a b n ha hb => ⟨roundsTo_add r ha hb, roundsTo_sub r ha hb, roundsTo_mul r ha hb, roundsTo_div r ha hb,
    roundsTo_sqrt r ha, roundsTo_ofNat r n⟩, fun neg n d z hd hn _ => ofDecimal_nearest neg z hd hn⟩

end Sys2Proof.Machine
end

section
/-! SUPPORT. Binary64 meets the laws of R17, whatever its rounding: a rounded result lies between the values that bracket the
exact one, and the coordinates of two levels stay apart. -/

namespace Sys2Proof.Machine

/-! ## Values between which a rounded result lies -/

theorem Num64.zero_finite : Num64.zero.isFinite = true := by decide

theorem realOf_zero : realOf Num64.zero = 0 := (realOf_eq_zero_iff _).mpr (by decide)

section RoundsTo

variable {v : ℝ} {y z : Num64}

/-- Where a finite value has the magnitude of the exact result, the result is exact. -/
theorem RoundsTo.exact_of_abs (h : RoundsTo v y) (hz : z.isFinite = true) (habs : |realOf z| = |v|) :
    y.isFinite = true ∧ realOf y = v := by
  rcases abs_eq_abs.mp habs with h1 | h1
  · exact h.2 z hz h1
  · exact h.2 (Num64.neg z) ((Num64.isFinite_neg z).trans hz) (by rw [realOf_neg, h1, neg_neg])

/-- Magnitudes are ordered as their units are. -/
theorem abs_realOf_le_iff (x y : Num64) : |realOf x| ≤ |realOf y| ↔ x.mag ≤ y.mag := by
  rw [← mul_le_mul_iff_left₀ unitsPerOne_pos, abs_realOf_mul, abs_realOf_mul, Nat.cast_le, magUnits_strictMono.le_iff_le]

/-- A result below a finite value in magnitude stays there. -/
theorem RoundsTo.finite_of_le (h : RoundsTo v y) (hz : z.isFinite = true) (hle : |v| ≤ |realOf z|) :
    y.isFinite = true ∧ |realOf y| ≤ |realOf z| := by
  rcases hle.eq_or_lt with heq | hlt
  · obtain ⟨hf, hv⟩ := h.exact_of_abs hz heq.symm
    exact ⟨hf, hv ▸ hle⟩
  · obtain ⟨⟨⟨k, -, hlo, -, hy⟩, -⟩, -⟩ := h
    have hzfin := (Num64.isFinite_iff z).mp hz
    have hk : k < z.mag := by
      refine magUnits_strictMono.lt_iff_lt.mp (Nat.cast_lt (α := ℝ).mp (hlo.trans_lt ?_))
      rw [← abs_realOf_mul]
      exact mul_lt_mul_of_pos_right hlt unitsPerOne_pos
    have hmag : y.mag ≤ z.mag := by omega
    exact ⟨(Num64.isFinite_iff y).mpr (hmag.trans_lt hzfin), (abs_realOf_le_iff y z).mpr hmag⟩

/-- A result above a finite value in magnitude stays there. -/
theorem RoundsTo.le_of_le (h : RoundsTo v y) (hz : z.isFinite = true) (hle : |realOf z| ≤ |v|) :
    |realOf z| ≤ |realOf y| := by
  rcases hle.eq_or_lt with heq | hlt
  · rw [(h.exact_of_abs hz heq).2]
    exact hle
  · obtain ⟨⟨⟨k, hk, -, hhi, hy⟩, -⟩, -⟩ := h
    have hzfin := (Num64.isFinite_iff z).mp hz
    rw [abs_realOf_le_iff]
    have hzk : z.mag < k + 1 := by
      rcases Nat.lt_or_ge (k + 1) magInf with hinf | hinf
      · refine magUnits_strictMono.lt_iff_lt.mp (Nat.cast_lt (α := ℝ).mp (lt_of_lt_of_le ?_ (hhi hinf)))
        rw [← abs_realOf_mul]
        exact mul_lt_mul_of_pos_right hlt unitsPerOne_pos
      · omega
    omega

/-- A result of zero is zero. -/
theorem RoundsTo.of_zero (h : RoundsTo 0 y) : y.isFinite = true ∧ realOf y = 0 := h.2 _ Num64.zero_finite realOf_zero

/-- A result that is not negative stays so. -/
theorem RoundsTo.nonneg (h : RoundsTo v y) (hv : 0 ≤ v) : 0 ≤ realOf y := by
  rcases hv.eq_or_lt with rfl | hpos
  · exact h.of_zero.2.ge
  · refine realOf_nonneg_of_not_sign ?_
    rw [Bool.eq_false_iff, ne_eq, h.1.2 hpos.ne']
    exact not_lt.mpr hv

end RoundsTo

/-! ## Dyadic values -/

/-- Binary64 has every number of units `n · 2^e` with `n` below `2^53` in this range. -/
theorem exists_magUnits_eq (n e : Nat) (hn : n < 2 ^ 53) (he : 52 ≤ e) (he' : e ≤ 2000) :
    ∃ k, k < magInf ∧ magUnits k = n * 2 ^ e := by
  rcases Nat.eq_zero_or_pos n with rfl | hpos
  · exact ⟨0, by decide, by rw [magUnits_zero, Nat.zero_mul]⟩
  · have hlog : n.log2 ≤ 52 := by
      have := (Nat.log2_lt (by omega)).mpr hn
      omega
    obtain ⟨s, hs⟩ : ∃ s, n.log2 + s = 52 := ⟨52 - n.log2, by omega⟩
    have h1 : 2 ^ 52 ≤ n * 2 ^ s := by
      rw [← hs, Nat.pow_add]
      exact Nat.mul_le_mul_right _ (Nat.log2_self_le (by omega))
    have h2 : n * 2 ^ s < 2 ^ 53 := by
      rw [show 53 = n.log2 + 1 + s by omega, Nat.pow_add _ (n.log2 + 1) s]
      exact Nat.mul_lt_mul_of_pos_right Nat.lt_log2_self (Nat.two_pow_pos s)
    refine ⟨(e - s + 1) * 2 ^ 52 + (n * 2 ^ s - 2 ^ 52), ?_, ?_⟩
    · unfold magInf
      omega
    · rw [magUnits_eq _ _ (by omega), if_neg (by omega), Nat.add_sub_cancel, Nat.add_sub_cancel' h1, Nat.mul_assoc,
        ← Nat.pow_add, Nat.add_sub_cancel' (by omega)]

/-- Binary64 has `n / 2^j`. -/
theorem exists_finite_eq (n j : Nat) (hn : n < 2 ^ 53) (hj : j ≤ 1000) :
    ∃ z : Num64, z.isFinite = true ∧ realOf z = n / 2 ^ j := by
  obtain ⟨k, hk, hunits⟩ := exists_magUnits_eq n (1074 - j) hn (by omega) (by omega)
  have hlt := magInf_lt
  refine ⟨Num64.ofMag false k, (Num64.isFinite_iff _).mpr ?_, ?_⟩
  · rwa [Num64.ofMag_mag _ _ (by omega)]
  · have hU : unitsPerOne = 2 ^ (1074 - j) * 2 ^ j := by
      rw [← Nat.pow_add, Nat.sub_add_cancel (by omega)]
      rfl
    rw [realOf_ofMag _ (by omega), if_neg Bool.false_ne_true, hunits, hU, Nat.cast_mul, Nat.cast_mul, Nat.cast_pow,
      Nat.cast_pow, Nat.cast_ofNat, mul_comm ((2 : ℝ) ^ (1074 - j)), mul_div_mul_right _ _ (by positivity)]

/-- A result whose magnitude is at most the natural `n` is finite and stays there. -/
theorem RoundsTo.finite_of_le_nat {v : ℝ} {y : Num64} (h : RoundsTo v y) (n : Nat) (hn : n < 2 ^ 53) (hle : |v| ≤ n) :
    y.isFinite = true ∧ |realOf y| ≤ n := by
  obtain ⟨z, hz, hzv⟩ := exists_finite_eq n 0 hn (by omega)
  rw [pow_zero, div_one] at hzv
  have habs : |realOf z| = n := by rw [hzv, abs_of_nonneg (Nat.cast_nonneg n)]
  rw [← habs] at hle ⊢
  exact h.finite_of_le hz hle

/-- A result whose magnitude is at least `1 / 2^j` stays there. -/
theorem RoundsTo.le_of_pow_le {v : ℝ} {y : Num64} (h : RoundsTo v y) (j : Nat) (hj : j ≤ 1000) (hle : 1 / 2 ^ j ≤ |v|) :
    1 / 2 ^ j ≤ |realOf y| := by
  obtain ⟨z, hz, hzv⟩ := exists_finite_eq 1 j (by norm_num) hj
  rw [Nat.cast_one] at hzv
  have habs : |realOf z| = 1 / 2 ^ j := by rw [hzv, abs_of_nonneg (by positivity)]
  rw [← habs] at hle ⊢
  exact h.le_of_le hz hle

/-- `ofNat` is exact below `2^53`. -/
theorem ofNat_exact (r : Rounding) (n : Nat) (hn : n < 2 ^ 53) :
    (Num64.ofNat r n).isFinite = true ∧ realOf (Num64.ofNat r n) = n := by
  obtain ⟨z, hz, hzv⟩ := exists_finite_eq n 0 hn (by omega)
  exact (roundsTo_ofNat r n).2 z hz (by rw [hzv, pow_zero, div_one])

/-! ## The error of a rounded result -/

/-- The gap between two neighbours is no more than a part in `2^52` of them, or one unit. -/
theorem magUnits_gap (k : Nat) : 2 ^ 52 * magUnits (k + 1) ≤ 2 ^ 52 * magUnits k + magUnits k + 2 ^ 52 := by
  obtain ⟨e, f, hf, rfl⟩ : ∃ e f, f < 2 ^ 52 ∧ k = e * 2 ^ 52 + f := ⟨k / 2 ^ 52, k % 2 ^ 52, by omega, by omega⟩
  have hgap : magUnits (e * 2 ^ 52 + f + 1) ≤ magUnits (e * 2 ^ 52 + f) + 2 ^ (e - 1) := by
    by_cases hlast : f + 1 < 2 ^ 52
    · rw [Nat.add_assoc, magUnits_eq e (f + 1) hlast, magUnits_eq e f hf]
      split
      · have := Nat.one_le_two_pow (n := e - 1)
        omega
      · rw [← Nat.add_assoc, Nat.succ_mul]
    · rw [show e * 2 ^ 52 + f + 1 = (e + 1) * 2 ^ 52 + 0 by omega, magUnits_eq (e + 1) 0 (by positivity),
        magUnits_eq e f hf, if_neg (Nat.succ_ne_zero e), Nat.add_sub_cancel, Nat.add_zero]
      split
      · rename_i h0
        subst h0
        simp only [pow_zero, Nat.mul_one, Nat.zero_sub]
        omega
      · obtain ⟨d, rfl⟩ : ∃ d, e = d + 1 := ⟨e - 1, by omega⟩
        rw [Nat.add_sub_cancel, ← Nat.succ_mul, show f = 2 ^ 52 - 1 by omega,
          show 2 ^ (d + 1) = 2 * 2 ^ d from Nat.pow_succ', ← Nat.mul_assoc]
        exact Nat.mul_le_mul_right _ (by norm_num)
  have hsize : 2 ^ 52 * 2 ^ (e - 1) ≤ magUnits (e * 2 ^ 52 + f) + 2 ^ 52 := by
    rw [magUnits_eq e f hf]
    split
    · rename_i h0
      subst h0
      simp
    · exact (Nat.mul_le_mul_right _ (Nat.le_add_right _ _)).trans (Nat.le_add_right _ _)
  calc 2 ^ 52 * magUnits (e * 2 ^ 52 + f + 1) ≤ 2 ^ 52 * (magUnits (e * 2 ^ 52 + f) + 2 ^ (e - 1)) := Nat.mul_le_mul_left _ hgap
    _ = 2 ^ 52 * magUnits (e * 2 ^ 52 + f) + 2 ^ 52 * 2 ^ (e - 1) := Nat.mul_add _ _ _
    _ ≤ _ := by omega

theorem pow_le_unitsPerOne : 2 ^ 50 ≤ unitsPerOne := by decide +kernel

/-- A rounded result of magnitude at most 16 is close to the exact one. -/
theorem RoundsTo.abs_sub_le {v : ℝ} {y : Num64} (h : RoundsTo v y) (hv : |v| ≤ 16) : |realOf y - v| ≤ 1 / 2 ^ 40 := by
  have hU := unitsPerOne_pos
  obtain ⟨z, hz, hz16⟩ := exists_finite_eq 32 0 (by norm_num) (by omega)
  obtain ⟨⟨⟨k, -, hlo, hhi, hy⟩, hsign⟩, -⟩ := h
  have hk : k + 1 < magInf := by
    have hzfin := (Num64.isFinite_iff z).mp hz
    refine lt_of_le_of_lt (magUnits_strictMono.lt_iff_lt.mp (Nat.cast_lt (α := ℝ).mp (hlo.trans_lt ?_))) hzfin
    rw [← abs_realOf_mul]
    refine mul_lt_mul_of_pos_right (lt_of_le_of_lt hv ?_) hU
    rw [hz16]
    norm_num
  have hgap : (2 ^ 52 : ℝ) * magUnits (k + 1) ≤ 2 ^ 52 * magUnits k + magUnits k + 2 ^ 52 := by
    exact_mod_cast magUnits_gap k
  have hU50 : (2 ^ 50 : ℝ) ≤ unitsPerOne := by exact_mod_cast pow_le_unitsPerOne
  have hnear : |(|realOf y| - |v|)| * unitsPerOne ≤ 1 / 2 ^ 40 * unitsPerOne := by
    have hmag : ((magUnits k : ℝ) ≤ magUnits y.mag) ∧ ((magUnits y.mag : ℝ) ≤ magUnits (k + 1)) := by
      rw [Nat.cast_le, Nat.cast_le, magUnits_strictMono.le_iff_le, magUnits_strictMono.le_iff_le]
      omega
    have hvU : |v| * unitsPerOne ≤ 16 * unitsPerOne := mul_le_mul_of_nonneg_right hv hU.le
    have hhi := hhi hk
    rw [← abs_of_pos hU, ← abs_mul, abs_of_pos hU, sub_mul, abs_realOf_mul]
    generalize |v| * (unitsPerOne : ℝ) = x at *
    generalize (unitsPerOne : ℝ) = u at *
    rw [abs_le]
    constructor <;> linarith
  have hsame : |realOf y - v| = |(|realOf y| - |v|)| := by
    rcases lt_trichotomy v 0 with hneg | rfl | hpos
    · have hs : y.sign = true := (hsign hneg.ne).mpr hneg
      have h0 : realOf y ≤ 0 := by
        rw [realOf_of_sign hs]
        exact neg_nonpos.mpr (div_nonneg (Nat.cast_nonneg _) (Nat.cast_nonneg _))
      rw [abs_of_nonpos h0, abs_of_neg hneg, ← abs_neg]
      congr 1
      ring
    · rw [abs_zero, sub_zero, sub_zero, abs_abs]
    · have hs : y.sign = false := by
        rw [Bool.eq_false_iff, ne_eq, hsign hpos.ne']
        exact not_lt.mpr hpos.le
      rw [abs_of_nonneg (realOf_nonneg_of_not_sign hs), abs_of_pos hpos]
  rw [hsame]
  exact le_of_mul_le_mul_right hnear hU

/-! ## Coordinates -/

/-- The divisor of the coordinates lies between 1 and 14. -/
theorem root_bounds (r : Rounding) (sch : Scheme) :
    let root := Num64.sqrt r (Num64.ofNat r (energy sch))
    root.isFinite = true ∧ 1 ≤ realOf root ∧ realOf root ≤ 14 := by
  intro root
  have hE : 1 ≤ energy sch ∧ energy sch ≤ 196 := by cases sch <;> simp [energy]
  obtain ⟨hf, hv⟩ := ofNat_exact r (energy sch) (by omega)
  have hE1 : (1 : ℝ) ≤ energy sch := by exact_mod_cast hE.1
  have hE2 : (energy sch : ℝ) ≤ 14 ^ 2 := by
    have : (energy sch : ℝ) ≤ 196 := by exact_mod_cast hE.2
    linarith
  have hsign : (Num64.ofNat r (energy sch)).sign = false := by
    rw [Bool.eq_false_iff, ne_eq, (roundsTo_ofNat r (energy sch)).1.2 (by linarith)]
    exact not_lt.mpr (by linarith)
  have hround := roundsTo_sqrt r hf hsign
  rw [hv] at hround
  have hsqrt1 : 1 ≤ Real.sqrt (energy sch) := Real.one_le_sqrt.mpr hE1
  have hsqrt2 : Real.sqrt (energy sch) ≤ 14 := Real.sqrt_le_iff.mpr ⟨by norm_num, hE2⟩
  have habs : |Real.sqrt (energy sch)| = Real.sqrt (energy sch) := abs_of_nonneg (Real.sqrt_nonneg _)
  have hnonneg : 0 ≤ realOf root := hround.nonneg (Real.sqrt_nonneg _)
  obtain ⟨hrf, hle⟩ := hround.finite_of_le_nat 14 (by norm_num) (by rw [habs]; exact_mod_cast hsqrt2)
  have hge := hround.le_of_pow_le 0 (by omega) (by rw [habs, pow_zero, div_one]; exact hsqrt1)
  rw [abs_of_nonneg hnonneg] at hle hge
  rw [pow_zero, div_one] at hge
  exact ⟨hrf, hge, by exact_mod_cast hle⟩

/-- A level is exact. -/
theorem levelNum_exact (r : Rounding) (v : Int) (hv : |v| ≤ 15) :
    (levelNum (binary64 r) v).isFinite = true ∧ realOf (levelNum (binary64 r) v) = v := by
  have habs : (v.natAbs : Int) = |v| := Int.natCast_natAbs v
  obtain ⟨hf, hval⟩ := ofNat_exact r v.natAbs (by omega)
  have hcast : ((v.natAbs : Nat) : ℝ) = |(v : ℝ)| := by rw [Nat.cast_natAbs, Int.cast_abs]
  unfold levelNum
  split
  · rename_i h
    have h' : (v : ℝ) < 0 := by exact_mod_cast h
    refine ⟨(Num64.isFinite_neg _).trans hf, (realOf_neg _).trans ?_⟩
    change -realOf (Num64.ofNat r v.natAbs) = _
    rw [hval, hcast, abs_of_neg h', neg_neg]
  · rename_i h
    have h' : (0 : ℝ) ≤ v := by exact_mod_cast not_lt.mp h
    exact ⟨hf, by rw [← abs_of_nonneg h', ← hcast]; exact hval⟩

/-- The levels of an admitted table are at most 15. -/
theorem abs_levels_le (c : Config) (sch : Scheme) (hc : c.tableWf = true) (hs : unknownScheme sch = false) :
    ∀ v ∈ levels c sch, |v| ≤ 15 := by
  intro v hv
  obtain ⟨j, hj, rfl⟩ := List.mem_map.mp (levels_mem_levelSet c sch hc hs v hv)
  have hm : 2 ^ (bps sch / 2) ≤ 16 := by cases sch <;> simp [bps]
  have hj := List.mem_range.mp hj
  rw [abs_le]
  omega

section Points

variable {c : Config} {sch : Scheme} (r : Rounding)

/-- Coordinates are finite, at most 15 in magnitude, and close to the exact quotient by the rounded root. -/
theorem axis_spec (hc : c.tableWf = true) (hs : unknownScheme sch = false) {j : Nat} (hj : j < (levels c sch).length) :
    let x := (axis (binary64 r) c sch).getD j Num64.zero
    let root := realOf (Num64.sqrt r (Num64.ofNat r (energy sch)))
    x.isFinite = true ∧ |realOf x| ≤ 15 ∧ |realOf x - ((levels c sch)[j] : ℝ) / root| ≤ 1 / 2 ^ 40 := by
  intro x root
  obtain ⟨hrf, hr1, -⟩ := root_bounds r sch
  have h15 := abs_levels_le c sch hc hs _ (List.getElem_mem hj)
  obtain ⟨hlf, hlv⟩ := levelNum_exact r (levels c sch)[j] h15
  have hx : x = Num64.div r (levelNum (binary64 r) (levels c sch)[j]) (Num64.sqrt r (Num64.ofNat r (energy sch))) := by
    simp only [x, axis, List.getD_eq_getElem?_getD, List.getElem?_map, List.getElem?_eq_getElem hj, Option.map_some,
      Option.getD_some]
    rfl
  have hnz : (Num64.sqrt r (Num64.ofNat r (energy sch))).isZero = false := by
    rw [Bool.eq_false_iff, ne_eq, Num64.isZero_iff, ← realOf_eq_zero_iff]
    linarith
  have hround := roundsTo_div r hlf hrf hnz
  rw [hlv, ← hx] at hround
  have hle : |((levels c sch)[j] : ℝ) / root| ≤ 15 := by
    rw [abs_div, abs_of_pos (by linarith : 0 < root)]
    have : |((levels c sch)[j] : ℝ)| ≤ 15 := by exact_mod_cast h15
    exact (div_le_self (abs_nonneg _) hr1).trans this
  obtain ⟨hxf, hxle⟩ := hround.finite_of_le_nat 15 (by norm_num) (by exact_mod_cast hle)
  exact ⟨hxf, by exact_mod_cast hxle, hround.abs_sub_le (by linarith)⟩

/-- The coordinates of two different levels are at least ⅛ apart. -/
theorem axis_apart (hc : c.tableWf = true) (hs : unknownScheme sch = false) {a b : Nat} (ha : a < (levels c sch).length)
    (hb : b < (levels c sch).length) (hab : a ≠ b) :
    1 / 8 ≤ |realOf ((axis (binary64 r) c sch).getD a Num64.zero) - realOf ((axis (binary64 r) c sch).getD b Num64.zero)| := by
  obtain ⟨-, hr1, hr14⟩ := root_bounds r sch
  obtain ⟨-, -, hxa⟩ := axis_spec r hc hs ha
  obtain ⟨-, -, hxb⟩ := axis_spec r hc hs hb
  have h2 : (2 : ℝ) ≤ |((levels c sch)[a] : ℝ) - (levels c sch)[b]| := by
    exact_mod_cast two_le_abs_levels_sub c sch hc hs ha hb hab
  generalize realOf (Num64.sqrt r (Num64.ofNat r (energy sch))) = root at *
  generalize realOf ((axis (binary64 r) c sch).getD a Num64.zero) = x at *
  generalize realOf ((axis (binary64 r) c sch).getD b Num64.zero) = y at *
  have hquot : 1 / 7 ≤ |((levels c sch)[a] : ℝ) / root - (levels c sch)[b] / root| := by
    rw [← sub_div, abs_div, abs_of_pos (by linarith : 0 < root), le_div_iff₀ (by linarith)]
    linarith
  generalize ((levels c sch)[a] : ℝ) / root = p at *
  generalize ((levels c sch)[b] : ℝ) / root = q at *
  have htri : |p - q| ≤ |x - p| + |x - y| + |y - q| := by
    calc |p - q| = |-(x - p) + (x - y) + (y - q)| := by ring_nf
      _ ≤ |x - p| + |x - y| + |y - q| := by
        refine (abs_add_le _ _).trans (add_le_add ((abs_add_le _ _).trans ?_) le_rfl)
        rw [abs_neg]
  have hsmall : (1 : ℝ) / 2 ^ 40 ≤ 1 / 1000 := by norm_num
  linarith

/-- A squared difference of coordinates is finite and not negative, and above zero where they are apart. -/
theorem square_bounds {x y : Num64} (hx : x.isFinite = true) (hy : y.isFinite = true) (hx15 : |realOf x| ≤ 15)
    (hy15 : |realOf y| ≤ 15) :
    let s := Num64.mul r (Num64.sub r x y) (Num64.sub r x y)
    s.isFinite = true ∧ 0 ≤ realOf s ∧ realOf s ≤ 900 ∧ (1 / 8 ≤ |realOf x - realOf y| → 1 / 64 ≤ realOf s) := by
  intro s
  have hsub := roundsTo_sub r hx hy
  have h30 : |realOf x - realOf y| ≤ 30 := (abs_sub _ _).trans (by linarith)
  obtain ⟨hdf, hd30⟩ := hsub.finite_of_le_nat 30 (by norm_num) (by exact_mod_cast h30)
  have hmul := roundsTo_mul r hdf hdf
  have hsq : |realOf (Num64.sub r x y) * realOf (Num64.sub r x y)| = |realOf (Num64.sub r x y)| ^ 2 := by
    rw [abs_mul, sq]
  rw [Nat.cast_ofNat] at hd30
  have h900 : |realOf (Num64.sub r x y) * realOf (Num64.sub r x y)| ≤ (900 : Nat) := by
    rw [hsq, Nat.cast_ofNat]
    nlinarith [abs_nonneg (realOf (Num64.sub r x y))]
  obtain ⟨hsf, hs900⟩ := hmul.finite_of_le_nat 900 (by norm_num) h900
  have hs0 : 0 ≤ realOf s := hmul.nonneg (mul_self_nonneg _)
  rw [abs_of_nonneg hs0, Nat.cast_ofNat] at hs900
  refine ⟨hsf, hs0, hs900, fun hapart => ?_⟩
  have hd8 := hsub.le_of_pow_le 3 (by omega) (by norm_num; linarith)
  have hge := hmul.le_of_pow_le 6 (by omega) (by
    rw [hsq, show (1 : ℝ) / 2 ^ 6 = (1 / 2 ^ 3) ^ 2 by norm_num]
    exact pow_le_pow_left₀ (by positivity) hd8 2)
  rw [abs_of_nonneg hs0] at hge
  norm_num at hge ⊢
  exact hge

/-- The distance of points of the same coordinates is zero. -/
theorem dist_zero {x y z w : Num64} (hx : x.isFinite = true) (hy : y.isFinite = true) (hz : z.isFinite = true)
    (hw : w.isFinite = true) (hxy : realOf x = realOf y) (hzw : realOf z = realOf w) :
    let d := Num64.add r (Num64.mul r (Num64.sub r x y) (Num64.sub r x y)) (Num64.mul r (Num64.sub r z w) (Num64.sub r z w))
    d.isFinite = true ∧ realOf d = 0 := by
  have square : ∀ {a b : Num64}, a.isFinite = true → b.isFinite = true → realOf a = realOf b →
      (Num64.mul r (Num64.sub r a b) (Num64.sub r a b)).isFinite = true ∧
        realOf (Num64.mul r (Num64.sub r a b) (Num64.sub r a b)) = 0 := by
    intro a b ha hb hab
    have hsub := roundsTo_sub r ha hb
    rw [hab, sub_self] at hsub
    obtain ⟨hf, hv⟩ := hsub.of_zero
    have hmul := roundsTo_mul r hf hf
    rw [hv, mul_zero] at hmul
    exact hmul.of_zero
  obtain ⟨hf1, hv1⟩ := square hx hy hxy
  obtain ⟨hf2, hv2⟩ := square hz hw hzw
  have hadd := roundsTo_add r hf1 hf2
  rw [hv1, hv2, add_zero] at hadd
  exact hadd.of_zero

/-- A distance is finite, and above zero where one pair of coordinates is apart. -/
theorem dist_pos {x y z w : Num64} (hx : x.isFinite = true) (hy : y.isFinite = true) (hz : z.isFinite = true)
    (hw : w.isFinite = true) (bx : |realOf x| ≤ 15) (hy15 : |realOf y| ≤ 15) (bz : |realOf z| ≤ 15) (bw : |realOf w| ≤ 15)
    (hapart : 1 / 8 ≤ |realOf x - realOf y| ∨ 1 / 8 ≤ |realOf z - realOf w|) :
    let d := Num64.add r (Num64.mul r (Num64.sub r x y) (Num64.sub r x y)) (Num64.mul r (Num64.sub r z w) (Num64.sub r z w))
    d.isFinite = true ∧ 0 < realOf d := by
  intro d
  obtain ⟨f1, o1, u1, p1⟩ := square_bounds r hx hy bx hy15
  obtain ⟨f2, o2, u2, p2⟩ := square_bounds r hz hw bz bw
  have hround : RoundsTo _ d := roundsTo_add r f1 f2
  generalize realOf (Num64.mul r (Num64.sub r x y) (Num64.sub r x y)) = s at *
  generalize realOf (Num64.mul r (Num64.sub r z w) (Num64.sub r z w)) = t at *
  have hsum : |s + t| = s + t := abs_of_nonneg (by linarith)
  have hge : (1 : ℝ) / 64 ≤ s + t := by
    rcases hapart with h | h
    · linarith [p1 h]
    · linarith [p2 h]
  obtain ⟨hf, -⟩ := hround.finite_of_le_nat 1800 (by norm_num) (by rw [hsum, Nat.cast_ofNat]; linarith)
  have hpos := hround.le_of_pow_le 6 (by omega) (by rw [hsum]; norm_num at hge ⊢; exact hge)
  rw [abs_of_nonneg (hround.nonneg (by linarith))] at hpos
  exact ⟨hf, lt_of_lt_of_le (by positivity) hpos⟩

/-- The distance of two points of an admitted constellation is finite, zero where they are the same and above zero else. -/
theorem binary64_dist (hc : c.tableWf = true) (hs : unknownScheme sch = false) {i j : Nat} (hi : i < 2 ^ bps sch)
    (hj : j < 2 ^ bps sch) :
    let d := dist (binary64 r) (pointAt (binary64 r) (constellation (binary64 r) c sch) i)
      (pointAt (binary64 r) (constellation (binary64 r) c sch) j)
    d.isFinite = true ∧ (i = j → realOf d = 0) ∧ (i ≠ j → 0 < realOf d) := by
  have hl := length_levels c sch hc hs
  obtain ⟨hi1, hi2, ei⟩ := pointAt_constellation (binary64 r) c sch i hc hs hi
  obtain ⟨hj1, hj2, ej⟩ := pointAt_constellation (binary64 r) c sch j hc hs hj
  have spec := fun k (hk : k < 2 ^ (bps sch / 2)) => axis_spec (j := k) r hc hs (by omega)
  obtain ⟨fi1, bi1, -⟩ := spec _ hi1
  obtain ⟨fi2, bi2, -⟩ := spec _ hi2
  obtain ⟨fj1, bj1, -⟩ := spec _ hj1
  obtain ⟨fj2, bj2, -⟩ := spec _ hj2
  rw [ei, ej]
  by_cases hij : i = j
  · subst hij
    obtain ⟨hf, hz⟩ := dist_zero r fi1 fi1 fi2 fi2 rfl rfl
    exact ⟨hf, fun _ => hz, fun h => absurd rfl h⟩
  · have hapart : i % 2 ^ (bps sch / 2) ≠ j % 2 ^ (bps sch / 2) ∨ i / 2 ^ (bps sch / 2) ≠ j / 2 ^ (bps sch / 2) := by
      by_contra! h
      exact hij (by rw [← Nat.div_add_mod i (2 ^ (bps sch / 2)), h.1, h.2, Nat.div_add_mod])
    obtain ⟨hf, hpos⟩ := dist_pos r fi1 fj1 fi2 fj2 bi1 bj1 bi2 bj2
      (hapart.imp (axis_apart r hc hs (by omega) (by omega)) (axis_apart r hc hs (by omega) (by omega)))
    exact ⟨hf, fun h => absurd h hij, fun _ => hpos⟩

end Points

/-! ## The laws -/

/-- `<` is the order of the values (N1). -/
theorem lt_iff_realOf_lt {a b : Num64} (ha : a.isFinite = true) (hb : b.isFinite = true) :
    Num64.lt a b = true ↔ realOf a < realOf b := by
  have notNaN : ∀ {x : Num64}, x.isFinite = true → x.isNaN = false := by
    intro x hx
    exact decide_eq_false (not_lt.mpr ((Num64.isFinite_iff x).mp hx).le)
  rw [Num64.lt_iff, order_lt_iff]
  exact ⟨fun ⟨_, _, h⟩ => h, fun h => ⟨notNaN ha, notNaN hb, h⟩⟩

/-- A finite value is a zero where its real value is. -/
theorem isZero_iff_realOf (x : Num64) : x.isZero = true ↔ realOf x = 0 :=
  (Num64.isZero_iff x).trans (realOf_eq_zero_iff x).symm

/-- Binary64 meets N1 to N5 with any rounding (R17). -/
theorem binary64_numLaws (r : Rounding) :
    NumLaws (binary64 r) (fun x => x.isFinite = true) (fun x => x.isNaN = true) realOf where
  zero := ⟨Num64.zero_finite, realOf_zero⟩
  isZero x _ := isZero_iff_realOf x
  n1 _ _ ha hb := lt_iff_realOf_lt ha hb
  n2Zero _ _ _ _ ha hb hc hd hab hcd := by
    obtain ⟨hf, hz⟩ := dist_zero r ha hb hc hd hab hcd
    exact ⟨hf, (isZero_iff_realOf _).mpr hz⟩
  n2 c sch i j hc hs hi hj := by
    obtain ⟨hf, hz, hpos⟩ := binary64_dist r hc hs hi hj
    refine ⟨hf, fun h => (isZero_iff_realOf _).mpr (hz h), fun h => (lt_iff_realOf_lt Num64.zero_finite hf).mpr ?_⟩
    rw [realOf_zero]
    exact hpos h
  n3 x hx := by
    refine Bool.eq_false_iff.mpr fun hlt => ?_
    obtain ⟨hnan, -, horder⟩ := (Num64.lt_iff x Num64.zero).mp hlt
    rcases hx with hzero | hn
    · rw [order_lt_iff, (isZero_iff_realOf x).mp hzero, realOf_zero] at horder
      exact lt_irrefl 0 horder
    · exact Bool.false_ne_true (hnan.symm.trans hn)
  n4 n hn := ofNat_exact r n (by omega)
  n5 a ha := by
    have hadd := roundsTo_add r ha Num64.zero_finite
    rw [realOf_zero, add_zero] at hadd
    exact hadd.2 a ha rfl

/-- Settles O39: binary64 by its rounding rules, the exact reals by their arithmetic. -/
theorem numLawsHold : Obligations.NumLawsHold := ⟨binary64_numLaws, exactReals_numLaws⟩

end Sys2Proof.Machine
end

section
/-! SUPPORT. The operations of binary64 that rest on an integer enclosure (spec/00_scope.md R16): the pattern taken from a
decided enclosure is next to the real that it encloses, and each operation's enclosure or exact case is that of its real
result. -/

namespace Sys2Proof.Machine

/-! ## A decided enclosure -/

theorem fixedOne_pos_nat : 0 < fixedOne := by exact_mod_cast fixedOne_pos

theorem floorMag_mono {a b : Nat} (h : a ≤ b) : floorMag a ≤ floorMag b :=
  Nat.lt_succ_iff.mp (magUnits_strictMono.lt_iff_lt.mp ((floorMag_spec a).1.trans_lt (h.trans_lt (floorMag_spec b).2)))

/-- The end patterns of an enclosure bound it. -/
theorem enclosureMags_spec {e : Enclosure} (hle : e.lo ≤ e.hi) :
    (enclosureMags e).1 < magInf ∧ magUnits (enclosureMags e).1 * fixedOne ≤ e.lo ∧
      (enclosureMags e).1 ≤ (enclosureMags e).2 ∧
      ((enclosureMags e).1 + 1 < magInf → e.lo < magUnits magInf * fixedOne) ∧
      ((enclosureMags e).2 < magInf → e.hi ≤ magUnits (enclosureMags e).2 * fixedOne) := by
  have hF := fixedOne_pos_nat
  have hinf : 0 < magInf := by decide
  obtain ⟨hlo1, hlo2⟩ := floorMag_spec (e.lo / fixedOne)
  obtain ⟨-, hhi2⟩ := floorMag_spec (e.hi / fixedOne)
  have hmono := floorMag_mono (Nat.div_le_div_right (c := fixedOne) hle)
  unfold enclosureMags
  dsimp only
  generalize fixedOne = F at *
  generalize magInf = inf at *
  generalize floorMag (e.lo / F) = a at *
  generalize floorMag (e.hi / F) = b at *
  refine ⟨by omega, ?_, ?_, fun h => ?_, fun h => ?_⟩
  · rw [← Nat.le_div_iff_mul_le hF]
    exact (magUnits_strictMono.monotone (Nat.min_le_left _ _)).trans hlo1
  · split <;> omega
  · rw [← Nat.div_lt_iff_lt_mul hF]
    exact hlo2.trans_le (magUnits_strictMono.monotone (by omega))
  · rw [Nat.min_eq_left (by omega)]
    split
    · rename_i hexact
      exact hexact.ge
    · exact ((Nat.div_lt_iff_lt_mul hF).mp hhi2).le

/-- A decided enclosure gives its lower end pattern or the next one. -/
theorem ofEnclosure_eq (r : Rounding) (op : NumOp) (x : Num64) (neg : Bool) {e : Enclosure} (hle : e.lo ≤ e.hi)
    (hd : e.decided = true) :
    ∃ k', Num64.ofEnclosure r op x neg e = Num64.ofMag neg k' ∧
      (k' = (enclosureMags e).1 ∨ k' = (enclosureMags e).1 + 1) := by
  obtain ⟨-, -, hends, -, -⟩ := enclosureMags_spec hle
  have hnear : (enclosureMags e).2 ≤ (enclosureMags e).1 + 1 := of_decide_eq_true hd
  have hstep : Config.enclosureStep op x % ((enclosureMags e).2 + 1 - (enclosureMags e).1) <
      (enclosureMags e).2 + 1 - (enclosureMags e).1 := Nat.mod_lt _ (by omega)
  refine ⟨_, rfl, ?_⟩
  cases r with
  | free => dsimp only; omega
  | nearestEven =>
    dsimp only
    split
    · exact .inl rfl
    · split <;> omega

/-- A decided enclosure of the magnitude of `v`, in fine units, gives a pattern next to `v`; where it lies above every finite
pattern its upper end is not used. -/
theorem nextTo_ofEnclosure (r : Rounding) (op : NumOp) (x : Num64) {neg : Bool} {e : Enclosure} {v : ℝ}
    (hd : e.decided = true) (hle : e.lo ≤ e.hi) (hlo : (e.lo : ℝ) ≤ |v| * (fixedOne * unitsPerOne : Nat))
    (hhi : e.lo < magUnits magInf * fixedOne → |v| * (fixedOne * unitsPerOne : Nat) ≤ e.hi)
    (hsign : v ≠ 0 → (neg = true ↔ v < 0)) : NextTo v (Num64.ofEnclosure r op x neg e) := by
  obtain ⟨hk, hk1, hends, hrange, hk2⟩ := enclosureMags_spec hle
  obtain ⟨k', hk', hcases⟩ := ofEnclosure_eq r op x neg hle hd
  have hnear : (enclosureMags e).2 ≤ (enclosureMags e).1 + 1 := of_decide_eq_true hd
  have hF := fixedOne_pos
  have hscale : |v| * (fixedOne * unitsPerOne : Nat) = |v| * unitsPerOne * fixedOne := by
    rw [Nat.cast_mul, mul_comm (fixedOne : ℝ), mul_assoc]
  rw [hscale] at hlo hhi
  rw [hk']
  refine nextTo_ofMag hk hcases ?_ (fun hfin => ?_) hsign
  · refine le_of_mul_le_mul_right (le_trans ?_ hlo) hF
    exact_mod_cast hk1
  · refine le_of_mul_le_mul_right ((hhi (hrange hfin)).trans ?_) hF
    have hnext : e.hi ≤ magUnits ((enclosureMags e).1 + 1) * fixedOne :=
      (hk2 (by omega)).trans (Nat.mul_le_mul_right _ (magUnits_strictMono.monotone hnear))
    exact_mod_cast hnext

/-- The same of an enclosure that holds. -/
theorem nextTo_of_holds (r : Rounding) (op : NumOp) (x : Num64) {neg : Bool} {e : Enclosure} {v : ℝ}
    (hd : e.decided = true) (he : e.Holds (fixedOne * unitsPerOne) |v|) (hsign : v ≠ 0 → (neg = true ↔ v < 0)) :
    NextTo v (Num64.ofEnclosure r op x neg e) :=
  nextTo_ofEnclosure r op x hd (by exact_mod_cast he.1.trans he.2) he.1 (fun _ => he.2) hsign

/-! ## Values that are natural numbers -/

theorem realOf_of_nat? {x : Num64} {n : Nat} (h : x.nat? = some n) : realOf x = n := by
  unfold Num64.nat? at h
  split at h
  · cases h
  · split at h
    · rename_i hneg hmod
      obtain rfl := Option.some.inj h
      have hunits : (x.units : ℝ) = (x.units.natAbs / unitsPerOne : Nat) * unitsPerOne := by
        rw [← Nat.cast_mul, Nat.div_mul_cancel (Nat.dvd_of_mod_eq_zero hmod), Nat.cast_natAbs,
          abs_of_nonneg (not_lt.mp hneg)]
      rw [realOf_eq_units, hunits, mul_div_cancel_right₀ _ unitsPerOne_pos.ne']
    · cases h

theorem realOf_of_exponentOf? {x : Num64} {base bound n : Nat} (h : x.exponentOf? base bound = some n) :
    realOf x = (base : ℝ) ^ n := by
  unfold Num64.exponentOf? at h
  split at h
  · rename_i v hv
    have hpow : base ^ n = v := by simpa using List.find?_some h
    rw [realOf_of_nat? hv, ← hpow, Nat.cast_pow]
  · cases h

theorem realOf_of_isZero {x : Num64} (h : x.isZero = true) : realOf x = 0 :=
  (realOf_eq_zero_iff x).mpr ((Num64.isZero_iff x).mp h)

/-! ## Powers -/

theorem fine_le_topPower : fixedOne * unitsPerOne ≤ 2 ^ 2 ^ topBits := by decide +kernel

theorem magInf_le_topPower : magUnits magInf ≤ 2 ^ 2 ^ topBits * unitsPerOne := by decide +kernel

/-- From the exponent `2^topBits` on, every base's power is beyond this. -/
theorem topPower_le_rpow (b : LogBase) {y : ℝ} (hy : ((2 ^ topBits : Nat) : ℝ) ≤ y) :
    ((2 ^ 2 ^ topBits : Nat) : ℝ) ≤ b.base ^ y := by
  have hb := b.two_le_base
  calc ((2 ^ 2 ^ topBits : Nat) : ℝ) = (2 : ℝ) ^ ((2 ^ topBits : Nat) : ℝ) := by
        rw [Real.rpow_natCast, Nat.cast_pow, Nat.cast_ofNat]
    _ ≤ b.base ^ ((2 ^ topBits : Nat) : ℝ) := Real.rpow_le_rpow zero_le_two hb (Nat.cast_nonneg _)
    _ ≤ b.base ^ y := Real.rpow_le_rpow_of_exponent_le (by linarith) hy

/-- A power that is not exact is next to the real power. -/
theorem nextTo_powOf (r : Rounding) (op : NumOp) (b : LogBase) {x : Num64} (hd : (powEnclosure b x).decided = true) :
    NextTo (b.base ^ realOf x) (Num64.powOf r op b x) := by
  have hU := unitsPerOne_pos
  have hpos : ∀ y : ℝ, 0 < b.base ^ y := Real.rpow_pos_of_pos (by linarith [b.two_le_base])
  have hsign : b.base ^ realOf x ≠ 0 → (false = true ↔ b.base ^ realOf x < 0) :=
    fun _ => iff_of_false Bool.false_ne_true (hpos _).not_gt
  by_cases hrange : magUnits x.mag < 2 ^ topBits * unitsPerOne
  · have hexp : (if x.sign then -((magUnits x.mag : ℝ) / unitsPerOne) else (magUnits x.mag : ℝ) / unitsPerOne) =
        realOf x := by
      cases hs : x.sign with
      | true => exact (realOf_of_sign hs).symm
      | false => exact (realOf_of_not_sign hs).symm
    have hholds := powEnclosure_holds b x hrange
    rw [hexp] at hholds
    exact nextTo_of_holds r op x hd (by rwa [abs_of_pos (hpos _)]) hsign
  · have hbig : ((2 ^ topBits : Nat) : ℝ) ≤ (magUnits x.mag : ℝ) / unitsPerOne := by
      rw [le_div_iff₀ hU]
      exact_mod_cast not_lt.mp hrange
    have htop := topPower_le_rpow b hbig
    unfold Num64.powOf
    cases hs : x.sign with
    | true =>
      have he : powEnclosure b x = ⟨0, 1⟩ := by
        unfold powEnclosure
        dsimp only
        rw [if_neg hrange, if_pos hs]
      rw [realOf_of_sign hs] at hsign ⊢
      rw [he] at hd ⊢
      refine nextTo_of_holds r op x hd ⟨?_, ?_⟩ hsign
      · rw [Nat.cast_zero]
        exact mul_nonneg (abs_nonneg _) (Nat.cast_nonneg _)
      · rw [abs_of_pos (hpos _), Real.rpow_neg (by linarith [b.two_le_base]), inv_mul_le_iff₀ (hpos _), Nat.cast_one,
          mul_one]
        exact (Nat.cast_le.mpr fine_le_topPower).trans htop
    | false =>
      have he : powEnclosure b x = ⟨magUnits magInf * fixedOne, magUnits magInf * fixedOne⟩ := by
        unfold powEnclosure
        dsimp only
        rw [if_neg hrange, if_neg (by simp [hs])]
      rw [realOf_of_not_sign hs] at hsign ⊢
      rw [he] at hd ⊢
      refine nextTo_ofEnclosure r op x hd le_rfl ?_ (fun h => absurd h (lt_irrefl _)) hsign
      rw [abs_of_pos (hpos _), Nat.cast_mul, Nat.cast_mul, mul_comm (fixedOne : ℝ), ← mul_assoc]
      refine mul_le_mul_of_nonneg_right (le_trans ?_ (mul_le_mul_of_nonneg_right htop hU.le)) fixedOne_pos.le
      exact_mod_cast magInf_le_topPower

theorem nextTo_pow10 (r : Rounding) {x : Num64} (hx : x.isFinite = true) (hd : (powEnclosure .ten x).decided = true) :
    NextTo ((10 : ℝ) ^ realOf x) (Num64.pow10 r x) := by
  have hpow : NextTo ((10 : ℝ) ^ realOf x) (Num64.powOf r .pow10 .ten x) := nextTo_powOf r .pow10 .ten hd
  rw [Num64.pow10, Num64.lift_of_finite _ _ hx hx]
  split
  · rename_i n hn
    split
    · have hround := (roundsTo_ofNat r (10 ^ n)).1
      rwa [Nat.cast_pow, Nat.cast_ofNat, ← Real.rpow_natCast, ← realOf_of_nat? hn] at hround
    · exact hpow
  · exact hpow

theorem nextTo_exp (r : Rounding) {x : Num64} (hx : x.isFinite = true) (hd : (powEnclosure .e x).decided = true) :
    NextTo (Real.exp (realOf x)) (Num64.exp r x) := by
  rw [Num64.exp, Num64.lift_of_finite _ _ hx hx]
  split
  · rename_i hz
    have hround := (roundsTo_ofNat r 1).1
    rwa [realOf_of_isZero hz, Real.exp_zero, ← Nat.cast_one]
  · rw [← Real.exp_one_rpow]
    exact nextTo_powOf r .exp .e hd

/-! ## Logarithms -/

section Log

variable (r : Rounding) {x : Num64}

/-- A logarithm that is not exact is next to the real one. -/
theorem nextTo_logOf (op : NumOp) (b : LogBase) (hs : x.sign = false) (hz : x.isZero = false)
    (hd : (logEnclosure b x).decided = true) : NextTo (Real.logb b.base (realOf x)) (Num64.logOf r op b x) := by
  have hU := unitsPerOne_pos
  have hb := b.two_le_base
  have hmag : 0 < magUnits x.mag := by
    rw [Nat.pos_iff_ne_zero, ne_eq, magUnits_eq_zero_iff, ← Num64.isZero_iff, hz]
    exact Bool.false_ne_true
  have hpos : 0 < (magUnits x.mag : ℝ) / unitsPerOne := div_pos (Nat.cast_pos.mpr hmag) hU
  rw [Num64.logOf, if_neg (by simp [hs, hz]), realOf_of_not_sign hs]
  refine nextTo_of_holds r op x hd (logEnclosure_holds b x hmag) fun _ => ?_
  rw [Real.logb_neg_iff (by linarith) hpos, div_lt_one hU, Nat.cast_lt]
  exact decide_eq_true_iff

theorem nextTo_log10 (hx : x.isFinite = true) (hs : x.sign = false) (hz : x.isZero = false)
    (hd : (logEnclosure .ten x).decided = true) : NextTo (Real.logb 10 (realOf x)) (Num64.log10 r x) := by
  rw [Num64.log10, Num64.lift_of_finite _ _ hx hx]
  split
  · rename_i n hn
    rw [realOf_of_exponentOf? hn, Nat.cast_ofNat, Real.logb_pow, Real.logb_self_eq_one (by norm_num), mul_one]
    exact (roundsTo_ofNat r n).1
  · exact nextTo_logOf r .log10 .ten hs hz hd

/-- The logarithm of a power of two is its exponent, less that of the unit. -/
theorem logb_realOf_of_pow {k : Nat} (hs : x.sign = false) (hk : magUnits x.mag = 2 ^ k) :
    Real.logb 2 (realOf x) = (k : ℝ) - (1074 : Nat) := by
  have hpow : ∀ n : Nat, Real.logb 2 ((2 ^ n : Nat) : ℝ) = n := fun n => by
    rw [Nat.cast_pow, Nat.cast_ofNat, Real.logb_pow, Real.logb_self_eq_one one_lt_two, mul_one]
  rw [realOf_of_not_sign hs, hk, Real.logb_div (Nat.cast_ne_zero.mpr (Nat.two_pow_pos k).ne') unitsPerOne_pos.ne',
    hpow, unitsPerOne, hpow]

theorem nextTo_log2 (hx : x.isFinite = true) (hs : x.sign = false) (hz : x.isZero = false)
    (hd : (logEnclosure .two x).decided = true) : NextTo (Real.logb 2 (realOf x)) (Num64.log2 r x) := by
  rw [Num64.log2, Num64.lift_of_finite _ _ hx hx]
  split
  · rename_i hpow
    obtain ⟨-, hk⟩ := Bool.and_eq_true_iff.mp hpow
    rw [logb_realOf_of_pow hs (of_decide_eq_true hk)]
    generalize (magUnits x.mag).log2 = k
    generalize 1074 = bias
    refine (roundsTo_ofFrac r Nat.one_pos ?_ fun _ => ?_).1
    · have habs : |(k : ℝ) - bias| = (k - bias + (bias - k) : Nat) := by
        rcases le_total k bias with h | h
        · rw [Nat.sub_eq_zero_of_le h, Nat.zero_add, Nat.cast_sub h, abs_sub_comm]
          exact abs_of_nonneg (sub_nonneg.mpr (Nat.cast_le.mpr h))
        · rw [Nat.sub_eq_zero_of_le h, Nat.add_zero, Nat.cast_sub h]
          exact abs_of_nonneg (sub_nonneg.mpr (Nat.cast_le.mpr h))
      rw [habs, Nat.cast_one, mul_one, ← Nat.cast_mul]
    · rw [decide_eq_true_iff, sub_neg, Nat.cast_lt]
  · exact nextTo_logOf r .log2 .two hs hz hd

theorem nextTo_ln (hx : x.isFinite = true) (hs : x.sign = false) (hz : x.isZero = false)
    (hd : (logEnclosure .e x).decided = true) : NextTo (Real.log (realOf x)) (Num64.ln r x) := by
  rw [Num64.ln, Num64.lift_of_finite _ _ hx hx]
  split
  · rename_i hone
    rw [realOf_of_nat? hone, Nat.cast_one, Real.log_one, ← Nat.cast_zero]
    exact (roundsTo_ofNat r 0).1
  · have hlog := nextTo_logOf r .ln .e hs hz hd
    rwa [LogBase.base, Real.logb, Real.log_exp, div_one] at hlog

end Log

/-! ## Cosine -/

theorem cos_realOf (x : Num64) : Real.cos (realOf x) = Real.cos ((magUnits x.mag : ℝ) / 2 ^ 1074) := by
  have hU : (unitsPerOne : ℝ) = 2 ^ 1074 := by rw [unitsPerOne, Nat.cast_pow, Nat.cast_ofNat]
  rw [← hU]
  cases hs : x.sign with
  | true => rw [realOf_of_sign hs, Real.cos_neg]
  | false => rw [realOf_of_not_sign hs]

/-- Bounds in units of `1/B`, rescaled to units of `1/S` and rounded outwards, still hold. -/
theorem rescale_holds {B S l h : Nat} (hB : 0 < B) {w : ℝ} (hl : (l : ℝ) ≤ w * B) (hh : w * B ≤ h) :
    (⟨l * S / B, (h * S + (B - 1)) / B⟩ : Enclosure).Holds S w := by
  have hB' : (0 : ℝ) < B := Nat.cast_pos.mpr hB
  have hS : (0 : ℝ) ≤ S := Nat.cast_nonneg S
  have hcomm : w * S * B = w * B * S := mul_right_comm _ _ _
  constructor
  · refine le_of_mul_le_mul_right ?_ hB'
    rw [hcomm]
    refine le_trans ?_ (mul_le_mul_of_nonneg_right hl hS)
    exact_mod_cast Nat.div_mul_le_self _ _
  · refine le_of_mul_le_mul_right ?_ hB'
    rw [hcomm]
    refine (mul_le_mul_of_nonneg_right hh hS).trans ?_
    have hceil : h * S ≤ (h * S + (B - 1)) / B * B := by
      have hdiv := Nat.div_add_mod (h * S + (B - 1)) B
      have hmod := Nat.mod_lt (h * S + (B - 1)) hB
      rw [Nat.mul_comm (_ / B)]
      omega
    exact_mod_cast hceil

/-- Where the enclosure settles the sign of a cosine, that sign and the magnitude's enclosure are right. -/
theorem cosMagnitude_holds {x : Num64} {neg : Bool} {e : Enclosure} (h : cosMagnitude x = some (neg, e)) :
    e.Holds (fixedOne * unitsPerOne) |Real.cos (realOf x)| ∧
      (Real.cos (realOf x) ≠ 0 → (neg = true ↔ Real.cos (realOf x) < 0)) := by
  obtain ⟨hlo, hhi⟩ := cosEnclosure_holds (magUnits x.mag)
  rw [← cos_realOf] at hlo hhi
  unfold cosMagnitude at h
  dsimp only at h
  have hBn : 0 < 2 ^ cosBits (magUnits x.mag) := Nat.two_pow_pos _
  have hBcast : (2 : ℝ) ^ cosBits (magUnits x.mag) = (2 ^ cosBits (magUnits x.mag) : Nat) := by
    rw [Nat.cast_pow, Nat.cast_ofNat]
  rw [hBcast] at hlo hhi
  generalize 2 ^ cosBits (magUnits x.mag) = B at *
  generalize cosEnclosure (magUnits x.mag) = c at *
  generalize Real.cos (realOf x) = y at *
  have hB : (0 : ℝ) < B := Nat.cast_pos.mpr hBn
  have habs : ∀ i : Int, ((i.natAbs : Nat) : ℝ) = |(i : ℝ)| := fun i => by rw [Nat.cast_natAbs, Int.cast_abs]
  split at h
  · rename_i h0
    obtain ⟨rfl, rfl⟩ := Prod.mk.inj (Option.some.inj h)
    have h0' : (0 : ℝ) ≤ c.lo := Int.cast_nonneg h0
    have hy : 0 ≤ y := nonneg_of_mul_nonneg_left (h0'.trans hlo) hB
    refine ⟨rescale_holds hBn ?_ ?_, fun _ => iff_of_false Bool.false_ne_true hy.not_gt⟩
    · rwa [habs, abs_of_nonneg h0', abs_of_nonneg hy]
    · rwa [habs, abs_of_nonneg (h0'.trans (hlo.trans hhi)), abs_of_nonneg hy]
  · split at h
    · rename_i h0
      obtain ⟨rfl, rfl⟩ := Prod.mk.inj (Option.some.inj h)
      have h0' : (c.hi : ℝ) ≤ 0 := Int.cast_nonpos.mpr h0
      have hy : y ≤ 0 := nonpos_of_mul_nonpos_left (hhi.trans h0') hB
      refine ⟨rescale_holds hBn ?_ ?_, fun hne => iff_of_true rfl (lt_of_le_of_ne hy hne)⟩
      · rwa [habs, abs_of_nonpos h0', abs_of_nonpos hy, neg_mul, neg_le_neg_iff]
      · rwa [habs, abs_of_nonpos ((hlo.trans hhi).trans h0'), abs_of_nonpos hy, neg_mul, neg_le_neg_iff]
    · cases h

theorem nextTo_cos (r : Rounding) {x : Num64} (hx : x.isFinite = true) {neg : Bool} {e : Enclosure}
    (h : cosMagnitude x = some (neg, e)) (hd : e.decided = true) : NextTo (Real.cos (realOf x)) (Num64.cos r x) := by
  rw [Num64.cos, Num64.lift_of_finite _ _ hx hx]
  split
  · rename_i hz
    rw [realOf_of_isZero hz, Real.cos_zero, ← Nat.cast_one]
    exact (roundsTo_ofNat r 1).1
  · obtain ⟨hholds, hsign⟩ := cosMagnitude_holds h
    rw [h]
    exact nextTo_of_holds r .cos x hd hholds hsign

/-- Settles O41: the pattern of a decided enclosure, or of an exact case, is next to the real result. -/
theorem transcendentalsRoundToANeighbour : Obligations.TranscendentalsRoundToANeighbour := by
  unfold Obligations.TranscendentalsRoundToANeighbour
  exact fun r x hx => ⟨nextTo_pow10 r hx, nextTo_exp r hx,
    fun hs hz => ⟨nextTo_log10 r hx hs hz, nextTo_log2 r hx hs hz, nextTo_ln r hx hs hz⟩,
    fun _ _ h hd => nextTo_cos r hx h hd⟩

end Sys2Proof.Machine
end

section
/-! SUPPORT. The host's register block (spec/10_state.md R32, R35, spec/20_memory.md R55, R56): what each register reads and
what each write sets, first of the block's own functions, then of a step. -/

namespace Sys2Proof.Machine

/-! ## The doorbell -/

theorem decodeTableWord_eq_some_iff (nbits w : Nat) (i : Instr) :
    decodeTableWord nbits w = some i ↔ decode (tableWords nbits w) = .ok i := by
  unfold decodeTableWord
  cases decode (tableWords nbits w) <;> simp

/-- Outside the faulted state the doorbell runs the command that is staged. -/
theorem State.doorbell_of_decode {s : State} {i : Instr} (hf : s.status.fault = false) (hi : decode s.cmdw = .ok i) :
    s.doorbell = exec i s := by
  rcases s.doorbell_cases with ⟨hfault, -⟩ | ⟨-, ⟨e, he⟩, -⟩ | ⟨-, j, hj, hrun⟩
  · exact absurd hfault (by simp [hf])
  · exact absurd (he.symm.trans hi) (by simp)
  · cases hj.symm.trans hi
    exact hrun

theorem step_doorbell {s : State} {data : BitVec 64} {rest : List Input}
    (h : s.inputs = .hostWrite .w32 (s.cfg.regBase + 0x0A0) data :: rest) : step s = (s.setInputs rest).doorbell :=
  calc step s = (s.setInputs rest).take (.hostWrite .w32 (s.cfg.regBase + 0x0A0) data) := step_takes s _ _ h
    _ = (s.setInputs rest).writeReg .w32 0x0A0 data :=
        (s.setInputs rest).take_register_write 0x0A0 data (by decide) (by decide)
    _ = (s.setInputs rest).doorbell := State.writeReg_doorbell _ _ _

/-- Settles O4: the step is the doorbell, and the doorbell runs what is staged; `withFetchWord` stages a table word. -/
theorem doorbellRunsTheStagedCommand : Obligations.DoorbellRunsTheStagedCommand := by
  unfold Obligations.DoorbellRunsTheStagedCommand
  have hring : ∀ (s : State) (data : BitVec 64) (rest : List Input) (i : Instr),
      s.inputs = .hostWrite .w32 (s.cfg.regBase + 0x0A0) data :: rest → s.status.fault = false →
        decode s.cmdw = .ok i → step s = exec i (s.setInputs rest) := fun s _ rest _ h hf hi =>
    (step_doorbell h).trans (State.doorbell_of_decode (s := s.setInputs rest) hf hi)
  exact ⟨hring, fun s nbits w i hf hi =>
    hring (s.withFetchWord nbits w) _ s.inputs i rfl hf ((decodeTableWord_eq_some_iff nbits w i).mp hi)⟩

/-! ## Places -/

theorem unlistedOffset_iff (off : Nat) : unlistedOffset off = true ↔
    (0x024 ≤ off ∧ off < 0x040) ∨ (0x0A4 ≤ off ∧ off < 0x0C0) ∨ (0x0C4 ≤ off ∧ off < 0x100) := by
  simp [unlistedOffset, or_assoc]

/-- A whole scalar register is found at its offset (R55, R56). -/
theorem hostPlace_scalar (c : Config) (i : ScalarIdx) :
    hostPlace c .w64 (c.regBase + (0x040 + 8 * i)) = .ok (.registers, 0x040 + 8 * i) := by
  have hi := i.isLt
  have hr : hostRegion c (c.regBase + (0x040 + 8 * i)) = some (.registers, 0x040 + 8 * i.val) := by
    rw [hostRegion, if_pos ⟨by omega, by omega⟩, Nat.add_sub_cancel_left]
  have hscalar : 0x040 ≤ 0x040 + 8 * i.val ∧ 0x040 + 8 * i.val < 0x080 := by omega
  have hw : widthAllowed .registers (0x040 + 8 * i) .w64 = true := by simp [widthAllowed, hscalar]
  have ha : (0x040 + 8 * i.val) % Width.w64.bytes = 0 := by simp only [Width.bytes]; omega
  simp [hostPlace, hr, hw, ha]

theorem scalarAt_low (i : ScalarIdx) : scalarAt (0x040 + 8 * i) = i := by
  have hi := i.isLt
  apply Fin.ext
  simp only [scalarAt, Fin.ofNat]
  omega

theorem scalarAt_high (i : ScalarIdx) : scalarAt (0x044 + 8 * i) = i := by
  have hi := i.isLt
  apply Fin.ext
  simp only [scalarAt, Fin.ofNat]
  omega

/-! ## Bits of the values -/

theorem joinWords_eq_append (hi lo : Word) : joinWords hi lo = hi ++ lo := by
  apply BitVec.eq_of_toNat_eq
  have hhi := hi.isLt
  have hlo := lo.isLt
  rw [joinWords, BitVec.toNat_ofNat, BitVec.toNat_append, ← Nat.shiftLeft_add_eq_or_of_lt hlo, Nat.shiftLeft_eq,
    Nat.mod_eq_of_lt (by omega)]

/-- The bit of a word as a digit of its value. -/
theorem getLsbD_eq_of_digit {n k : Nat} {v : BitVec n} {b : Bool} (h : v.toNat / 2 ^ k % 2 = b.toNat) :
    v.getLsbD k = b := by
  rw [BitVec.getLsbD, Nat.testBit_eq_decide_div_mod_eq, h]
  cases b <;> rfl

/-- Where `STATUS` holds its fields, and that every other bit is 0 (R22, U16). -/
theorem Status.toWord_layout (f : Status) :
    f.toWord.getLsbD 0 = f.fault ∧ f.toWord.getLsbD 1 = f.matched ∧ f.toWord.getLsbD 2 = f.lv ∧
      f.toWord.getLsbD 3 = f.pv ∧ f.toWord.extractLsb' 8 8 = f.err ∧
      ∀ b, 4 ≤ b ∧ b < 8 ∨ 16 ≤ b → f.toWord.getLsbD b = false := by
  have hfault := f.fault.toNat_lt
  have hmatched := f.matched.toNat_lt
  have hlv := f.lv.toNat_lt
  have hpv := f.pv.toNat_lt
  have herr := f.err.isLt
  have hvalue : f.toWord.toNat =
      f.fault.toNat + f.matched.toNat * 2 + f.lv.toNat * 4 + f.pv.toNat * 8 + f.err.toNat * 256 := by
    rw [Status.toWord, BitVec.toNat_ofNat, Nat.mod_eq_of_lt (by omega)]
  refine ⟨getLsbD_eq_of_digit (by omega), getLsbD_eq_of_digit (by omega), getLsbD_eq_of_digit (by omega),
    getLsbD_eq_of_digit (by omega), ?_, fun b hb => getLsbD_eq_of_digit ?_⟩
  · apply BitVec.eq_of_toNat_eq
    rw [BitVec.extractLsb'_toNat, Nat.shiftRight_eq_div_pow]
    omega
  · rw [Bool.toNat_false]
    rcases hb with ⟨hlo, hhi⟩ | hhi
    · interval_cases b <;> omega
    · have hbig : f.toWord.toNat < 2 ^ b :=
        calc f.toWord.toNat < 2 ^ 16 := by omega
          _ ≤ 2 ^ b := Nat.pow_le_pow_right (by decide) hhi
      rw [Nat.div_eq_of_lt hbig]

section Registers

/-! ## What the block reads -/

variable (s : State)

theorem State.readReg_scalarLow (i : ScalarIdx) :
    s.readReg (0x040 + 8 * i) = (s.scalar i).bits.extractLsb' 0 32 := by
  have hi := i.isLt
  have hhalf : (0x040 + 8 * i.val) / 4 % 2 = 0 := by omega
  simp (disch := omega) only [State.readReg, if_pos, if_neg, hhalf, scalarAt_low, numHalf, if_true]

theorem State.readReg_scalarHigh (i : ScalarIdx) :
    s.readReg (0x044 + 8 * i) = (s.scalar i).bits.extractLsb' 32 32 := by
  have hi := i.isLt
  have hhalf : (0x044 + 8 * i.val) / 4 % 2 = 1 := by omega
  simp (disch := omega) only [State.readReg, if_pos, if_neg, hhalf, scalarAt_high, numHalf]

theorem State.readReg_cmdw (i : Fin 8) : s.readReg (0x080 + 4 * i) = s.cmdw[i] := by
  have hi := i.isLt
  have hat : (0x080 + 4 * i.val - 0x080) / 4 = i := by omega
  simp (disch := omega) only [State.readReg, if_pos, if_neg, hat]
  simp

theorem State.readReg_unlisted {off : Nat} (h : unlistedOffset off = true) : s.readReg off = 0#32 := by
  rw [unlistedOffset_iff] at h
  simp (disch := omega) only [State.readReg, if_neg]

/-! ## What a write to the block sets -/

variable (data : BitVec 64)

theorem State.writeReg_scalar (i : ScalarIdx) :
    s.writeReg .w64 (0x040 + 8 * i) data = .next (s.setScalar i ⟨data⟩) := by
  have hi := i.isLt
  simp (disch := omega) only [State.writeReg, if_pos, scalarAt_low]

theorem State.writeReg_scalarLow (i : ScalarIdx) : s.writeReg .w32 (0x040 + 8 * i) data =
    .next (s.setScalar i ⟨(s.scalar i).bits.extractLsb' 32 32 ++ data.extractLsb' 0 32⟩) := by
  have hi := i.isLt
  have hhalf : (0x040 + 8 * i.val) / 4 % 2 = 0 := by omega
  simp (disch := omega) only [State.writeReg, if_pos, scalarAt_low, hhalf, setNumHalf, numHalf, joinWords_eq_append, if_neg,
    if_true, BitVec.setWidth_eq_extractLsb' (by decide : 32 ≤ 64)]

theorem State.writeReg_scalarHigh (i : ScalarIdx) : s.writeReg .w32 (0x044 + 8 * i) data =
    .next (s.setScalar i ⟨data.extractLsb' 0 32 ++ (s.scalar i).bits.extractLsb' 0 32⟩) := by
  have hi := i.isLt
  have hhalf : (0x044 + 8 * i.val) / 4 % 2 = 1 := by omega
  simp (disch := omega) only [State.writeReg, if_pos, scalarAt_high, hhalf, setNumHalf, numHalf, joinWords_eq_append, if_neg,
    if_true, BitVec.setWidth_eq_extractLsb' (by decide : 32 ≤ 64)]

theorem State.setCmdw_eq (i : Fin 8) (w : Word) : s.setCmdw i w = { s with cmdw := s.cmdw.set i w } := by
  have hset : s.cmdw.setIfInBounds i w = s.cmdw.set i w := by
    ext j hj
    rw [Vector.getElem_setIfInBounds, Vector.getElem_set]
  rw [State.setCmdw, hset]

theorem State.writeReg_cmdw (i : Fin 8) :
    s.writeReg .w32 (0x080 + 4 * i) data = .next { s with cmdw := s.cmdw.set i (data.setWidth 32) } := by
  have hi := i.isLt
  have hat : (0x080 + 4 * i.val - 0x080) / 4 = i := by omega
  simp (disch := omega) only [State.writeReg, if_pos, if_neg, hat, State.setCmdw_eq]

/-- The read-only registers and the offsets of no register ignore a write (log entry 13). -/
theorem State.writeReg_ignored (w : Width) {off : Nat} (h : off ≤ 0x020 ∨ unlistedOffset off = true) :
    s.writeReg w off data = .next s := by
  rw [unlistedOffset_iff] at h
  simp (disch := omega) only [State.writeReg, if_neg]

/-! ## The same of a step -/

variable {s data}

/-- What a read of the block answers does not depend on the inputs still to come. -/
theorem State.hostLoad_setInputs (w : Width) (off : Nat) (rest : List Input) :
    (s.setInputs rest).hostLoad w .registers off = s.hostLoad w .registers off := by
  cases w <;> rfl

theorem hostReads_of_place {w : Width} {off : Nat} (h : hostPlace s.cfg w (s.cfg.regBase + off) = .ok (.registers, off)) :
    HostReads w s off (s.hostLoad w .registers off) := fun rest =>
  calc step { s with inputs := .hostRead w (s.cfg.regBase + off) :: rest }
    _ = (s.setInputs rest).take (.hostRead w (s.cfg.regBase + off)) := step_takes _ _ rest rfl
    _ = .next ((s.setInputs rest).setReadData ((s.setInputs rest).hostLoad w .registers off)) := by
        simp only [State.take, State.setInputs_cfg, h]
    _ = .next ((s.setInputs rest).setReadData (s.hostLoad w .registers off)) := by rw [State.hostLoad_setInputs]

theorem hostReads_word {off : Nat} (h : off < 0x100) (h4 : off % 4 = 0) {v : Word} (hv : s.readReg off = v) :
    HostReads .w32 s off (v.setWidth 64) :=
  hv ▸ hostReads_of_place (hostPlace_register _ _ h h4)

/-- The upper half of the `CRC_REG` word reads as 0 (R25). -/
theorem hostReads_crcReg : HostReads .w32 s 0x020 (s.crcReg.setWidth 64) := by
  have hwide : (s.crcReg.setWidth 32).setWidth 64 = s.crcReg.setWidth 64 :=
    BitVec.setWidth_setWidth (by decide)
  exact hwide ▸ hostReads_word (by decide) (by decide) rfl

theorem hostReads_scalar (i : ScalarIdx) : HostReads .w64 s (0x040 + 8 * i) (s.scalar i).bits := by
  have hload : s.hostLoad .w64 .registers (0x040 + 8 * i) = (s.scalar i).bits := by rw [State.hostLoad, scalarAt_low]
  exact hload ▸ hostReads_of_place (hostPlace_scalar _ i)

/-- A host write is the write to the register that its place holds, whatever inputs follow. -/
theorem hostWrites_of_place {w : Width} {off : Nat} {t : State}
    (h : hostPlace s.cfg w (s.cfg.regBase + off) = .ok (.registers, off))
    (ht : ∀ rest, (s.setInputs rest).writeReg w off data = .next (t.setInputs rest)) : HostWrites w s off data t := fun rest =>
  calc step { s with inputs := .hostWrite w (s.cfg.regBase + off) data :: rest }
    _ = (s.setInputs rest).take (.hostWrite w (s.cfg.regBase + off) data) := step_takes _ _ rest rfl
    _ = (s.setInputs rest).writeReg w off data := by simp only [State.take, State.setInputs_cfg, h, State.hostStore]
    _ = .next (t.setInputs rest) := ht rest

theorem hostWrites_word {off : Nat} {t : State} (h : off < 0x100) (h4 : off % 4 = 0)
    (ht : ∀ rest, (s.setInputs rest).writeReg .w32 off data = .next (t.setInputs rest)) : HostWrites .w32 s off data t :=
  hostWrites_of_place (hostPlace_register _ _ h h4) ht

/-! ## The register block -/

/-- The reads of the `i`-th scalar register, whole and by halves, and of the `i`-th staging register. -/
theorem hostReads_indexed (i : Fin 8) :
    HostReads .w64 s (0x040 + 8 * i) (s.scalar i).bits ∧
      HostReads .w32 s (0x040 + 8 * i) (((s.scalar i).bits.extractLsb' 0 32).setWidth 64) ∧
      HostReads .w32 s (0x044 + 8 * i) (((s.scalar i).bits.extractLsb' 32 32).setWidth 64) ∧
      HostReads .w32 s (0x080 + 4 * i) (s.cmdw[i].setWidth 64) := by
  have hi := i.isLt
  exact ⟨hostReads_scalar i, hostReads_word (by omega) (by omega) (s.readReg_scalarLow i),
    hostReads_word (by omega) (by omega) (s.readReg_scalarHigh i),
    hostReads_word (by omega) (by omega) (s.readReg_cmdw i)⟩

/-- The writes of the `i`-th staging register, and of the `i`-th scalar register, whole and by halves. -/
theorem hostWrites_indexed (i : Fin 8) :
    HostWrites .w32 s (0x080 + 4 * i) data { s with cmdw := s.cmdw.set i (data.setWidth 32) } ∧
      HostWrites .w64 s (0x040 + 8 * i) data { s with scalars := s.scalars.set i ⟨data⟩ } ∧
      HostWrites .w32 s (0x040 + 8 * i) data
        { s with scalars := s.scalars.set i ⟨(s.scalar i).bits.extractLsb' 32 32 ++ data.extractLsb' 0 32⟩ } ∧
      HostWrites .w32 s (0x044 + 8 * i) data
        { s with scalars := s.scalars.set i ⟨data.extractLsb' 0 32 ++ (s.scalar i).bits.extractLsb' 0 32⟩ } := by
  have hi := i.isLt
  exact ⟨hostWrites_word (by omega) (by omega) fun rest => State.writeReg_cmdw _ data i,
    hostWrites_of_place (hostPlace_scalar _ i) fun rest => State.writeReg_scalar _ data i,
    hostWrites_word (by omega) (by omega) fun rest => State.writeReg_scalarLow _ data i,
    hostWrites_word (by omega) (by omega) fun rest => State.writeReg_scalarHigh _ data i⟩

theorem lt_of_unlistedOffset {off : Nat} (h : unlistedOffset off = true) : off < 0x100 := by
  rw [unlistedOffset_iff] at h
  omega

theorem hostReads_unlisted {off : Nat} (h4 : off % 4 = 0) (h : unlistedOffset off = true) : HostReads .w32 s off 0#64 :=
  hostReads_word (lt_of_unlistedOffset h) h4 (s.readReg_unlisted h)

theorem hostWrites_ignored {off : Nat} (h4 : off % 4 = 0) (h : off ≤ 0x020 ∨ unlistedOffset off = true) :
    HostWrites .w32 s off data s := by
  have hoff : off < 0x100 := h.elim (fun hlow => by omega) lt_of_unlistedOffset
  exact hostWrites_word hoff h4 fun rest => State.writeReg_ignored _ data .w32 h

end Registers

/-- Settles O14: each offset is a place of the block, where the block's own read and write say what the step does. -/
theorem hostRegisterAccess : Obligations.HostRegisterAccess := by
  unfold Obligations.HostRegisterAccess
  exact fun s => ⟨⟨s.status.toWord, hostReads_word (by decide) (by decide) rfl, s.status.toWord_layout⟩,
    hostReads_word (by decide) (by decide) rfl, hostReads_word (by decide) (by decide) rfl,
    hostReads_word (by decide) (by decide) rfl, hostReads_word (by decide) (by decide) rfl,
    hostReads_word (by decide) (by decide) rfl, hostReads_word (by decide) (by decide) rfl,
    hostReads_word (by decide) (by decide) rfl, hostReads_crcReg,
    hostReads_indexed, hostReads_word (by decide) (by decide) rfl, fun _ => hostReads_unlisted,
    fun _ => ⟨hostWrites_indexed, fun _ => hostWrites_ignored⟩⟩

end Sys2Proof.Machine
end

section
/-! SUPPORT. The frame of every command (R58, R76): the rules for the operations that write bits, registers and coders, and a
command's checks peeled off down to the operations it is made of. -/

namespace Sys2Proof.Machine

variable {α κ : Type} {M : NumSystem α κ} {w : WriteSet} {s t : State α κ}

/-! ## One rule per operation -/

theorem UntouchedOver.refl : UntouchedOver M w t t := by simp [UntouchedOver]

/-- A write of bits stays inside the range that the write set names, and need not fill it. -/
theorem untouched_writeBits {a n : Nat} {xs : List Bit} (hw : w.bm = (a, n)) (hlen : xs.length ≤ n) :
    UntouchedOver M w t (t.writeBits a xs) := by
  have hbits : ∀ x, outsideRange 1 w.bm x → (t.writeBits a xs).readBit x = t.readBit x := by
    intro x hx
    rw [hw, outsideRange] at hx
    exact State.readBit_writeBits_outside t a x xs (by omega)
  simpa [UntouchedOver] using hbits

theorem untouched_setRes {x : Word} (hw : w.res = true) : UntouchedOver M w t (t.setRes x) := by
  simp [UntouchedOver, hw]

theorem untouched_setCrcReg {c : BitVec 16} (hw : w.crcReg = true) : UntouchedOver M w t (t.setCrcReg c) := by
  simp [UntouchedOver, hw]

theorem untouched_setMatch {m : Bool} (hw : w.matched = true) : UntouchedOver M w t (t.setMatch m) := by
  simp [UntouchedOver, hw]

theorem untouched_setLdpc {n k dc : Word} (hw : w.ldpc = true) : UntouchedOver M w t (t.setLdpc n k dc) := by
  simp [UntouchedOver, hw]

theorem untouched_setPolar {n k : Word} (hw : w.polar = true) : UntouchedOver M w t (t.setPolar n k) := by
  simp [UntouchedOver, hw]

/-! ## The shapes of a command's answer -/

/-- The bits of a coder and their count. -/
theorem untouched_bits_and_length {a n m : Nat} {xs : List Bit} (hw : w.bm = (a, n)) (hlen : xs.length ≤ n)
    (holen : w.olen = true) : UntouchedOver M w t ((t.writeBits a xs).setOlen m) :=
  (untouched_writeBits hw hlen).trans (untouched_setOlen holen)

/-- Symbols and their count. -/
theorem untouched_syms_and_length {a m : Nat} {xs : List (SymOf α)} (hM : StorageLaws M) (hw : w.sm = (a, xs.length))
    (holen : w.olen = true) : UntouchedOver M w t ((t.putSyms M a xs).setOlen m) :=
  (untouched_putSyms hM hw).trans (untouched_setOlen holen)

/-- A scalar result that is free on an input that is not finite. -/
theorem untouched_scalar_and_free {i : ScalarIdx} {x : α} (hw : i ∈ w.scalars) (hfree : w.free = true) :
    UntouchedOver M w t (t.setScalar i x).spendFree :=
  (untouched_setScalar hw).trans (untouched_spendFree hfree)

/-- What `CRC_APPEND` writes: the data and the CRC, and its three registers (R104). -/
theorem untouched_crcAppend {src len dst : Word} {xs : List Bit} {c : BitVec 16} {r : Word}
    (hlen : xs.length = len.toNat + 16) : UntouchedOver M (writeSet s (.crcAppend src len dst)) t
      ((((t.writeBits dst.toNat xs).setOlen (len.toNat + 16)).setCrcReg c).setRes r) :=
  ((untouched_bits_and_length rfl hlen.le rfl).trans (untouched_setCrcReg rfl)).trans (untouched_setRes rfl)

/-! ## Peeling off the checks -/

variable (M w s) in
/-- How a command may leave the machine: a fault latched and nothing else changed, or nothing written outside `w`. -/
def FaultedOrFramed (t : State α κ) : Prop := (∃ c : ErrCode, t = s.latchFault c) ∨ UntouchedOver M w s t

theorem framed_next (h : UntouchedOver M w s t) : Answers (FaultedOrFramed M w s) (.next t) := answers_next (.inr h)

/-- A check in front of a framed answer. -/
theorem framed_check {r : ResultOf α κ} {c : Prop} [Decidable c] {e : ErrCode}
    (hpass : ¬c → Answers (FaultedOrFramed M w s) r) : Answers (FaultedOrFramed M w s) (if c then s.raise e else r) :=
  answers_check (.inl ⟨e, rfl⟩) hpass

/-- A command that completes is framed. -/
theorem CompletesOver.framed {i : Instr} {p : State α κ → Prop} {r : ResultOf α κ} (h : CompletesOver M i s p)
    (hr : execOver M i s = r) : Answers (FaultedOrFramed M (writeSet s i) s) r := by
  obtain ⟨t, hexec, -, hframe⟩ := h
  exact ⟨t, hr.symm.trans hexec, .inr hframe⟩

/-! ## Commands -/

theorem framed_execGetConst (hM : StorageLaws M) (htable : s.cfg.tableWf = true) (sch : Scheme) (dst : Word) :
    Answers (FaultedOrFramed M (writeSet s (.getConst sch dst)) s) (execGetConstOver M sch dst s) :=
  framed_check fun hs => framed_check fun _ => framed_next <| untouched_syms_and_length hM
    (congrArg (Prod.mk dst.toNat) (length_constellation M.toNumRec s.cfg sch htable (by simpa using hs)).symm) rfl

theorem framed_execModulate (hM : StorageLaws M) (sch : Scheme) (src len dst : Word) :
    Answers (FaultedOrFramed M (writeSet s (.modulate sch src len dst)) s) (execModulateOver M sch src len dst s) :=
  framed_check fun _ => framed_check fun _ =>
    framed_next (untouched_syms_and_length hM (by simp [writeSet]) rfl)

/-- The LDPC encoder writes a whole block: a constructed coder has no more data bits than its block length. -/
theorem framed_execLdpcEnc (hldpc : s.ldpcInv = true) (src len dst : Word) :
    Answers (FaultedOrFramed M (writeSet s (.ldpcEnc src len dst)) s) (execLdpcEnc src len dst s) := by
  refine framed_check fun hlv => framed_check fun _ => framed_next (untouched_bits_and_length rfl ?_ rfl)
  rw [State.ldpcInv, if_pos (by simpa using hlv), decide_eq_true_eq] at hldpc
  obtain ⟨-, -, hk, -⟩ := hldpc
  exact (length_ldpcEncode _ _ _ _ hk.le).le

/-- The Polar decoder writes no more bits than the coder has data bits. -/
theorem framed_execPolarDec (hpolar : s.polarInv = true) (src len dst listSize : Word) :
    Answers (FaultedOrFramed M (writeSet s (.polarDec src len dst listSize)) s)
      (execPolarDecOver M src len dst listSize s) := by
  refine framed_check fun hpv => framed_check fun _ => framed_check fun _ =>
    framed_next (untouched_bits_and_length rfl ?_ rfl)
  simp only [State.polarInv, if_pos (show s.status.pv = true by simpa using hpv), polarLength, Bool.and_eq_true] at hpolar
  obtain ⟨⟨hpow, -⟩, -⟩ := hpolar
  rw [length_takeInfo, eq_two_pow_of_isPow2 _ hpow]
  exact length_infoPositions_le _ _

/-- Every command faults or stays inside its write set, over every system that holds its values in cells. -/
theorem framed_execOver (hM : StorageLaws M) (htable : s.cfg.tableWf = true) (hldpc : s.ldpcInv = true)
    (hpolar : s.polarInv = true) (i : Instr) :
    Answers (FaultedOrFramed M (writeSet s i) s) (execOver M i s) := by
  cases i with
  | nop => exact framed_next .refl
  | sets => exact framed_next (untouched_setScalar (by simp [writeSet]))
  | getBps => exact framed_next (untouched_setRes rfl)
  | berBpsk => exact framed_next (untouched_scalar_and_free (by simp [writeSet]) rfl)
  | crc16 =>
    exact framed_check fun _ => framed_check fun _ =>
      framed_next ((untouched_setCrcReg rfl).trans (untouched_setRes rfl))
  | crcVerify =>
    exact framed_check fun _ =>
      framed_next (((untouched_setMatch rfl).trans (untouched_setCrcReg rfl)).trans (untouched_setRes rfl))
  | crcAppend => exact framed_check fun _ => framed_next (untouched_crcAppend (by simp))
  | getConst sch dst => exact framed_execGetConst hM htable sch dst
  | modulate sch src len dst => exact framed_execModulate hM sch src len dst
  | demodHard =>
    exact framed_check fun _ => framed_check fun _ => framed_next (untouched_bits_and_length rfl (by simp) rfl)
  | demodSoft sch ss src len dst =>
    exact framed_check fun hs => framed_check fun hv => framed_check fun hf =>
      (demodSoft_completesOver M hM s sch ss src len dst (by simpa using hs) (by simpa using hv) (fits_of_check hf).1
        (fits_of_check hf).2).framed ((if_neg hs).trans ((if_neg hv).trans (if_neg hf)))
  | awgnAdd ss st sd src len dst b =>
    exact framed_check fun hf =>
      (awgnAdd_completesOver M hM s ss st sd src len dst b (fits_of_check hf).1 (fits_of_check hf).2).framed (if_neg hf)
  | nvarEbn0 ss st sd b =>
    exact framed_check fun hc => (conversions_complete M s ss st sd b (by simpa using hc)).1.framed (if_neg hc)
  | snr2ebn0 ss st sd b =>
    exact framed_check fun hc => (conversions_complete M s ss st sd b (by simpa using hc)).2.1.framed (if_neg hc)
  | ebn02snr ss st sd b =>
    exact framed_check fun hc => (conversions_complete M s ss st sd b (by simpa using hc)).2.2.framed (if_neg hc)
  | measSnr =>
    exact framed_check fun _ => framed_check fun _ => framed_check fun _ => framed_check fun _ => framed_check fun _ =>
      framed_next (untouched_scalar_and_free (by simp [writeSet]) rfl)
  | ldpcCfg => exact framed_check fun _ => framed_next (untouched_setLdpc rfl)
  | polarCfg => exact framed_check fun _ => framed_next (untouched_setPolar rfl)
  | ldpcEnc src len dst => exact framed_execLdpcEnc hldpc src len dst
  | polarDec src len dst listSize => exact framed_execPolarDec hpolar src len dst listSize
  | ldpcDec =>
    exact framed_check fun _ => framed_check fun _ => framed_next (untouched_bits_and_length rfl (by simp) rfl)
  | polarEnc =>
    exact framed_check fun _ => framed_check fun _ => framed_check fun _ =>
      framed_next (untouched_bits_and_length rfl (by simp) rfl)
  | polarXform =>
    exact framed_check fun _ => framed_check fun _ => framed_next (untouched_bits_and_length rfl (by simp) rfl)

/-- Settles O15: every command is framed over the system of the configuration, on which the invariant's parts bear. -/
theorem everyCommandWritesItsTargetsOnly : Obligations.EveryCommandWritesItsTargetsOnly := by
  unfold Obligations.EveryCommandWritesItsTargetsOnly
  intro i s t hinv hexec
  obtain ⟨hcfg, -, hldpc, hpolar, -⟩ := s.inv_iff.mp hinv
  simp only [Config.wf, Bool.and_eq_true] at hcfg
  obtain ⟨-, htable⟩ := hcfg
  obtain ⟨u, hu, hframed⟩ := framed_execOver (system_storage s.cfg) htable hldpc hpolar i
  rw [exec_eq_execOver, hu] at hexec
  cases hexec
  exact hframed

end Sys2Proof.Machine
end

section
/-! SUPPORT. `CRC_APPEND` (spec/40_crc.md R104, R105): the bits that stand at `DST` after it. -/

namespace Sys2Proof.Machine

variable {α κ : Type} (s : State α κ)

@[simp] theorem State.getElem_readBits (a n j : Nat) (h : j < (s.readBits a n).length) :
    (s.readBits a n)[j] = s.readBit (a + j) := by
  simp [State.readBits]

@[simp] theorem getElem_bitsMsb (n v j : Nat) (h : j < (bitsMsb n v).length) : (bitsMsb n v)[j] = v.testBit (n - 1 - j) := by
  simp [bitsMsb]

/-- `c[15]` stands first (R54). -/
theorem getElem_crcBits (c : BitVec 16) (j : Nat) (h : j < (crcBits c).length) : (crcBits c)[j] = c.getLsbD (15 - j) :=
  getElem_bitsMsb 16 c.toNat j h

/-- After two sequences are written one behind the other, each is read at its own place. -/
theorem State.readBit_writeBits_append (a : Nat) (xs ys : List Bit) :
    (∀ j, (h : j < xs.length) → (s.writeBits a (xs ++ ys)).readBit (a + j) = xs[j]) ∧
    ∀ j, (h : j < ys.length) → (s.writeBits a (xs ++ ys)).readBit (a + xs.length + j) = ys[j] := by
  refine ⟨fun j h => ?_, fun j h => ?_⟩
  · rw [s.readBit_writeBits_inside a j (xs ++ ys) (by rw [List.length_append]; omega), List.getElem_append_left h]
  · rw [Nat.add_assoc, s.readBit_writeBits_inside a _ (xs ++ ys) (by rw [List.length_append]; omega),
      List.getElem_append_right (Nat.le_add_right _ _)]
    simp only [Nat.add_sub_cancel_left]

/-- Settles O19: the data and the CRC bits are read where the one sequence write puts them. -/
theorem crcAppendCompletes : Obligations.CrcAppendCompletes := by
  unfold Obligations.CrcAppendCompletes
  intro s src len dst hsrc hdst
  have hfit : fits dst.toNat (len.toNat + 16) s.cfg.bmBits = true := (fits_iff _ _ _).mpr (.inr hdst)
  let data := s.readBits src.toNat len.toNat
  let c := crc 0x1021#16 data
  obtain ⟨hdata, hcrc⟩ := s.readBit_writeBits_append dst.toNat data (crcBits c)
  have hlen : data.length = len.toNat := s.length_readBits _ _
  refine ⟨_, if_neg (by simp [hsrc, hfit]), ⟨fun j hj => ?_, fun j hj => ?_, rfl, ?_, rfl⟩,
    untouched_crcAppend (by simp)⟩
  · exact (hdata j (hlen.symm ▸ hj)).trans (s.getElem_readBits _ _ _ _)
  · rw [hlen] at hcrc
    exact (hcrc j (by simpa using hj)).trans (getElem_crcBits c j _)
  · exact BitVec.toNat_setWidth_of_le (by decide)

end Sys2Proof.Machine
end

section
/-! SUPPORT. The host's windows onto `BM` and `LM` (spec/20_memory.md R52, R53, R56, R57): where a byte of `BM` and a value of
`LM` are found, what a write of one sets, and what reads back. -/

namespace Sys2Proof.Machine

/-! ## Places -/

theorem disjointRanges_iff (a n b m : Nat) : disjointRanges a n b m = true ↔ a + n ≤ b ∨ b + m ≤ a := by
  simp [disjointRanges]

/-- The ranges of an admitted map lie apart from `BM`, and from `LM` (R12, R52). -/
theorem Config.windows_disjoint {c : Config} (h : c.wf = true) :
    (c.regBase + 0x100 ≤ c.bmBase ∨ c.bmBase + c.bmBits / 8 ≤ c.regBase) ∧
    (c.regBase + 0x100 ≤ c.lmBase ∨ c.lmBase + 8 * c.lmVals ≤ c.regBase) ∧
    (c.bmBase + c.bmBits / 8 ≤ c.lmBase ∨ c.lmBase + 8 * c.lmVals ≤ c.bmBase) ∧
    (c.smBase + 16 * c.smSyms ≤ c.lmBase ∨ c.lmBase + 8 * c.lmVals ≤ c.smBase) := by
  simp only [Config.wf, Config.mapWf, Bool.and_eq_true, disjointRanges_iff] at h
  obtain ⟨⟨-, ⟨⟨⟨⟨hregBm, -⟩, hregLm⟩, -⟩, hbmLm⟩, hsmLm⟩, -⟩ := h
  exact ⟨hregBm, hregLm, hbmLm, hsmLm⟩

theorem hostRegion_bm {c : Config} (h : c.wf = true) {off : Nat} (hoff : off < c.bmBits / 8) :
    hostRegion c (c.bmBase + off) = some (.bmWindow, off) := by
  obtain ⟨hreg, -⟩ := Config.windows_disjoint h
  simp (disch := omega) only [hostRegion, if_neg, if_pos, Nat.add_sub_cancel_left]

theorem hostRegion_lm {c : Config} (h : c.wf = true) {off : Nat} (hoff : off < 8 * c.lmVals) :
    hostRegion c (c.lmBase + off) = some (.lmWindow, off) := by
  obtain ⟨-, hreg, hbm, hsm⟩ := Config.windows_disjoint h
  simp (disch := omega) only [hostRegion, if_neg, if_pos, Nat.add_sub_cancel_left]

/-- Every byte of `BM` is found at its offset (R53). -/
theorem hostPlace_bmByte {c : Config} (h : c.wf = true) {k : Nat} (hk : k < c.bmBits / 8) :
    hostPlace c .w8 (c.bmBase + k) = .ok (.bmWindow, k) := by
  simp [hostPlace, hostRegion_bm h hk, widthAllowed, Width.bytes, Nat.mod_one]

/-- Every value of `LM` is found at its offset (R56). -/
theorem hostPlace_lmValue {c : Config} (h : c.wf = true) {j : Nat} (hj : j < c.lmVals) :
    hostPlace c .w64 (c.lmBase + 8 * j) = .ok (.lmWindow, 8 * j) := by
  simp [hostPlace, hostRegion_lm h (show 8 * j < 8 * c.lmVals by omega), widthAllowed, Width.bytes]

/-! ## Steps -/

/-- A step that takes a host write to an admitted place is the store there. -/
theorem step_hostWrite {s : State} {wd : Width} {a : Nat} {data : BitVec 64} {rest : List Input} {g : Region} {off : Nat}
    (h : s.inputs = .hostWrite wd a data :: rest) (hp : hostPlace s.cfg wd a = .ok (g, off)) :
    step s = (s.setInputs rest).hostStore wd g off data := by
  rw [step_takes s _ rest h]
  simp only [State.take, State.setInputs_cfg, hp]

/-- A step that takes a host read of an admitted place loads from there. -/
theorem step_hostRead {s : State} {wd : Width} {a : Nat} {rest : List Input} {g : Region} {off : Nat}
    (h : s.inputs = .hostRead wd a :: rest) (hp : hostPlace s.cfg wd a = .ok (g, off)) :
    step s = .next ((s.setInputs rest).setReadData ((s.setInputs rest).hostLoad wd g off)) := by
  rw [step_takes s _ rest h]
  simp only [State.take, State.setInputs_cfg, hp]

/-! ## A byte of `BM` -/

/-- The value of the `n` low bits of a number (R14). -/
theorem valMsb_bitsMsb (n v : Nat) : valMsb (bitsMsb n v) = v % 2 ^ n := by
  induction n generalizing v with
  | zero => simp [bitsMsb, valMsb, Nat.mod_one]
  | succ n ih =>
    rw [bitsMsb_succ, valMsb_append_singleton, ih, Nat.toNat_testBit, Nat.pow_zero, Nat.div_one, Nat.pow_succ', Nat.mod_mul,
      Nat.add_comm]

/-- The byte that was written reads back (R53). -/
theorem State.readBmByte_writeBits_same (s : State) (k v : Nat) (hv : v < 2 ^ 8) :
    ((s.writeBits (8 * k) (bitsMsb 8 v)).readBmByte k).toNat = v := by
  have hread : (s.writeBits (8 * k) (bitsMsb 8 v)).readBits (8 * k) 8 = bitsMsb 8 v :=
    s.readBits_writeBits_same (8 * k) (bitsMsb 8 v)
  rw [State.readBmByte, hread, valMsb_bitsMsb, BitVec.toNat_ofNat, Nat.mod_mod, Nat.mod_eq_of_lt hv]

/-- Settles O57: the write stores the eight bits, and the read finds them again. -/
theorem hostByteWritesAreMsbFirst : Obligations.HostByteWritesAreMsbFirst := by
  unfold Obligations.HostByteWritesAreMsbFirst
  intro s k data rest hwf hk hin
  let v := data.toNat % 256
  have hv : v < 2 ^ 8 := Nat.mod_lt _ (by decide)
  let s' := s.setInputs (.hostRead .w8 (s.cfg.bmBase + k) :: rest)
  let t := s'.writeBits (8 * k) (bitsMsb 8 v)
  have hplace := hostPlace_bmByte hwf hk
  refine ⟨t, _, step_hostWrite hin hplace, step_hostRead (s := t) rfl hplace, fun i hi => ?_,
    untouched_writeBits rfl (by simp), ?_, rfl⟩
  · have hbit : t.readBit (8 * k + i) = v.testBit (7 - i) :=
      (s'.readBit_writeBits_inside _ i _ (by simpa using hi)).trans (getElem_bitsMsb 8 v i _)
    rw [hbit, BitVec.getLsbD, show v = data.toNat % 2 ^ 8 from rfl, Nat.testBit_mod_two_pow,
      decide_eq_true (by omega : 7 - i < 8), Bool.true_and]
  · exact (BitVec.toNat_setWidth_of_le (by decide)).trans (s'.readBmByte_writeBits_same k v hv)

/-! ## A value of `LM` -/

/-- A 64-bit store to `LM` is the write of one value. -/
theorem State.hostStore_lmValue (s : State) (j : Nat) (data : BitVec 64) :
    s.hostStore .w64 .lmWindow (8 * j) data = .next (s.writeVals j [⟨data⟩]) := rfl

/-- Four bytes of a value, from bit `k` on, make the word that stands there (R55). -/
theorem wordOfBytes_eq_extractLsb' (v : BitVec 64) (k : Nat) (f : Nat → Byte)
    (h : ∀ i, i < 4 → f i = v.extractLsb' (k + 8 * i) 8) : wordOfBytes f = v.extractLsb' k 32 := by
  have hbyte : ∀ i, i < 4 → (f i).toNat = v.toNat / 2 ^ k / 2 ^ (8 * i) % 2 ^ 8 := by
    intro i hi
    rw [h i hi, BitVec.extractLsb'_toNat, Nat.shiftRight_eq_div_pow, Nat.pow_add, Nat.div_div_eq_div_mul]
  apply BitVec.eq_of_toNat_eq
  rw [wordOfBytes, BitVec.toNat_ofNat, BitVec.extractLsb'_toNat, Nat.shiftRight_eq_div_pow, hbyte 0 (by decide),
    hbyte 1 (by decide), hbyte 2 (by decide), hbyte 3 (by decide)]
  omega

/-- Byte `i` of a value that was written is its bits from `8 i` on (R56). -/
theorem State.lmByte_writeVals (s : State) (j i : Nat) (data : BitVec 64) (hi : i < 8) :
    (s.writeVals j [⟨data⟩]).readLmByte (8 * j + i) = data.extractLsb' (8 * i) 8 := by
  have hinside := s.lmCell_write_inside s.cfg.system (8 * j) i (bytesOf 8 data) (by simpa [bytesOf] using hi)
  exact hinside.trans (by simp [bytesOf])

/-- Settles O58: the store writes one value, whose bytes are those of the two halves. -/
theorem hostNumWritesAreLittleEndian : Obligations.HostNumWritesAreLittleEndian := by
  unfold Obligations.HostNumWritesAreLittleEndian
  intro s j data rest hwf hj hin
  let s' := s.setInputs rest
  let t := s'.writeVals j [⟨data⟩]
  have hM := system_storage s.cfg
  have hbytes : ∀ i, i < 8 → t.readLmByte (8 * j + i) = data.extractLsb' (8 * i) 8 :=
    fun i => s'.lmByte_writeVals j i data
  have hvalue : t.readVal j = ⟨data⟩ := s'.valAt_putVals_inside hM j 0 [⟨data⟩] (by simp)
  have hlow : wordOfBytes (fun i => t.readLmByte (8 * j + i)) = data.extractLsb' 0 32 :=
    wordOfBytes_eq_extractLsb' data 0 _ fun i hi => by rw [hbytes i (by omega), Nat.zero_add]
  have hhigh : wordOfBytes (fun i => t.readLmByte (8 * j + 4 + i)) = data.extractLsb' 32 32 :=
    wordOfBytes_eq_extractLsb' data 32 _ fun i hi => by
      rw [Nat.add_assoc, hbytes (4 + i) (by omega), Nat.mul_add]
  exact ⟨t, step_hostWrite hin (hostPlace_lmValue hwf hj), hvalue, hbytes, untouched_putVals hM rfl,
    congrArg Num64.bits hvalue, congrArg (BitVec.setWidth 64) hlow, congrArg (BitVec.setWidth 64) hhigh⟩

end Sys2Proof.Machine
end

section
/-! SUPPORT. The range check of R51 in front of each command (R282, R285): where the checks before it pass and a range leaves
its memory, the command raises `ERR_ADDR`. -/

namespace Sys2Proof.Machine

/-! ## The check -/

/-- A range that is not empty and leaves its memory, in unbounded integers (R51). -/
theorem fits_eq_false {a n z : Nat} (hn : n ≠ 0) (h : z < a + n) : fits a n z = false := by
  rw [Bool.eq_false_iff, ne_eq, fits_iff]
  omega

theorem toNat_ne_zero_of_ne_zero {w : Word} (h : w ≠ 0#32) : w.toNat ≠ 0 :=
  Nat.one_le_iff_ne_zero.mp (one_le_toNat_of_ne_zero h)

theorem ceilDiv_ne_zero {n b : Nat} (hn : n ≠ 0) (hb : 0 < b) : ceilDiv n b ≠ 0 :=
  (Nat.div_pos (by omega) hb).ne'

/-- A word below 2^16 has no bit that R102 forbids in a polynomial. -/
theorem extractLsb'_high_eq_zero {x : Word} (hx : x.toNat < 2 ^ 16) : x.extractLsb' 16 16 = 0#16 := by
  apply BitVec.eq_of_toNat_eq
  rw [BitVec.extractLsb'_toNat, Nat.shiftRight_eq_div_pow, Nat.div_eq_of_lt hx]
  rfl

variable (s : State)

theorem State.rangeCheck_fails {r : Result} {a : Bool} (h : a = false) : (if !a then s.raise .addr else r) = s.raise .addr :=
  if_pos (by simp [h])

theorem State.rangeChecks_fail {r : Result} {a b : Bool} (h : a = false ∨ b = false) :
    (if !(a && b) then s.raise .addr else r) = s.raise .addr :=
  s.rangeCheck_fails (Bool.and_eq_false_iff.mpr h)

/-- A check that passes. -/
theorem State.check_passes {r : Result} {a : Bool} {e : ErrCode} (h : a = true) : (if !a then s.raise e else r) = r :=
  if_neg (by simp [h])

/-! ## One rule per command -/

variable {s} {sch : Scheme} {ss st sd : ScalarIdx} {src len dst src2 x : Word}

theorem crc16_faults_addr (hx : x.toNat < 2 ^ 16) (h : fits src.toNat len.toNat s.cfg.bmBits = false) :
    Faults (.crc16 src len x) s .addr :=
  (if_neg (not_not.mpr (extractLsb'_high_eq_zero hx))).trans (s.rangeCheck_fails h)

theorem crcAppend_faults_addr (h : fits src.toNat len.toNat s.cfg.bmBits = false ∨
    fits dst.toNat (len.toNat + 16) s.cfg.bmBits = false) : Faults (.crcAppend src len dst) s .addr :=
  s.rangeChecks_fail h

theorem crcVerify_faults_addr (h : fits src.toNat len.toNat s.cfg.bmBits = false) : Faults (.crcVerify src len) s .addr :=
  s.rangeCheck_fails h

theorem modulate_faults_addr (hs : unknownScheme sch = false) (h : fits src.toNat len.toNat s.cfg.bmBits = false ∨
    fits dst.toNat (ceilDiv len.toNat (bps sch)) s.cfg.smSyms = false) : Faults (.modulate sch src len dst) s .addr :=
  (if_neg (by simp [hs])).trans (s.rangeChecks_fail h)

theorem getConst_faults_addr (hs : unknownScheme sch = false) (h : fits dst.toNat (2 ^ bps sch) s.cfg.smSyms = false) :
    Faults (.getConst sch dst) s .addr :=
  (if_neg (by simp [hs])).trans (s.rangeCheck_fails h)

theorem demodHard_faults_addr (hs : unknownScheme sch = false) (h : fits src.toNat len.toNat s.cfg.smSyms = false ∨
    fits dst.toNat (len.toNat * bps sch) s.cfg.bmBits = false) : Faults (.demodHard sch src len dst) s .addr :=
  (if_neg (by simp [hs])).trans (s.rangeChecks_fail h)

theorem demodSoft_faults_addr (hs : unknownScheme sch = false) (hv : Num64.lt Num64.zero (s.scalar ss) = true)
    (h : fits src.toNat len.toNat s.cfg.smSyms = false ∨ fits dst.toNat (len.toNat * bps sch) s.cfg.lmVals = false) :
    Faults (.demodSoft sch ss src len dst) s .addr :=
  (if_neg (by simp [hs])).trans ((s.check_passes hv).trans (s.rangeChecks_fail h))

theorem awgnAdd_faults_addr (h : fits src.toNat len.toNat s.cfg.smSyms = false ∨ fits dst.toNat len.toNat s.cfg.smSyms = false) :
    Faults (.awgnAdd ss st sd src len dst x) s .addr :=
  s.rangeChecks_fail h

theorem measSnr_faults_addr (hlen : len.toNat ≠ 0) (h : fits src.toNat len.toNat s.cfg.smSyms = false ∨
    fits src2.toNat len.toNat s.cfg.smSyms = false) : Faults (.measSnr sd src len src2 len) s .addr :=
  (if_neg hlen).trans ((if_neg (not_not.mpr rfl)).trans (s.rangeChecks_fail h))

theorem ldpcEnc_faults_addr (hlv : s.status.lv = true) (h : fits src.toNat len.toNat s.cfg.bmBits = false ∨
    fits dst.toNat s.ldpcN.toNat s.cfg.bmBits = false) : Faults (.ldpcEnc src len dst) s .addr :=
  (s.check_passes hlv).trans (s.rangeChecks_fail h)

theorem ldpcDec_faults_addr (hlv : s.status.lv = true) (h : fits src.toNat len.toNat s.cfg.lmVals = false ∨
    fits dst.toNat (min len.toNat s.ldpcK.toNat) s.cfg.bmBits = false) : Faults (.ldpcDec src len dst x) s .addr :=
  (s.check_passes hlv).trans (s.rangeChecks_fail h)

theorem polarEnc_faults_addr (hpv : s.status.pv = true) (hlen : len = s.polarK)
    (h : fits src.toNat len.toNat s.cfg.bmBits = false ∨ fits dst.toNat s.polarN.toNat s.cfg.bmBits = false) :
    Faults (.polarEnc src len dst) s .addr :=
  (s.check_passes hpv).trans ((if_neg (not_not.mpr hlen)).trans (s.rangeChecks_fail h))

theorem polarDec_faults_addr (hpv : s.status.pv = true) (hlen : len = s.polarN)
    (h : fits src.toNat len.toNat s.cfg.lmVals = false ∨ fits dst.toNat s.polarK.toNat s.cfg.bmBits = false) :
    Faults (.polarDec src len dst x) s .addr :=
  (s.check_passes hpv).trans ((if_neg (not_not.mpr hlen)).trans (s.rangeChecks_fail h))

theorem polarXform_faults_addr (hn : polarLength s.cfg len.toNat = true) (h : fits src.toNat len.toNat s.cfg.bmBits = false ∨
    fits dst.toNat len.toNat s.cfg.bmBits = false) : Faults (.polarXform src len dst) s .addr :=
  (s.check_passes hn).trans (s.rangeChecks_fail h)

/-- Settles O12: each source, then each destination, by the rule of its command. -/
theorem rangeFaults : Obligations.RangeFaults := by
  unfold Obligations.RangeFaults
  refine ⟨fun s sch ss st sd src len dst src2 x hlen => ?_, fun s sch ss st sd src len dst x => ?_⟩
  · have hn := toNat_ne_zero_of_ne_zero hlen
    refine ⟨fun h => ?_, fun h => ?_, fun h => ?_⟩
    · have hsrc := fits_eq_false hn h
      exact ⟨fun hx => crc16_faults_addr hx hsrc, crcAppend_faults_addr (.inl hsrc), crcVerify_faults_addr hsrc,
        fun hs => modulate_faults_addr hs (.inl hsrc), fun hlv => ldpcEnc_faults_addr hlv (.inl hsrc),
        fun hpv hk => polarEnc_faults_addr hpv hk (.inl hsrc), fun hp => polarXform_faults_addr hp (.inl hsrc)⟩
    · have hsrc := fits_eq_false hn h
      exact ⟨fun hs => demodHard_faults_addr hs (.inl hsrc), fun hs hv => demodSoft_faults_addr hs hv (.inl hsrc),
        awgnAdd_faults_addr (.inl hsrc), measSnr_faults_addr hn (.inl hsrc), measSnr_faults_addr hn (.inr hsrc)⟩
    · have hsrc := fits_eq_false hn h
      exact ⟨fun hlv => ldpcDec_faults_addr hlv (.inl hsrc), fun hpv hk => polarDec_faults_addr hpv hk (.inl hsrc)⟩
  · refine ⟨fun h => crcAppend_faults_addr (.inr (fits_eq_false (Nat.succ_ne_zero _) h)),
      fun hs h => getConst_faults_addr hs (fits_eq_false (Nat.two_pow_pos _).ne' h),
      fun hlv h0 h => ldpcEnc_faults_addr hlv (.inr (fits_eq_false (toNat_ne_zero_of_ne_zero h0) h)),
      fun hpv hk h0 h => polarEnc_faults_addr hpv hk (.inr (fits_eq_false (toNat_ne_zero_of_ne_zero h0) h)),
      fun hpv hn h0 h => polarDec_faults_addr hpv hn (.inr (fits_eq_false (toNat_ne_zero_of_ne_zero h0) h)),
      fun hlv h0 h => ldpcDec_faults_addr hlv (.inr (fits_eq_false h0 h)), fun hlen => ?_⟩
    have hn := toNat_ne_zero_of_ne_zero hlen
    have hbits : len.toNat * bps sch ≠ 0 := Nat.mul_ne_zero hn (bps_pos sch).ne'
    exact ⟨fun hs h => modulate_faults_addr hs (.inr (fits_eq_false (ceilDiv_ne_zero hn (bps_pos sch)) h)),
      fun hs h => demodHard_faults_addr hs (.inr (fits_eq_false hbits h)),
      fun hs hv h => demodSoft_faults_addr hs hv (.inr (fits_eq_false hbits h)),
      fun h => awgnAdd_faults_addr (.inr (fits_eq_false hn h)),
      fun hp h => polarXform_faults_addr hp (.inr (fits_eq_false hn h))⟩

end Sys2Proof.Machine
end

section
/-! SUPPORT. The decoder and the encoder (spec/30_encoding.md R71 to R78): what a decoded command says of its words, the
words that decode, and the fields that an encoding carries. -/

namespace Sys2Proof.Laws

open Sys2Proof.Machine

/-! ## The operands of an opcode -/

/-- The command with the opcode of `i` whose operands are read from the words `w` (R76). -/
def readOperands (w : Words) : Instr → Instr
  | .nop => .nop
  | .sets _ _ _ => .sets (fieldSd w[0]) w[6] w[7]
  | .crc16 _ _ _ => .crc16 w[1] w[2] w[6]
  | .crcAppend _ _ _ => .crcAppend w[1] w[2] w[3]
  | .crcVerify _ _ => .crcVerify w[1] w[2]
  | .modulate _ _ _ _ => .modulate (fieldSch w[0]) w[1] w[2] w[3]
  | .getBps _ => .getBps (fieldSch w[0])
  | .getConst _ _ => .getConst (fieldSch w[0]) w[3]
  | .demodHard _ _ _ _ => .demodHard (fieldSch w[0]) w[1] w[2] w[3]
  | .demodSoft _ _ _ _ _ => .demodSoft (fieldSch w[0]) (fieldSs w[0]) w[1] w[2] w[3]
  | .awgnAdd _ _ _ _ _ _ _ => .awgnAdd (fieldSs w[0]) (fieldSt w[0]) (fieldSd w[0]) w[1] w[2] w[3] w[6]
  | .nvarEbn0 _ _ _ _ => .nvarEbn0 (fieldSs w[0]) (fieldSt w[0]) (fieldSd w[0]) w[6]
  | .snr2ebn0 _ _ _ _ => .snr2ebn0 (fieldSs w[0]) (fieldSt w[0]) (fieldSd w[0]) w[6]
  | .ebn02snr _ _ _ _ => .ebn02snr (fieldSs w[0]) (fieldSt w[0]) (fieldSd w[0]) w[6]
  | .berBpsk _ _ => .berBpsk (fieldSs w[0]) (fieldSd w[0])
  | .measSnr _ _ _ _ _ => .measSnr (fieldSd w[0]) w[1] w[2] w[4] w[5]
  | .ldpcCfg _ _ _ => .ldpcCfg w[2] w[6] w[7]
  | .ldpcEnc _ _ _ => .ldpcEnc w[1] w[2] w[3]
  | .ldpcDec _ _ _ _ => .ldpcDec w[1] w[2] w[3] w[6]
  | .polarCfg _ _ => .polarCfg w[2] w[6]
  | .polarEnc _ _ _ => .polarEnc w[1] w[2] w[3]
  | .polarDec _ _ _ _ => .polarDec w[1] w[2] w[3] w[6]
  | .polarXform _ _ _ => .polarXform w[1] w[2] w[3]

variable (w : Words) (i : Instr)

@[simp] theorem opcodeOf_readOperands : opcodeOf (readOperands w i) = opcodeOf i := by cases i <;> rfl

@[simp] theorem readOperands_readOperands : readOperands w (readOperands w i) = readOperands w i := by cases i <;> rfl

/-- A command is read off the words whose reserved bits are 0 and that carry its opcode and its operands. -/
theorem decode_eq_ok_iff :
    decode w = .ok i ↔ w[0] &&& reservedMask = 0#32 ∧ fieldOp w[0] = opcodeOf i ∧ readOperands w i = i := by
  constructor
  · intro h
    simp only [decode] at h
    split at h
    next hreserved =>
      split at h <;> cases h <;> exact ⟨hreserved, BitVec.eq_of_toNat_eq ‹_›, rfl⟩
    next => cases h
  · rintro ⟨hreserved, hop, hread⟩
    rw [← hread, decode, if_pos hreserved, hop]
    cases i <;> rfl

/-! ## Encoding and back -/

theorem encode_opcodeByte : OpcodeByte.Statement i := by
  cases i <;> exact ⟨fieldOp_packW0 _ _ _ _ _, packW0_reserved _ _ _ _ _⟩

/-- The operands of an encoding are those of the command. -/
theorem readOperands_encode (h : i.wf = true) : readOperands (encode i) i = i := by
  cases i with
  | modulate sch | getBps sch | getConst sch | demodHard sch | demodSoft sch =>
    have hsch : sch.wf = true := h
    simp [readOperands, encode, fieldSch_packW0 _ _ _ _ sch hsch]
  | _ => simp [readOperands, encode]

theorem decode_encode (h : i.wf = true) : decode (encode i) = .ok i :=
  have ⟨hop, hreserved⟩ := encode_opcodeByte i
  (decode_eq_ok_iff _ i).mpr ⟨hreserved, hop, readOperands_encode i h⟩

/-- Settles O1: the opcode byte, the reserved bits and the operands of an encoding. -/
theorem decodeInvertsEncode : Obligations.DecodeInvertsEncode := by
  unfold Obligations.DecodeInvertsEncode
  exact decode_encode

/-! ## The fields of a word -/

/-- A field of `n` bits from bit `lo` on, taken out of a word and put back at its place. -/
theorem and_field (x : Word) (lo n : Nat) :
    x &&& ((BitVec.allOnes n).setWidth 32 <<< lo) = (x.extractLsb' lo n).setWidth 32 <<< lo := by
  apply BitVec.eq_of_getLsbD_eq
  intro k hk
  rw [BitVec.getLsbD_and, BitVec.getLsbD_shiftLeft, BitVec.getLsbD_shiftLeft]
  by_cases hlo : k < lo
  · simp [hlo]
  · simp [hlo, hk, Nat.add_sub_cancel' (not_lt.mp hlo), Bool.and_comm]
    ac_rfl

theorem code_fieldSch (x : Word) : (fieldSch x).code = x.extractLsb' 8 3 := by
  simp only [fieldSch]
  generalize x.extractLsb' 8 3 = code
  decide +revert

theorem wf_fieldSch (x : Word) : (fieldSch x).wf = true := by
  simp only [fieldSch]
  generalize x.extractLsb' 8 3 = code
  decide +revert

/-- Three bits as the index of a scalar register. -/
theorem ofNat_scalarIdx (c : BitVec 3) : BitVec.ofNat 32 (Fin.ofNat 8 c.toNat).val = c.setWidth 32 := by
  apply BitVec.eq_of_toNat_eq
  simp [Nat.mod_eq_of_lt c.isLt]

section

variable (x : Word) (used : Bool)

theorem and_all : x &&& 0xFFFFFFFF#32 = x := BitVec.and_allOnes

theorem and_word : x &&& (bif used then 0xFFFFFFFF#32 else 0) = bif used then x else 0 := by
  cases used
  · simp
  · exact and_all x

theorem and_op : x &&& 0x000000FF#32 = (fieldOp x).setWidth 32 :=
  (and_field x 0 8).trans (BitVec.shiftLeft_zero _)

theorem and_sch : x &&& (bif used then 0x00000700#32 else 0) =
    (bif used then (fieldSch x).code else 0).setWidth 32 <<< 8 := by
  cases used
  · simp
  · exact (code_fieldSch x) ▸ and_field x 8 3

theorem and_scalarField (lo : Nat) : x &&& (bif used then (BitVec.allOnes 3).setWidth 32 <<< lo else 0) =
    BitVec.ofNat 32 (bif used then Fin.ofNat 8 (x.extractLsb' lo 3).toNat else 0).val <<< lo := by
  cases used
  · simp
  · rw [cond_true, cond_true, and_field, ofNat_scalarIdx]

theorem and_ss : x &&& (bif used then 0x00007000#32 else 0) =
    BitVec.ofNat 32 (bif used then fieldSs x else 0).val <<< 12 := and_scalarField x used 12

theorem and_st : x &&& (bif used then 0x00070000#32 else 0) =
    BitVec.ofNat 32 (bif used then fieldSt x else 0).val <<< 16 := and_scalarField x used 16

theorem and_sd : x &&& (bif used then 0x00700000#32 else 0) =
    BitVec.ofNat 32 (bif used then fieldSd x else 0).val <<< 20 := and_scalarField x used 20

end

/-- A word is its five fields and its reserved bits (R71). -/
theorem eq_or_fields (x : Word) :
    x = (fieldOp x).setWidth 32 ||| (fieldSch x).code.setWidth 32 <<< 8 ||| BitVec.ofNat 32 (fieldSs x).val <<< 12 |||
      BitVec.ofNat 32 (fieldSt x).val <<< 16 ||| BitVec.ofNat 32 (fieldSd x).val <<< 20 ||| x &&& reservedMask :=
  calc x = x &&& (0x000000FF#32 ||| 0x00000700#32 ||| 0x00007000#32 ||| 0x00070000#32 ||| 0x00700000#32 ||| reservedMask) :=
        (and_all x).symm
    _ = _ := by
      rw [← cond_true (fieldSch x).code 0, ← cond_true (fieldSs x) 0, ← cond_true (fieldSt x) 0, ← cond_true (fieldSd x) 0,
        ← and_op, ← and_sch, ← and_ss, ← and_st, ← and_sd]
      simp only [BitVec.and_or_distrib_left, cond_true]

theorem packW0_eq_or (op : Byte) (sch : BitVec 3) (ss st sd : ScalarIdx) :
    packW0 op sch ss st sd = op.setWidth 32 ||| sch.setWidth 32 <<< 8 ||| BitVec.ofNat 32 ss.val <<< 12 |||
      BitVec.ofNat 32 st.val <<< 16 ||| BitVec.ofNat 32 sd.val <<< 20 := by
  rw [eq_or_fields (packW0 op sch ss st sd), code_fieldSch]
  simp

/-- The fields of a word that are in use, packed again, are the word in those fields. -/
theorem packW0_fields {x : Word} {op : Byte} (hop : fieldOp x = op) (sch ss st sd : Bool) :
    packW0 op (bif sch then (fieldSch x).code else 0) (bif ss then fieldSs x else 0) (bif st then fieldSt x else 0)
        (bif sd then fieldSd x else 0) =
      x &&& (0x000000FF#32 ||| (bif sch then 0x00000700#32 else 0) ||| (bif ss then 0x00007000#32 else 0) |||
        (bif st then 0x00070000#32 else 0) ||| (bif sd then 0x00700000#32 else 0)) := by
  simp only [packW0_eq_or, BitVec.and_or_distrib_left, and_op, and_sch, and_ss, and_st, and_sd, hop]

/-! ## The bits that a decoder tests -/

theorem byte_and_reservedMask (op : Byte) : op.setWidth 32 &&& reservedMask = 0#32 := by
  simpa [packW0_eq_or] using packW0_reserved op 0 0 0 0

/-- `W0 & 0xFF8888FF` is a byte iff the reserved bits are 0, and then it is the opcode (R75). -/
theorem decodeBits_eq_iff (w : Words) (op : Byte) :
    decodeBits w = op.toNat ↔ w[0] &&& reservedMask = 0#32 ∧ fieldOp w[0] = op := by
  have hsplit : w[0] &&& 0xFF8888FF#32 = w[0] &&& reservedMask ||| (fieldOp w[0]).setWidth 32 := by
    rw [← and_op, ← BitVec.and_or_distrib_left]
    rfl
  have hbyte : decodeBits w = op.toNat ↔ w[0] &&& reservedMask ||| (fieldOp w[0]).setWidth 32 = op.setWidth 32 := by
    rw [decodeBits, hsplit, ← BitVec.toNat_inj, BitVec.toNat_setWidth, Nat.mod_eq_of_lt (by omega)]
  rw [hbyte]
  constructor
  · intro h
    have hreserved : w[0] &&& reservedMask = 0#32 := by
      simpa [BitVec.and_or_distrib_right, BitVec.and_assoc, byte_and_reservedMask] using congrArg (· &&& reservedMask) h
    rw [hreserved, BitVec.zero_or] at h
    exact ⟨hreserved, by simpa using congrArg (BitVec.setWidth 8) h⟩
  · rintro ⟨hreserved, rfl⟩
    rw [hreserved, BitVec.zero_or]

/-! ## The words that decode -/

/-- Every opcode of R75 is that of a command. -/
theorem exists_opcodeOf : ∀ n ∈ opcodes, ∃ i, (opcodeOf i).toNat = n := by
  simp only [opcodes, List.forall_mem_cons]
  exact ⟨⟨.nop, rfl⟩, ⟨.sets 0 0 0, rfl⟩, ⟨.crc16 0 0 0, rfl⟩, ⟨.crcAppend 0 0 0, rfl⟩, ⟨.crcVerify 0 0, rfl⟩,
    ⟨.modulate .qpsk 0 0 0, rfl⟩, ⟨.getBps .qpsk, rfl⟩, ⟨.getConst .qpsk 0, rfl⟩, ⟨.demodHard .qpsk 0 0 0, rfl⟩,
    ⟨.demodSoft .qpsk 0 0 0 0, rfl⟩, ⟨.awgnAdd 0 0 0 0 0 0 0, rfl⟩, ⟨.nvarEbn0 0 0 0 0, rfl⟩, ⟨.snr2ebn0 0 0 0 0, rfl⟩,
    ⟨.ebn02snr 0 0 0 0, rfl⟩, ⟨.berBpsk 0 0, rfl⟩, ⟨.measSnr 0 0 0 0 0, rfl⟩, ⟨.ldpcCfg 0 0 0, rfl⟩, ⟨.ldpcEnc 0 0 0, rfl⟩,
    ⟨.ldpcDec 0 0 0 0, rfl⟩, ⟨.polarCfg 0 0, rfl⟩, ⟨.polarEnc 0 0 0, rfl⟩, ⟨.polarDec 0 0 0 0, rfl⟩,
    ⟨.polarXform 0 0 0, rfl⟩, List.forall_mem_nil _⟩

theorem opcodeOf_mem_opcodes : (opcodeOf i).toNat ∈ opcodes := by cases i <;> simp [opcodeOf, opcodes]

/-- Words with the opcode of a command and no reserved bit decode, and no others do (R75, R78). -/
theorem decode_accepts_iff : (∃ i, decode w = .ok i) ↔ decodeBits w ∈ opcodes := by
  constructor
  · rintro ⟨i, h⟩
    obtain ⟨hreserved, hop, -⟩ := (decode_eq_ok_iff w i).mp h
    exact (decodeBits_eq_iff w _).mpr ⟨hreserved, hop⟩ ▸ opcodeOf_mem_opcodes i
  · intro h
    obtain ⟨i, hi⟩ := exists_opcodeOf _ h
    obtain ⟨hreserved, hop⟩ := (decodeBits_eq_iff w _).mp hi.symm
    exact ⟨readOperands w i, (decode_eq_ok_iff w _).mpr ⟨hreserved, by simp [hop], by simp⟩⟩

/-! ## The encoding of a decoded command -/

theorem wf_readOperands : (readOperands w i).wf = true := by
  cases i with
  | modulate | getBps | getConst | demodHard | demodSoft => exact wf_fieldSch _
  | _ => rfl

/-- The words in the fields in use: `W0` packed, each later word whole or 0. -/
theorem words_eq_and_mask {w : Words} {w0 mask : Word} (h0 : w0 = w[0] &&& mask) (src len dst src2 len2 aux0 aux1 : Bool) :
    ∀ j : Fin 8,
      (#v[w0, bif src then w[1] else 0, bif len then w[2] else 0, bif dst then w[3] else 0, bif src2 then w[4] else 0,
        bif len2 then w[5] else 0, bif aux0 then w[6] else 0, bif aux1 then w[7] else 0] : Words)[j] =
      w[j] &&& (#v[mask, bif src then 0xFFFFFFFF#32 else 0, bif len then 0xFFFFFFFF#32 else 0,
        bif dst then 0xFFFFFFFF#32 else 0, bif src2 then 0xFFFFFFFF#32 else 0, bif len2 then 0xFFFFFFFF#32 else 0,
        bif aux0 then 0xFFFFFFFF#32 else 0, bif aux1 then 0xFFFFFFFF#32 else 0] : Words)[j]
  | 0 => h0
  | 1 => (and_word w[1] src).symm
  | 2 => (and_word w[2] len).symm
  | 3 => (and_word w[3] dst).symm
  | 4 => (and_word w[4] src2).symm
  | 5 => (and_word w[5] len2).symm
  | 6 => (and_word w[6] aux0).symm
  | 7 => (and_word w[7] aux1).symm

/-- A command read from words with its opcode has their fields that it uses, and 0 in every other (R72, R76): of `W0` the
fields `SCH`, `SS`, `ST`, `SD`, then `W1` to `W7`. -/
theorem encode_readOperands (hop : fieldOp w[0] = opcodeOf i) :
    ∀ j : Fin 8, (encode (readOperands w i))[j] = w[j] &&& (usedFields i)[j] := by
  have hw0 := packW0_fields hop
  cases i with
  | nop => exact words_eq_and_mask (hw0 false false false false) false false false false false false false
  | sets => exact words_eq_and_mask (hw0 false false false true) false false false false false true true
  | crc16 => exact words_eq_and_mask (hw0 false false false false) true true false false false true false
  | crcVerify => exact words_eq_and_mask (hw0 false false false false) true true false false false false false
  | crcAppend | ldpcEnc | polarEnc | polarXform =>
    exact words_eq_and_mask (hw0 false false false false) true true true false false false false
  | modulate | demodHard => exact words_eq_and_mask (hw0 true false false false) true true true false false false false
  | getBps => exact words_eq_and_mask (hw0 true false false false) false false false false false false false
  | getConst => exact words_eq_and_mask (hw0 true false false false) false false true false false false false
  | demodSoft => exact words_eq_and_mask (hw0 true true false false) true true true false false false false
  | awgnAdd => exact words_eq_and_mask (hw0 false true true true) true true true false false true false
  | nvarEbn0 | snr2ebn0 | ebn02snr =>
    exact words_eq_and_mask (hw0 false true true true) false false false false false true false
  | berBpsk => exact words_eq_and_mask (hw0 false true false true) false false false false false false false
  | measSnr => exact words_eq_and_mask (hw0 false false false true) true true false true true false false
  | ldpcCfg => exact words_eq_and_mask (hw0 false false false false) false true false false false true true
  | ldpcDec | polarDec => exact words_eq_and_mask (hw0 false false false false) true true true false false true false
  | polarCfg => exact words_eq_and_mask (hw0 false false false false) false true false false false true false

/-- Settles O2: a decoded command is the one read from the words with their opcode. -/
theorem decodeAcceptsTheOpcodeMap : Obligations.DecodeAcceptsTheOpcodeMap := by
  unfold Obligations.DecodeAcceptsTheOpcodeMap
  refine fun w => ⟨decode_accepts_iff w, fun i h => ?_⟩
  obtain ⟨hreserved, hop, hread⟩ := (decode_eq_ok_iff w i).mp h
  have hwf : i.wf = true := hread ▸ wf_readOperands w i
  have hfields := encode_readOperands w i hop
  rw [hread] at hfields
  exact ⟨(decodeBits_eq_iff w _).mpr ⟨hreserved, hop⟩, hwf, decode_encode i hwf, hfields⟩

/-- Settles O3: each worked encoding is the encoding of its command; the two illegal words fail one check each. -/
theorem workedEncodingsDecode : Obligations.WorkedEncodingsDecode := by
  unfold Obligations.WorkedEncodingsDecode
  exact ⟨decode_encode (.modulate .qam16 0 7 0) rfl, decode_encode (.demodSoft .qpsk 2 0 4 16) rfl,
    decode_encode (.awgnAdd 0 1 2 0 4 4 2) rfl, decode_encode (.crc16 0 8 0x00001021) rfl,
    decode_encode (.sets 0 0x00000000 0x40340000) rfl, rfl, rfl⟩

end Sys2Proof.Laws
end

section
/-! SUPPORT. The checks in front of each command that come before its ranges (spec/60_exceptions.md R282 to R285): illegal
words at the doorbell, the scheme, the coder, the lengths and the parameters. -/

namespace Sys2Proof.Machine

/-! ## The doorbell -/

/-- Words that are no command raise `ERR_ILLEGAL` at the doorbell (R78). -/
theorem State.doorbell_of_illegal {s : State} (hf : s.status.fault = false) (h : decodeBits s.cmdw ∉ opcodes) :
    s.doorbell = s.raise .illegal := by
  rcases s.doorbell_cases with ⟨hfault, -⟩ | ⟨-, -, hraise⟩ | ⟨-, i, hi, -⟩
  · exact absurd hfault (by simp [hf])
  · exact hraise
  · exact absurd ((Laws.decode_accepts_iff s.cmdw).mp ⟨i, hi⟩) h

/-- The faulted state ignores the doorbell (R284). -/
theorem State.doorbell_of_fault {s : State} (hf : s.status.fault = true) : s.doorbell = .next s := by
  rcases s.doorbell_cases with ⟨-, hnext⟩ | ⟨hfault, -⟩ | ⟨hfault, -⟩
  · exact hnext
  · exact absurd hf (by simp [hfault])
  · exact absurd hf (by simp [hfault])

/-- Settles O5: the step is the doorbell, on words that are no command or in the faulted state. -/
theorem illegalAndIgnoredDoorbells : Obligations.IllegalAndIgnoredDoorbells := by
  unfold Obligations.IllegalAndIgnoredDoorbells
  exact fun s data rest hin =>
    ⟨fun hf h => (step_doorbell hin).trans (State.doorbell_of_illegal (s := s.setInputs rest) hf h),
      fun hf => (step_doorbell hin).trans (State.doorbell_of_fault (s := s.setInputs rest) hf)⟩

/-! ## The scheme, the coder and the lengths -/

/-- A check that fails. -/
theorem State.check_fails (s : State) {r : Result} {a : Bool} {e : ErrCode} (h : a = false) :
    (if !a then s.raise e else r) = s.raise e :=
  if_pos (by simp [h])

/-- Settles O10: the failing check is the first one of its command, or the one after a check that passes. With an unknown
scheme the first check computes. -/
theorem schemeCoderAndLengthFaults : Obligations.SchemeCoderAndLengthFaults := by
  unfold Obligations.SchemeCoderAndLengthFaults
  intro s code ss sd src len dst src2 len2 x
  refine ⟨rfl, rfl, rfl, rfl, fun hlv => ⟨s.check_fails hlv, s.check_fails hlv⟩,
    fun hpv => ⟨s.check_fails hpv, s.check_fails hpv⟩, fun hpv hlen => (s.check_passes hpv).trans (if_pos hlen),
    fun hpv hlen => (s.check_passes hpv).trans (if_pos hlen), fun h0 hlen => ?_⟩
  exact (if_neg (toNat_ne_zero_of_ne_zero h0)).trans (if_pos hlen)

/-! ## The parameters -/

/-- A word from 2^16 on has a bit that R102 forbids in a polynomial. -/
theorem extractLsb'_high_ne_zero {x : Word} (hx : 2 ^ 16 ≤ x.toNat) : x.extractLsb' 16 16 ≠ 0#16 := by
  intro h
  have hdiv : x.toNat / 2 ^ 16 % 2 ^ 16 = 0 := by
    simpa [BitVec.extractLsb'_toNat, Nat.shiftRight_eq_div_pow] using congrArg BitVec.toNat h
  omega

/-- A rate or a number of bits per symbol that R164 refuses. -/
theorem convertible_eq_false {α : Type} {N : NumRec α} {b : Word} {rate : α} (h : b = 0#32 ∨ N.lt N.zero rate = false) :
    convertible N b rate = false := by
  rcases h with rfl | hrate
  · rfl
  · rw [convertible, hrate, Bool.and_false]

theorem State.convert_faults {s : State} {ss st sd : ScalarIdx} {b : Word} (f : Num64 → Num64 → Num64 → Num64)
    (h : b = 0#32 ∨ Num64.lt Num64.zero (s.scalar st) = false) :
    s.convert s.cfg.system ss st sd b f = s.raise .param :=
  s.check_fails (convertible_eq_false h)

/-- A length that R212 and R214 refuse: no power of two, or above the greatest one. -/
theorem polarLength_eq_false {c : Config} {n : Nat} (h : (∀ m, n ≠ 2 ^ m) ∨ 2 ^ c.polarMMax < n) :
    polarLength c n = false := by
  rw [polarLength, Bool.and_eq_false_iff]
  refine h.imp (fun hpow => ?_) (fun hmax => decide_eq_false (not_le.mpr hmax))
  exact Bool.eq_false_iff.mpr fun h2 => hpow n.log2 (eq_two_pow_of_isPow2 n h2)

theorem polarCfg_faults_param {s : State} {n k : Word}
    (h : (∀ m, n.toNat ≠ 2 ^ m) ∨ 2 ^ s.cfg.polarMMax < n.toNat ∨ n.toNat < k.toNat) : Faults (.polarCfg n k) s .param := by
  refine if_pos ?_
  rcases or_assoc.mpr h with hlen | hk
  · simp [polarLength_eq_false hlen]
  · simp [hk]

/-- Settles O11: the check of each command that a parameter outside its domain fails. -/
theorem parameterFaults : Obligations.ParameterFaults := by
  unfold Obligations.ParameterFaults
  intro s sch ss st sd src len dst src2 len2 x y
  refine ⟨fun hx => if_pos (extractLsb'_high_ne_zero hx), fun hs hv => ?_,
    fun h => ⟨State.convert_faults _ h, State.convert_faults _ h, State.convert_faults _ h⟩,
    rfl, fun h => ?_, polarCfg_faults_param, fun h => s.check_fails (polarLength_eq_false h)⟩
  · exact (if_neg (by simp [hs])).trans (s.check_fails hv)
  · exact if_pos (by simpa [← BitVec.toNat_inj] using h)

end Sys2Proof.Machine
end

section
/-! SUPPORT. The CRC as a remainder over GF(2) (spec/40_crc.md R100 to R103): the polynomial of a Bit sequence, the
one of the register, and what one step of the register does to it. -/

namespace Sys2Proof.Machine

open Polynomial

/-! ## The polynomial of a Bit sequence -/

/-- A Bit as an element of GF(2). -/
def gf2 (b : Bit) : ZMod 2 := if b then 1 else 0

@[simp] theorem gf2_false : gf2 false = 0 := rfl
@[simp] theorem gf2_true : gf2 true = 1 := rfl

theorem gf2_xor (a b : Bit) : gf2 (a ^^ b) = gf2 a + gf2 b := by revert a b; decide

theorem gf2_and (a b : Bit) : gf2 (a && b) = gf2 a * gf2 b := by revert a b; decide

theorem gf2_not (b : Bit) : gf2 (!b) = gf2 b + 1 := by revert b; decide

@[simp] theorem bitsPoly_nil : bitsPoly [] = 0 := rfl

/-- One more Bit at the end multiplies by `x` and is the new constant coefficient. -/
theorem bitsPoly_append_singleton (x : List Bit) (b : Bit) : bitsPoly (x ++ [b]) = bitsPoly x * X + C (gf2 b) := by
  rw [bitsPoly, List.foldl_append]
  rfl

/-- The coefficients of a number's Bit expansion are the bits of the number. -/
theorem coeff_bitsPoly_bitsMsb (n v i : Nat) :
    (bitsPoly (bitsMsb n v)).coeff i = gf2 (decide (i < n) && v.testBit i) := by
  induction n generalizing v i with
  | zero => simp [bitsMsb]
  | succ n ih =>
    rw [bitsMsb_succ, bitsPoly_append_singleton]
    cases i with
    | zero => simp
    | succ i => simp [ih, Nat.testBit_div_two]

/-- Coefficient `i` of the register's polynomial is bit `i` of the register (R100). -/
theorem coeff_bitsPoly_crcBits (c : BitVec 16) (i : Nat) : (bitsPoly (crcBits c)).coeff i = gf2 (c.getLsbD i) := by
  rw [crcBits, coeff_bitsPoly_bitsMsb]
  by_cases hi : i < 16
  · simp [hi, BitVec.getLsbD]
  · simp [hi, BitVec.getLsbD_of_ge c i (by omega)]

theorem crcBits_injective {c d : BitVec 16} (h : crcBits c = crcBits d) : c = d := by
  have hval : ∀ c : BitVec 16, valMsb (crcBits c) = c.toNat := fun c =>
    (valMsb_bitsMsb 16 _).trans (Nat.mod_eq_of_lt c.isLt)
  exact BitVec.eq_of_toNat_eq (by rw [← hval c, h, hval d])

theorem degree_bitsPoly_crcBits_lt (c : BitVec 16) : (bitsPoly (crcBits c)).degree < (16 : Nat) := by
  refine (degree_lt_iff_coeff_zero _ _).mpr fun i hi => ?_
  rw [coeff_bitsPoly_crcBits, BitVec.getLsbD_of_ge c i hi, gf2_false]

/-! ## The generator (R100) -/

theorem coeff_generatorPoly (poly : BitVec 16) (i : Nat) :
    (generatorPoly poly).coeff i = (if i = 16 then 1 else 0) + gf2 (poly.getLsbD i) := by
  rw [generatorPoly, coeff_add, coeff_X_pow, coeff_bitsPoly_crcBits]

theorem generatorPoly_monic (poly : BitVec 16) : (generatorPoly poly).Monic :=
  monic_X_pow_add (degree_bitsPoly_crcBits_lt poly)

theorem degree_generatorPoly (poly : BitVec 16) : (generatorPoly poly).degree = (16 : Nat) := by
  have hlow : (bitsPoly (crcBits poly)).degree < (X ^ 16 : (ZMod 2)[X]).degree := by
    rw [degree_X_pow]
    exact degree_bitsPoly_crcBits_lt poly
  rw [generatorPoly, degree_add_eq_left_of_degree_lt hlow, degree_X_pow]

/-! ## One step and a run of the register (R101, R102) -/

/-- A step shifts the Bit in and XORs the polynomial in where bit 15 leaves the register (R101). -/
theorem getLsbD_crcStep (poly reg : BitVec 16) (b : Bit) (i : Nat) (hi : i < 16) :
    (crcStep poly reg b).getLsbD i =
      ((if i = 0 then b else reg.getLsbD (i - 1)) ^^ (reg.getLsbD 15 && poly.getLsbD i)) := by
  have hmsb : ((reg.setWidth 17 <<< 1) ||| (BitVec.ofBool b).setWidth 17).msb = reg.getLsbD 15 := by
    simp [BitVec.msb_eq_getLsbD_last]
  have hbit : (((reg.setWidth 17 <<< 1) ||| (BitVec.ofBool b).setWidth 17).setWidth 16).getLsbD i =
      if i = 0 then b else reg.getLsbD (i - 1) := by
    cases i with
    | zero => simp
    | succ i => simp [hi, show i < 16 by omega]
  simp only [crcStep, hmsb]
  cases reg.getLsbD 15 with
  | false => rw [if_neg Bool.false_ne_true, hbit, Bool.false_and, Bool.xor_false]
  | true => rw [if_pos rfl, BitVec.getLsbD_xor, hbit, Bool.true_and]

/-- One step computes `reg·x + b` modulo `g`: bit 15 says whether `g` is taken off (R103). -/
theorem bitsPoly_crcStep (poly reg : BitVec 16) (b : Bit) :
    bitsPoly (crcBits (crcStep poly reg b)) =
      bitsPoly (crcBits reg) * X + C (gf2 b) - generatorPoly poly * C (gf2 (reg.getLsbD 15)) := by
  rw [CharTwo.sub_eq_add]
  ext i
  rw [coeff_bitsPoly_crcBits, coeff_add, coeff_add, coeff_mul_C, coeff_generatorPoly]
  rcases lt_trichotomy i 16 with hi | rfl | hi
  · rw [getLsbD_crcStep _ _ _ _ hi, gf2_xor, gf2_and, if_neg hi.ne, zero_add, mul_comm]
    cases i with
    | zero => simp
    | succ i => simp [coeff_bitsPoly_crcBits]
  · simp [coeff_bitsPoly_crcBits, CharTwo.add_self_eq_zero]
  · have hhigh : ∀ c : BitVec 16, c.getLsbD i = false := fun c => BitVec.getLsbD_of_ge c i hi.le
    obtain ⟨j, rfl⟩ := Nat.exists_eq_add_of_lt hi
    simp [coeff_bitsPoly_crcBits, hhigh, show 16 + j ≠ 15 by omega]

@[simp] theorem crc_nil (poly : BitVec 16) : crc poly [] = 0xFFFF#16 := rfl

theorem crc_append (poly : BitVec 16) (x y : List Bit) : crc poly (x ++ y) = y.foldl (crcStep poly) (crc poly x) :=
  List.foldl_append

/-- The register and `I(x)·x^L + D(x)` differ by a multiple of `g` (R103). -/
theorem exists_bitsPoly_crc_add_mul (poly : BitVec 16) (data : List Bit) :
    ∃ q, bitsPoly (crcBits (crc poly data)) + generatorPoly poly * q =
      bitsPoly (List.replicate 16 true) * X ^ data.length + bitsPoly data := by
  induction data using List.reverseRecOn with
  | nil => exact ⟨0, by simp [show crcBits 0xFFFF#16 = List.replicate 16 true by decide]⟩
  | append_singleton data b ih =>
    obtain ⟨q, hq⟩ := ih
    have hstep := bitsPoly_crcStep poly (crc poly data) b
    refine ⟨C (gf2 ((crc poly data).getLsbD 15)) + q * X, ?_⟩
    rw [crc_append, bitsPoly_append_singleton, List.length_append, List.length_singleton, List.foldl_cons,
      List.foldl_nil]
    linear_combination hstep + X * hq

theorem bitsPoly_crc (poly : BitVec 16) (data : List Bit) :
    bitsPoly (crcBits (crc poly data)) =
      (bitsPoly (List.replicate 16 true) * X ^ data.length + bitsPoly data) %ₘ generatorPoly poly := by
  obtain ⟨q, hq⟩ := exists_bitsPoly_crc_add_mul poly data
  have hdeg : (bitsPoly (crcBits (crc poly data))).degree < (generatorPoly poly).degree := by
    rw [degree_generatorPoly]
    exact degree_bitsPoly_crcBits_lt _
  exact (div_modByMonic_unique q _ (generatorPoly_monic poly) ⟨hq, hdeg⟩).2.symm

/-- Settles O17: the register is the remainder; the second check value runs on from the first. -/
theorem crcIsThePolynomialRemainder : Obligations.CrcIsThePolynomialRemainder := by
  unfold Obligations.CrcIsThePolynomialRemainder
  have hdigits : crc 0x1021#16 checkDigits = 0xA69D#16 := by decide +kernel
  refine ⟨bitsPoly_crc, hdigits, ?_⟩
  rw [crc_append, hdigits]
  decide +kernel

end Sys2Proof.Machine
end

section
/-! SUPPORT. The commands of the CRC unit and what the verifier accepts (spec/40_crc.md R102 to R109): a sequence that
ends in the CRC of the rest, and none with one Bit inverted. -/

namespace Sys2Proof.Machine

open Polynomial

/-! ## Sequences read from `BM` -/

section Reads

variable {α κ : Type} (s : State α κ)

theorem State.readBits_add (a m n : Nat) : s.readBits a (m + n) = s.readBits a m ++ s.readBits (a + m) n := by
  simp only [State.readBits, List.range_add, List.map_append, List.map_map, Function.comp_def, Nat.add_assoc]

/-- A register's Bit expansion stands at `a`, bit 15 first (R54). -/
theorem State.readBits_eq_crcBits_iff (a : Nat) (c : BitVec 16) :
    s.readBits a 16 = crcBits c ↔ ∀ j, j < 16 → s.readBit (a + j) = c.getLsbD (15 - j) := by
  constructor
  · intro h j hj
    have hget := List.getElem_of_eq h (i := j) (by simpa using hj)
    rwa [State.getElem_readBits, getElem_crcBits] at hget
  · intro h
    refine List.ext_getElem (by simp) fun j hj _ => ?_
    rw [State.getElem_readBits, getElem_crcBits]
    exact h j (by simpa using hj)

end Reads

/-! ## The verifier's comparison (R106) -/

/-- A sequence is accepted where its last 16 Bits are the CRC of the rest. -/
theorem crcMatches_append_iff (x y : List Bit) (hy : y.length = 16) :
    crcMatches (x ++ y) = true ↔ y = crcBits (crc 0x1021#16 x) := by
  have hlen : (x ++ y).length - 16 = x.length := by rw [List.length_append, hy, Nat.add_sub_cancel]
  have hlong : 16 ≤ (x ++ y).length := by
    rw [List.length_append, hy]
    exact Nat.le_add_left _ _
  rw [crcMatches, hlen, List.take_left' rfl, List.drop_left' rfl, Bool.and_eq_true, decide_eq_true_eq, beq_iff_eq,
    eq_comm]
  exact and_iff_right hlong

/-- No trailer fits into fewer than 16 Bits (R107). -/
theorem crcMatches_of_short (x : List Bit) (hx : x.length < 16) : crcMatches x = false := by
  rw [crcMatches, decide_eq_false (not_le.mpr hx), Bool.false_and]

/-! ## The commands -/

/-- Settles O18: both checks pass. -/
theorem crc16Completes : Obligations.Crc16Completes := by
  unfold Obligations.Crc16Completes
  intro s src len aux0 haux hsrc
  refine ⟨_, (if_neg (not_not.mpr (extractLsb'_high_eq_zero haux))).trans (s.check_passes hsrc), ⟨rfl, ?_⟩,
    (untouched_setCrcReg rfl).trans (untouched_setRes rfl)⟩
  exact BitVec.toNat_setWidth_of_le (by decide)

/-- The word of a comparison, 1 or 0, says how it went (R106). -/
theorem flagWord_eq_iff (m : Bool) :
    (m = true ↔ (if m then 1#32 else 0#32) = 1#32) ∧ (m = false ↔ (if m then 1#32 else 0#32) = 0#32) := by
  cases m with
  | false => decide
  | true => decide

/-- What `CRC_VERIFY` of the sequence `x` writes (R106, R107). -/
theorem crcVerify_writes {s : State} {src len : Word} {x : List Bit}
    (hsrc : fits src.toNat len.toNat s.cfg.bmBits = true) (hx : s.readBits src.toNat len.toNat = x) :
    Completes (.crcVerify src len) s fun t =>
      t.status.matched = crcMatches x ∧ t.res = (if crcMatches x then 1#32 else 0#32) ∧
      t.crcReg = if len.toNat < 16 then 0xFFFF#16 else crc 0x1021#16 (x.take (len.toNat - 16)) := by
  subst hx
  exact ⟨_, s.check_passes hsrc, ⟨rfl, rfl, rfl⟩,
    ((untouched_setMatch rfl).trans (untouched_setCrcReg rfl)).trans (untouched_setRes rfl)⟩

/-- Settles O20: from 16 Bits on, the sequence splits into its data and the trailer. -/
theorem crcVerifyCompletes : Obligations.CrcVerifyCompletes := by
  unfold Obligations.CrcVerifyCompletes
  intro s src len hsrc
  obtain ⟨t, hexec, ⟨hmatch, hres, hreg⟩, hframe⟩ := crcVerify_writes hsrc rfl
  refine ⟨t, hexec, ⟨?_, ?_, fun hlen => ⟨?_, ?_⟩, fun hlen => ?_⟩, hframe⟩
  · rw [hmatch, hres]
    exact (flagWord_eq_iff _).1
  · rw [hmatch, hres]
    exact (flagWord_eq_iff _).2
  · rw [hmatch, crcMatches_of_short _ (by simpa using hlen)]
  · rw [hreg, if_pos hlen]
  · have hsplit : s.readBits src.toNat len.toNat =
        s.readBits src.toNat (len.toNat - 16) ++ s.readBits (src.toNat + (len.toNat - 16)) 16 := by
      rw [← s.readBits_add, Nat.sub_add_cancel hlen]
    have hcrc : t.crcReg = crc 0x1021#16 (s.readBits src.toNat (len.toNat - 16)) := by
      rw [hreg, if_neg (by omega), hsplit, List.take_left' (s.length_readBits _ _)]
    refine ⟨hcrc, ?_⟩
    rw [hmatch, hsplit, crcMatches_append_iff _ _ (s.length_readBits _ _), ← hcrc, s.readBits_eq_crcBits_iff]

/-- What `CRC_APPEND` wrote, read back as one sequence (R104). -/
theorem crcAppend_writes {s : State} {src len dst : Word} (hsrc : fits src.toNat len.toNat s.cfg.bmBits = true)
    (hdst : fits dst.toNat (len.toNat + 16) s.cfg.bmBits = true) :
    ∃ t, exec (.crcAppend src len dst) s = .next t ∧ t.cfg = s.cfg ∧
      t.readBits dst.toNat (len.toNat + 16) =
        s.readBits src.toNat len.toNat ++ crcBits (crc 0x1021#16 (s.readBits src.toNat len.toNat)) := by
  refine ⟨_, s.check_passes (Bool.and_eq_true_iff.mpr ⟨hsrc, hdst⟩), rfl, ?_⟩
  have hread := s.readBits_writeBits_same dst.toNat
    (s.readBits src.toNat len.toNat ++ crcBits (crc 0x1021#16 (s.readBits src.toNat len.toNat)))
  rwa [List.length_append, length_crcBits, s.length_readBits] at hread

/-- Settles O21: what `CRC_APPEND` writes is what `CRC_VERIFY` reads, a sequence that ends in its CRC. -/
theorem appendedCrcVerifies : Obligations.AppendedCrcVerifies := by
  unfold Obligations.AppendedCrcVerifies
  have haccept : ∀ data : List Bit, crcMatches (data ++ crcBits (crc 0x1021#16 data)) = true := fun data =>
    (crcMatches_append_iff data _ (length_crcBits _)).mpr rfl
  refine ⟨haccept, fun s src len dst hsrc hdst hlen => ?_⟩
  have hfit : fits dst.toNat (len.toNat + 16) s.cfg.bmBits = true := (fits_iff _ _ _).mpr (.inr hdst)
  have hlen16 : (len + 16#32).toNat = len.toNat + 16 := by
    rw [BitVec.toNat_add]
    exact Nat.mod_eq_of_lt hlen
  obtain ⟨t, happend, hcfg, hread⟩ := crcAppend_writes hsrc hfit
  rw [← hlen16] at hfit hread
  obtain ⟨u, hverify, ⟨hmatch, hres, -⟩, -⟩ := crcVerify_writes (hcfg ▸ hfit) hread
  rw [haccept] at hmatch hres
  exact ⟨t, u, happend, hverify, hmatch, hres⟩

/-! ## One inverted Bit (R109) -/

@[simp] theorem length_flipBit (x : List Bit) (i : Nat) : (flipBit x i).length = x.length := List.length_set

theorem flipBit_append_left (x y : List Bit) (i : Nat) (hi : i < x.length) : flipBit (x ++ y) i = flipBit x i ++ y := by
  simp [flipBit, List.set_append_left, List.getElem?_append_left, hi]

theorem flipBit_append_right (x y : List Bit) (i : Nat) (hi : x.length ≤ i) :
    flipBit (x ++ y) i = x ++ flipBit y (i - x.length) := by
  simp [flipBit, List.set_append_right, List.getElem?_append_right, hi]

theorem flipBit_ne (x : List Bit) (i : Nat) (hi : i < x.length) : flipBit x i ≠ x := by
  intro h
  have hget := List.getElem_of_eq h (i := i) (by simpa using hi)
  simp [flipBit, hi] at hget

/-- Inverting a Bit adds one power of `x`. -/
theorem bitsPoly_flipBit (x : List Bit) (i : Nat) (hi : i < x.length) :
    bitsPoly (flipBit x i) = bitsPoly x + X ^ (x.length - 1 - i) := by
  induction x using List.reverseRecOn with
  | nil => simp at hi
  | append_singleton x b ih =>
    rw [List.length_append, List.length_singleton, Nat.add_sub_cancel] at *
    rcases Nat.lt_succ_iff_lt_or_eq.mp hi with hlt | rfl
    · rw [flipBit_append_left x [b] i hlt, bitsPoly_append_singleton, bitsPoly_append_singleton, ih hlt,
        show x.length - i = x.length - 1 - i + 1 by omega]
      ring
    · rw [flipBit_append_right x [b] _ le_rfl, Nat.sub_self, show flipBit [b] 0 = [!b] from rfl,
        bitsPoly_append_singleton, bitsPoly_append_singleton, gf2_not, C_add, C_1, pow_zero, add_assoc]

/-- A generator with constant coefficient 1 divides no power of `x`. -/
theorem not_generatorPoly_dvd_X_pow (poly : BitVec 16) (hpoly : poly.getLsbD 0 = true) (k : Nat) :
    ¬ generatorPoly poly ∣ X ^ k := by
  intro hdvd
  have hone : (generatorPoly poly).coeff 0 = 1 := by
    rw [coeff_generatorPoly, hpoly, if_neg (by decide), zero_add, gf2_true]
  obtain ⟨q, hq⟩ := X_dvd_sub_C (p := generatorPoly poly)
  rw [hone, C_1] at hq
  have hcoprime : IsCoprime (generatorPoly poly) X := ⟨1, -q, by linear_combination hq⟩
  have hunit := hcoprime.pow_right.isUnit_of_dvd' dvd_rfl hdvd
  rw [isUnit_iff_degree_eq_zero, degree_generatorPoly] at hunit
  exact absurd hunit (by decide)

/-- With such a generator, data with one Bit inverted have another CRC. -/
theorem crc_flipBit_ne (poly : BitVec 16) (hpoly : poly.getLsbD 0 = true) (data : List Bit) (i : Nat)
    (hi : i < data.length) : crc poly (flipBit data i) ≠ crc poly data := by
  intro h
  obtain ⟨q, hq⟩ := exists_bitsPoly_crc_add_mul poly data
  obtain ⟨q', hq'⟩ := exists_bitsPoly_crc_add_mul poly (flipBit data i)
  rw [h, length_flipBit, bitsPoly_flipBit data i hi] at hq'
  exact not_generatorPoly_dvd_X_pow poly hpoly (data.length - 1 - i)
    ⟨q' - q, by linear_combination hq - hq'⟩

/-- An inverted Bit in the data changes the recomputed CRC, one in the trailer the trailer. -/
theorem crcMatches_flipBit (data : List Bit) (i : Nat) (hi : i < data.length + 16) :
    crcMatches (flipBit (data ++ crcBits (crc 0x1021#16 data)) i) = false := by
  rw [Bool.eq_false_iff]
  rcases lt_or_ge i data.length with hdata | htrailer
  · rw [flipBit_append_left _ _ _ hdata, ne_eq, crcMatches_append_iff _ _ (length_crcBits _)]
    exact fun h => crc_flipBit_ne _ (by decide) data i hdata (crcBits_injective h).symm
  · rw [flipBit_append_right _ _ _ htrailer, ne_eq, crcMatches_append_iff _ _ (by simp)]
    exact flipBit_ne _ _ (by rw [length_crcBits]; omega)

/-- Settles O22: with the polynomial 0 a Bit that has left the register is not seen. -/
theorem everySingleBitFlipIsDetected : Obligations.EverySingleBitFlipIsDetected := by
  unfold Obligations.EverySingleBitFlipIsDetected
  refine ⟨crcMatches_flipBit, fun s src len data i hsrc hi hx => ?_, List.replicate 17 false, 0, by decide,
    by decide +kernel⟩
  obtain ⟨t, hexec, ⟨hmatch, hres, -⟩, -⟩ := crcVerify_writes hsrc hx
  rw [crcMatches_flipBit data i hi] at hmatch hres
  exact ⟨t, hexec, hmatch, hres⟩

end Sys2Proof.Machine
end

section
/-! SUPPORT. The commands of the modulator (spec/41_modulator.md R120 to R128): the symbols that stand at `DST` after them, read
by level index and by chunk of bits, and the mean energy of an admitted table. -/

namespace Sys2Proof.Machine

variable {α κ : Type}

/-! ## Lookup (R123) -/

/-- Settles O23: the command has no check, and writes `RES` alone. -/
theorem getBpsCompletes : Obligations.GetBpsCompletes := by
  unfold Obligations.GetBpsCompletes
  intro s sch
  refine ⟨_, rfl, ?_, untouched_setRes rfl⟩
  cases sch <;> rfl

/-! ## What stands at `DST` -/

/-- The symbols of a written sequence stand where they were written. -/
theorem symAt_putSyms_setOlen {M : NumSystem α κ} (hM : StorageLaws M) (s : State α κ) (a n j : Nat) (xs : List (SymOf α))
    (hj : j < xs.length) : ((s.putSyms M a xs).setOlen n).symAt M (a + j) = xs[j] := by
  rw [State.setOlen_symAt, State.symAt_putSyms_inside s hM a j xs hj]

/-- An index within the constellation has its point there. -/
theorem getElem?_constellation (N : NumRec α) (c : Config) (sch : Scheme) (hc : c.tableWf = true)
    (hs : unknownScheme sch = false) {idx : Nat} (hi : idx < 2 ^ bps sch) :
    (constellation N c sch)[idx]? = some (pointAt N (constellation N c sch) idx) := by
  have hlen : idx < (constellation N c sch).length := (length_constellation N c sch hc hs).symm ▸ hi
  rw [pointAt, List.getD_eq_getElem _ _ hlen, List.getElem?_eq_getElem hlen]

/-! ## The constellation (R122, R124) -/

/-- The coordinate of a level index is its level over the root of the energy (R122). -/
theorem getD_axis (N : NumRec α) (c : Config) (sch : Scheme) (hc : c.tableWf = true) (hs : unknownScheme sch = false)
    {j : Nat} (hj : j < 2 ^ (bps sch / 2)) :
    (axis N c sch).getD j N.zero =
      N.div (levelNum N ((levels c sch).getD j 0)) (N.sqrt (N.ofNat (energy sch))) := by
  have hlen : j < (levels c sch).length := (length_levels c sch hc hs).symm ▸ hj
  simp [axis, hlen]

/-- The two axes have half of a symbol's bits each (R120). -/
theorem axis_size_mul_self (sch : Scheme) : 2 ^ (bps sch / 2) * 2 ^ (bps sch / 2) = 2 ^ bps sch := by
  have heven : bps sch / 2 + bps sch / 2 = bps sch := by cases sch <;> simp [bps]
  rw [← Nat.pow_add, heven]

/-- Imaginary level `i` and real level `q` name an index of the constellation. -/
theorem index_of_levels_lt (sch : Scheme) {i q : Nat} (hi : i < 2 ^ (bps sch / 2)) (hq : q < 2 ^ (bps sch / 2)) :
    i * 2 ^ (bps sch / 2) + q < 2 ^ bps sch :=
  calc i * 2 ^ (bps sch / 2) + q < (i + 1) * 2 ^ (bps sch / 2) := by rw [Nat.succ_mul]; exact Nat.add_lt_add_left hq _
    _ ≤ 2 ^ (bps sch / 2) * 2 ^ (bps sch / 2) := Nat.mul_le_mul_right _ hi
    _ = 2 ^ bps sch := axis_size_mul_self sch

/-- The point with imaginary level `i` and real level `q` (R121(c), R122). -/
theorem pointAt_constellation_levels (N : NumRec α) (c : Config) (sch : Scheme) (hc : c.tableWf = true)
    (hs : unknownScheme sch = false) {i q : Nat} (hi : i < 2 ^ (bps sch / 2)) (hq : q < 2 ^ (bps sch / 2)) :
    let level := fun j => N.div (levelNum N ((levels c sch).getD j 0)) (N.sqrt (N.ofNat (energy sch)))
    pointAt N (constellation N c sch) (i * 2 ^ (bps sch / 2) + q) = ⟨level q, level i⟩ := by
  intro level
  obtain ⟨-, -, hpoint⟩ := pointAt_constellation N c sch _ hc hs (index_of_levels_lt sch hi hq)
  have hdiv : (i * 2 ^ (bps sch / 2) + q) / 2 ^ (bps sch / 2) = i := by
    rw [Nat.add_comm, Nat.add_mul_div_right _ _ (Nat.two_pow_pos _), Nat.div_eq_of_lt hq, Nat.zero_add]
  rw [hdiv, Nat.mul_add_mod_of_lt hq] at hpoint
  exact hpoint.trans (congrArg₂ SymOf.mk (getD_axis N c sch hc hs hq) (getD_axis N c sch hc hs hi))

/-- What `GET_CONST` writes where the constellation fits (R124). -/
theorem getConst_completesOver (M : NumSystem α κ) (hM : StorageLaws M) (s : State α κ) (sch : Scheme) (dst : Word)
    (hc : s.cfg.tableWf = true) (hs : unknownScheme sch = false)
    (hdst : fits dst.toNat (2 ^ bps sch) s.cfg.smSyms = true) :
    CompletesOver M (.getConst sch dst) s fun t =>
      t.olen = wordOf (2 ^ bps sch) ∧ ∀ idx, idx < 2 ^ bps sch →
        t.symAt M (dst.toNat + idx) = pointAt M.toNumRec (constellation M.toNumRec s.cfg sch) idx := by
  have hlen := length_constellation M.toNumRec s.cfg sch hc hs
  have hexec : execGetConstOver M sch dst s =
      .next ((s.putSyms M dst.toNat (constellation M.toNumRec s.cfg sch)).setOlen (2 ^ bps sch)) := by
    simp only [execGetConstOver, hs, hdst, Bool.false_eq_true, if_false, Bool.not_true]
  refine ⟨_, hexec, ⟨rfl, fun idx hidx => ?_⟩,
    untouched_syms_and_length hM (congrArg (Prod.mk dst.toNat) hlen.symm) rfl⟩
  rw [symAt_putSyms_setOlen hM s _ _ idx _ (hlen.symm ▸ hidx), pointAt, List.getD_eq_getElem]

theorem bps_le_eight (sch : Scheme) : bps sch ≤ 8 := by cases sch <;> simp [bps]

/-- Settles O24: the constellation is written in index order, and an index is its two levels. -/
theorem getConstCompletes : Obligations.GetConstCompletes := by
  unfold Obligations.GetConstCompletes
  intro s sch dst hc hs hdst N level
  refine (completes_iff _ _ _).mpr ((getConst_completesOver s.cfg.system (system_storage s.cfg) s sch dst hc hs
    ((fits_iff _ _ _).mpr (.inr hdst))).imp ?_)
  rintro t ⟨holen, hsyms⟩
  refine ⟨?_, fun i q hi hq => ?_⟩
  · rw [holen, wordOf_toNat _ (Nat.pow_lt_pow_right (by decide) ((bps_le_eight sch).trans_lt (by decide)))]
  · rw [readSym_eq s.cfg t, hsyms _ (index_of_levels_lt sch hi hq)]
    exact pointAt_constellation_levels N s.cfg sch hc hs hi hq

/-! ## Modulation (R125 to R127) -/

/-- Bit `k` of a sequence read from `BM` and padded: the stored bit, and zero from the end of the sequence on (R125). -/
theorem getElem_padBits_readBits (s : State α κ) (src len b k : Nat)
    (hk : k < (padBits b (s.readBits src len)).length) :
    (padBits b (s.readBits src len))[k] = (decide (k < len) && s.readBit (src + k)) := by
  rcases lt_or_ge k len with hdata | hpad
  · simp [padBits, List.getElem_append_left, hdata]
  · simp [padBits, List.getElem_append_right, hpad]

/-- The chunks of a sequence read from `BM`, one number for each (R125). -/
theorem chunkIndices_readBits (s : State α κ) (src len b : Nat) (hb : 0 < b) :
    chunkIndices b (s.readBits src len) = (List.range (ceilDiv len b)).map (chunkAt s src len b) := by
  have hlen := length_padBits b hb (s.readBits src len)
  have hindices : chunkIndices b (s.readBits src len) = (List.range (ceilDiv (s.readBits src len).length b)).map
      fun j => valMsb (((padBits b (s.readBits src len)).drop (j * b)).take b) := rfl
  rw [s.length_readBits] at hlen hindices
  rw [hindices]
  refine List.map_congr_left fun j hj => congrArg valMsb (List.ext_getElem ?_ fun p _ _ => ?_)
  · have hend := Nat.mul_le_mul_right b (Nat.succ_le_of_lt (List.mem_range.mp hj))
    rw [Nat.succ_mul] at hend
    rw [List.length_take, List.length_drop, hlen, List.length_map, List.length_range]
    omega
  · simp [getElem_padBits_readBits]

/-- A chunk of `b` bits is an index below `2^b`. -/
theorem chunkAt_lt (s : State α κ) (src len b j : Nat) : chunkAt s src len b j < 2 ^ b :=
  (valMsb_lt _).trans_eq (by rw [List.length_map, List.length_range])

/-- What `MOD` writes on ranges that fit: the point of each chunk, in order (R125, R126, R127). -/
theorem modulate_completesOver (M : NumSystem α κ) (hM : StorageLaws M) (s : State α κ) (sch : Scheme)
    (src len dst : Word) (hs : unknownScheme sch = false) (hsrc : fits src.toNat len.toNat s.cfg.bmBits = true)
    (hdst : fits dst.toNat (ceilDiv len.toNat (bps sch)) s.cfg.smSyms = true) :
    CompletesOver M (.modulate sch src len dst) s fun t =>
      t.olen = wordOf (ceilDiv len.toNat (bps sch)) ∧ ∀ j, j < ceilDiv len.toNat (bps sch) →
        t.symAt M (dst.toNat + j) = pointAt M.toNumRec (constellation M.toNumRec s.cfg sch)
          (chunkAt s src.toNat len.toNat (bps sch) j) := by
  refine ⟨_, execModulateOver_eq M s sch src len dst hs hsrc hdst, ⟨rfl, fun j hj => ?_⟩,
    untouched_syms_and_length hM (by simp [writeSet]) rfl⟩
  rw [symAt_putSyms_setOlen hM s _ _ j _ (by simpa using hj)]
  simp only [modulateBits, chunkIndices_readBits s _ _ _ (bps_pos sch), List.getElem_map, List.getElem_range]

/-- Settles O25: a chunk is an index of the constellation, and the symbol written for it is the point there. -/
theorem modCompletes : Obligations.ModCompletes := by
  unfold Obligations.ModCompletes
  intro s sch src len dst hc hs hsrc hdst
  refine (completes_iff _ _ _).mpr
    ((modulate_completesOver s.cfg.system (system_storage s.cfg) s sch src len dst hs hsrc hdst).imp ?_)
  rintro t ⟨holen, hsyms⟩
  refine ⟨?_, fun j hj => ?_⟩
  · rw [holen, wordOf_toNat _ ((ceilDiv_le _ _ (two_le_bps sch)).trans_lt len.isLt)]
  · rw [readSym_eq s.cfg t, hsyms j hj]
    exact getElem?_constellation s.cfg.num s.cfg sch hc hs (chunkAt_lt s _ _ _ j)

/-! ## Mean energy (R121, R128) -/

/-- The levels of an admitted table are its level set in another order (R121(a)). -/
theorem levels_perm_levelSet (c : Config) (sch : Scheme) (hc : c.tableWf = true) (hs : unknownScheme sch = false) :
    (levels c sch).Perm (levelSet (2 ^ (bps sch / 2))) :=
  (List.subperm_of_subset (nodup_levels c sch hc) (levels_mem_levelSet c sch hc hs)).perm_of_length_le
    (by simp [levelSet, length_levels c sch hc hs])

/-- The energies of all points with imaginary levels `is` and real levels `qs`: each square counts once for every level of the
other axis. -/
theorem sum_point_energies (is qs : List Int) :
    (is.flatMap fun i => qs.map fun q => q * q + i * i).sum =
      is.length * (qs.map fun q => q * q).sum + qs.length * (is.map fun i => i * i).sum := by
  induction is with
  | nil => simp
  | cons i rest ih =>
    have hrow : (qs.map fun q => q * q + i * i).sum = (qs.map fun q => q * q).sum + qs.length * (i * i) := by
      rw [List.sum_map_add, List.map_const', List.sum_replicate, nsmul_eq_mul]
    rw [List.flatMap_cons, List.sum_append, ih, hrow, List.map_cons, List.sum_cons, List.length_cons]
    push_cast
    ring

/-- The energies of the level set of each scheme (R121(b)). -/
theorem levelSet_energy (sch : Scheme) (hs : unknownScheme sch = false) :
    let m := 2 ^ (bps sch / 2)
    2 * ((m : Nat) : Int) * ((levelSet m).map fun v => v * v).sum = (energy sch : Int) * 2 ^ bps sch := by
  cases sch with
  | qpsk => decide
  | qam16 => decide
  | qam64 => decide
  | qam256 => decide
  | unknown code => cases hs

/-- Settles O26: the order of the levels does not matter to the sum of their squares. -/
theorem meanEnergyIsTheDivisor : Obligations.MeanEnergyIsTheDivisor := by
  unfold Obligations.MeanEnergyIsTheDivisor
  intro c sch hc hs
  have hsquares : ((levels c sch).map fun v => v * v).sum = ((levelSet (2 ^ (bps sch / 2))).map fun v => v * v).sum :=
    ((levels_perm_levelSet c sch hc hs).map _).sum_eq
  rw [sum_point_energies, hsquares, length_levels c sch hc hs, ← two_mul, ← mul_assoc]
  exact levelSet_energy sch hs

end Sys2Proof.Machine
end

section
/-! SUPPORT. The hard demodulator's command (spec/42_demodulator.md R141, R142, R146): the bits that stand at `DST` after it,
read by symbol and by place within the symbol. -/

namespace Sys2Proof.Machine

variable {α κ : Type}

/-- Bit `j · b + p` is bit `p`, most significant first, of the index nearest to symbol `j` (R142, R146). -/
theorem getElem?_hardBits (N : NumRec α) (c : Config) (sch : Scheme) (sym : List (SymOf α)) (j p : Nat)
    (hj : j < sym.length) (hp : p < bps sch) :
    (hardBits N c sch sym)[j * bps sch + p]? =
      some ((nearest N (constellation N c sch) sym[j]).testBit (bps sch - 1 - p)) := by
  rw [hardBits, Nat.mul_comm, getElem?_flatMap_block _ (bps sch) (fun _ => length_bitsMsb _ _) sym j p hj hp,
    List.getElem?_eq_getElem (by rwa [length_bitsMsb]), getElem_bitsMsb]

/-- What `DEMOD_HARD` writes on ranges that fit: the bits of the nearest index of each symbol, in order (R142, R146). -/
theorem demodHard_completesOver (M : NumSystem α κ) (s : State α κ) (sch : Scheme) (src len dst : Word)
    (hs : unknownScheme sch = false) (hsrc : fits src.toNat len.toNat s.cfg.smSyms = true)
    (hdst : fits dst.toNat (len.toNat * bps sch) s.cfg.bmBits = true) :
    CompletesOver M (.demodHard sch src len dst) s fun t =>
      t.olen = wordOf (len.toNat * bps sch) ∧ ∀ j p, j < len.toNat → p < bps sch →
        t.readBit (dst.toNat + (j * bps sch + p)) =
          (nearest M.toNumRec (constellation M.toNumRec s.cfg sch) (s.symAt M (src.toNat + j))).testBit
            (bps sch - 1 - p) := by
  refine ⟨_, execDemodHardOver_eq M s sch src len dst hs hsrc hdst, ⟨rfl, fun j p hj hp => ?_⟩,
    untouched_bits_and_length rfl (by simp) rfl⟩
  have hbit := getElem?_hardBits M.toNumRec s.cfg sch (s.symsAt M src.toNat len.toNat) j p (by simpa using hj) hp
  obtain ⟨hlt, hget⟩ := List.getElem?_eq_some_iff.mp hbit
  rw [State.setOlen_readBit, State.readBit_writeBits_inside s _ _ _ hlt, hget]
  simp [State.symsAt]

/-- Settles O28: the bits written are those of the nearest index of each symbol, one block of `b` bits per symbol. -/
theorem demodHardCompletes : Obligations.DemodHardCompletes := by
  unfold Obligations.DemodHardCompletes
  intro s sch src len dst hs hsrc hdst
  refine (completes_iff _ _ _).mpr ((demodHard_completesOver s.cfg.system s sch src len dst hs hsrc hdst).imp ?_)
  rintro t ⟨holen, hbits⟩
  refine ⟨holen, fun j p hj hp => ?_⟩
  rw [readSym_eq s.cfg s]
  exact hbits j p hj hp

end Sys2Proof.Machine
end

section
/-! SUPPORT. The LDPC coder (spec/44_ldpc.md R190 to R196): the matrix as a cyclic stride, the encoder as a linear map, and what
the three commands write. -/

namespace Sys2Proof.Machine

variable {α κ : Type}

/-! ## The matrix (R191) -/

/-- The offset from `a` that reaches the residue `c`, going round the cycle. -/
theorem add_mod_eq_iff_offset (n a j c : Nat) (hc : c < n) : (a + j) % n = c ↔ j % n = (c + (n - a % n)) % n := by
  have hround : a + (c + (n - a % n)) ≡ c [MOD n] := by
    have ha := Nat.mod_add_div a n
    have hlt := Nat.mod_lt a (Nat.zero_lt_of_lt hc)
    have hsum : a + (c + (n - a % n)) = c + n * (a / n + 1) := by
      rw [Nat.mul_add]
      omega
    rw [hsum]
    exact Nat.add_mul_mod_self_left _ _ _
  calc (a + j) % n = c
      ↔ a + j ≡ c [MOD n] := by rw [Nat.ModEq, Nat.mod_eq_of_lt hc]
    _ ↔ a + j ≡ a + (c + (n - a % n)) [MOD n] := ⟨fun h => h.trans hround.symm, fun h => h.trans hround⟩
    _ ↔ j ≡ c + (n - a % n) [MOD n] := ⟨Nat.ModEq.add_left_cancel' a, Nat.ModEq.add_left a⟩

/-- Settles O43: the closed form is the least offset `j` from the row's start `i·dc` that reaches `c`. -/
theorem matrixIsTheCyclicStride : Obligations.MatrixIsTheCyclicStride := by
  unfold Obligations.MatrixIsTheCyclicStride
  intro n dc i c hc
  simp only [add_mod_eq_iff_offset n (i * dc) _ c hc, ldpcEntry, decide_eq_true_eq]
  refine ⟨fun h => ⟨_, h, Nat.mod_mod _ _⟩, ?_⟩
  rintro ⟨j, hj, hoffset⟩
  exact hoffset ▸ (Nat.mod_le j n).trans_lt hj

/-! ## Data of a fixed length (R194) -/

/-- Data of the coder's own length is not changed. -/
theorem fitBits_of_length {k : Nat} {x : List Bit} (h : x.length = k) : fitBits k x = x := by
  rw [fitBits, h, Nat.sub_self, List.replicate_zero, List.append_nil, List.take_of_length_le h.le]

/-- Bit `c` of a sequence read from `BM` and fitted: the stored bit, and zero from the end of the sequence on. -/
theorem getElem_fitBits_readBits (s : State α κ) (src len k c : Nat) (hc : c < (fitBits k (s.readBits src len)).length) :
    (fitBits k (s.readBits src len))[c] = (decide (c < len) && s.readBit (src + c)) := by
  rw [length_fitBits] at hc
  rcases lt_or_ge c len with hdata | hpad
  · simp [fitBits, List.getElem_append_left, hc, hdata]
  · simp [fitBits, List.getElem_append_right, hpad]

/-! ## Linearity over GF(2) (R195) -/

@[simp] theorem xorAll_cons (b : Bit) (x : List Bit) : xorAll (b :: x) = (b ^^ xorAll x) := by
  rw [xorAll, List.foldl_cons, Bool.xor_comm, List.foldl_assoc, xorAll]

/-- The XOR of a sequence of XORs. -/
theorem xorAll_map_xor {ι : Type} (l : List ι) (f g : ι → Bit) :
    xorAll (l.map fun c => f c ^^ g c) = (xorAll (l.map f) ^^ xorAll (l.map g)) := by
  induction l with
  | nil => rfl
  | cons c rest ih =>
    simp only [List.map_cons, xorAll_cons, ih, Bool.xor_assoc, Bool.xor_left_comm]

/-- The scan of a row is the XOR of the data bits that it marks. -/
theorem ldpcParity_eq_xorAll (n k dc : Nat) (d : List Bit) (i : Nat) :
    ldpcParity n k dc d i = xorAll (((List.range k).filter (ldpcEntry n dc i)).map fun c => d.getD c false) := by
  rw [ldpcParity, xorAll, List.foldl_map, List.foldl_filter]

theorem getD_zipWith_xor {x y : List Bit} (h : x.length = y.length) (c : Nat) :
    (List.zipWith (fun a b => a ^^ b) x y).getD c false = (x.getD c false ^^ y.getD c false) := by
  rcases lt_or_ge c x.length with hx | hx
  · simp [hx, h ▸ hx]
  · simp [hx, h ▸ hx]

theorem fitBits_zipWith_xor (k : Nat) {x y : List Bit} (h : x.length = y.length) :
    fitBits k (List.zipWith (fun a b => a ^^ b) x y) = List.zipWith (fun a b => a ^^ b) (fitBits k x) (fitBits k y) := by
  simp only [fitBits]
  rw [List.zipWith_append (by simp [h]), List.take_zipWith, List.length_zipWith, h]
  simp

theorem ldpcParity_zipWith_xor (n k dc : Nat) {x y : List Bit} (h : x.length = y.length) (i : Nat) :
    ldpcParity n k dc (List.zipWith (fun a b => a ^^ b) x y) i = (ldpcParity n k dc x i ^^ ldpcParity n k dc y i) := by
  simp only [ldpcParity_eq_xorAll, getD_zipWith_xor h, xorAll_map_xor]

/-- Settles O45: the data bits stand first, and fitting and each parity bit go through XOR. -/
theorem ldpcEncoderIsSystematicAndLinear : Obligations.LdpcEncoderIsSystematicAndLinear := by
  unfold Obligations.LdpcEncoderIsSystematicAndLinear
  have hdata : ∀ n k dc (x : List Bit), (ldpcEncode n k dc x).take k = fitBits k x := fun n k dc x =>
    List.take_left' (length_fitBits k x)
  refine ⟨fun n k dc x => ⟨hdata n k dc x, fun hx => (hdata n k dc x).trans (fitBits_of_length hx)⟩, ?_⟩
  intro n k dc x y h
  have hfit : (fitBits k x).length = (fitBits k y).length := by rw [length_fitBits, length_fitBits]
  simp only [ldpcEncode]
  rw [List.zipWith_append hfit, fitBits_zipWith_xor k h, List.zipWith_map, List.zipWith_self]
  exact congrArg _ (List.map_congr_left fun i _ => ldpcParity_zipWith_xor n k dc hfit i)

/-! ## The commands (R192, R194, R196) -/

/-- Settles O42: `k` is below `n`, so both fit their registers. -/
theorem ldpcCfgCompletes : Obligations.LdpcCfgCompletes := by
  unfold Obligations.LdpcCfgCompletes
  intro s n p q hn hmax hp hpq
  have hn0 := toNat_ne_zero_of_ne_zero hn
  have hk := ldpcCfg_dataBits_lt n p q hn0 hpq
  have hkw := wordOf_toNat _ (hk.trans n.isLt)
  have hdomain : ¬(n.toNat = 0 ∨ s.cfg.ldpcNMax < n.toNat ∨ p.toNat = 0 ∨ q.toNat ≤ p.toNat) := by
    have hp0 := toNat_ne_zero_of_ne_zero hp
    omega
  refine ⟨_, if_neg hdomain, ⟨rfl, hkw, hkw.trans_lt hk, ?_, rfl⟩, untouched_setLdpc rfl⟩
  rw [State.setLdpc_ldpcK, hkw]
  rfl

/-- Settles O44: the codeword is one sequence write, the fitted data and then one parity bit for each row. -/
theorem ldpcEncCompletes : Obligations.LdpcEncCompletes := by
  unfold Obligations.LdpcEncCompletes
  intro s src len dst hlv hk hsrc hdst
  let n := s.ldpcN.toNat
  let k := s.ldpcK.toNat
  let x := fitBits k (s.readBits src.toNat len.toNat)
  obtain ⟨hdata, hparity⟩ :=
    s.readBit_writeBits_append dst.toNat x ((List.range (n - k)).map (ldpcParity n k s.ldpcDc.toNat x))
  have hx : x.length = k := length_fitBits _ _
  have hbit : ∀ c (hc : c < k), x[c] = (decide (c < len.toNat) && s.readBit (src.toNat + c)) := fun c hc =>
    getElem_fitBits_readBits s src.toNat len.toNat k c (hx.symm ▸ hc)
  refine ⟨_, (s.check_passes hlv).trans (s.check_passes (Bool.and_eq_true_iff.mpr ⟨hsrc, hdst⟩)),
    ⟨wordOf_word _, fun c hc => ?_, fun i hi => ?_⟩,
    untouched_bits_and_length rfl (length_ldpcEncode _ _ _ _ hk).le rfl⟩
  · exact (hdata c (hx.symm ▸ hc)).trans (hbit c hc)
  · have hrow := hparity i (by simpa using hi)
    rw [hx, Nat.add_assoc, List.getElem_map, List.getElem_range, ldpcParity_eq_xorAll] at hrow
    refine hrow.trans (congrArg xorAll (List.map_congr_left fun c hc => ?_))
    have hck : c < k := List.mem_range.mp (List.mem_filter.mp hc).1
    rw [List.getD_eq_getElem _ _ (hx.symm ▸ hck), hbit c hck]

@[simp] theorem State.getElem_valsAt (s : State α κ) (M : NumSystem α κ) (a n j : Nat) (h : j < (s.valsAt M a n).length) :
    (s.valsAt M a n)[j] = s.valAt M (a + j) := by
  simp [State.valsAt]

@[simp] theorem getElem_hardThreshold (N : NumRec α) (l : List α) (j : Nat) (h : j < (hardThreshold N l).length) :
    (hardThreshold N l)[j] = N.negative (l[j]'(by simpa using h)) := by
  simp [hardThreshold]

/-- What `LDPC_DEC` writes on ranges that fit: the thresholds of the first `min(LEN, k)` LLRs. -/
theorem ldpcDec_completesOver (M : NumSystem α κ) (s : State α κ) (src len dst maxIter : Word) (hlv : s.status.lv = true)
    (hsrc : fits src.toNat len.toNat s.cfg.lmVals = true)
    (hdst : fits dst.toNat (min len.toNat s.ldpcK.toNat) s.cfg.bmBits = true) :
    CompletesOver M (.ldpcDec src len dst maxIter) s fun t =>
      t.olen = wordOf (min len.toNat s.ldpcK.toNat) ∧
      ∀ j, j < min len.toNat s.ldpcK.toNat → t.readBit (dst.toNat + j) = M.toNumRec.negative (s.valAt M (src.toNat + j)) := by
  have hrun : execLdpcDecOver M src len dst maxIter s = _ :=
    (if_neg (by simp [hlv])).trans (if_neg (by simp [hsrc, hdst]))
  refine ⟨_, hrun, ⟨rfl, fun j hj => ?_⟩, untouched_bits_and_length rfl (by simp) rfl⟩
  rw [State.setOlen_readBit, State.readBit_writeBits_inside s _ _ _ (by simpa using hj)]
  simp

/-- In binary64 the threshold compares with +0 (R17). -/
theorem system_negative (c : Config) (x : Num64) : c.system.toNumRec.negative x = Num64.lt x Num64.zero := rfl

/-- Settles O46: the threshold of each LLR is its comparison with +0 in binary64. -/
theorem ldpcDecCompletes : Obligations.LdpcDecCompletes := by
  unfold Obligations.LdpcDecCompletes
  intro s src len dst maxIter hlv hsrc hdst
  refine (completes_iff _ _ _).mpr ((ldpcDec_completesOver s.cfg.system s src len dst maxIter hlv hsrc hdst).imp ?_)
  rintro t ⟨holen, hbits⟩
  refine ⟨?_, fun j hj => ?_⟩
  · rw [holen, wordOf_toNat _ ((Nat.min_le_left _ _).trans_lt len.isLt)]
  · rw [hbits j hj, ← readVal_eq, system_negative]

end Sys2Proof.Machine
end

section
/-! SUPPORT. Bit reversal and the information positions of the Polar coder (spec/45_polar.md R210, R211): the reversal permutes
the indices, so that exactly `K` of them have a reversal from `N − K` on. -/

namespace Sys2Proof.Machine

/-! ## Bit reversal (R210) -/

/-- The bits of the reversal, read backwards. -/
theorem testBit_bitRev (m i t : Nat) (ht : t < m) : (bitRev m i).testBit t = i.testBit (m - 1 - t) := by
  induction m generalizing i with
  | zero => exact absurd ht (Nat.not_lt_zero t)
  | succ m ih =>
    rw [bitRev, Nat.mul_comm, Nat.testBit_two_pow_mul_add _ (bitRev_lt m _)]
    rcases Nat.lt_succ_iff_lt_or_eq.mp ht with hlow | rfl
    · have hindex : m + 1 - 1 - t = m - 1 - t + 1 := by omega
      rw [if_pos hlow, ih _ hlow, Nat.testBit_div_two, hindex]
    · simp [Nat.testBit_zero]

theorem bitRev_bitRev (m i : Nat) (hi : i < 2 ^ m) : bitRev m (bitRev m i) = i := by
  refine Nat.eq_of_testBit_eq fun t => ?_
  rcases lt_or_ge t m with ht | ht
  · rw [testBit_bitRev m _ t ht, testBit_bitRev m i _ (by omega), Nat.sub_sub_self (by omega)]
  · have hpow : 2 ^ m ≤ 2 ^ t := Nat.pow_le_pow_right Nat.two_pos ht
    rw [Nat.testBit_lt_two_pow ((bitRev_lt m _).trans_le hpow), Nat.testBit_lt_two_pow (hi.trans_le hpow)]

/-- Settles O48: reversing twice restores each bit. -/
theorem bitReversalIsAnInvolution : Obligations.BitReversalIsAnInvolution := by
  unfold Obligations.BitReversalIsAnInvolution
  exact ⟨fun m i t _ ht => testBit_bitRev m i t ht, fun _ => rfl,
    fun m i hi => ⟨bitRev_lt m i, bitRev_bitRev m i hi⟩, by decide⟩

/-! ## The K most reliable indices (R211) -/

/-- Bit reversal permutes the indices below a power of two. -/
theorem map_bitRev_range_perm (m : Nat) : ((List.range (2 ^ m)).map (bitRev m)).Perm (List.range (2 ^ m)) := by
  have hnodup : ((List.range (2 ^ m)).map (bitRev m)).Nodup :=
    List.nodup_range.map_on fun i hi j hj => bitRev_injOn m i j (List.mem_range.mp hi) (List.mem_range.mp hj)
  have hsub : (List.range (2 ^ m)).map (bitRev m) ⊆ List.range (2 ^ m) := by
    intro x hx
    obtain ⟨i, -, rfl⟩ := List.mem_map.mp hx
    exact List.mem_range.mpr (bitRev_lt m i)
  exact (List.subperm_of_subset hnodup hsub).perm_of_length_le (by simp)

/-- Of the numbers below `n`, the last `k` are those from `n − k` on. -/
theorem countP_range_ge (n k : Nat) (hk : k ≤ n) : (List.range n).countP (fun x => decide (n - k ≤ x)) = k := by
  obtain ⟨low, rfl⟩ := Nat.exists_eq_add_of_le' hk
  rw [Nat.add_sub_cancel, List.range_add, List.countP_append, List.countP_map]
  have hlow : (List.range low).countP (fun x => decide (low ≤ x)) = 0 := by
    simp [List.countP_eq_zero]
  have hhigh : (List.range k).countP ((fun x => decide (low ≤ x)) ∘ fun x => low + x) = k := by
    simp [Function.comp_def]
  rw [hlow, hhigh, Nat.zero_add]

theorem isInfo_two_pow (m k i : Nat) : isInfo (2 ^ m) k i = decide (2 ^ m - k ≤ bitRev m i) := by
  rw [isInfo, Nat.log2_two_pow]

theorem length_infoPositions (m k : Nat) (hk : k ≤ 2 ^ m) : (infoPositions (2 ^ m) k).length = k := by
  have hcomp : isInfo (2 ^ m) k = (fun x => decide (2 ^ m - k ≤ x)) ∘ bitRev m := funext (isInfo_two_pow m k)
  rw [infoPositions, ← List.countP_eq_length_filter, hcomp, ← List.countP_map, (map_bitRev_range_perm m).countP_eq,
    countP_range_ge _ _ hk]

/-- Each index is an information position or a frozen one. -/
theorem length_infoPositions_add_frozenPositions (n k : Nat) :
    (infoPositions n k).length + (frozenPositions n k).length = n := by
  have hsplit := List.length_eq_length_filter_add (l := List.range n) (isInfo n k)
  rw [List.length_range] at hsplit
  exact hsplit.symm

@[simp] theorem mem_infoPositions {n k i : Nat} : i ∈ infoPositions n k ↔ i < n ∧ isInfo n k i = true := by
  simp [infoPositions]

@[simp] theorem mem_frozenPositions {n k i : Nat} : i ∈ frozenPositions n k ↔ i < n ∧ isInfo n k i = false := by
  simp [frozenPositions]

/-- An information position is more reliable than a frozen one. -/
theorem bitRev_lt_of_mem {m k i j : Nat} (hi : i ∈ infoPositions (2 ^ m) k) (hj : j ∈ frozenPositions (2 ^ m) k) :
    bitRev m j < bitRev m i := by
  have hinfo := (mem_infoPositions.mp hi).2
  have hfrozen := (mem_frozenPositions.mp hj).2
  rw [isInfo_two_pow, decide_eq_true_eq] at hinfo
  rw [isInfo_two_pow, decide_eq_false_iff_not, not_le] at hfrozen
  exact hfrozen.trans_le hinfo

/-- The reversal reaches the upper half where the lowest bit is 1. -/
theorem isInfo_half (m i : Nat) : isInfo (2 ^ (m + 1)) (2 ^ m) i = (i % 2 == 1) := by
  have hhalf : 2 ^ (m + 1) - 2 ^ m = 2 ^ m := by rw [Nat.pow_succ]; omega
  have hrest := bitRev_lt m (i / 2)
  rw [isInfo_two_pow, hhalf, bitRev]
  rcases Nat.mod_two_eq_zero_or_one i with heven | hodd
  · simp [heven, hrest]
  · simp [hodd]

/-- Settles O49: the reversals of the indices are all the numbers below `N`, `K` of which are at least `N − K`. -/
theorem informationPositionsAreTheMostReliable : Obligations.InformationPositionsAreTheMostReliable := by
  unfold Obligations.InformationPositionsAreTheMostReliable
  refine ⟨fun m k hk => ⟨length_infoPositions m k hk, ?_, List.pairwise_lt_range.filter _,
    List.pairwise_lt_range.filter _, fun i => ?_, fun i j => bitRev_lt_of_mem⟩, fun m => ?_, by decide, by decide, by decide⟩
  · have hsum := length_infoPositions_add_frozenPositions (2 ^ m) k
    rw [length_infoPositions m k hk] at hsum
    exact Nat.eq_sub_of_add_eq' hsum
  · rw [mem_infoPositions, mem_frozenPositions, ← and_or_left, Bool.eq_true_or_eq_false_self, and_true]
  · exact List.filter_congr fun i _ => isInfo_half m i

end Sys2Proof.Machine
end

section
/-! SUPPORT. The butterfly transform (spec/45_polar.md R213, R217): each stage entry by entry, from which the stages are
involutions that commute, and the closed form of a run of the first stages. -/

namespace Sys2Proof.Machine

/-! ## One stage -/

/-- The pair of an index at stage `a` has bit `a` inverted and every other bit kept. -/
theorem testBit_xor_two_pow (i a b : Nat) : (i ^^^ 2 ^ a).testBit b = (i.testBit b ^^ decide (a = b)) := by
  rw [Nat.testBit_xor, Nat.testBit_two_pow]

theorem xor_two_pow_xor_two_pow (i a : Nat) : i ^^^ 2 ^ a ^^^ 2 ^ a = i := by
  rw [Nat.xor_assoc, Nat.xor_self, Nat.xor_zero]

/-- The lower index of a pair is the one with bit `a` clear. -/
theorem lt_xor_two_pow_iff (i a : Nat) : i < i ^^^ 2 ^ a ↔ i.testBit a = false := by
  have hother : ∀ b, a < b → i.testBit b = (i ^^^ 2 ^ a).testBit b := fun b hb => by
    simp [hb.ne]
  constructor
  · intro hlt
    by_contra hset
    rw [Bool.not_eq_false] at hset
    have hpair : (i ^^^ 2 ^ a).testBit a = false := by simp [hset]
    exact hlt.asymm (Nat.lt_of_testBit a hpair hset fun b hb => (hother b hb).symm)
  · intro hclear
    exact Nat.lt_of_testBit a hclear (by simp [hclear]) hother

/-- What a stage does to entry `i`. It holds of every index, since the pair of a lower index beyond the end is beyond it
too. -/
theorem getD_butterflyStage (a : Nat) (u : List Bit) (i : Nat) :
    (butterflyStage (2 ^ a) u).getD i false = (u.getD i false ^^ (!i.testBit a && u.getD (i ^^^ 2 ^ a) false)) := by
  rcases lt_or_ge i u.length with hi | hi
  · rw [List.getD_eq_getElem _ _ (by simpa using hi), List.getD_eq_getElem _ _ hi]
    simp only [butterflyStage, List.getElem_mapIdx, lt_xor_two_pow_iff]
    cases i.testBit a with
    | false => simp
    | true => simp
  · rw [List.getD_eq_default _ _ (by simpa using hi), List.getD_eq_default _ _ hi]
    cases hbit : i.testBit a with
    | false => simp [hi.trans ((lt_xor_two_pow_iff i a).mpr hbit).le]
    | true => simp

/-- Sequences of one length with the same entries. -/
theorem bits_ext {u v : List Bit} (hlen : u.length = v.length) (h : ∀ i, u.getD i false = v.getD i false) : u = v := by
  refine List.ext_getElem hlen fun i hu hv => ?_
  rw [← List.getD_eq_getElem _ false hu, ← List.getD_eq_getElem _ false hv, h i]

theorem butterflyStage_butterflyStage (a : Nat) (u : List Bit) : butterflyStage (2 ^ a) (butterflyStage (2 ^ a) u) = u := by
  refine bits_ext (by simp) fun i => ?_
  simp only [getD_butterflyStage, xor_two_pow_xor_two_pow, testBit_xor_two_pow]
  cases i.testBit a with
  | false => simp
  | true => simp

theorem butterflyStage_comm (a b : Nat) (u : List Bit) :
    butterflyStage (2 ^ a) (butterflyStage (2 ^ b) u) = butterflyStage (2 ^ b) (butterflyStage (2 ^ a) u) := by
  rcases eq_or_ne a b with rfl | hab
  · rfl
  refine bits_ext (by simp) fun i => ?_
  simp only [getD_butterflyStage, testBit_xor_two_pow, hab, hab.symm, decide_false, Bool.xor_false,
    Nat.xor_right_comm i (2 ^ b) (2 ^ a)]
  cases i.testBit a with
  | false => simp [Bool.and_xor_distrib_left, Bool.xor_left_comm]
  | true => simp

/-! ## A run of stages -/

/-- The stages of a list, in order (R213). -/
def runStages (stages : List Nat) (u : List Bit) : List Bit := stages.foldl (fun v stage => butterflyStage (2 ^ stage) v) u

theorem polarTransform_eq_runStages (u : List Bit) : polarTransform u = runStages (List.range u.length.log2) u := rfl

theorem runStages_butterflyStage (stages : List Nat) (a : Nat) (u : List Bit) :
    runStages stages (butterflyStage (2 ^ a) u) = butterflyStage (2 ^ a) (runStages stages u) := by
  induction stages generalizing u with
  | nil => rfl
  | cons b rest ih => exact (congrArg (runStages rest) (butterflyStage_comm b a u)).trans (ih _)

/-- Involutions that commute make an involution. -/
theorem runStages_runStages (stages : List Nat) (u : List Bit) : runStages stages (runStages stages u) = u := by
  induction stages generalizing u with
  | nil => rfl
  | cons a rest ih =>
    calc runStages rest (butterflyStage (2 ^ a) (runStages rest (butterflyStage (2 ^ a) u)))
        = runStages rest (runStages rest (butterflyStage (2 ^ a) (butterflyStage (2 ^ a) u))) := by
          rw [← runStages_butterflyStage rest a (butterflyStage (2 ^ a) u)]
      _ = u := by rw [ih, butterflyStage_butterflyStage]

theorem polarTransform_polarTransform (u : List Bit) : polarTransform (polarTransform u) = u := by
  rw [polarTransform_eq_runStages, length_polarTransform, polarTransform_eq_runStages, runStages_runStages]

/-- Settles O51: the stages are involutions that commute, on every sequence. -/
theorem polarTransformIsAnInvolution : Obligations.PolarTransformIsAnInvolution := by
  unfold Obligations.PolarTransformIsAnInvolution
  exact fun _ u _ => ⟨polarTransform_polarTransform u, fun a _ => butterflyStage_butterflyStage a u,
    fun a b _ _ => butterflyStage_comm a b u⟩

/-! ## The closed form -/

theorem xorAll_append (x y : List Bit) : xorAll (x ++ y) = (xorAll x ^^ xorAll y) := by
  induction x with
  | nil => exact (Bool.false_xor _).symm
  | cons b rest ih => rw [List.cons_append, xorAll_cons, ih, xorAll_cons, Bool.xor_assoc]

/-- The XOR over the entries that a test picks out. -/
theorem xorAll_map_filter {ι : Type} (l : List ι) (p : ι → Bool) (f : ι → Bit) :
    xorAll ((l.filter p).map f) = xorAll (l.map fun j => p j && f j) := by
  induction l with
  | nil => rfl
  | cons j rest ih =>
    rw [List.map_cons, xorAll_cons, ← ih]
    cases hj : p j with
    | false => simp [hj]
    | true => simp [hj]

theorem xorAll_map_and {ι : Type} (c : Bit) (l : List ι) (f : ι → Bit) :
    xorAll (l.map fun j => c && f j) = (c && xorAll (l.map f)) := by
  induction l with
  | nil => exact (Bool.and_false c).symm
  | cons j rest ih => rw [List.map_cons, xorAll_cons, ih, List.map_cons, xorAll_cons, Bool.and_xor_distrib_left]

theorem xorAll_map_eq_single (n i : Nat) (f : Nat → Bit) :
    xorAll ((List.range n).map fun j => decide (j = i) && f j) = (decide (i < n) && f i) := by
  induction n with
  | zero => rfl
  | succ n ih =>
    rw [List.range_succ, List.map_append, xorAll_append, ih, List.map_singleton, xorAll_cons]
    rcases lt_trichotomy i n with hlt | rfl | hgt
    · simp [hlt, hlt.trans (Nat.lt_succ_self n), hlt.ne', xorAll]
    · simp [xorAll]
    · simp [hgt.asymm, hgt.ne, show ¬i < n + 1 by omega, xorAll]

/-- Entry `j` reaches entry `i` in the stages below `t`: above them the two indices agree, and below them the expansion of `j`
contains that of `i`. -/
def reachesBelow (t i j : Nat) : Bool := (j &&& i == i) && (j >>> t == i >>> t)

theorem reachesBelow_iff (t i j : Nat) : reachesBelow t i j = true ↔
    (∀ b, i.testBit b = true → j.testBit b = true) ∧ ∀ b, t ≤ b → j.testBit b = i.testBit b := by
  rw [reachesBelow, Bool.and_eq_true, beq_iff_eq, beq_iff_eq]
  refine and_congr ⟨fun h b hb => ?_, fun h => Nat.eq_of_testBit_eq fun b => ?_⟩
    ⟨fun h b hb => ?_, fun h => Nat.eq_of_testBit_eq fun b => ?_⟩
  · rw [← h, Nat.testBit_and, Bool.and_eq_true] at hb
    exact hb.1
  · rw [Nat.testBit_and, Bool.and_eq_right_iff_imp]
    exact h b
  · have hshift := congrArg (Nat.testBit · (b - t)) h
    simpa only [Nat.testBit_shiftRight, Nat.add_sub_cancel' hb] using hshift
  · rw [Nat.testBit_shiftRight, Nat.testBit_shiftRight]
    exact h _ (Nat.le_add_right t b)

theorem reachesBelow_zero (i j : Nat) : reachesBelow 0 i j = decide (j = i) := by
  rw [reachesBelow, Nat.shiftRight_zero, Nat.shiftRight_zero]
  rcases eq_or_ne j i with rfl | hne
  · simp
  · simp [hne]

theorem reachesBelow_of_lt {m i j : Nat} (hi : i < 2 ^ m) (hj : j < 2 ^ m) : reachesBelow m i j = (j &&& i == i) := by
  rw [reachesBelow, Nat.shiftRight_eq_div_pow, Nat.shiftRight_eq_div_pow, Nat.div_eq_of_lt hi, Nat.div_eq_of_lt hj,
    beq_self_eq_true, Bool.and_true]

theorem reachesBelow_iff_succ (t i j : Nat) :
    reachesBelow t i j = true ↔ j.testBit t = i.testBit t ∧ reachesBelow (t + 1) i j = true := by
  rw [reachesBelow_iff, reachesBelow_iff]
  constructor
  · rintro ⟨hsub, habove⟩
    exact ⟨habove t le_rfl, hsub, fun b hb => habove b (by omega)⟩
  · rintro ⟨ht, hsub, habove⟩
    refine ⟨hsub, fun b hb => ?_⟩
    rcases hb.eq_or_lt with rfl | hlt
    · exact ht
    · exact habove b hlt

/-- To reach the upper index of a pair takes bit `t` on top of what it takes to reach the lower one. -/
theorem reachesBelow_succ_pair {t i : Nat} (hi : i.testBit t = false) (j : Nat) :
    reachesBelow (t + 1) (i ^^^ 2 ^ t) j = true ↔ j.testBit t = true ∧ reachesBelow (t + 1) i j = true := by
  simp only [reachesBelow_iff, testBit_xor_two_pow]
  have habove : ∀ b, t + 1 ≤ b → (i.testBit b ^^ decide (t = b)) = i.testBit b := fun b hb => by
    simp [show t ≠ b by omega]
  constructor
  · rintro ⟨hsub, hsame⟩
    refine ⟨hsub t (by simp [hi]), fun b hb => hsub b ?_, fun b hb => (hsame b hb).trans (habove b hb)⟩
    have hne : t ≠ b := fun h => by simp [← h, hi] at hb
    simp [hb, hne]
  · rintro ⟨ht, hsub, hsame⟩
    refine ⟨fun b hb => ?_, fun b hb => (hsame b hb).trans (habove b hb).symm⟩
    rcases eq_or_ne t b with rfl | hne
    · exact ht
    · exact hsub b (by simpa [hne] using hb)

/-- Stage `t` lets an entry reach the lower index of a pair from either index of it. -/
theorem reachesBelow_succ (t i j : Nat) :
    reachesBelow (t + 1) i j = (reachesBelow t i j ^^ (!i.testBit t && reachesBelow t (i ^^^ 2 ^ t) j)) := by
  have hself := reachesBelow_iff_succ t i j
  cases hi : i.testBit t with
  | true =>
    have hset : reachesBelow (t + 1) i j = true → j.testBit t = true := fun h => ((reachesBelow_iff _ _ _).mp h).1 t hi
    rw [Bool.not_true, Bool.false_and, Bool.xor_false, Bool.eq_iff_iff, hself, hi]
    exact ⟨fun h => ⟨hset h, h⟩, And.right⟩
  | false =>
    have hpair := (reachesBelow_iff_succ t (i ^^^ 2 ^ t) j).trans (and_congr_right' (reachesBelow_succ_pair hi j))
    rw [testBit_xor_two_pow, hi] at hpair
    cases hj : j.testBit t with
    | false => simp_all
    | true => simp_all

/-- Entry `i` after the stages below `t`. -/
theorem getD_runStages (t : Nat) (u : List Bit) (i : Nat) : (runStages (List.range t) u).getD i false =
    xorAll ((List.range u.length).map fun j => reachesBelow t i j && u.getD j false) := by
  induction t generalizing i with
  | zero =>
    simp only [reachesBelow_zero, xorAll_map_eq_single]
    rcases lt_or_ge i u.length with hi | hi
    · simp [runStages, hi]
    · simp [runStages, hi.not_gt]
  | succ t ih =>
    have hlast : runStages (List.range (t + 1)) u = butterflyStage (2 ^ t) (runStages (List.range t) u) := by
      rw [runStages, List.range_succ, List.foldl_append]
      rfl
    rw [hlast, getD_butterflyStage, ih, ih]
    simp only [reachesBelow_succ, Bool.and_xor_distrib_right, Bool.and_assoc, xorAll_map_xor, xorAll_map_and]

/-- The closed form of R213. -/
theorem getD_polarTransform {m : Nat} {u : List Bit} (hu : u.length = 2 ^ m) {i : Nat} (hi : i < 2 ^ m) :
    (polarTransform u).getD i false = xorAbove (2 ^ m) (fun j => u.getD j false) i := by
  rw [polarTransform_eq_runStages, hu, Nat.log2_two_pow, getD_runStages, hu, xorAbove, xorAll_map_filter]
  refine congrArg xorAll (List.map_congr_left fun j hj => ?_)
  rw [reachesBelow_of_lt hi (List.mem_range.mp hj)]

/-- Settles O50: the stages below `m` let an entry reach exactly the indices that its expansion contains. -/
theorem polarTransformClosedForm : Obligations.PolarTransformClosedForm := by
  unfold Obligations.PolarTransformClosedForm
  exact fun _ u hu => ⟨(length_polarTransform u).trans hu, fun _ => getD_polarTransform hu⟩

end Sys2Proof.Machine
end

section
/-! SUPPORT. What the commands of the Polar unit write (spec/45_polar.md R211 to R218): the data bits at the information
positions in ascending order, and the transform of the whole. -/

namespace Sys2Proof.Machine

/-! ## The positions in ascending order (R211) -/

/-- Position `i` of a filtered range stands at its rank. -/
theorem getElem?_filter_range {n i : Nat} {p : Nat → Bool} (hi : i < n) (hp : p i = true) :
    ((List.range n).filter p)[(List.range i).countP p]? = some i := by
  obtain ⟨rest, rfl⟩ := Nat.exists_eq_add_of_lt hi
  rw [Nat.add_assoc, List.range_add, List.filter_append, List.countP_eq_length_filter,
    List.getElem?_append_right le_rfl, Nat.sub_self, Nat.add_comm rest 1, List.range_add]
  simp [hp]

/-- What `takeInfo` gives for an information position stands at its rank. -/
theorem getElem?_takeInfo {n k i : Nat} (u : List Bit) (hi : i < n) (hinfo : isInfo n k i = true) :
    (takeInfo n k u)[infoRank n k i]? = some (u.getD i false) := by
  rw [takeInfo, List.getElem?_map, infoPositions, infoRank, getElem?_filter_range hi hinfo, Option.map_some]

/-- The rank of an information position is below their number. -/
theorem infoRank_lt {n k i : Nat} (hi : i < n) (hinfo : isInfo n k i = true) :
    infoRank n k i < (infoPositions n k).length := by
  obtain ⟨hlt, -⟩ := List.getElem?_eq_some_iff.mp (getElem?_filter_range hi hinfo)
  exact hlt

/-! ## Placing bits (R215) -/

/-- The bits `d` set at the positions `ps` of `v`, in order. -/
def setAll (ps : List Nat) (d v : List Bit) : List Bit := (ps.zip d).foldl (fun u x => u.set x.1 x.2) v

theorem placeBits_eq_setAll (n k : Nat) (d : List Bit) :
    placeBits n k d = setAll (infoPositions n k) d (List.replicate n false) := rfl

theorem setAll_cons (p : Nat) (ps : List Nat) (b : Bit) (d v : List Bit) :
    setAll (p :: ps) (b :: d) v = setAll ps d (v.set p b) := rfl

/-- Every other position keeps its bit. -/
theorem getD_setAll_of_not_mem {ps : List Nat} {i : Nat} (hi : i ∉ ps) (d v : List Bit) :
    (setAll ps d v).getD i false = v.getD i false := by
  induction ps generalizing d v with
  | nil => rfl
  | cons p rest ih =>
    obtain ⟨hne, hrest⟩ := List.ne_and_not_mem_of_not_mem_cons hi
    cases d with
    | nil => rfl
    | cons b d => rw [setAll_cons, ih hrest, List.getD_eq_getElem?_getD, List.getElem?_set_ne hne.symm,
        ← List.getD_eq_getElem?_getD]

/-- The positions set give their bits back. -/
theorem map_getD_setAll {ps : List Nat} {d v : List Bit} (hps : ps.Nodup) (hd : d.length = ps.length)
    (hv : ∀ p ∈ ps, p < v.length) : (ps.map fun i => (setAll ps d v).getD i false) = d := by
  induction ps generalizing d v with
  | nil => exact (List.length_eq_zero_iff.mp hd).symm
  | cons p rest ih =>
    obtain ⟨hp, hrest⟩ := List.nodup_cons.mp hps
    obtain ⟨b, d, rfl⟩ := List.exists_cons_of_length_eq_add_one hd
    have hhead : (setAll rest d (v.set p b)).getD p false = b := by
      rw [getD_setAll_of_not_mem hp]
      simp [hv p List.mem_cons_self]
    have htail := ih (d := d) (v := v.set p b) hrest (Nat.succ.inj hd)
      fun q hq => by simpa using hv q (List.mem_cons_of_mem p hq)
    simp only [setAll_cons, List.map_cons, hhead, htail]

/-- The information positions of the encoder's vector hold the data. -/
theorem takeInfo_placeBits {n k : Nat} {d : List Bit} (hd : d.length = (infoPositions n k).length) :
    takeInfo n k (placeBits n k d) = d :=
  map_getD_setAll (List.nodup_range.filter _) hd fun _ hp => by simpa using (mem_infoPositions.mp hp).1

/-- The encoder's vector: the data bit of its rank at an information position, and 0 at a frozen one. -/
theorem getD_placeBits {n k i : Nat} {d : List Bit} (hd : d.length = (infoPositions n k).length) (hi : i < n) :
    (placeBits n k d).getD i false = (isInfo n k i && d.getD (infoRank n k i) false) := by
  cases hinfo : isInfo n k i with
  | true =>
    have hget := getElem?_takeInfo (placeBits n k d) hi hinfo
    rw [takeInfo_placeBits hd] at hget
    rw [Bool.true_and, List.getD_eq_getElem?_getD (l := d), hget, Option.getD_some]
  | false =>
    have hfrozen : i ∉ infoPositions n k := fun h => by simp [hinfo] at h
    rw [placeBits_eq_setAll, getD_setAll_of_not_mem hfrozen, Bool.false_and]
    simp [hi]

/-! ## Lengths and coders (R212) -/

theorem polarLength_two_pow {c : Config} {m : Nat} (hm : m ≤ c.polarMMax) : polarLength c (2 ^ m) = true := by
  have hand : 2 ^ m &&& (2 ^ m - 1) = 0 := by rw [Nat.and_two_pow_sub_one_eq_mod, Nat.mod_self]
  simp [polarLength, isPow2, hand, Nat.pow_le_pow_right Nat.two_pos hm]

/-- A constructed coder has a power of two as its length, and as many information positions as data bits. -/
theorem polar_coder {α κ : Type} {s : State α κ} (hpv : s.status.pv = true) (hinv : s.polarInv = true) :
    s.polarN.toNat = 2 ^ s.polarN.toNat.log2 ∧
      (infoPositions s.polarN.toNat s.polarK.toNat).length = s.polarK.toNat := by
  rw [State.polarInv, if_pos hpv, polarLength, Bool.and_eq_true, Bool.and_eq_true, decide_eq_true_eq,
    decide_eq_true_eq] at hinv
  obtain ⟨⟨hpow, -⟩, hk⟩ := hinv
  have hn := eq_two_pow_of_isPow2 _ hpow
  refine ⟨hn, ?_⟩
  rw [hn] at hk ⊢
  exact length_infoPositions _ _ hk

/-! ## The commands -/

/-- The closed form of R213 where the entries of the sequence are known. -/
theorem getD_polarTransform_of_entries {n m : Nat} {u : List Bit} {f : Nat → Bit} (hn : n = 2 ^ m) (hu : u.length = n)
    (hf : ∀ j, j < n → u.getD j false = f j) {i : Nat} (hi : i < n) :
    (polarTransform u).getD i false = xorAbove n f i := by
  subst hn
  rw [getD_polarTransform hu hi]
  exact congrArg xorAll (List.map_congr_left fun j hj => hf j (List.mem_range.mp (List.mem_filter.mp hj).1))

theorem State.getD_readBits {α κ : Type} (s : State α κ) {a n j : Nat} (hj : j < n) :
    (s.readBits a n).getD j false = s.readBit (a + j) := by
  rw [List.getD_eq_getElem _ _ (by simpa using hj), State.getElem_readBits]

/-- Settles O52: the length is accepted. -/
theorem polarCfgCompletes : Obligations.PolarCfgCompletes := by
  unfold Obligations.PolarCfgCompletes
  intro s n k m hn hm hk
  have hlen : polarLength s.cfg n.toNat = true := hn ▸ polarLength_two_pow hm
  exact ⟨_, if_neg (by simp [hlen, hk]), ⟨rfl, rfl, rfl⟩, untouched_setPolar rfl⟩

/-- Settles O53: the transform of the source bits is written, and its closed form is read. -/
theorem polarXformCompletes : Obligations.PolarXformCompletes := by
  unfold Obligations.PolarXformCompletes
  intro s src len dst m hlen hm hsrc hdst
  have hpow : polarLength s.cfg len.toNat = true := hlen ▸ polarLength_two_pow hm
  have hranges : (fits src.toNat len.toNat s.cfg.bmBits && fits dst.toNat len.toNat s.cfg.bmBits) = true :=
    Bool.and_eq_true_iff.mpr ⟨(fits_iff _ _ _).mpr (.inr hsrc), (fits_iff _ _ _).mpr (.inr hdst)⟩
  refine ⟨_, (s.check_passes hpow).trans (s.check_passes hranges), ⟨wordOf_word _, fun i hi => ?_⟩,
    untouched_bits_and_length rfl (by simp) rfl⟩
  exact (bitsAt_writeBits s _ _ _ i (by simpa using hi)).trans
    (getD_polarTransform_of_entries hlen (s.length_readBits _ _) (fun j hj => s.getD_readBits hj) hi)

/-- Settles O54: the vector of the encoder has the data bits at their ranks, and its transform is written. -/
theorem polarEncCompletes : Obligations.PolarEncCompletes := by
  unfold Obligations.PolarEncCompletes
  intro s src dst hpv hinv hsrc hdst
  obtain ⟨hn, hk⟩ := polar_coder hpv hinv
  have hdata := (s.length_readBits src.toNat s.polarK.toNat).trans hk.symm
  refine ⟨_, (s.check_passes hpv).trans ((if_neg (not_not.mpr rfl)).trans
    (s.check_passes (Bool.and_eq_true_iff.mpr ⟨hsrc, hdst⟩))), ⟨wordOf_word _, fun i hi => ?_⟩,
    untouched_bits_and_length rfl (by simp) rfl⟩
  refine (bitsAt_writeBits s _ _ _ i (by simpa using hi)).trans
    (getD_polarTransform_of_entries hn (length_placeBits _ _ _) (fun j hj => ?_) hi)
  rw [getD_placeBits hdata hj]
  cases hinfo : isInfo s.polarN.toNat s.polarK.toNat j with
  | true => rw [s.getD_readBits ((infoRank_lt hj hinfo).trans_eq hk)]
  | false => rfl

/-- What `POLAR_DEC` writes on ranges that fit: the information positions of the transformed hard decisions (R216). -/
theorem polarDec_completesOver {α κ : Type} (M : NumSystem α κ) (s : State α κ) (src dst listSize : Word)
    (hpv : s.status.pv = true) (hinv : s.polarInv = true) (hsrc : fits src.toNat s.polarN.toNat s.cfg.lmVals = true)
    (hdst : fits dst.toNat s.polarK.toNat s.cfg.bmBits = true) :
    CompletesOver M (.polarDec src s.polarN dst listSize) s fun t =>
      t.olen = s.polarK ∧ BitsAt t dst.toNat (takeInfo s.polarN.toNat s.polarK.toNat
        (polarTransform (hardThreshold M.toNumRec (s.valsAt M src.toNat s.polarN.toNat)))) := by
  have hrun : execPolarDecOver M src s.polarN dst listSize s = _ :=
    (if_neg (by simp [hpv])).trans ((if_neg (not_not.mpr rfl)).trans (if_neg (by simp [hsrc, hdst])))
  refine ⟨_, hrun, ⟨wordOf_word _, bitsAt_writeBits s _ _ _⟩, untouched_bits_and_length rfl ?_ rfl⟩
  rw [length_takeInfo, (polar_coder hpv hinv).2]

/-- The hard decision on an LLR of the machine that the host sees is its comparison with +0 (R216). -/
theorem getD_hardThreshold_valsAt (s : State) {a n j : Nat} (hj : j < n) :
    (hardThreshold s.cfg.system.toNumRec (s.valsAt s.cfg.system a n)).getD j false =
      Num64.lt (s.readVal (a + j)) Num64.zero := by
  rw [List.getD_eq_getElem _ _ (by simpa using hj), getElem_hardThreshold, State.getElem_valsAt, system_negative,
    readVal_eq]

/-- Settles O55: an information position stands at its rank in what is written. -/
theorem polarDecCompletes : Obligations.PolarDecCompletes := by
  unfold Obligations.PolarDecCompletes
  intro s src dst listSize hpv hinv hsrc hdst
  refine (completes_iff _ _ _).mpr ((polarDec_completesOver s.cfg.system s src dst listSize hpv hinv hsrc hdst).imp ?_)
  rintro t ⟨holen, hbits⟩
  refine ⟨holen, fun i hi hinfo => ?_⟩
  rw [hbits _ (by simpa using infoRank_lt hi hinfo), List.getD_eq_getElem?_getD, getElem?_takeInfo _ hi hinfo,
    Option.getD_some]
  exact getD_polarTransform_of_entries (polar_coder hpv hinv).1 (by simp) (fun j hj => getD_hardThreshold_valsAt s hj) hi

/-- Settles O56: the hard decisions are the codeword, and the transform undoes itself. -/
theorem noiseFreePolarLinkReturnsTheData : Obligations.NoiseFreePolarLinkReturnsTheData := by
  unfold Obligations.NoiseFreePolarLinkReturnsTheData
  intro s src dst listSize d hpv hinv hsrc hdst hd hsigns
  obtain ⟨-, hk⟩ := polar_coder hpv hinv
  obtain ⟨t, hexec, ⟨holen, hbits⟩, -⟩ := polarDec_completesOver s.cfg.system s src dst listSize hpv hinv hsrc hdst
  have hword : hardThreshold s.cfg.system.toNumRec (s.valsAt s.cfg.system src.toNat s.polarN.toNat) =
      polarTransform (placeBits s.polarN.toNat s.polarK.toNat d) := by
    refine List.ext_getElem (by simp) fun j hj hj' => ?_
    rw [← List.getD_eq_getElem _ false hj, ← List.getD_eq_getElem _ false hj']
    have hjn : j < s.polarN.toNat := by simpa using hj
    rw [getD_hardThreshold_valsAt s hjn, hsigns j hjn]
  rw [hword, polarTransform_polarTransform, takeInfo_placeBits (hd.trans hk.symm)] at hbits
  exact ⟨t, (exec_eq_execOver _ _).trans hexec, hbits, holen⟩

end Sys2Proof.Machine
end

section
/-! SUPPORT. The commands of the system unit (spec/46_system_ops.md R230, R231): what `SETS` loads, over every system. -/

namespace Sys2Proof.Machine

variable {α κ : Type}

/-- The pattern as R231 writes it. -/
theorem joinWords_eq_shiftLeft_or (hi lo : Word) : joinWords hi lo = (hi.setWidth 64 <<< 32) ||| lo.setWidth 64 := by
  rw [joinWords_eq_append, BitVec.append_def, BitVec.shiftLeftZeroExtend_eq, BitVec.setWidth'_eq]

theorem exec_nop (s : State) : exec .nop s = .next s := rfl

/-- The value of the pattern is loaded, and no other place is written (R231). -/
theorem sets_completesOver (M : NumSystem α κ) (s : State α κ) (sd : ScalarIdx) (aux0 aux1 : Word) :
    CompletesOver M (.sets sd aux0 aux1) s fun t => t.scalar sd = M.ofPattern (joinWords aux1 aux0) :=
  ⟨_, rfl, s.scalar_setScalar_same _ _, untouched_setScalar (List.mem_singleton_self sd)⟩

/-- A pattern is its own value on the machine that the host sees, NaNs and infinities included (R231). -/
theorem bits_system_ofPattern (c : Config) (v : BitVec 64) : (c.system.ofPattern v).bits = v := rfl

/-- Settles O16: `SETS` loads the value of a pattern, whose bits are that pattern. -/
theorem systemCommandsComplete : Obligations.SystemCommandsComplete := by
  unfold Obligations.SystemCommandsComplete
  refine ⟨exec_nop, fun s sd aux0 aux1 => ?_⟩
  refine (completes_iff _ _ _).mpr ((sets_completesOver s.cfg.system s sd aux0 aux1).imp fun t hloaded => ?_)
  rw [hloaded, bits_system_ofPattern, joinWords_eq_shiftLeft_or]

end Sys2Proof.Machine
end

section
/-! SUPPORT. The bit error rate (spec/47_metrics_infotheory.md R241): the differing indices of two sequences, counted. -/

namespace Sys2Proof.Machine

variable {α : Type} [DecidableEq α] {a b : List α}

/-! ## The differing pairs -/

/-- The number of the paired elements that differ. -/
def differences (a b : List α) : Nat := (a.zip b).countP fun x => decide (x.1 ≠ x.2)

theorem differences_comm (a b : List α) : differences a b = differences b a := by
  rw [differences, ← List.zip_swap, List.countP_map]
  exact List.countP_congr fun _ _ => by simpa using ne_comm

theorem differences_le_length (a b : List α) : differences a b ≤ a.length :=
  List.countP_le_length.trans (List.length_zip ▸ min_le_left _ _)

/-- The count as R241 writes it, over the indices. -/
theorem differences_eq_countP_range (h : a.length = b.length) :
    differences a b = (List.range a.length).countP fun j => decide (a[j]? ≠ b[j]?) := by
  induction a generalizing b with
  | nil => rfl
  | cons x xs ih =>
    obtain ⟨y, ys, rfl⟩ := List.exists_cons_of_length_eq_add_one h.symm
    have htail := ih (Nat.succ.inj h)
    rw [differences] at htail ⊢
    rw [List.zip_cons_cons, List.countP_cons, htail, List.length_cons, List.range_succ_eq_map, List.countP_cons,
      List.countP_map]
    simp [Function.comp_def]

theorem differences_self (a : List α) : differences a a = 0 := by
  rw [differences_eq_countP_range rfl]
  exact List.countP_eq_zero.mpr fun _ _ => by simp

/-! ## The three answers of the fraction -/

theorem errorFraction_of_length_ne (h : a.length ≠ b.length) : errorFraction a b = .error .lengthMismatch := if_pos h

theorem errorFraction_nil : errorFraction ([] : List α) [] = .error .unstated := rfl

theorem errorFraction_of_length_eq (h : a.length = b.length) (ha : a ≠ []) :
    errorFraction a b = .ok ((differences a b : Rat) / a.length) := by
  rw [errorFraction, if_neg (not_not.mpr h), if_neg ha, differences]

theorem errorFraction_comm (a b : List α) : errorFraction a b = errorFraction b a := by
  by_cases h : a.length = b.length
  · cases a with
    | nil => rw [List.length_eq_zero_iff.mp h.symm]
    | cons x xs =>
      have hb : b ≠ [] := List.ne_nil_of_length_eq_add_one h.symm
      rw [errorFraction_of_length_eq h (List.cons_ne_nil x xs), errorFraction_of_length_eq h.symm hb, differences_comm, h]
  · rw [errorFraction_of_length_ne h, errorFraction_of_length_ne (Ne.symm h)]

theorem errorFraction_self (ha : a ≠ []) : errorFraction a a = .ok 0 := by
  rw [errorFraction_of_length_eq rfl ha, differences_self, Nat.cast_zero, zero_div]

/-- Settles O59: the rate is the number of the differing indices over the length. -/
theorem berIsTheDifferingFraction : Obligations.BerIsTheDifferingFraction := by
  unfold Obligations.BerIsTheDifferingFraction
  refine fun a b => ⟨errorFraction_of_length_ne, fun h ha => ?_, errorFraction_comm a b, errorFraction_self,
    errorFraction_nil⟩
  have hlen : (0 : Rat) < a.length := Nat.cast_pos.mpr (List.length_pos_iff.mpr ha)
  have hle : (differences a b : Rat) ≤ a.length := Nat.cast_le.mpr (differences_le_length a b)
  refine ⟨_, errorFraction_of_length_eq h ha, by positivity, (div_le_one hlen).mpr hle, ?_⟩
  rw [div_mul_cancel₀ _ hlen.ne', differences_eq_countP_range h]

end Sys2Proof.Machine
end

section
/-! SUPPORT. Entropy and mutual information (spec/47_metrics_infotheory.md R250 to R253): a sum weighted by the frequencies is a
mean over the stream, and the mean of `log2(p/q)` is not negative. -/

namespace Sys2Proof.Machine

variable {α β : Type}

/-! ## Means over a stream -/

theorem mean_map_sub (a : List α) (f g : α → ℝ) :
    mean (a.map fun x => f x - g x) = mean (a.map f) - mean (a.map g) := by
  have hsum : (a.map fun x => f x - g x).sum = (a.map f).sum - (a.map g).sum := by
    simpa using Multiset.sum_map_sub (m := (a : Multiset α)) (f := f) (g := g)
  simp only [mean, List.length_map, hsum, sub_div]

theorem mean_map_const {a : List α} (ha : a ≠ []) (c : ℝ) : mean (a.map fun _ => c) = c := by
  have hlen : (a.length : ℝ) ≠ 0 := Nat.cast_ne_zero.mpr (List.length_eq_zero_iff.not.mpr ha)
  simp [mean, mul_div_cancel_left₀ c hlen]

/-- The mean of a function of the first stream over the pairs. -/
theorem mean_map_zip_fst {a : List α} {b : List β} (h : a.length = b.length) (f : α → ℝ) :
    mean ((a.zip b).map fun x => f x.1) = mean (a.map f) := by
  conv_rhs => rw [← List.map_fst_zip h.le, List.map_map]
  rfl

/-- The mean of a function of the second stream over the pairs. -/
theorem mean_map_zip_snd {a : List α} {b : List β} (h : a.length = b.length) (f : β → ℝ) :
    mean ((a.zip b).map fun x => f x.2) = mean (b.map f) := by
  conv_rhs => rw [← List.map_snd_zip h.ge, List.map_map]
  rfl

/-! ## Streams and pairs of streams that have a value -/

theorem overStream_of_ne_nil {a : List α} (ha : a ≠ []) (v : β) : overStream a v = .ok v := by
  cases a with
  | nil => exact absurd rfl ha
  | cons => rfl

theorem overPairs_of_length_ne {γ : Type} {a : List α} {b : List β} (h : a.length ≠ b.length) (v : γ) :
    overPairs a b v = .error .lengthMismatch := if_pos h

theorem overPairs_of_length_eq {γ : Type} {a : List α} {b : List β} (h : a.length = b.length) (ha : a ≠ []) (v : γ) :
    overPairs a b v = .ok v := by
  rw [overPairs, if_neg (not_not.mpr h), overStream_of_ne_nil ha]

/-! ## Frequencies (R250) -/

variable [DecidableEq α] [DecidableEq β]

theorem frequency_pos {a : List α} {x : α} (hx : x ∈ a) : 0 < frequency a x :=
  div_pos (Nat.cast_pos.mpr (List.count_pos_iff.mpr hx)) (Nat.cast_pos.mpr (List.length_pos_of_mem hx))

theorem frequency_nonneg (a : List α) (x : α) : 0 ≤ frequency a x := div_nonneg (Nat.cast_nonneg _) (Nat.cast_nonneg _)

theorem frequency_le_one (a : List α) (x : α) : frequency a x ≤ 1 :=
  div_le_one_of_le₀ (Nat.cast_le.mpr List.count_le_length) (Nat.cast_nonneg _)

/-- A sum over the symbols that occur, weighted by their frequencies, is the mean over the stream. -/
theorem sum_frequency_mul (a : List α) (f : α → ℝ) : ∑ x ∈ a.toFinset, frequency a x * f x = mean (a.map f) := by
  rw [mean, List.length_map, Finset.sum_list_map_count, Finset.sum_div]
  exact Finset.sum_congr rfl fun x _ => by rw [frequency, nsmul_eq_mul, div_mul_eq_mul_div]

theorem sum_frequency {a : List α} (ha : a ≠ []) : ∑ x ∈ a.toFinset, frequency a x = 1 := by
  have h := sum_frequency_mul a fun _ => 1
  rwa [mean_map_const ha, Finset.sum_congr rfl fun x _ => mul_one (frequency a x)] at h

/-- Gibbs' inequality: the mean of `log2(p/q)` is not negative, where `p` are the frequencies and `q` any positive weights whose
sum is at most one. It is `1 − 1/t ≤ ln t` at `t = p/q`, summed. -/
theorem mean_logb_frequency_div_nonneg {a : List α} (ha : a ≠ []) {q : α → ℝ} (hq : ∀ x ∈ a, 0 < q x)
    (hsum : ∑ x ∈ a.toFinset, q x ≤ 1) : 0 ≤ mean (a.map fun x => Real.logb 2 (frequency a x / q x)) := by
  have hlog2 : 0 < Real.log 2 := Real.log_pos one_lt_two
  have hterm : ∀ x ∈ a.toFinset,
      (frequency a x - q x) / Real.log 2 ≤ frequency a x * Real.logb 2 (frequency a x / q x) := by
    intro x hx
    have hp := frequency_pos (List.mem_toFinset.mp hx)
    have hln := Real.one_sub_inv_le_log_of_pos (div_pos hp (hq x (List.mem_toFinset.mp hx)))
    calc (frequency a x - q x) / Real.log 2
        = frequency a x * (1 - (frequency a x / q x)⁻¹) / Real.log 2 := by
          rw [inv_div, mul_sub, mul_one, mul_div_cancel₀ _ hp.ne']
      _ ≤ frequency a x * Real.log (frequency a x / q x) / Real.log 2 := by gcongr
      _ = frequency a x * Real.logb 2 (frequency a x / q x) := mul_div_assoc _ _ _
  calc (0 : ℝ) ≤ (1 - ∑ x ∈ a.toFinset, q x) / Real.log 2 := div_nonneg (sub_nonneg.mpr hsum) hlog2.le
    _ = ∑ x ∈ a.toFinset, (frequency a x - q x) / Real.log 2 := by
      rw [← Finset.sum_div, Finset.sum_sub_distrib, sum_frequency ha]
    _ ≤ ∑ x ∈ a.toFinset, frequency a x * Real.logb 2 (frequency a x / q x) := Finset.sum_le_sum hterm
    _ = mean (a.map fun x => Real.logb 2 (frequency a x / q x)) := sum_frequency_mul a _

/-! ## Entropy (R251) -/

theorem entropyBits_eq_neg_mean (a : List α) : entropyBits a = -mean (a.map fun x => Real.logb 2 (frequency a x)) :=
  congrArg Neg.neg (sum_frequency_mul a _)

theorem entropyBits_nonneg (a : List α) : 0 ≤ entropyBits a :=
  neg_nonneg.mpr (Finset.sum_nonpos (s := a.toFinset) fun x _ =>
    mul_nonpos_of_nonneg_of_nonpos (frequency_nonneg a x)
      (Real.logb_nonpos one_lt_two (frequency_nonneg a x) (frequency_le_one a x)))

/-- Gibbs' inequality against the uniform weights `1/n`. -/
theorem entropyBits_le_logb {a : List α} (ha : a ≠ []) {n : Nat} (hn : a.dedup.length ≤ n) :
    entropyBits a ≤ Real.logb 2 n := by
  have hcard : (a.toFinset.card : ℝ) ≤ n := Nat.cast_le.mpr (a.card_toFinset ▸ hn)
  have hpos : (0 : ℝ) < n :=
    (Nat.cast_pos.mpr (Finset.card_pos.mpr (List.toFinset_nonempty_iff a |>.mpr ha))).trans_le hcard
  have hsum : ∑ _x ∈ a.toFinset, (n : ℝ)⁻¹ ≤ 1 := by
    rw [Finset.sum_const, nsmul_eq_mul, ← div_eq_mul_inv]
    exact (div_le_one hpos).mpr hcard
  have hgibbs := mean_logb_frequency_div_nonneg ha (fun _ _ => inv_pos.mpr hpos) hsum
  have hsplit : ∀ x ∈ a, Real.logb 2 (frequency a x / (n : ℝ)⁻¹) = Real.logb 2 (frequency a x) - -Real.logb 2 n :=
    fun x hx => by rw [Real.logb_div (frequency_pos hx).ne' (inv_pos.mpr hpos).ne', Real.logb_inv]
  rw [List.map_congr_left hsplit, mean_map_sub, mean_map_const ha, sub_neg_eq_add] at hgibbs
  rw [entropyBits_eq_neg_mean]
  exact neg_le_iff_add_nonneg'.mpr hgibbs

/-! ## Mutual information (R253) -/

/-- The double sum of R253 as a mean over the pairs. -/
theorem sum_mutualInfo_eq_mean (a : List α) (b : List β) :
    ((a.zip b).dedup.map fun x =>
      frequency (a.zip b) x * Real.logb 2 (frequency (a.zip b) x / (frequency a x.1 * frequency b x.2))).sum =
    mean ((a.zip b).map fun x => Real.logb 2 (frequency (a.zip b) x / (frequency a x.1 * frequency b x.2))) :=
  sum_frequency_mul (a.zip b) _

theorem frequencies_pos {a : List α} {b : List β} {x : α × β} (hx : x ∈ a.zip b) :
    0 < frequency a x.1 * frequency b x.2 :=
  mul_pos (frequency_pos (List.of_mem_zip hx).1) (frequency_pos (List.of_mem_zip hx).2)

/-- The products of the marginals, over the pairs that occur: a part of the sum over all pairs, which is one. -/
theorem sum_frequencies_le_one {a : List α} {b : List β} (ha : a ≠ []) (hb : b ≠ []) :
    ∑ x ∈ (a.zip b).toFinset, frequency a x.1 * frequency b x.2 ≤ 1 := by
  have hsub : (a.zip b).toFinset ⊆ a.toFinset ×ˢ b.toFinset := fun x hx => by
    simpa using List.of_mem_zip (List.mem_toFinset.mp hx)
  calc ∑ x ∈ (a.zip b).toFinset, frequency a x.1 * frequency b x.2
      ≤ ∑ x ∈ a.toFinset ×ˢ b.toFinset, frequency a x.1 * frequency b x.2 :=
        Finset.sum_le_sum_of_subset_of_nonneg hsub fun x _ _ => mul_nonneg (frequency_nonneg a _) (frequency_nonneg b _)
    _ = 1 := by
      rw [Finset.sum_product, ← Finset.sum_mul_sum, sum_frequency ha, sum_frequency hb, mul_one]

/-- The two estimators: the logarithm of the quotient splits, and the marginals' parts are means over their own streams. -/
theorem mean_logb_quotient_eq_entropies {a : List α} {b : List β} (h : a.length = b.length) :
    mean ((a.zip b).map fun x => Real.logb 2 (frequency (a.zip b) x / (frequency a x.1 * frequency b x.2))) =
      entropyBits a + entropyBits b - entropyBits (a.zip b) := by
  have hsplit : ∀ x ∈ a.zip b, Real.logb 2 (frequency (a.zip b) x / (frequency a x.1 * frequency b x.2)) =
      Real.logb 2 (frequency (a.zip b) x) - Real.logb 2 (frequency a x.1) - Real.logb 2 (frequency b x.2) := by
    intro x hx
    obtain ⟨hxa, hxb⟩ := List.of_mem_zip hx
    rw [Real.logb_div (frequency_pos hx).ne' (frequencies_pos hx).ne',
      Real.logb_mul (frequency_pos hxa).ne' (frequency_pos hxb).ne', sub_add_eq_sub_sub]
  rw [List.map_congr_left hsplit, mean_map_sub, mean_map_sub, mean_map_zip_fst h fun x => Real.logb 2 (frequency a x),
    mean_map_zip_snd h fun y => Real.logb 2 (frequency b y), entropyBits_eq_neg_mean a, entropyBits_eq_neg_mean b,
    entropyBits_eq_neg_mean (a.zip b)]
  ring

theorem mutualInfoDirect_eq_subtractive {a : List α} {b : List β} (h : a.length = b.length) :
    mutualInfoDirect a b = mutualInfoSubtractive a b := by
  rw [mutualInfoDirect, sum_mutualInfo_eq_mean, mean_logb_quotient_eq_entropies h, mutualInfoSubtractive]

/-- Gibbs' inequality for the pairs against the products of the marginals. -/
theorem entropyBits_zip_le {a : List α} {b : List β} (h : a.length = b.length) (ha : a ≠ []) :
    entropyBits (a.zip b) ≤ entropyBits a + entropyBits b := by
  have hb : b ≠ [] := fun hb => ha (List.length_eq_zero_iff.mp (h.trans (List.length_eq_zero_iff.mpr hb)))
  have hzip : a.zip b ≠ [] := fun hnil => (List.zip_eq_nil_iff.mp hnil).elim ha hb
  have hgibbs := mean_logb_frequency_div_nonneg hzip (fun _ => frequencies_pos) (sum_frequencies_le_one ha hb)
  exact sub_nonneg.mp (mean_logb_quotient_eq_entropies h ▸ hgibbs)

/-- Settles O60: both bounds are Gibbs' inequality, against uniform weights and against the product of the marginals. -/
theorem informationMeasuresAreBoundedAndAgree : Obligations.InformationMeasuresAreBoundedAndAgree := by
  unfold Obligations.InformationMeasuresAreBoundedAndAgree
  intro α β _ _ a b
  refine ⟨fun ha => ?_, fun h ha => ?_, fun h => ⟨overPairs_of_length_ne h _, overPairs_of_length_ne h _⟩, rfl⟩
  · exact ⟨_, overStream_of_ne_nil ha _, entropyBits_nonneg a, fun n hn => entropyBits_le_logb ha hn⟩
  · have hvalue : mutualInfoSubtractive a b = .ok (entropyBits a + entropyBits b - entropyBits (a.zip b)) :=
      overPairs_of_length_eq h ha _
    exact ⟨_, hvalue, (mutualInfoDirect_eq_subtractive h).trans hvalue, sub_nonneg.mpr (entropyBits_zip_le h ha)⟩

end Sys2Proof.Machine
end

section
/-! SUPPORT. The frame of a fault (spec/60_exceptions.md R282, R283): a check that fails latches its code and ends the command
before any write, and no write of a command sets `FAULT`. Neither needs an invariant of the state. -/

namespace Sys2Proof.Machine

variable {α κ : Type} {s : State α κ}

variable (s) in
/-- How a command may leave `FAULT`: latched, with nothing else changed, or as it was. -/
def LatchedOrKept (t : State α κ) : Prop := (∃ c : ErrCode, t = s.latchFault c) ∨ t.status.fault = s.status.fault

theorem kept_next {t : State α κ} (h : t.status.fault = s.status.fault) : Answers (LatchedOrKept s) (.next t) :=
  answers_next (.inr h)

/-- A check in front of such an answer: where it fails, its code is latched and nothing has been written yet. -/
theorem latched_check {r : ResultOf α κ} {c : Prop} [Decidable c] {e : ErrCode}
    (hpass : ¬c → Answers (LatchedOrKept s) r) : Answers (LatchedOrKept s) (if c then s.raise e else r) :=
  answers_check (.inl ⟨e, rfl⟩) hpass

/-- Every command latches a fault and writes nothing else, or leaves `FAULT` alone: by the number of its checks. -/
theorem latchedOrKept_execOver (M : NumSystem α κ) (i : Instr) (s : State α κ) :
    Answers (LatchedOrKept s) (execOver M i s) := by
  cases i with
  | nop | sets | getBps | berBpsk => exact kept_next rfl
  | crcAppend | crcVerify | awgnAdd | nvarEbn0 | snr2ebn0 | ebn02snr | ldpcCfg | polarCfg =>
    exact latched_check fun _ => kept_next rfl
  | crc16 | modulate | getConst | demodHard | ldpcEnc | ldpcDec | polarXform =>
    exact latched_check fun _ => latched_check fun _ => kept_next rfl
  | demodSoft | polarEnc | polarDec =>
    exact latched_check fun _ => latched_check fun _ => latched_check fun _ => kept_next rfl
  | measSnr =>
    exact latched_check fun _ => latched_check fun _ => latched_check fun _ => latched_check fun _ =>
      latched_check fun _ => kept_next rfl

/-- Settles O9: a command that began with `FAULT` clear and ends with it set has latched it, and nothing else. -/
theorem aFaultWritesNothingElse : Obligations.AFaultWritesNothingElse := by
  unfold Obligations.AFaultWritesNothingElse
  intro i s t hclear hexec hfault
  obtain ⟨u, hu, hlatched⟩ := latchedOrKept_execOver s.cfg.system i s
  rw [exec_eq_execOver, hu] at hexec
  cases hexec
  rcases hlatched with ⟨c, rfl⟩ | hkept
  · exact ⟨rfl, c.code_range⟩
  · exact absurd (hfault.symm.trans (hkept.trans hclear)) (by decide)

end Sys2Proof.Machine
end

section
/-! SUPPORT. The two resets (spec/70_reset_and_hazards.md R310 to R312): the values that the reset state holds, and the step
that each reset is. -/

namespace Sys2Proof.Machine

/-! ## The values -/

theorem Status.toWord_reset : Status.reset.toWord = 0#32 := by decide

/-- No element of an empty memory counts as written. -/
theorem Memory.read?_nil {α : Type} (a : Nat) : Memory.read? ([] : Memory α) a = none := rfl

theorem State.reset_cmdw_getD (i : Nat) : State.reset.cmdw.toList.getD i 0#32 = 0#32 := by
  have hzeros : State.reset.cmdw.toList = List.replicate 8 0#32 := Vector.toList_replicate
  rw [hzeros, List.getD_eq_getElem?_getD, List.getElem?_getD_replicate_default_eq]

/-- Settles O6: each register holds its stated value by definition, and each memory is empty. -/
theorem resetHoldsTheStatedValues : Obligations.ResetHoldsTheStatedValues := by
  unfold Obligations.ResetHoldsTheStatedValues
  exact ⟨Status.toWord_reset, rfl, rfl, rfl, rfl, rfl, rfl, rfl, rfl, State.reset_cmdw_getD,
    Memory.read?_nil, Memory.read?_nil, Memory.read?_nil⟩

/-! ## The steps -/

/-- A write of any value to `SOFT_RESET` is the reset, in the faulted state too (R286, R310). -/
theorem step_softReset {s : State} {data : BitVec 64} {rest : List Input}
    (h : s.inputs = .hostWrite .w32 (s.cfg.regBase + 0x0C0) data :: rest) :
    step s = .next (s.setInputs rest).afterReset :=
  calc step s = (s.setInputs rest).take (.hostWrite .w32 (s.cfg.regBase + 0x0C0) data) := step_takes s _ _ h
    _ = (s.setInputs rest).writeReg .w32 0x0C0 data :=
        (s.setInputs rest).take_register_write 0x0C0 data (by decide) (by decide)
    _ = .next (s.setInputs rest).afterReset := State.writeReg_softReset _ _ _

theorem step_hardReset {s : State} {rest : List Input} (h : s.inputs = .hardReset :: rest) :
    step s = .next (s.setInputs rest).afterReset :=
  step_takes s _ _ h

/-- Settles O7: both steps are the reset of the same state, which takes its registers and memories from `State.reset`. -/
theorem resetsAgree : Obligations.ResetsAgree := by
  unfold Obligations.ResetsAgree
  rintro s s' data rest hsoft rfl
  exact ⟨(s.setInputs rest).afterReset, step_softReset hsoft, step_hardReset rfl, Status.toWord_reset, rfl, rfl, rfl, rfl,
    rfl, rfl, rfl, rfl, rfl, Memory.read?_nil, Memory.read?_nil, Memory.read?_nil, rfl, rfl, rfl, rfl⟩

end Sys2Proof.Machine
end
